-- ==== Sys2Proof/Word.lean ====
section
/-! DEFINITION. The words of the Lecrin 1824: link bytes, pin masks, table pages. -/

namespace Sys2Proof

/-- A byte on the link or of a table page (00_scope.md, Conventions). -/
abbrev Byte := BitVec 8

/-- A set of the pins 1 to 18: pin n is bit n − 1 (11_record_formats.md, "Pin mask"). -/
abbrev PinMask := BitVec 18

/-- The bytes of one table page (R40). -/
abbrev Page := List Byte

end Sys2Proof
end

