-- ==== Sys2Proof/Syntax.lean ====
section
/-! DEFINITION. The commands of the Lecrin 1824: one constructor per row of spec/opcode_table.json. -/

namespace Sys2Proof

/-- The header fields of a line, as received in its first part (R19; 11_record_formats.md, LINE offsets 1 to 8). -/
structure LineHeader where
  offset     : BitVec 16
  step       : Byte
  classReq   : Byte
  dirReq     : Byte
  twoPass    : Byte
  feedAfter  : BitVec 16
  deriving DecidableEq, Repr

/-- The fields of a SET, as received; `none` where the presence set does not name the field
(11_record_formats.md, SET bits 0 to 10). -/
structure SetFields where
  tRec          : Option (BitVec 16)
  qualityFloor  : Option Byte
  substSlot     : Option (BitVec 16)
  formsClass    : Option Byte
  bidirectional : Option Byte
  alignment     : Option Byte
  flightTime    : Option (BitVec 16)
  hWarm         : Option (BitVec 24)
  hHot          : Option (BitVec 24)
  hLimit        : Option (BitVec 24)
  tearDelay     : Option Byte
  deriving DecidableEq, Repr

/-- The commands the block takes, one per row of spec/opcode_table.json. A record command (QUERY to GEOMETRY) is the
record's whole frame, sent in its right lane (log 7). -/
inductive Instr where
  /-- Power-up with the straps and the sensor levels given (R170). -/
  | powerOnReset (straps : BitVec 2) (homeActive formsPresent leverOpen : Bool)
  /-- A byte on the receive line, and whether its stop bit was good (R1). -/
  | receiveByte (byte : Byte) (stopGood : Bool)
  /-- Expiry of the 20 ms inter-byte timer (R6). -/
  | interByteTimeout
  | query
  | read (table : Byte) (page : BitVec 16) (source : Byte)
  | stage (table : Byte) (page offset : BitVec 16) (clearFirst : Bool) (data : List Byte)
  | halt
  | go
  | drop
  | reset
  /-- The causes to clear and, in the 4-byte form, the new mask (R167). -/
  | ack (causes : BitVec 16) (mask : Option (BitVec 16))
  | lineFirstPart (header : LineHeader) (more : Bool) (runs : List Byte)
  | lineContinuation (more : Bool) (runs : List Byte)
  | advance (mode : Byte) (count : BitVec 16)
  | commit (table : Byte) (page : BitVec 16)
  | set (fields : SetFields)
  | form (length skip : BitVec 16)
  | geometry (stagger : Byte) (tearGap sensorDist : BitVec 16) (ratio : Byte)
  /-- The check byte of the reply being sent has gone out (R15). -/
  | replySent
  /-- The build in progress ends (R78). -/
  | buildEnd
  /-- Run Control looks for a front entry to take up (R159). -/
  | takeUpFrontEntry
  /-- Run Control runs through the checks of a pass start that is due (R160). -/
  | passStart
  /-- A step of the positioning move arrives; the home sensor's level there (R102). -/
  | positioningArrival (homeActive : Bool)
  | passRunArrival (homeActive : Bool)
  | stoppingArrival (homeActive : Bool)
  | homingArrival (homeActive : Bool)
  /-- The pulses of the running fire numbered `fire` (0 the oldest) end; the driver fault inputs (R120, log 13). -/
  | pulseEnd (fire : Nat) (faults : PinMask)
  /-- The 8 ms cooling tick (R131). -/
  | coolingTick
  /-- The feed step in progress arrives (R142). -/
  | feedStepArrival
  | tearTimerExpiry
  | presenceTimerExpiry
  | formsSensorNoForms
  | formsSensorFormsPresent
  | leverOpen
  | leverClose
  | settleTimeExpiry
  deriving DecidableEq, Repr

end Sys2Proof
end

