-- ==== Sys2Proof/Config.lean ====
section
/-! DEFINITION. What an implementation fixes and the manual does not state: the shapes of the resident glyphs. -/

namespace Sys2Proof

/-- Free value (log 8, UNVERIFIED): where R43 gives a resident glyph a width "from 1 to 12", the width is
1 + (this value mod 12). Nothing constrains it. -/
opaque Config.residentWidth : Nat → Nat

/-- Free value (log 8, UNVERIFIED): pattern column `i` of resident glyph slot `n` (R43 gives only the groups the
resident glyphs belong to). -/
opaque Config.residentColumn : Nat → Nat → PinMask

end Sys2Proof
end

