-- ==== Sys2Proof/Machine/Types.lean ====
section
/-! DEFINITION. The types of the parts of State: plain data, block by block (00_scope.md, "The Blocks of the Part"). -/

namespace Sys2Proof.Machine

/-! ## Intake -/

/-- The three receiver states (R1). -/
inductive FrameState where | hunt | header | body
  deriving DecidableEq, Repr

/-- A lane Q record as its payload fields give it (R171). Its frame waits in the lane Q order as this record. -/
inductive QRecord where
  | lineFirst (header : LineHeader) (more : Bool) (runs : List Byte)
  | lineCont (more : Bool) (runs : List Byte)
  | advance (mode : Byte) (count : BitVec 16)
  | commit (table : Byte) (page : BitVec 16)
  | set (fields : SetFields)
  | form (length skip : BitVec 16)
  | geometry (stagger : Byte) (tearGap sensorDist : BitVec 16) (ratio : Byte)
  deriving DecidableEq, Repr

/-- A lane N record as its payload fields give it (R171). -/
inductive NRecord where
  | query | halt | go | drop | reset
  | ack (causes : BitVec 16) (mask : Option (BitVec 16))
  | stage (table : Byte) (page offset : BitVec 16) (clearFirst : Bool) (data : List Byte)
  | read (table : Byte) (page : BitVec 16) (source : Byte)
  deriving DecidableEq, Repr

/-- The Intake's state (R18). The transmitter sends the head of `replies` whenever there is one (R15). -/
structure Intake where
  bitRate     : Nat
  frameState  : FrameState
  /-- The bytes stored for the frame under reception, its sync byte first (R8). -/
  frame       : List Byte
  /-- The inter-byte timer runs (R6). -/
  timer       : Bool
  /-- The lane Q order, oldest first (R12). -/
  laneQ       : List QRecord
  /-- The reply queue, oldest first: whole reply frames (R15). -/
  replies     : List (List Byte)
  frameFaults : Nat
  unanswered  : Nat
  deriving DecidableEq, Repr

/-! ## Table Store -/

/-- The four tables (R40). -/
inductive TableId where | codeMap | glyphs | strike | profile
  deriving DecidableEq, Repr

/-- The live pages the host can load (R40). Resident glyph slots hold fixed content and are no state (R43). -/
structure Tables where
  codeMap  : List Page
  /-- Glyph slots 384 to 447. -/
  loadable : List Page
  strike   : Page
  profiles : List Page
  deriving DecidableEq, Repr

/-- What a BOUND or HELD stage keeps (R50). -/
structure Binding where
  table  : TableId
  page   : Nat
  cursor : Nat
  bytes  : Page
  deriving DecidableEq, Repr

/-- The stage buffer (R50). -/
inductive Stage where
  | empty
  | bound (b : Binding)
  | held (b : Binding)
  deriving DecidableEq, Repr

/-! ## Column buffers and the Line Queue -/

/-- The two column buffers (R62). -/
inductive BufId where | one | two
  deriving DecidableEq, Repr

/-- The inputs a build reads at its start and uses to its end (R63). -/
structure BuildInputs where
  header     : LineHeader
  /-- The line's parts, oldest first: their run bytes (R64). -/
  parts      : List (List Byte)
  tRec       : Nat
  floor      : Nat
  subst      : Nat
  codeMap    : List Page
  loadable   : List Page
  /-- The live cruise intervals T_0 to T_3. -/
  cruises    : List Nat
  deriving DecidableEq, Repr

/-- A finished column image and its figures (R77). -/
structure Image where
  cols   : List PinMask
  step   : Nat
  offset : Nat
  /-- The dark extent, or none (R73). -/
  extent : Option (Nat × Nat)
  cls    : Nat
  tRec   : Nat
  deriving DecidableEq, Repr

/-- A column buffer (R62). -/
inductive Buffer where
  | free
  | filling (inputs : BuildInputs)
  | ready (image : Image)
  | inUse (image : Image)
  deriving DecidableEq, Repr

structure Buffers where
  one : Buffer
  two : Buffer
  deriving DecidableEq, Repr

/-- The five states of a line entry, with the column buffer it holds (R26). -/
inductive LineState where
  | opened
  | complete
  | building (b : BufId)
  | built (b : BufId)
  | active (b : BufId)
  deriving DecidableEq, Repr

/-- The build part of a settings marker (R25). -/
structure BuildPart where
  tRec         : Option (BitVec 16)
  qualityFloor : Option Byte
  substSlot    : Option (BitVec 16)
  deriving DecidableEq, Repr

/-- The pass part of a settings marker (R25). -/
structure PassPart where
  formsClass    : Option Byte
  bidirectional : Option Byte
  alignment     : Option Byte
  flightTime    : Option (BitVec 16)
  hWarm         : Option (BitVec 24)
  hHot          : Option (BitVec 24)
  hLimit        : Option (BitVec 24)
  tearDelay     : Option Byte
  deriving DecidableEq, Repr

/-- An entry of the Line Queue, its fields as received (R19). -/
inductive Entry where
  | line (header : LineHeader) (parts : List (List Byte)) (state : LineState)
  | advance (mode : Byte) (count : BitVec 16)
  | commit (table : TableId) (page : Nat)
  | settings (build : Option BuildPart) (pass : Option PassPart)
  | form (length skip : BitVec 16)
  | geometry (stagger : Byte) (tearGap sensorDist : BitVec 16) (ratio : Byte)
  deriving DecidableEq, Repr

/-- The Line Queue: its entries, oldest first, and the build cursor, as the number of entries older than the one it
stands on; at the end it is the number of entries (R19, R28). -/
structure Queue where
  entries : List Entry
  cursor  : Nat
  deriving DecidableEq, Repr

/-- The Column Builder's counters (R79). -/
structure BuilderCounters where
  clipped    : Nat
  suppressed : Nat
  deriving DecidableEq, Repr

/-! ## Settings and geometry -/

/-- The settings in effect, but for the heat thresholds (R164). -/
structure Settings where
  tRec          : Nat
  qualityFloor  : Nat
  substSlot     : Nat
  formsClass    : Nat
  bidirectional : Nat
  alignment     : Int
  flightTime    : Nat
  tearDelay     : Nat
  deriving DecidableEq, Repr

/-- The geometry in effect (R165). -/
structure Geometry where
  stagger    : Nat
  tearGap    : Nat
  sensorDist : Nat
  ratio      : Nat
  deriving DecidableEq, Repr

/-! ## Pass Planner and Carriage Drive -/

/-- A direction of carriage travel. -/
inductive Side where | rightward | leftward
  deriving DecidableEq, Repr

/-- One entry of a fire schedule (R92). -/
structure Fire where
  pos  : Int
  mask : PinMask
  deriving DecidableEq, Repr

/-- A fire schedule in the order of travel, and the index of its marked entry (R92, R97). -/
structure Schedule where
  fires : List Fire
  mark  : Nat
  deriving DecidableEq, Repr

structure Planner where
  schedule : Option Schedule
  /-- The direction of pass 1, kept while a pass 2 remains to be started (R87, R99). -/
  keptDir  : Option Side
  deriving DecidableEq, Repr

/-- The cruise interval and ramp of a speed class (R47). -/
structure Profile where
  cruise : Nat
  ramp   : List Nat
  deriving DecidableEq, Repr

/-- A profile move in progress: direction, length d, index j of the step in progress (R100). -/
structure Move where
  side    : Side
  len     : Nat
  idx     : Nat
  profile : Profile
  deriving DecidableEq, Repr

/-- The pass run handed to the Carriage Drive (R96). -/
structure PassRun where
  side    : Side
  start   : Int
  stop    : Int
  profile : Profile
  deriving DecidableEq, Repr

/-- The phases of homing (R106, R107). -/
inductive HomingPhase where | one | two | three
  deriving DecidableEq, Repr

/-- Homing in progress: its phase, the arrivals made in it, and whether a RESET asked for a restart (R112). -/
structure Homing where
  phase   : HomingPhase
  steps   : Nat
  restart : Bool
  deriving DecidableEq, Repr

/-- A deceleration under RESET: the interval of the step in progress, and how many steps are still to begin after it,
which take ramp[left − 1] down to ramp[0] (R111). -/
structure Decel where
  side     : Side
  interval : Nat
  left     : Nat
  profile  : Profile
  deriving DecidableEq, Repr

/-- The carriage motion state with the move in progress (R100). -/
inductive Drive where
  | unhomed
  | homing (h : Homing)
  | stopped
  | positioning (m : Move) (run : PassRun)
  | passRun (m : Move)
  | stopping (d : Decel)
  deriving DecidableEq, Repr

structure Carriage where
  /-- The carriage position, or unknown (R100). -/
  position : Option Int
  drive    : Drive
  deriving DecidableEq, Repr

/-! ## Firing Unit and Heat Monitor -/

/-- The firing state, with the pass recovery time (R116). -/
inductive FiringState where
  | idle
  | armed (tRec : Nat)
  | silent (tRec : Nat)
  deriving DecidableEq, Repr

/-- The on-timers loaded by one fire that still run: their pins and the width loaded, in µs (R120). -/
structure Pulse where
  pins  : PinMask
  width : Nat
  deriving DecidableEq, Repr

structure Firing where
  state       : FiringState
  /-- The running fires, oldest first (log 13). -/
  pulses      : List Pulse
  /-- The dead-pin set (R116). -/
  dead        : PinMask
  deadDots    : Nat
  /-- The last entry was handed while ARMED and its report is still to come (R118 step 6, R122). -/
  lastPending : Bool
  deriving DecidableEq, Repr

/-- The Heat Monitor's state (R129). -/
structure Heat where
  level : Nat
  warm  : Nat
  hot   : Nat
  limit : Nat
  hold  : Bool
  deriving DecidableEq, Repr

/-! ## Forms Drive -/

/-- The paper states (R139). -/
inductive Paper where | noForms | loading | atPrint | tearing | atTear | returning | ejecting
  deriving DecidableEq, Repr

/-- The lever states (R139). -/
inductive Lever where | opened | settling | closed
  deriving DecidableEq, Repr

/-- What a feed is for (R140). -/
inductive Purpose where | afterLine | advance | skip | tearAdvance | return | loading | ejection
  deriving DecidableEq, Repr

inductive FeedDir where | forward | reverse
  deriving DecidableEq, Repr

/-- What happens at the arrival of the feed step in progress: the feed goes on; its remaining steps are abandoned
(R145, R156); it stops for a RESET (R157); a loading is cut short (R151). -/
inductive FeedEnding where | goOn | abandon | reset | cutShort
  deriving DecidableEq, Repr

/-- A feed in progress (R139). `remaining` counts the step in progress. -/
structure Feed where
  purpose   : Purpose
  dir       : FeedDir
  total     : Nat
  remaining : Nat
  /-- No feed step is in progress (R155). -/
  suspended : Bool
  ending    : FeedEnding
  deriving DecidableEq, Repr

/-- The Forms Drive's state (R139). -/
structure Forms where
  paper         : Paper
  position      : Nat
  length        : Nat
  skip          : Nat
  count         : Nat
  acc           : Nat
  /-- End tracking: none, or the remainder r (R152). -/
  tracking      : Option Nat
  lever         : Lever
  presenceTimer : Bool
  /-- Running with the tear delay it started with, in s, or stopped (R147, log 23). -/
  tearTimer     : Option Nat
  tearAdvance   : Option Nat
  feed          : Option Feed
  /-- A paper request is kept (R149). -/
  paperRequest  : Bool
  /-- Net feed motor steps begun (model's own, log 19). -/
  feedMotor     : Int
  /-- Net tractor steps begun (model's own, log 19). -/
  tractorMotor  : Int
  deriving DecidableEq, Repr

/-! ## Run Control -/

/-- The executor states (R158). -/
inductive Executor where | homing | ready | running | waiting | halting | halted | faultStop
  deriving DecidableEq, Repr

/-- The wait reasons (R158). -/
inductive WaitReason where | none | heat | paper | lever | notBuilt | paperReturning
  deriving DecidableEq, Repr

/-- The need at which the last run through the checks of R160 stopped; `ready` when it has been met and the checks
are to be run through now. -/
inductive Need where | ready | paper | paperStill | lever | carriage | skipFeed | heat
  deriving DecidableEq, Repr

/-- The entry in hand, the front entry, and its progress (R158). -/
inductive InHand where
  /-- A line that is not BUILT yet (R160). -/
  | notBuilt
  /-- A form or geometry marker that waits for paper AT PRINT (R159). -/
  | marker
  /-- An advance; `started` when its feed or tear-off is under way (R144). -/
  | advance (started : Bool)
  /-- An ACTIVE line whose pass start is due; pass 1 if `first` (R160). -/
  | lineDue (first : Bool) (need : Need)
  /-- An ACTIVE line whose pass has started; whether it is the line's last pass, its run has stopped, its feed after
  line is complete (R161). -/
  | linePass (last runStopped feedDone : Bool)
  /-- An ACTIVE line with no pass; `started` when its feed after line is under way (R160). -/
  | lineFeed (started : Bool)
  deriving DecidableEq, Repr

/-- The fifteen attention causes (R166). -/
inductive Cause where
  | CF | PF | PO | LO | HW | TR | GL | SQ | LN | FR | SB | SS | CL | DS | DR
  deriving DecidableEq, Repr

/-- A set of causes: the cause of priority q is bit q − 1 (11_record_formats.md, ACK). -/
abbrev CauseSet := BitVec 15

structure RunControl where
  executor : Executor
  reason   : WaitReason
  inHand   : Option InHand
  /-- The geometry lock (R165). -/
  locked   : Bool
  /-- The pending cause set (R166). -/
  causes   : CauseSet
  /-- The attention mask (R168). -/
  mask     : CauseSet
  deriving DecidableEq, Repr

/-- The levels of the sensor inputs (00_scope.md, "Pins and Straps"). -/
structure Pins where
  homeSensor   : Bool
  formsPresent : Bool
  leverOpen    : Bool
  deriving DecidableEq, Repr

end Sys2Proof.Machine
end

