-- ==== Sys2Proof/Machine/Defaults.lean ====
section
/-! DEFINITION. The power-on content of every block (R18, R39, R61, R82, R115, R116, R138, R157, R164, R165, R170). -/

namespace Sys2Proof.Machine

/-- The bit rate that the two strap inputs set (00_scope.md, "Pins and Straps"); the first strap is bit 1. -/
def bitRateOf (straps : BitVec 2) : Nat :=
  if straps = 0 then 19200 else if straps = 1 then 57600 else if straps = 2 then 115200 else 230400

/-- R18, column "After power-on reset". -/
def intakeDefault (straps : BitVec 2) : Intake :=
  { bitRate := bitRateOf straps, frameState := .hunt, frame := [], timer := false, laneQ := [], replies := [],
    frameFaults := 0, unanswered := 0 }

/-- The identity code map: page n holds, for codes (n mod 4)·64 upward, the code itself as a slot (R41). -/
def codeMapDefault : List Page :=
  (List.range 16).map fun n =>
    (List.range 64).flatMap fun i => [0, BitVec.ofNat 8 (n % 4 * 64 + i)]

/-- The blank glyph: advance 12, width 0, every pattern column empty (R43). -/
def blankGlyph : Page := 12 :: 0 :: List.replicate 36 0

/-- The strike table at power-on: 45 + 7·fc − 2·band at index fc·4 + band (R45). -/
def strikeDefault : Page :=
  (List.range 32).map fun i => BitVec.ofNat 8 (45 + 7 * (i / 4) - 2 * (i % 4))

/-- ramp[i] = T + floor((2,000 − T)·(R − 1 − i)/R) (R48). -/
def rampDefault (t r i : Nat) : Nat := t + (2000 - t) * (r - 1 - i) / r

/-- A profile page with the default ramp: T, R, the R ramp intervals, zeros beyond (R47, R48). -/
def profilePage (t r : Nat) : Page :=
  [BitVec.ofNat 8 (t / 256), BitVec.ofNat 8 t, BitVec.ofNat 8 r] ++
    (List.range 200).flatMap fun i =>
      let v := if i < r then rampDefault t r i else 0
      [BitVec.ofNat 8 (v / 256), BitVec.ofNat 8 v]

/-- The four default profile pages (R48). -/
def profilesDefault : List Page := [profilePage 125 64, profilePage 167 48, profilePage 250 32, profilePage 500 16]

/-- R61, column "After power-on reset". -/
def tablesDefault : Tables :=
  { codeMap := codeMapDefault, loadable := List.replicate 64 blankGlyph, strike := strikeDefault,
    profiles := profilesDefault }

/-- The default settings (R164). -/
def settingsDefault : Settings :=
  { tRec := 400, qualityFloor := 0, substSlot := 63, formsClass := 0, bidirectional := 1, alignment := 0,
    flightTime := 300, tearDelay := 5 }

/-- The default geometry (R165). -/
def geometryDefault : Geometry := { stagger := 40, tearGap := 720, sensorDist := 2016, ratio := 16 }

/-- The start of homing: phase 1 when the home sensor reads active, else phase 2 (R106). -/
def homingStart (homeActive : Bool) : Homing :=
  { phase := if homeActive then .one else .two, steps := 0, restart := false }

/-- R115: the position unknown, homing begun. -/
def carriageDefault (homeActive : Bool) : Carriage := { position := none, drive := .homing (homingStart homeActive) }

/-- R116, last paragraph. -/
def firingDefault : Firing := { state := .idle, pulses := [], dead := 0, deadDots := 0, lastPending := false }

/-- R138, column "After power-on reset". -/
def heatDefault : Heat := { level := 262144, warm := 262144, hot := 524288, limit := 786432, hold := false }

/-- R157, last paragraph, and R154 for the lever: AT PRINT when forms are present and the lever is closed, else NO FORMS.
The presence timer stands stopped: in NO FORMS it starts when forms are seen with the lever not OPEN. -/
def formsDefault (formsPresent leverOpen : Bool) : Forms :=
  { paper := if formsPresent && !leverOpen then .atPrint else .noForms, position := 0, length := 3168, skip := 0,
    count := 0, acc := 0, tracking := none, lever := if leverOpen then .opened else .closed, presenceTimer := false,
    tearTimer := none, tearAdvance := none, feed := none, paperRequest := false, feedMotor := 0, tractorMotor := 0 }

/-- R170: HOMING, lock open, mask all causes, PO pending in NO FORMS and LO when the lever reads open. -/
def runDefault (formsPresent leverOpen : Bool) : RunControl :=
  { executor := .homing, reason := .none, inHand := none, locked := false,
    causes := (if formsPresent && !leverOpen then 0#15 else 4#15) ||| (if leverOpen then 8#15 else 0#15),
    mask := BitVec.allOnes 15 }

end Sys2Proof.Machine
end

