-- ==== Sys2Proof/Machine/State.lean ====
section
/-! DEFINITION. The state of the Lecrin 1824, block by block, and its state after reset. -/

namespace Sys2Proof.Machine

/-- No command stops the machine: the manual gives every command an effect on the state, and what it calls faults
(frame fault, carriage fault, driver fault, fault stop) are such effects. So there is no stop to name, and a step
never ends in a fault. -/
inductive Fault where
  deriving DecidableEq, Repr

/-- The one refusal. -/
inductive Refusal where
  /-- Raised by `exec` for a command that has no meaning yet; safe (the model stops). No arm raises it. -/
  | notModelled (mnemonic : String)
  deriving DecidableEq, Repr

/-- The state of the part. -/
structure State where
  /-- The commands that are waiting, first in first out (log 1). -/
  pending   : List Instr
  pins      : Pins
  intake    : Intake
  queue     : Queue
  tables    : Tables
  stage     : Stage
  buffers   : Buffers
  builder   : BuilderCounters
  settings  : Settings
  geometry  : Geometry
  planner   : Planner
  carriage  : Carriage
  firing    : Firing
  heat      : Heat
  forms     : Forms
  run       : RunControl
  deriving DecidableEq, Repr

/-- The power-on state for the given straps and sensor levels (R170 and the power-on column of every chapter). -/
def State.powerOn (pending : List Instr) (straps : BitVec 2) (homeActive formsPresent leverOpen : Bool) : State :=
  { pending := pending
    pins := { homeSensor := homeActive, formsPresent := formsPresent, leverOpen := leverOpen }
    intake := intakeDefault straps
    queue := { entries := [], cursor := 0 }
    tables := tablesDefault
    stage := .empty
    buffers := { one := .free, two := .free }
    builder := { clipped := 0, suppressed := 0 }
    settings := settingsDefault
    geometry := geometryDefault
    planner := { schedule := none, keptDir := none }
    carriage := carriageDefault homeActive
    firing := firingDefault
    heat := heatDefault
    forms := formsDefault formsPresent leverOpen
    run := runDefault formsPresent leverOpen }

/-- The machine right after power-on reset, with straps 0, 0, the home sensor inactive, forms present and the lever
closed (DESIGN CHOICE, log 3), and no command waiting. -/
def State.reset : State := State.powerOn [] 0 false true false

end Sys2Proof.Machine
end

