-- ==== Sys2Proof/Machine/Ops.lean ====
section
/-! DEFINITION. Byte order, pin masks, saturating counters, and the updates of one block of State. -/

namespace Sys2Proof.Machine

/-! ## Bytes and fields: multi-byte fields are sent most significant byte first (00_scope.md, Conventions) -/

/-- The byte at an offset, as a number; 0 beyond the end. -/
def byteAt (p : List Byte) (i : Nat) : Nat := (p.getD i 0).toNat

/-- The number in the `n` bytes from offset `i`, most significant first. -/
def fieldAt (p : List Byte) (i : Nat) : Nat → Nat
  | 0 => 0
  | n + 1 => byteAt p i * 256 ^ n + fieldAt p (i + 1) n

/-- A number as `n` bytes, most significant first. -/
def toBytes (v : Nat) : Nat → List Byte
  | 0 => []
  | n + 1 => BitVec.ofNat 8 (v / 256 ^ n) :: toBytes v n

/-- The pin mask in three bytes at an offset; bits 18 to 23 name no pin and are ignored
(11_record_formats.md, "Pin mask"). -/
def maskAt (p : List Byte) (i : Nat) : PinMask := BitVec.ofNat 18 (fieldAt p i 3)

/-- A pin mask as three bytes. -/
def maskBytes (m : PinMask) : List Byte := toBytes m.toNat 3

/-- The number of pins in a set. -/
def pinCount (m : PinMask) : Nat := (List.range 18).countP fun i => m.getLsbD i

/-- Group A: the odd pins (00_scope.md, "Pin groups"). -/
def groupA : PinMask := 0x15555

/-- Group B: the even pins. -/
def groupB : PinMask := 0x2AAAA

/-- A counter that saturates at `top` (00_scope.md, Conventions). -/
def satAdd (top n k : Nat) : Nat := min top (n + k)

/-- Quotient rounded up. -/
def ceilDiv (a b : Nat) : Nat := (a + b - 1) / b

/-! ## Updates of one block -/

def State.updPins (s : State) (f : Pins → Pins) : State := { s with pins := f s.pins }
def State.updIntake (s : State) (f : Intake → Intake) : State := { s with intake := f s.intake }
def State.updQueue (s : State) (f : Queue → Queue) : State := { s with queue := f s.queue }
def State.updTables (s : State) (f : Tables → Tables) : State := { s with tables := f s.tables }
def State.setStage (s : State) (g : Stage) : State := { s with stage := g }
def State.updBuffers (s : State) (f : Buffers → Buffers) : State := { s with buffers := f s.buffers }
def State.updBuilder (s : State) (f : BuilderCounters → BuilderCounters) : State := { s with builder := f s.builder }
def State.updSettings (s : State) (f : Settings → Settings) : State := { s with settings := f s.settings }
def State.updGeometry (s : State) (f : Geometry → Geometry) : State := { s with geometry := f s.geometry }
def State.updPlanner (s : State) (f : Planner → Planner) : State := { s with planner := f s.planner }
def State.updCarriage (s : State) (f : Carriage → Carriage) : State := { s with carriage := f s.carriage }
def State.updFiring (s : State) (f : Firing → Firing) : State := { s with firing := f s.firing }
def State.updHeat (s : State) (f : Heat → Heat) : State := { s with heat := f s.heat }
def State.updForms (s : State) (f : Forms → Forms) : State := { s with forms := f s.forms }
def State.updRun (s : State) (f : RunControl → RunControl) : State := { s with run := f s.run }

end Sys2Proof.Machine
end

