-- ==== Sys2Proof/Machine/Flags.lean ====
section
/-! DEFINITION. Attention causes, the outputs judged from state (ATTN, RDY, the heat band), and the counters of R7, R16. -/

namespace Sys2Proof.Machine

/-- The priority of a cause, 1 highest (R166). -/
def Cause.priority : Cause → Nat
  | .CF => 1 | .PF => 2 | .PO => 3 | .LO => 4 | .HW => 5 | .TR => 6 | .GL => 7 | .SQ => 8 | .LN => 9 | .FR => 10
  | .SB => 11 | .SS => 12 | .CL => 13 | .DS => 14 | .DR => 15

/-- The set of one cause: bit priority − 1 (11_record_formats.md, ACK). -/
def Cause.bit (c : Cause) : CauseSet := 1#15 <<< (c.priority - 1)

/-- A cause is latched: it is pending from now on (R166). -/
def latch (c : Cause) (s : State) : State := s.updRun fun r => { r with causes := r.causes ||| c.bit }

/-- A cause is latched when a condition holds. -/
def latchIf (b : Bool) (c : Cause) (s : State) : State := if b then latch c s else s

/-- A cause is pending (R166). -/
def isPending (c : Cause) (s : State) : Bool := s.run.causes &&& c.bit != 0

/-- PO's condition: paper state NO FORMS, LOADING or EJECTING (R153, R166). -/
def paperOutHolds (p : Paper) : Bool := p = .noForms || p = .loading || p = .ejecting

/-- LO's condition: lever state OPEN or SETTLING (R154, R166). -/
def leverHolds (l : Lever) : Bool := l = .opened || l = .settling

/-- The condition causes whose condition holds (R166). -/
def heldCauses (s : State) : CauseSet :=
  (if paperOutHolds s.forms.paper then Cause.PO.bit else 0) |||
  (if leverHolds s.forms.lever then Cause.LO.bit else 0) |||
  (if s.heat.hold then Cause.HW.bit else 0)

/-- The sticky causes, CF and PF (R166). -/
def stickyCauses : CauseSet := Cause.CF.bit ||| Cause.PF.bit

/-- The first cause: the pending cause of lowest number, 0 for none (R166). -/
def firstCause (c : CauseSet) : Nat :=
  match (List.range 15).find? fun i => c.getLsbD i with
  | some i => i + 1
  | none => 0

/-- ATTN: the pending set and the mask have a cause in common (R168). -/
def State.attn (s : State) : Bool := s.run.causes &&& s.run.mask != 0

/-- The heat band of H under the thresholds in effect (R133). -/
def Heat.band (h : Heat) : Nat :=
  if h.level < h.warm then 0 else if h.level < h.hot then 1 else if h.level < h.limit then 2 else 3

/-- A request discarded unanswered is counted, saturating at 255 (R16). -/
def countUnanswered (s : State) : State :=
  s.updIntake fun i => { i with unanswered := satAdd 255 i.unanswered 1 }

/-- A frame fault: the frame under reception is discarded with its bytes, FR is latched, the counter rises, saturating at
255, and the Intake returns to HUNT (R7). -/
def frameFault (s : State) : State :=
  latch .FR (s.updIntake fun i =>
    { i with frameState := .hunt, frame := [], timer := false, frameFaults := satAdd 255 i.frameFaults 1 })

end Sys2Proof.Machine
end

