-- ==== Sys2Proof/Machine/Operands.lean ====
section
/-! DEFINITION. Record fields as their owning blocks use them: clamps and codings (R63, R85, R132, R143, R144, R145,
R164, R165, R171). -/

namespace Sys2Proof.Machine

/-- A value brought into the range `lo` to `hi`. -/
def clamp (lo hi v : Nat) : Nat := min hi (max lo v)

/-- The column step as used: 0, 1, 2 as 2; 3; 4; 5 and more as 6 (R63). -/
def clampStep (v : Nat) : Nat := if v ≤ 2 then 2 else if v = 3 then 3 else if v = 4 then 4 else 6

/-- The class request as used: above 3 as 3 (R63). -/
def clampClass (v : Nat) : Nat := min 3 v

/-- The direction request: 1 right, 2 left, 0 and any other auto (11_record_formats.md, LINE; R85). -/
inductive DirRequest where | auto | right | left
  deriving DecidableEq, Repr

def dirRequestOf (v : Byte) : DirRequest := if v = 1 then .right else if v = 2 then .left else .auto

/-- The mode of an advance: 1 TOP, 2 TEAR, 0 and any other FEED (11_record_formats.md, ADVANCE). -/
inductive AdvanceMode where | feed | top | tear
  deriving DecidableEq, Repr

def advanceModeOf (v : Byte) : AdvanceMode := if v = 1 then .top else if v = 2 then .tear else .feed

/-- A feed count: above 4,095 as 4,095 (R144, R145). -/
def clampFeed (v : Nat) : Nat := min 4095 v

/-- A value where a SET names one, else the value in effect (R164). -/
def orKeep {α β : Type} (field : Option α) (use : α → β) (kept : β) : β :=
  match field with
  | some v => use v
  | none => kept

/-- The build part put into effect (R164). -/
def applyBuildPart (p : BuildPart) (t : Settings) : Settings :=
  { t with
    tRec := orKeep p.tRec (fun v => clamp 100 2000 v.toNat) t.tRec
    qualityFloor := orKeep p.qualityFloor (fun v => min 3 v.toNat) t.qualityFloor
    substSlot := orKeep p.substSlot (fun v => min 447 v.toNat) t.substSlot }

/-- b is a signed byte, clamped to −32 to +31 (R164). -/
def clampAlignment (v : Byte) : Int := min 31 (max (-32) v.toInt)

/-- The pass part's fields but the heat thresholds put into effect (R164). -/
def applyPassSettings (p : PassPart) (t : Settings) : Settings :=
  { t with
    formsClass := orKeep p.formsClass (fun v => min 7 v.toNat) t.formsClass
    bidirectional := orKeep p.bidirectional (fun v => min 1 v.toNat) t.bidirectional
    alignment := orKeep p.alignment clampAlignment t.alignment
    flightTime := orKeep p.flightTime (fun v => min 1000 v.toNat) t.flightTime
    tearDelay := orKeep p.tearDelay (fun v => min 60 v.toNat) t.tearDelay }

/-- A heat threshold as used: 0 as 1, above 1,048,575 as 1,048,575 (R132). -/
def clampThreshold (v : BitVec 24) : Nat := clamp 1 1048575 v.toNat

/-- The thresholds after the fields present have been taken, put in order: H_hot raised to H_warm, then H_limit raised
to H_hot (R132). -/
def applyThresholds (p : PassPart) (h : Heat) : Heat :=
  let warm := orKeep p.hWarm clampThreshold h.warm
  let hot := max warm (orKeep p.hHot clampThreshold h.hot)
  let limit := max hot (orKeep p.hLimit clampThreshold h.limit)
  { h with warm := warm, hot := hot, limit := limit }

/-- The geometry a marker puts into effect, clamped (R165). -/
def clampGeometry (stagger : Byte) (tearGap sensorDist : BitVec 16) (ratio : Byte) : Geometry :=
  { stagger := min 63 stagger.toNat, tearGap := min 2880 tearGap.toNat,
    sensorDist := clamp 576 4032 sensorDist.toNat, ratio := clamp 8 24 ratio.toNat }

/-- The build part of a SET, absent when it names no build field (R25). -/
def buildPartOf (f : SetFields) : Option BuildPart :=
  let p : BuildPart := { tRec := f.tRec, qualityFloor := f.qualityFloor, substSlot := f.substSlot }
  if p = { tRec := none, qualityFloor := none, substSlot := none } then none else some p

/-- The pass part of a SET, absent when it names no pass field (R25). -/
def passPartOf (f : SetFields) : Option PassPart :=
  let p : PassPart :=
    { formsClass := f.formsClass, bidirectional := f.bidirectional, alignment := f.alignment,
      flightTime := f.flightTime, hWarm := f.hWarm, hHot := f.hHot, hLimit := f.hLimit, tearDelay := f.tearDelay }
  if p = { formsClass := none, bidirectional := none, alignment := none, flightTime := none, hWarm := none,
           hHot := none, hLimit := none, tearDelay := none } then none else some p

end Sys2Proof.Machine
end

