-- ==== Sys2Proof/Machine/Tables.lean ====
section
/-! DEFINITION. The Table Store: live pages, their clamps and checks, and the stage buffer (03_tables_and_their_loading.md). -/

namespace Sys2Proof.Machine

/-! ## Tables and pages (R40) -/

def TableId.ofCode (v : Nat) : Option TableId :=
  match v with
  | 0 => some .codeMap
  | 1 => some .glyphs
  | 2 => some .strike
  | 3 => some .profile
  | _ => none

def TableId.code : TableId → Nat
  | .codeMap => 0 | .glyphs => 1 | .strike => 2 | .profile => 3

def TableId.pages : TableId → Nat
  | .codeMap => 16 | .glyphs => 448 | .strike => 1 | .profile => 4

def TableId.pageSize : TableId → Nat
  | .codeMap => 128 | .glyphs => 38 | .strike => 32 | .profile => 403

/-- The table and page that an id and a page number name, if they name a page (R40). -/
def pageNamed (table page : Nat) : Option (TableId × Nat) :=
  match TableId.ofCode table with
  | some t => if page < t.pages then some (t, page) else none
  | none => none

/-- A page that may be staged: any but a resident glyph slot (R40). -/
def stageable (t : TableId) (page : Nat) : Bool := !(t = .glyphs && page < 384)

/-- The width of a resident glyph (R43): 0 for the blanks 0 to 31 and 127 and for the space, else 1 to 12 (log 8). -/
def residentWidth (n : Nat) : Nat := if n ≤ 32 ∨ n = 127 then 0 else 1 + Config.residentWidth n % 12

/-- Pattern column `i` of a resident glyph: empty in the blanks (log 22), else a free value (log 8). -/
def residentColumn (n i : Nat) : PinMask := if n ≤ 31 ∨ n = 127 then 0 else Config.residentColumn n i

/-- The page of a resident glyph slot, advance 12 (R43). -/
def residentGlyph (n : Nat) : Page :=
  12 :: BitVec.ofNat 8 (residentWidth n) :: (List.range 12).flatMap fun i => maskBytes (residentColumn n i)

/-- The page of a glyph slot: resident below 384, else loadable. -/
def glyphPage (loadable : List Page) (slot : Nat) : Page :=
  if slot < 384 then residentGlyph slot else loadable.getD (slot - 384) []

/-- The live page of a table (R40). -/
def livePage (t : Tables) (id : TableId) (page : Nat) : Page :=
  match id with
  | .codeMap => t.codeMap.getD page []
  | .glyphs => glyphPage t.loadable page
  | .strike => t.strike
  | .profile => t.profiles.getD page []

/-- A page replaced in one event (R57). -/
def setLivePage (id : TableId) (page : Nat) (p : Page) (t : Tables) : Tables :=
  match id with
  | .codeMap => { t with codeMap := t.codeMap.set page p }
  | .glyphs => { t with loadable := t.loadable.set (page - 384) p }
  | .strike => { t with strike := p }
  | .profile => { t with profiles := t.profiles.set page p }

/-! ## Reading live pages -/

/-- The code map entry for a code set and a code (R41). -/
def codeMapEntry (codeMap : List Page) (set code : Nat) : Nat :=
  fieldAt (codeMap.getD (4 * set + code / 64) []) (2 * (code % 64)) 2

/-- The strike entry for a forms class and a band (R45). -/
def strikeEntry (strike : Page) (formsClass band : Nat) : Nat := byteAt strike (formsClass * 4 + band)

/-- The cruise interval of a profile page (R47). -/
def pageCruise (p : Page) : Nat := fieldAt p 0 2

/-- The ramp length of a profile page (R47). -/
def pageRampLen (p : Page) : Nat := byteAt p 2

/-- The ramp intervals of a profile page (R47). -/
def pageRamp (p : Page) : List Nat := (List.range (pageRampLen p)).map fun i => fieldAt p (3 + 2 * i) 2

/-- The live cruise of a class (R47). -/
def liveCruise (t : Tables) (c : Nat) : Nat := pageCruise (livePage t .profile c)

/-- The live cruise and ramp of a class (R47). -/
def liveProfile (t : Tables) (c : Nat) : Profile :=
  { cruise := liveCruise t c, ramp := pageRamp (livePage t .profile c) }

/-! ## Making a page live -/

/-- Entries of 448 or more become the unmapped mark 511 (R42). -/
def clampCodeMap (p : Page) : Page :=
  (List.range 64).flatMap fun i =>
    let v := fieldAt p (2 * i) 2
    toBytes (if v ≤ 447 then v else 511) 2

/-- Advance 1 to 15, width to 12, mask bits that name no pin cleared (R44). -/
def clampGlyph (p : Page) : Page :=
  BitVec.ofNat 8 (clamp 1 15 (byteAt p 0)) :: BitVec.ofNat 8 (min 12 (byteAt p 1)) ::
    (List.range 12).flatMap fun i => maskBytes (maskAt p (2 + 3 * i))

/-- Entries 25 to 125 (R46). -/
def clampStrike (p : Page) : Page := (List.range 32).map fun i => BitVec.ofNat 8 (clamp 25 125 (byteAt p i))

/-- Each interval is at most the one before it (R49). -/
def nonIncreasing : List Nat → Bool
  | a :: b :: rest => decide (b ≤ a) && nonIncreasing (b :: rest)
  | _ => true

/-- The check of a profile page for class `c` against the live neighbours (R49). -/
def profileValid (t : Tables) (c : Nat) (p : Page) : Bool :=
  decide (50 ≤ pageCruise p ∧ pageCruise p ≤ 2000) &&
  decide (1 ≤ pageRampLen p ∧ pageRampLen p ≤ 200) &&
  (pageRamp p).all (fun v => decide (pageCruise p ≤ v ∧ v ≤ 20000)) &&
  nonIncreasing (pageRamp p) &&
  (decide (c = 0) || decide (liveCruise t (c - 1) ≤ pageCruise p)) &&
  (decide (3 ≤ c) || decide (pageCruise p ≤ liveCruise t (c + 1)))

/-- The bytes past the ramp stored as 0 (R47). -/
def clampProfile (p : Page) : Page :=
  let n := 3 + 2 * pageRampLen p
  p.take n ++ List.replicate (403 - n) 0

/-- A staged page applied: clamped and made live, or, an invalid profile page, refused with TR (R42, R44, R46, R49, R57). -/
def makeLive (id : TableId) (page : Nat) (p : Page) (s : State) : State :=
  match id with
  | .codeMap => s.updTables (setLivePage .codeMap page (clampCodeMap p))
  | .glyphs => s.updTables (setLivePage .glyphs page (clampGlyph p))
  | .strike => s.updTables (setLivePage .strike page (clampStrike p))
  | .profile =>
    if profileValid s.tables page p then s.updTables (setLivePage .profile page (clampProfile p)) else latch .TR s

/-! ## The stage buffer -/

/-- What a BOUND or HELD stage keeps, if it is one of the two. -/
def Stage.binding : Stage → Option Binding
  | .empty => none
  | .bound b => some b
  | .held b => some b

/-- A commit marker applied: the page made live or refused, and the stage EMPTY in every case (R57). A marker's stage
is HELD and bound to the marker's page (R56, R57). -/
def applyCommit (id : TableId) (page : Nat) (s : State) : State :=
  let p := match s.stage.binding with
    | some b => b.bytes
    | none => []
  (makeLive id page p s).setStage .empty

/-- The cursor set to an offset, or to the page size beyond it (R52, R54). -/
def seekStage (offset : Nat) (b : Binding) : Binding := { b with cursor := min offset b.table.pageSize }

/-- Data bytes written one by one at the cursor; those that find it at the page size are dropped (R52, R53). -/
def writeStage : List Byte → Binding → Binding
  | [], b => b
  | d :: rest, b =>
    if b.cursor < b.table.pageSize then
      writeStage rest { b with bytes := b.bytes.set b.cursor d, cursor := b.cursor + 1 }
    else b

/-- Some of the data bytes will be dropped at the page end (R53). -/
def stageSpills (data : List Byte) (b : Binding) : Bool := decide (b.table.pageSize < b.cursor + data.length)

/-- The stage BOUND with the data written, SS latched once if bytes were dropped (R53). -/
def stageWritten (b : Binding) (data : List Byte) (s : State) : State :=
  latchIf (stageSpills data b) .SS (s.setStage (.bound (writeStage data b)))

/-- The stage bound afresh to a page: a copy of the live page, the cursor at the offset (R52). -/
def freshBinding (t : Tables) (id : TableId) (page offset : Nat) : Binding :=
  seekStage offset { table := id, page := page, cursor := 0, bytes := livePage t id page }

/-- A STAGE is taken (R51 to R55). -/
def takeStage (table page offset : Nat) (clearFirst : Bool) (data : List Byte) (s : State) : State :=
  match pageNamed table page with
  | none => latch .TR s
  | some (id, n) =>
    if stageable id n then
      match s.stage with
      | .held _ => latch .SB s
      | .empty =>
        if clearFirst && data.isEmpty then s
        else stageWritten (freshBinding s.tables id n offset) data s
      | .bound b =>
        if clearFirst then
          if data.isEmpty then s.setStage .empty
          else stageWritten (freshBinding s.tables id n offset) data s
        else if b.table = id ∧ b.page = n then stageWritten (seekStage offset b) data s
        else latch .SB s
    else latch .TR s

/-- The stage is BOUND to the page that a COMMIT names (R56). -/
def commitMatches (table page : Nat) (g : Stage) : Option Binding :=
  match g with
  | .bound b => if b.table.code = table ∧ b.page = page then some b else none
  | _ => none

/-- A HELD stage goes back to BOUND (R58). -/
def releaseStage (g : Stage) : Stage :=
  match g with
  | .held b => .bound b
  | g => g

end Sys2Proof.Machine
end

