-- ==== Sys2Proof/Machine/Builder.lean ====
section
/-! DEFINITION. The Column Builder's work on one line: runs to columns, clipping, measures, class, suppression
(04_building_the_column_image.md). -/

namespace Sys2Proof.Machine

/-- X_lo and X_hi, the ends of the printable window (00_scope.md, Conventions). -/
def xLo : Nat := 336
def xHi : Nat := 6863

/-! ## Characters (R65 to R68) -/

/-- Advance column `i` of a glyph page: pattern column i when i is below the width and the advance, else empty (R66). -/
def glyphColumn (p : Page) (i : Nat) : PinMask :=
  if i < min (byteAt p 1) 12 then maskAt p (2 + 3 * i) else 0

/-- The advance columns of a glyph without attributes (R66). -/
def plainColumns (p : Page) : List PinMask := (List.range (byteAt p 0)).map (glyphColumn p)

/-- Each advance column produced twice side by side (R66). -/
def doubleColumns (cols : List PinMask) : List PinMask := cols.flatMap fun m => [m, m]

/-- Every column but the first also takes the pins of the one just before it, as it was (R67). -/
def boldColumns : List PinMask → List PinMask
  | [] => []
  | c :: rest => c :: List.zipWith (· ||| ·) rest (c :: rest)

/-- Pin 18 (R68). -/
def underlinePin : PinMask := 1#18 <<< 17

/-- One character: advance columns, doubled, bold, then the gap columns, then underline over them all (R66 to R68). -/
def charColumns (underline bold double : Bool) (gap : Nat) (p : Page) : List PinMask :=
  let a := plainColumns p
  let a := if double then doubleColumns a else a
  let a := if bold then boldColumns a else a
  let a := a ++ List.replicate gap 0
  if underline then a.map (· ||| underlinePin) else a

/-- The glyph page of a code: its slot by the code map, the substitution slot for the unmapped mark (R65). -/
def codeGlyph (inp : BuildInputs) (set code : Nat) : Page :=
  let e := codeMapEntry inp.codeMap set code
  glyphPage inp.loadable (if e = 511 then inp.subst else e)

/-! ## Runs (R64 to R71) -/

/-- The whole masks that lie in a list of bytes (R69, R71). -/
def masksOf : List Byte → List PinMask
  | a :: b :: c :: rest => maskAt [a, b, c] 0 :: masksOf rest
  | _ => []

/-- The columns of the runs of one part, taken in order; `fuel` bounds the number of runs (every run has a type byte,
so the part's length is enough). A run type the builder does not know, and a run whose fixed fields are cut short,
produce nothing and end the part; a count past the end of the part produces what lies within it (R71). -/
def partColumns (inp : BuildInputs) : Nat → List Byte → List PinMask
  | 0, _ => []
  | fuel + 1, bytes =>
    match bytes with
    | [] => []
    | t :: rest =>
      if t = 1 then
        match rest with
        | set :: attr :: gap :: n1 :: n0 :: codes =>
          let n := n1.toNat * 256 + n0.toNat
          (codes.take n).flatMap (fun c =>
            charColumns (attr.getLsbD 0) (attr.getLsbD 1) (attr.getLsbD 2) (min 7 gap.toNat)
              (codeGlyph inp (min 3 set.toNat) c.toNat)) ++
            partColumns inp fuel (codes.drop n)
        | _ => []
      else if t = 2 then
        match rest with
        | n1 :: n0 :: masks =>
          let n := n1.toNat * 256 + n0.toNat
          masksOf (masks.take (3 * n)) ++ partColumns inp fuel (masks.drop (3 * n))
        | _ => []
      else if t = 3 then
        match rest with
        | n1 :: n0 :: more => List.replicate (n1.toNat * 256 + n0.toNat) 0 ++ partColumns inp fuel more
        | _ => []
      else []

/-- All the columns a line produces, part after part (R64). -/
def lineColumns (inp : BuildInputs) : List PinMask := inp.parts.flatMap fun p => partColumns inp p.length p

/-! ## Clipping (R72) -/

/-- How many columns fit in the window from offset `o` at step `st` (R72). -/
def columnsThatFit (o st : Nat) : Nat := if o ≤ 6527 then (6527 - o) / st + 1 else 0

/-! ## Measures (R73, R74) -/

/-- The indices, counted from `k`, of the columns that satisfy a test. -/
def indicesOf (test : PinMask → Bool) : Nat → List PinMask → List Nat
  | _, [] => []
  | k, c :: rest => if test c then k :: indicesOf test (k + 1) rest else indicesOf test (k + 1) rest

/-- The dark extent: first and last column that carries a pin (R73). -/
def darkExtent (cols : List PinMask) : Option (Nat × Nat) :=
  match indicesOf (· != 0) 0 cols with
  | [] => none
  | k :: rest => some (k, rest.getLastD k)

/-- The least of two spacings, none standing for infinite. -/
def minSpacing : Option Nat → Option Nat → Option Nat
  | none, b => b
  | a, none => a
  | some a, some b => some (min a b)

/-- The least distance between consecutive indices of a rising list (R74). -/
def leastGap : List Nat → Option Nat
  | a :: b :: rest => minSpacing (some (b - a)) (leastGap (b :: rest))
  | _ => none

/-- The same-pin spacing g, none for infinite (R74). -/
def samePinSpacing (cols : List PinMask) : Option Nat :=
  (List.range 18).foldl (fun g i => minSpacing g (leastGap (indicesOf (·.getLsbD i) 0 cols))) none

/-! ## The build class and suppression (R75, R76) -/

/-- Class `c` is fast enough for spacing `g`: g·S·T_c is at least t_rec; always when g is infinite (R75). -/
def classMeets (inp : BuildInputs) (g : Option Nat) (c : Nat) : Bool :=
  match g with
  | none => true
  | some g => decide (inp.tRec ≤ g * clampStep inp.header.step.toNat * inp.cruises.getD c 0)

/-- The adjacency class: the least class that meets the condition, none when no class does (R75). -/
def adjacencyClass (inp : BuildInputs) (g : Option Nat) : Option Nat := (List.range 4).find? (classMeets inp g)

/-- One pin's walk from the left: the first dot is kept, a later one when it lies at least `m` columns right of the last
kept. Answers the columns and the number of dots removed (R76). -/
def walkPin (pin m : Nat) : Option Nat → Nat → List PinMask → List PinMask × Nat
  | _, _, [] => ([], 0)
  | last, k, c :: rest =>
    if c.getLsbD pin then
      if last.any fun j => decide (k < j + m) then
        let r := walkPin pin m last (k + 1) rest
        ((c &&& ~~~(1#18 <<< pin)) :: r.1, r.2 + 1)
      else
        let r := walkPin pin m (some k) (k + 1) rest
        (c :: r.1, r.2)
    else
      let r := walkPin pin m last (k + 1) rest
      (c :: r.1, r.2)

/-- Every pin's walk, and the dots removed in all (R76). -/
def suppress (m : Nat) (cols : List PinMask) : List PinMask × Nat :=
  (List.range 18).foldl (fun acc pin =>
    let r := walkPin pin m none 0 acc.1
    (r.1, acc.2 + r.2)) (cols, 0)

/-- What a build gives at its end: the image, the columns clipped and the dots suppressed (R72 to R78). -/
structure BuildResult where
  image      : Image
  clipped    : Nat
  suppressed : Nat
  deriving DecidableEq, Repr

/-- The build of a line from the inputs read at its start. -/
def buildResult (inp : BuildInputs) : BuildResult :=
  let st := clampStep inp.header.step.toNat
  let o := inp.header.offset.toNat
  let produced := lineColumns inp
  let stored := produced.take (columnsThatFit o st)
  let g := samePinSpacing stored
  let adj := adjacencyClass inp g
  let cut := match adj with
    | some _ => (stored, 0)
    | none => suppress (ceilDiv inp.tRec (st * inp.cruises.getD 3 0)) stored
  let cls := match adj with
    | some a => max (clampClass inp.header.classReq.toNat) (max inp.floor a)
    | none => 3
  { image := { cols := cut.1, step := st, offset := o, extent := darkExtent cut.1, cls := cls, tRec := inp.tRec }
    clipped := produced.length - stored.length
    suppressed := cut.2 }

end Sys2Proof.Machine
end

