-- ==== Sys2Proof/Machine/Planner.lean ====
section
/-! DEFINITION. The plan of a pass: class, direction, fire schedule, start and end (05_pass_planning_and_fire_positions.md). -/

namespace Sys2Proof.Machine

def Side.opposite : Side → Side
  | .rightward => .leftward
  | .leftward => .rightward

/-- A position one step on in a direction (R100). -/
def Side.next (d : Side) (p : Int) : Int :=
  match d with
  | .rightward => p + 1
  | .leftward => p - 1

/-- What the plan reads besides the image (R84). -/
structure PlanInputs where
  image      : Image
  stagger    : Nat
  flightTime : Nat
  alignment  : Int
  profile    : Profile
  deriving DecidableEq, Repr

/-- The flight distance d_f = floor((2·t_f + T)/(2·T)) (R89). -/
def flightDistance (tf t : Nat) : Nat := (2 * tf + t) / (2 * t)

/-- The fire position of the dots of a group in column `k`; `sg` is 0 for group A and 1 for group B (R90). -/
def firePosition (inp : PlanInputs) (side : Side) (sg : Nat) (k : Nat) : Int :=
  let x : Int := xLo + inp.image.offset + k * inp.image.step
  let df : Int := flightDistance inp.flightTime inp.profile.cruise
  match side with
  | .rightward => x - sg * inp.stagger - df
  | .leftward => x - sg * inp.stagger + df + inp.alignment

/-- The fire of one group in a column, if it has dots there (R91). -/
def groupFire (inp : PlanInputs) (side : Side) (sg : Nat) (k : Nat) (mask : PinMask) : List Fire :=
  if mask = 0 then [] else [{ pos := firePosition inp side sg k, mask := mask }]

/-- The fires of the columns from index `k` on, group B before group A in each column (R91). Columns outside the dark
extent are empty and give none. -/
def firesFrom (inp : PlanInputs) (side : Side) : Nat → List PinMask → List Fire
  | _, [] => []
  | k, c :: rest =>
    groupFire inp side 1 k (c &&& groupB) ++ groupFire inp side 0 k (c &&& groupA) ++ firesFrom inp side (k + 1) rest

/-- A fire put into a list ordered by rising position; equal positions become one entry with the union (R92). -/
def insertFire (f : Fire) : List Fire → List Fire
  | [] => [f]
  | g :: rest =>
    if f.pos < g.pos then f :: g :: rest
    else if f.pos = g.pos then { pos := g.pos, mask := g.mask ||| f.mask } :: rest
    else g :: insertFire f rest

/-- The entries of a pass by rising position (R92). -/
def risingFires (inp : PlanInputs) (side : Side) : List Fire := (firesFrom inp side 0 inp.image.cols).foldr insertFire []

/-- The fire schedule in the direction of travel (R93). -/
def fireSchedule (inp : PlanInputs) (side : Side) : List Fire :=
  match side with
  | .rightward => risingFires inp side
  | .leftward => (risingFires inp side).reverse

/-- F_lo and F_hi, the least and greatest positions of a pass (R93). -/
def fireLo (inp : PlanInputs) (side : Side) : Int := ((risingFires inp side).head?.map (·.pos)).getD 0
def fireHi (inp : PlanInputs) (side : Side) : Int := ((risingFires inp side).getLast?.map (·.pos)).getD 0

/-- p_start (R94). -/
def passStartPos (inp : PlanInputs) (side : Side) : Int :=
  match side with
  | .rightward => fireLo inp side - inp.profile.ramp.length - 1
  | .leftward => fireHi inp side + inp.profile.ramp.length + 1

/-- p_end (R94). -/
def passEndPos (inp : PlanInputs) (side : Side) : Int :=
  match side with
  | .rightward => fireHi inp side + inp.profile.ramp.length
  | .leftward => fireLo inp side - inp.profile.ramp.length

/-- The logic-seeking choice: the nearer start, rightward when equal (R86). -/
def seekDirection (inp : PlanInputs) (p : Int) : Side :=
  if (passStartPos inp .leftward - p).natAbs < (passStartPos inp .rightward - p).natAbs then .leftward else .rightward

/-- The direction of a line's first pass (R85). -/
def firstDirection (inp : PlanInputs) (req : DirRequest) (bidirectional : Nat) (p : Int) : Side :=
  match req with
  | .right => .rightward
  | .left => .leftward
  | .auto => if bidirectional = 0 then .rightward else seekDirection inp p

/-- The direction of pass 2 from the kept direction of pass 1 (R87). -/
def secondDirection (kept : Side) (bidirectional : Nat) : Side :=
  if bidirectional = 0 then kept else kept.opposite

/-- The class of a pass: the build class or the heat class, whichever is slower (R88). -/
def passClass (buildClass band : Nat) : Nat := max buildClass band

/-- The pass run handed to the Carriage Drive (R96). -/
def passRunOf (inp : PlanInputs) (side : Side) : PassRun :=
  { side := side, start := passStartPos inp side, stop := passEndPos inp side, profile := inp.profile }

end Sys2Proof.Machine
end

