-- ==== Sys2Proof/Machine/Queue.lean ====
section
/-! DEFINITION. The Line Queue: entries, arena, column buffers held by lines, removal, the front (02_the_line_queue.md). -/

namespace Sys2Proof.Machine

/-- The most entries (R20). -/
def maxEntries : Nat := 8

/-- The line arena (R20). -/
def arenaSize : Nat := 24576

/-- The most run bytes of one line (R22, R23). -/
def maxLineBytes : Nat := 12288

/-- The run bytes an entry holds in the arena (R20). -/
def Entry.runBytes : Entry → Nat
  | .line _ parts _ => (parts.map List.length).sum
  | _ => 0

/-- The arena's free bytes (R20). -/
def Queue.arenaFree (q : Queue) : Nat := arenaSize - (q.entries.map Entry.runBytes).sum

/-- A free entry (R20). -/
def Queue.hasEntry (q : Queue) : Bool := decide (q.entries.length < maxEntries)

/-! ## Column buffers -/

def Buffers.get (b : Buffers) : BufId → Buffer
  | .one => b.one
  | .two => b.two

def Buffers.set (b : Buffers) (i : BufId) (v : Buffer) : Buffers :=
  match i with
  | .one => { b with one := v }
  | .two => { b with two := v }

/-- The buffer that a build takes: buffer 1 when both are FREE, else the FREE one (R62). -/
def Buffers.firstFree (b : Buffers) : Option BufId :=
  if b.one = .free then some .one else if b.two = .free then some .two else none

/-- The column buffer that a line holds (R26). -/
def LineState.buf : LineState → Option BufId
  | .building b => some b
  | .built b => some b
  | .active b => some b
  | _ => none

/-- The column buffer that an entry holds. -/
def Entry.buf : Entry → Option BufId
  | .line _ _ st => st.buf
  | _ => none

/-- The buffer of an entry becomes FREE (R33). -/
def freeBufferOf (e : Entry) (b : Buffers) : Buffers :=
  match e.buf with
  | some i => b.set i .free
  | none => b

/-! ## Entries -/

/-- The entry at a place is replaced. -/
def setEntry (i : Nat) (e : Entry) (s : State) : State :=
  s.updQueue fun q => { q with entries := q.entries.set i e }

/-- The cursor moves to the next entry. -/
def moveCursor (s : State) : State := s.updQueue fun q => { q with cursor := q.cursor + 1 }

/-- The entry at a place is removed: the order closes up, its buffer becomes FREE, its arena bytes go with it, and a
cursor that stood further back keeps its entry (R29, R33). -/
def removeAt (i : Nat) (s : State) : State :=
  match s.queue.entries[i]? with
  | some e =>
    (s.updBuffers (freeBufferOf e)).updQueue fun q =>
      { entries := q.entries.eraseIdx i, cursor := if i < q.cursor then q.cursor - 1 else q.cursor }
  | none => s

/-- DR is latched when a removal leaves the queue with no entries (R34). -/
def latchDrained (s : State) : State := latchIf s.queue.entries.isEmpty .DR s

/-- An entry is added at the tail; it comes under a cursor that stands at the end (R28). -/
def appendEntry (e : Entry) (s : State) : State :=
  s.updQueue fun q => { q with entries := q.entries ++ [e] }

/-- The header and parts of the OPEN line at the tail, if the tail is one (R21). -/
def openTail (q : Queue) : Option (LineHeader × List (List Byte)) :=
  match q.entries.getLast? with
  | some (.line h parts .opened) => some (h, parts)
  | _ => none

/-! ## The front (R30, R31) -/

/-- An entry that still holds a pass-time item, a barrier or a line (R27, R31). -/
def Entry.atFront : Entry → Bool
  | .line _ _ _ => true
  | .advance _ _ => true
  | .commit .codeMap _ => false
  | .commit .glyphs _ => false
  | .commit .strike _ => true
  | .commit .profile _ => true
  | .settings _ pass => pass.isSome
  | .form _ _ => true
  | .geometry _ _ _ _ => true

/-- The place of the front: the oldest such entry (R31). -/
def frontIndex (q : Queue) : Option Nat := q.entries.findIdx? Entry.atFront

/-- The front entry (R31). -/
def frontEntry (q : Queue) : Option Entry := q.entries.find? Entry.atFront

/-- The front entry is removed, and DR latched if the queue is left empty (R33, R34). -/
def removeFront (s : State) : State :=
  match frontIndex s.queue with
  | some i => latchDrained (removeAt i s)
  | none => s

/-- The header of the line at the front. -/
def frontHeader (q : Queue) : Option LineHeader :=
  match frontEntry q with
  | some (.line h _ _) => some h
  | _ => none

/-! ## The build cursor (R28) -/

/-- The inputs read at the start of a build (R63). -/
def readBuildInputs (h : LineHeader) (parts : List (List Byte)) (s : State) : BuildInputs :=
  { header := h, parts := parts, tRec := s.settings.tRec, floor := s.settings.qualityFloor,
    subst := s.settings.substSlot, codeMap := s.tables.codeMap, loadable := s.tables.loadable,
    cruises := (List.range 4).map (liveCruise s.tables) }

/-- A build starts in a buffer: the line BUILDING, the buffer FILLING (R26, R28, R62). -/
def startBuild (i : Nat) (b : BufId) (h : LineHeader) (parts : List (List Byte)) (s : State) : State :=
  setEntry i (.line h parts (.building b)) (s.updBuffers fun bs => bs.set b (.filling (readBuildInputs h parts s)))

/-- The builder considers the entry under the cursor; none when it stops there (R28). -/
def builderStep (s : State) : Option State :=
  let i := s.queue.cursor
  match s.queue.entries[i]? with
  | none => none
  | some (.commit .codeMap page) => some (latchDrained (removeAt i (applyCommit .codeMap page s)))
  | some (.commit .glyphs page) => some (latchDrained (removeAt i (applyCommit .glyphs page s)))
  | some (.commit .strike _) => some (moveCursor s)
  | some (.commit .profile _) => none
  | some (.settings (some p) none) =>
    some (latchDrained (removeAt i (s.updSettings (applyBuildPart p))))
  | some (.settings (some p) (some q)) =>
    some (moveCursor (setEntry i (.settings none (some q)) (s.updSettings (applyBuildPart p))))
  | some (.settings none _) => some (moveCursor s)
  | some (.advance _ _) => some (moveCursor s)
  | some (.form _ _) => some (moveCursor s)
  | some (.geometry _ _ _ _) => some (moveCursor s)
  | some (.line h parts .complete) => s.buffers.firstFree.map fun b => startBuild i b h parts s
  | some (.line _ _ .opened) => none
  | some (.line _ _ (.building _)) => none
  | some (.line _ _ (.built _)) => some (moveCursor s)
  | some (.line _ _ (.active _)) => some (moveCursor s)

/-- The line under the cursor that is BUILDING, with its buffer and the inputs its build read. -/
def buildInProgress (s : State) : Option (LineHeader × List (List Byte) × BufId × BuildInputs) :=
  match s.queue.entries[s.queue.cursor]? with
  | some (.line h parts (.building b)) =>
    match s.buffers.get b with
    | .filling inp => some (h, parts, b, inp)
    | _ => none
  | _ => none

/-- The end of a build: image and figures fixed, counts added, CL and DS latched, buffer READY, line BUILT, cursor to the
next entry (R78, R79). -/
def endBuild (h : LineHeader) (parts : List (List Byte)) (b : BufId) (r : BuildResult) (s : State) : State :=
  let s := s.updBuffers fun bs => bs.set b (.ready r.image)
  let s := s.updBuilder fun c =>
    { clipped := satAdd 65535 c.clipped r.clipped, suppressed := satAdd 65535 c.suppressed r.suppressed }
  let s := latchIf (r.clipped != 0) .CL s
  let s := latchIf (r.suppressed != 0) .DS s
  moveCursor (setEntry s.queue.cursor (.line h parts (.built b)) s)

end Sys2Proof.Machine
end

