-- ==== Sys2Proof/Machine/Forms.lean ====
section
/-! DEFINITION. The Forms Drive: feed steps, the tractor, tear-off, return, loading, ejection (09_forms_feed_and_tractor.md). -/

namespace Sys2Proof.Machine

/-! ## Feed steps -/

/-- The tractor at the beginning of a forward step: acc rises by the ratio, and one forward tractor step is begun for
every 16 in it (R141). -/
def tractorForward (ratio : Nat) (f : Forms) : Forms :=
  { f with acc := (f.acc + ratio) % 16, tractorMotor := f.tractorMotor + ((f.acc + ratio) / 16 : Nat),
           feedMotor := f.feedMotor + 1 }

/-- The tractor at the beginning of a reverse step: acc falls by the ratio, and one reverse tractor step is begun for
every 16 added to bring it to 0 or above (R141). -/
def tractorReverse (ratio : Nat) (f : Forms) : Forms :=
  { f with acc := (((f.acc : Int) - ratio) % 16).toNat, tractorMotor := f.tractorMotor + ((f.acc : Int) - ratio) / 16,
           feedMotor := f.feedMotor - 1 }

/-- The tractor at the beginning of a step (R141). -/
def tractorStep (ratio : Nat) (dir : FeedDir) (f : Forms) : Forms :=
  match dir with
  | .forward => tractorForward ratio f
  | .reverse => tractorReverse ratio f

/-- The next step of the feed begins if the lever is CLOSED; else the feed is suspended (R140, R155). -/
def startStep (s : State) : State :=
  match s.forms.feed with
  | some f =>
    if f.suspended ∧ f.remaining ≠ 0 ∧ s.forms.lever = .closed then
      s.updForms fun g => { tractorStep s.geometry.ratio f.dir g with feed := some { f with suspended := false } }
    else s
  | none => s

/-- A feed begins (R140). A feed of 0 steps ends in the same event (`feedEnds`). -/
def beginFeed (purpose : Purpose) (dir : FeedDir) (n : Nat) (s : State) : State :=
  startStep (s.updForms fun g =>
    { g with feed := some { purpose := purpose, dir := dir, total := n, remaining := n, suspended := true,
                            ending := .goOn } })

/-- No feed is in progress any more. -/
def clearFeed (s : State) : State := s.updForms fun g => { g with feed := none }

/-- p and the form count at a forward arrival (R142). -/
def countForward (f : Forms) : Forms :=
  if f.position + 1 ≥ f.length then { f with position := 0, count := (f.count + 1) % 65536 }
  else { f with position := f.position + 1 }

/-- p and the form count at a reverse arrival (R142). -/
def countReverse (f : Forms) : Forms :=
  if f.position = 0 then { f with position := f.length - 1, count := (f.count + 65535) % 65536 }
  else { f with position := f.position - 1 }

/-- The end-tracking remainder at an arrival (R152). -/
def trackStep (sensorDist : Nat) (dir : FeedDir) (f : Forms) : Forms :=
  match f.tracking, dir with
  | some r, .forward => { f with tracking := some (r - 1) }
  | some r, .reverse => { f with tracking := some (min sensorDist (r + 1)) }
  | none, _ => f

/-- The counts at the arrival of a feed step; a loading changes neither p nor the form count (R142, R150, R152). -/
def arriveStep (sensorDist : Nat) (f : Feed) (g : Forms) : Forms :=
  let g := if f.purpose = .loading then g else
    match f.dir with
    | .forward => countForward g
    | .reverse => countReverse g
  { trackStep sensorDist f.dir g with feed := some { f with remaining := f.remaining - 1, suspended := true } }

/-! ## Paper states -/

/-- NO FORMS is entered, and PO latched (R153). -/
def enterNoForms (s : State) : State := latch .PO (s.updForms fun g => { g with paper := .noForms, feed := none })

/-- Paper out with remainder `r`: PO latched, tracking ends, EJECTING with a forward feed of r + the tear gap; a tear-off
so ended has no return (R149, R153). -/
def eject (r : Nat) (s : State) : State :=
  beginFeed .ejection .forward (r + s.geometry.tearGap)
    (latch .PO (s.updForms fun g => { g with paper := .ejecting, tracking := none, tearAdvance := none, feed := none }))

/-- The tear advance a_t = ((L − p) mod L) + the tear gap (R148). -/
def tearAdvanceOf (f : Forms) (tearGap : Nat) : Nat := (f.length - f.position) % f.length + tearGap

/-- A tear-off begins (R148). -/
def beginTearOff (s : State) : State :=
  let a := tearAdvanceOf s.forms s.geometry.tearGap
  beginFeed .tearAdvance .forward a (s.updForms fun g => { g with paper := .tearing, tearAdvance := some a })

/-- The return from AT TEAR begins (R149). -/
def beginReturn (s : State) : State :=
  beginFeed .return .reverse (s.forms.tearAdvance.getD 0) (s.updForms fun g => { g with paper := .returning })

/-- AT PRINT is entered, a_t is discarded and a kept paper request answered (R149). -/
def arriveAtPrint (s : State) : State :=
  s.updForms fun g => { g with paper := .atPrint, tearAdvance := none, paperRequest := false, feed := none }

/-- LOADING is entered with its feed of S_e steps (R150). -/
def beginLoading (s : State) : State :=
  beginFeed .loading .forward s.geometry.sensorDist (s.updForms fun g => { g with paper := .loading })

/-- What the drive does when paper motion has stopped for a RESET, by paper state (R157). -/
def resetPaper (s : State) : State :=
  match s.forms.paper with
  | .atPrint => clearFeed s
  | .tearing => arriveAtPrint s
  | .atTear => arriveAtPrint s
  | .returning => arriveAtPrint s
  | .loading => beginLoading s
  | .ejecting => beginFeed .ejection .forward ((s.forms.feed.map (·.total)).getD 0) s
  | .noForms => s

/-- The drive at a RESET: a step in progress completes first, anything else stops at once (R157, log 10). A loading already
cut short by its sensor stays so and ends in NO FORMS (log 29). -/
def resetForms (s : State) : State :=
  let s := s.updForms fun g => { g with paperRequest := false }
  match s.forms.feed with
  | some f =>
    if f.suspended then resetPaper s
    else if f.ending = .cutShort then s
    else s.updForms fun g => { g with feed := some { f with ending := .reset } }
  | none => resetPaper s

/-- The remaining steps of a feed are abandoned: at the arrival of the step in progress, or at once when the feed is
suspended (R145, R156). -/
def abandonFeed (test : Purpose → Bool) (s : State) : State :=
  match s.forms.feed with
  | some f =>
    if test f.purpose then
      if f.suspended then clearFeed s
      else s.updForms fun g => { g with feed := some { f with ending := .abandon } }
    else s
  | none => s

/-- A form marker carried out (R143). -/
def applyForm (length skip : BitVec 16) (s : State) : State :=
  let l := clamp 288 6912 length.toNat
  s.updForms fun g => { g with length := l, skip := min (l - 144) skip.toNat, position := 0 }

/-- A geometry marker applied, or discarded with GL when the lock is locked (R152, R165). -/
def applyGeometry (stagger : Byte) (tearGap sensorDist : BitVec 16) (ratio : Byte) (s : State) : State :=
  if s.run.locked then latch .GL s
  else
    let geo := clampGeometry stagger tearGap sensorDist ratio
    ((s.updGeometry fun _ => geo).updForms fun g => { g with tracking := g.tracking.map (min geo.sensorDist) }).updRun
      fun r => { r with locked := true }

/-- The skip check of a first pass: z above 0 and p at least L − z (R146). -/
def skipDue (f : Forms) : Bool := decide (0 < f.skip ∧ f.length - f.skip ≤ f.position)

/-- The tear timer's conditions (R147). -/
def tearTimerDue (s : State) : Bool :=
  s.run.executor = .ready && s.queue.entries.isEmpty && s.forms.paper = .atPrint && s.settings.tearDelay != 0

/-- The presence timer's conditions (R150). -/
def presenceDue (s : State) : Bool := s.forms.paper = .noForms && s.pins.formsPresent && s.forms.lever != .opened

/-- The tear timer starts when its conditions come to hold, keeping the delay it started with, and stops when one of them
ceases; the presence timer likewise (R147, R150, R164). -/
def judgeTimers (s : State) : State :=
  s.updForms fun g =>
    { g with
      tearTimer := if tearTimerDue s then some (g.tearTimer.getD s.settings.tearDelay) else none
      presenceTimer := presenceDue s }

/-- Each admission restarts the tear timer (R21, R147); `judgeTimers` starts it again if its conditions hold. -/
def restartTearTimer (s : State) : State := s.updForms fun g => { g with tearTimer := none }

end Sys2Proof.Machine
end

