-- ==== Sys2Proof/Machine/Firing.lean ====
section
/-! DEFINITION. Firing an entry, the on-timers, driver faults, and the heat of a fire (07, 08). -/

namespace Sys2Proof.Machine

/-- H's greatest value (R129). -/
def heatMax : Nat := 1048575

/-- The effective width of a fire: the lesser of 4 × the strike entry and the pass recovery time less 50 (R119). -/
def effectiveWidth (strike : Page) (formsClass band tRec : Nat) : Nat :=
  min (4 * strikeEntry strike formsClass band) (tRec - 50)

/-- The heat of a fire of `n` pins at width `w` (R130). -/
def addHeat (n w : Nat) (h : Heat) : Heat := { h with level := satAdd heatMax h.level (n * (w / 4)) }

/-- The cooling of one tick: ceil(H/256), nothing from 0 (R131). -/
def coolHeat (h : Heat) : Heat := { h with level := h.level - ceilDiv h.level 256 }

/-- On-timers loaded afresh leave the fire they ran for (R120). -/
def dropPins (pins : PinMask) (ps : List Pulse) : List Pulse :=
  (ps.map fun p => { p with pins := p.pins &&& ~~~pins }).filter fun p => p.pins != 0

/-- The pins energized: those whose on-timer runs (R116). -/
def energized (ps : List Pulse) : PinMask := ps.foldr (fun p m => p.pins ||| m) 0

/-- An entry is fired (R118, R119, R124, R130). -/
def fireEntry (mask : PinMask) (tRec : Nat) (s : State) : State :=
  let w := effectiveWidth s.tables.strike s.settings.formsClass s.heat.band tRec
  let fired := mask &&& ~~~s.firing.dead
  let skipped := mask &&& s.firing.dead
  let s := s.updFiring fun f =>
    { f with
      pulses := dropPins fired f.pulses ++ (if fired = 0 then [] else [{ pins := fired, width := w }])
      deadDots := satAdd 65535 f.deadDots (pinCount skipped) }
  let s := latchIf (skipped != 0) .DS s
  s.updHeat (addHeat (pinCount fired) w)

/-- The marked entry is handed: fired when ARMED, not when SILENT; the last entry handed while ARMED is noted
(R97, R118, R122, R126). -/
def handEntry (sc : Schedule) (f : Fire) (s : State) : State :=
  let s := s.updPlanner fun p => { p with schedule := some { sc with mark := sc.mark + 1 } }
  match s.firing.state with
  | .armed tRec =>
    let s := fireEntry f.mask tRec s
    if sc.mark + 1 = sc.fires.length then s.updFiring fun g => { g with lastPending := true } else s
  | _ => s

/-- An arrival of the pass run is offered to the schedule (R97). -/
def offerArrival (s : State) : State :=
  match s.planner.schedule, s.carriage.position with
  | some sc, some p =>
    match sc.fires[sc.mark]? with
    | some f => if f.pos = p then handEntry sc f s else s
    | none => s
  | _, _ => s

/-- The last fire is done: noted and no pin energized (R122). -/
def lastFireDue (s : State) : Bool := s.firing.lastPending && s.firing.pulses.isEmpty

/-- The schedule is discarded and the Firing Unit IDLE; on-timers run on (R99, R117). -/
def discardSchedule (s : State) : State :=
  (s.updPlanner fun p => { p with schedule := none }).updFiring fun f => { f with state := .idle }

/-- A last fire noted and not reported is given up (log 17). -/
def forgetLastFire (s : State) : State := s.updFiring fun f => { f with lastPending := false }

/-- The pulses of a fire end: its pins are de-energized and those whose driver reads fault join the dead-pin set, with PF
(R120, R123). -/
def endPulse (i : Nat) (p : Pulse) (faults : PinMask) (s : State) : State :=
  let joined := p.pins &&& faults &&& ~~~s.firing.dead
  latchIf (joined != 0) .PF
    (s.updFiring fun f => { f with pulses := f.pulses.eraseIdx i, dead := f.dead ||| joined })

/-- The event takes the set from fewer than 3 pins to 3 or more (R123). -/
def isThirdDead (before after : PinMask) : Bool := decide (pinCount before < 3 ∧ 3 ≤ pinCount after)

/-- ARMED goes to SILENT at the third dead pin (R125). -/
def goSilent (s : State) : State :=
  s.updFiring fun f =>
    { f with state := match f.state with
        | .armed t => .silent t
        | st => st }

end Sys2Proof.Machine
end

