-- ==== Sys2Proof/Machine/Carriage.lean ====
section
/-! DEFINITION. Carriage moves: step intervals, the home check, homing, deceleration (06_carriage_motion.md). -/

namespace Sys2Proof.Machine

/-- The ramp index of the step in progress: min(j, d − 1 − j) (R101). -/
def Move.rampIndex (m : Move) : Nat := min m.idx (m.len - 1 - m.idx)

/-- The interval of the step in progress (R101). -/
def Move.interval (m : Move) : Nat := m.profile.ramp.getD m.rampIndex m.profile.cruise

/-- The interval of the step in progress in each motion state, none at rest; a homing step takes 1,000 µs (R101, R106,
R111). -/
def Drive.interval : Drive → Option Nat
  | .unhomed => none
  | .stopped => none
  | .homing _ => some 1000
  | .positioning m _ => some m.interval
  | .passRun m => some m.interval
  | .stopping d => some d.interval

/-- The pass run as a move from rest (R103). -/
def runMove (r : PassRun) : Move :=
  { side := r.side, len := (r.stop - r.start).natAbs, idx := 0, profile := r.profile }

/-- A pass handed over with the carriage at `p`: the positioning move, or the run at once (R102). -/
def beginPass (r : PassRun) (p : Int) : Drive :=
  let d := (r.start - p).natAbs
  if d = 0 then .passRun (runMove r)
  else .positioning { side := if p < r.start then .rightward else .leftward, len := d, idx := 0, profile := r.profile } r

/-- The deceleration that a RESET puts in place of a move (R111). -/
def decelOf (m : Move) : Decel :=
  { side := m.side, interval := m.interval, left := min m.rampIndex m.profile.ramp.length, profile := m.profile }

/-- The Carriage Drive at a RESET, by motion state (R111, R112). -/
def resetDrive : Drive → Drive
  | .positioning m _ => .stopping (decelOf m)
  | .passRun m => .stopping (decelOf m)
  | .homing h => .homing { h with restart := true }
  | d => d

/-- The carriage moves in POSITIONING, PASS RUN or STOPPING (R159). -/
def Drive.moving : Drive → Bool
  | .positioning _ _ => true
  | .passRun _ => true
  | .stopping _ => true
  | _ => false

/-- The step in progress arrives: the sensor is read and a known position changes by one (R100, R109). -/
def arriveCarriage (side : Side) (homeActive : Bool) (s : State) : State :=
  (s.updPins fun p => { p with homeSensor := homeActive }).updCarriage fun c =>
    { c with position := c.position.map side.next }

/-- The home check at a known position: 24 or less must find the sensor active, 25 or more inactive (R109). -/
def homeCheck (position : Option Int) (homeActive : Bool) : Bool :=
  match position with
  | some p => decide (p ≤ 24) == homeActive
  | none => true

def setDrive (d : Drive) (s : State) : State := s.updCarriage fun c => { c with drive := d }

/-- Homing begins, with the position unknown, by the sensor's reading (R106). -/
def beginHoming (s : State) : State :=
  s.updCarriage fun _ => carriageDefault s.pins.homeSensor

end Sys2Proof.Machine
end

