-- ==== Sys2Proof/Machine/RunControl.lean ====
section
/-! DEFINITION. Run Control: the executor, the entry in hand, pass starts, reports, the fault stop
(10_run_control_and_attention.md). -/

namespace Sys2Proof.Machine

/-! ## The executor -/

/-- An entry is being carried out (R158). -/
def Executor.executing : Executor → Bool
  | .running => true
  | .waiting => true
  | .halting => true
  | _ => false

/-- The wait reason is set: RUNNING and WAITING follow it, HALTING keeps its state (R158, R162). -/
def setWait (r : WaitReason) (s : State) : State :=
  s.updRun fun c =>
    match c.executor with
    | .running => { c with executor := if r = .none then .running else .waiting, reason := r }
    | .waiting => { c with executor := if r = .none then .running else .waiting, reason := r }
    | .halting => { c with reason := r }
    | _ => c

def setInHand (h : Option InHand) (s : State) : State := s.updRun fun c => { c with inHand := h }

/-- The reason shown while paper AT PRINT is awaited (R149, R159). -/
def paperReason : Paper → WaitReason
  | .tearing => .paperReturning
  | .atTear => .paperReturning
  | .returning => .paperReturning
  | .noForms => .paper
  | .loading => .paper
  | .ejecting => .paper
  | .atPrint => .none

/-- The executor when Run Control leaves an entry: RUNNING and WAITING to READY, HALTING to HALTED (R159, R162, R163). -/
def Executor.leaveEntry : Executor → Executor
  | .running => .ready
  | .waiting => .ready
  | .halting => .halted
  | e => e

/-- Run Control leaves the entry in hand. -/
def leaveEntry (s : State) : State :=
  s.updRun fun c => { c with executor := c.executor.leaveEntry, reason := .none, inHand := none }

/-- READY is entered; an entry still in hand after a fault stop is taken up again (R163, log 11). -/
def enterReady (s : State) : State :=
  s.updRun fun c => { c with executor := if c.inHand = none then .ready else .running, reason := .none }

def forgetDirection (s : State) : State := s.updPlanner fun p => { p with keptDir := none }

/-- The entry in hand is finished: removed, and Run Control leaves it (R159, R99). -/
def finishEntry (s : State) : State := leaveEntry (forgetDirection (removeFront s))

/-! ## The start of a pass (R84, R160) -/

/-- The image of the ACTIVE line at the front. -/
def activeImage (s : State) : Option Image :=
  match frontEntry s.queue with
  | some (.line _ _ (.active b)) =>
    match s.buffers.get b with
    | .inUse img => some img
    | _ => none
  | _ => none

/-- What the plan reads at a pass start (R84). -/
def planInputs (img : Image) (s : State) : PlanInputs :=
  { image := img, stagger := s.geometry.stagger, flightTime := s.settings.flightTime,
    alignment := s.settings.alignment, profile := liveProfile s.tables (passClass img.cls s.heat.band) }

/-- The direction of the pass that starts (R85, R87). -/
def passDirection (first : Bool) (h : LineHeader) (inp : PlanInputs) (p : Int) (s : State) : Side :=
  if first then firstDirection inp (dirRequestOf h.dirReq) s.settings.bidirectional p
  else secondDirection (s.planner.keptDir.getD .rightward) s.settings.bidirectional

/-- A pass starts: the geometry locks, the plan is made and handed to the Carriage Drive and the Firing Unit (R84, R96,
R117, R160, R165). -/
def startPass (first : Bool) (h : LineHeader) (img : Image) (p : Int) (s : State) : State :=
  let inp := planInputs img s
  let side := passDirection first h inp p s
  let two := h.twoPass != 0
  let s := setDrive (beginPass (passRunOf inp side) p) s
  let s := s.updPlanner fun _ =>
    { schedule := some { fires := fireSchedule inp side, mark := 0 },
      keptDir := if first && two then some side else none }
  let s := s.updFiring fun f => { f with state := .armed img.tRec, lastPending := false }
  let s := s.updRun fun r => { r with locked := true }
  setWait .none (setInHand (some (.linePass (!(first && two)) false false)) s)

/-- The checks of a pass start, in order; the last run through them stops at the first that does not pass (R160). -/
def runChecks (first : Bool) (s : State) : State :=
  let stopAt (n : Need) (s : State) : State := setInHand (some (.lineDue first n)) s
  if s.forms.paper ≠ .atPrint then stopAt .paper s
  else if s.forms.feed.isSome then setWait .none (stopAt .paperStill s)
  else if s.forms.lever ≠ .closed then setWait .lever (stopAt .lever s)
  else
    match s.carriage.drive, s.carriage.position with
    | .stopped, some p =>
      if first && skipDue s.forms then
        setWait .none (stopAt .skipFeed (beginFeed .skip .forward (s.forms.length - s.forms.position) s))
      else
        match s.forms.tracking.filter (· < 144) with
        | some r => stopAt .paper (eject r s)
        | none =>
          if s.heat.band = 3 then
            setWait .heat (stopAt .heat (latch .HW (s.updHeat fun h => { h with hold := true })))
          else
            match frontHeader s.queue, activeImage s with
            | some h, some img => startPass first h img p s
            | _, _ => stopAt .carriage s
    | _, _ => setWait .none (stopAt .carriage s)

/-- All six checks pass, so a run through them starts the pass (R160). -/
def checksPass (first : Bool) (s : State) : Bool :=
  s.forms.paper = .atPrint && s.forms.feed.isNone && s.forms.lever = .closed && s.carriage.drive = .stopped &&
    s.carriage.position.isSome && !(first && skipDue s.forms) && !(s.forms.tracking.any fun r => decide (r < 144)) &&
    s.heat.band != 3 && (activeImage s).isSome

/-- The need at which the last run through the checks stopped has been met (R160). -/
def needMet (n : Need) (s : State) : Bool :=
  match n with
  | .ready => true
  | .paper => s.forms.paper = .atPrint
  | .paperStill => s.forms.feed.isNone
  | .lever => s.forms.lever = .closed
  | .carriage => s.carriage.drive = .stopped
  | .skipFeed => false
  | .heat => !s.heat.hold

/-- A pass start is due, its need is met and all the checks pass: only the start itself is still to be made (R160). -/
def passStartReady (s : State) : Bool :=
  match s.run.inHand with
  | some (.lineDue first n) => s.run.executor.executing && needMet n s && checksPass first s
  | _ => false

/-! ## Taking up and carrying out (R159, R160) -/

/-- A BUILT line becomes ACTIVE, its buffer IN USE (R26, R32, R62). -/
def activateLine (i : Nat) (h : LineHeader) (parts : List (List Byte)) (b : BufId) (s : State) : State :=
  match s.buffers.get b with
  | .ready img =>
    let s := s.updBuffers fun bs => bs.set b (.inUse img)
    let s := setEntry i (.line h parts (.active b)) s
    let hand : InHand := if img.extent.isNone then .lineFeed false else .lineDue true .ready
    setWait .none (setInHand (some hand) s)
  | _ => s

/-- The front entry, READY and with the carriage not moving, is taken up; entries with no needs are finished at once
(R57, R159, R164). -/
def takeUp (i : Nat) (e : Entry) (s : State) : State :=
  let running (h : InHand) (s : State) : State := s.updRun fun c => { c with executor := .running, inHand := some h }
  match e with
  | .commit id page => latchDrained (removeAt i (applyCommit id page s))
  | .settings build (some p) =>
    let s := (s.updSettings (applyPassSettings p)).updHeat (applyThresholds p)
    if build.isNone then latchDrained (removeAt i s) else setEntry i (.settings build none) s
  | .settings _ none => s
  | .form _ _ => running .marker s
  | .geometry _ _ _ _ => running .marker s
  | .advance _ _ => running (.advance false) s
  | .line _ _ (.built _) => running .notBuilt s
  | .line _ _ (.active _) => running (.lineDue true .ready) s
  | .line _ _ _ => setWait .notBuilt (running .notBuilt s)

/-- The front is taken up under the conditions of R159; none when they do not hold. A carriage that is HOMING with the
executor READY does not keep the front from being taken up (log 30). -/
def takeUpStep (s : State) : Option State :=
  if s.run.executor = .ready ∧ s.carriage.drive.moving = false then
    match frontIndex s.queue, frontEntry s.queue with
    | some i, some e => some (takeUp i e s)
    | _, _ => none
  else none

/-- Paper AT PRINT with no feed in progress: the drive can begin one (R140, log 12). -/
def paperFree (s : State) : Bool := s.forms.paper = .atPrint && s.forms.feed.isNone

/-- A tear-off under way that will reach AT TEAR (R144). One that a RESET has stopped, its step in progress still to arrive,
will not: an ADVANCE TEAR taken up then waits for paper AT PRINT and begins a tear-off there (log 32). -/
def tearOffUnderWay (f : Forms) : Bool :=
  match f.feed with
  | some g => f.paper = .tearing && g.ending = .goOn
  | none => false

/-- The steps of a FEED or TOP advance (R144). -/
def advanceSteps (mode : AdvanceMode) (count : BitVec 16) (f : Forms) : Nat :=
  if mode = .top then (f.length - f.position) % f.length else clampFeed count.toNat

/-- An advance in hand goes on (R144; a TEAR in a TEARING that a RESET has stopped, log 32). -/
def advanceStep (mode : AdvanceMode) (count : BitVec 16) (s : State) : Option State :=
  let started (s : State) : State := setWait .none (setInHand (some (.advance true)) s)
  match mode with
  | .tear =>
    if paperFree s then some (started (beginTearOff s))
    else if s.forms.paper = .atTear then some (finishEntry s)
    else if tearOffUnderWay s.forms then some (started s)
    else none
  | m => if paperFree s then some (started (beginFeed .advance .forward (advanceSteps m count s.forms) s)) else none

/-- The entry in hand goes on when what it waits for has come; none when it has to go on waiting (R159 to R161). -/
def carryOut (h : InHand) (s : State) : Option State :=
  match h, frontEntry s.queue with
  | .notBuilt, some (.line hd parts (.built b)) =>
    (frontIndex s.queue).map fun i => activateLine i hd parts b s
  | .marker, some (.form l z) => if s.forms.paper = .atPrint then some (finishEntry (applyForm l z s)) else none
  | .marker, some (.geometry d g e r) =>
    if s.forms.paper = .atPrint then some (finishEntry (applyGeometry d g e r s)) else none
  | .advance false, some (.advance mode count) => advanceStep (advanceModeOf mode) count s
  | .lineFeed false, some (.line hd _ _) =>
    if paperFree s then
      some (setWait .none (setInHand (some (.lineFeed true))
        (beginFeed .afterLine .forward (clampFeed hd.feedAfter.toNat) s)))
    else none
  | .lineDue first n, some (.line _ _ _) => if needMet n s then some (runChecks first s) else none
  | _, _ => none

/-- Run Control acts: the entry in hand goes on, or the front is taken up. -/
def runStep (s : State) : Option State :=
  match s.run.inHand with
  | some h => if s.run.executor.executing then carryOut h s else none
  | none => takeUpStep s

/-- The entry in hand waits for paper AT PRINT (R149, R159). -/
def needsPaper (s : State) : Bool :=
  s.run.executor.executing &&
  match s.run.inHand with
  | some .marker => true
  | some (.advance false) => true
  | some (.lineFeed false) => true
  | some (.lineDue _ .paper) => true
  | _ => false

/-- A paper request is made with its wait reason, or a kept request starts the return from AT TEAR (R149, R159; also for an
ADVANCE TEAR in a TEARING that a RESET has stopped, log 32). -/
def requestStep (s : State) : Option State :=
  if needsPaper s && (s.run.reason != paperReason s.forms.paper ||
      (s.forms.paper != .atPrint && !s.forms.paperRequest)) then
    some (setWait (paperReason s.forms.paper)
      (s.updForms fun g => { g with paperRequest := decide (s.forms.paper ≠ .atPrint) }))
  else if s.forms.paperRequest && s.forms.paper = .atTear && s.forms.feed.isNone then some (beginReturn s)
  else none

/-! ## Reports to Run Control -/

/-- "Feed complete" (R140, R144, R145, R146, R161). An advance that a fault stop has left in hand is finished and removed
here also while the executor is still in FAULT STOP (log 11). -/
def feedComplete (p : Purpose) (s : State) : State :=
  match p, s.run.inHand with
  | .afterLine, some (.linePass true true _) => finishEntry s
  | .afterLine, some (.linePass true false _) => setInHand (some (.linePass true false true)) s
  | .afterLine, some (.lineFeed true) => finishEntry s
  | .advance, some (.advance true) => finishEntry s
  | .skip, some (.lineDue first .skipFeed) => setInHand (some (.lineDue first .ready)) s
  | _, _ => s

/-- The end of a tear advance is reported; an ADVANCE TEAR that waited on it is finished (R144), also in FAULT STOP
(log 11). -/
def tearEnded (s : State) : State :=
  match s.run.inHand with
  | some (.advance true) => finishEntry s
  | _ => s

/-- A feed ends at its last step (R140, R144, R148, R149, R151, R153). -/
def endFeed (p : Purpose) (s : State) : State :=
  match p with
  | .tearAdvance => tearEnded (s.updForms fun g => { g with paper := .atTear, feed := none })
  | .return => arriveAtPrint s
  | .loading =>
    if s.pins.formsPresent then (arriveAtPrint s).updForms fun g => { g with position := 0 } else enterNoForms s
  | .ejection => enterNoForms s
  | p => feedComplete p (clearFeed s)

/-- A feed with no step left and none in progress ends in the same event (R140). -/
def feedEnds (s : State) : Option State :=
  match s.forms.feed with
  | some f => if f.remaining = 0 then some (endFeed f.purpose s) else none
  | none => none

/-- "Last fire done" of a line's last pass: the feed after line is requested (R122, R145, R161). -/
def lastFireDone (s : State) : State :=
  match s.run.inHand, frontHeader s.queue with
  | some (.linePass true _ false), some h => beginFeed .afterLine .forward (clampFeed h.feedAfter.toNat) s
  | _, _ => s

/-- The last fire is examined again and reported once (R122). -/
def reportLastFire (s : State) : State := if lastFireDue s then lastFireDone (forgetLastFire s) else s

/-- "Run stopped" (R103, R161). -/
def runStopped (s : State) : State :=
  match s.run.inHand with
  | some (.linePass false _ _) => setInHand (some (.lineDue false .ready)) s
  | some (.linePass true _ true) => finishEntry s
  | some (.linePass true _ false) => setInHand (some (.linePass true true false)) s
  | _ => s

/-- "Homing complete" takes the executor from HOMING to READY (R107, R161, R170). -/
def homingComplete (s : State) : State := if s.run.executor = .homing then enterReady s else s

/-! ## The fault stop (R163) -/

/-- The ACTIVE line in hand is discarded: removed, its feeds stopped, a heat hold on it ended (R35, R136, R145, R156, R163).
That its kept paper request is withdrawn too is the model's choice (log 33). -/
def discardActive (s : State) : State :=
  let s := removeFront s
  let s := forgetDirection s
  let s := s.updHeat fun h => { h with hold := false }
  let s := abandonFeed (fun p => p = .afterLine ∨ p = .skip) s
  let s := s.updForms fun g => { g with paperRequest := false }
  setInHand none s

/-- A fault stop (R163). -/
def faultStop (s : State) : State :=
  if s.run.executor = .faultStop then s
  else
    let s := s.updRun fun c => { c with executor := .faultStop, reason := .none }
    match s.run.inHand with
    | some (.lineDue _ _) => discardActive s
    | some (.linePass _ _ _) => discardActive s
    | some (.lineFeed _) => discardActive s
    | some (.advance true) => s
    | _ => setInHand none (s.updForms fun g => { g with paperRequest := false })

/-- A carriage fault (R110). -/
def carriageFault (s : State) : State :=
  let s := s.updCarriage fun _ => { position := none, drive := .unhomed }
  faultStop (latch .CF (forgetLastFire (discardSchedule s)))

/-- The third dead pin (R125). -/
def thirdDeadPin (s : State) : State := faultStop (forgetLastFire (goSilent s))

end Sys2Proof.Machine
end

