-- ==== Sys2Proof/Machine/Admission.lean ====
section
/-! DEFINITION. Offers to the Line Queue and the working out of an event (R12, R13, R21 to R25, R28, R56, R159). -/

namespace Sys2Proof.Machine

/-- The answers to an offer: the frame leaves the lane Q order (admitted, refused or discarded), or there is no room and it
waits (R12). -/
inductive Offer where
  | gone (s : State)
  | noRoom (s : State)
  deriving DecidableEq, Repr

/-- The OPEN line at the tail is discarded and SQ latched; if Run Control has it in hand it gives it up
(R23, R24, R160). -/
def discardOpen (s : State) : State :=
  let i := s.queue.entries.length - 1
  let inHand := frontIndex s.queue = some i ∧ s.run.inHand = some .notBuilt
  let s := latch .SQ (removeAt i s)
  if inHand then leaveEntry s else s

/-- The OPEN line at the tail, if there is one, is discarded (R21 step 1, R24). -/
def discardOpenTail (s : State) : State := if (openTail s.queue).isSome then discardOpen s else s

/-- An entry is admitted at the tail (R21 step 5, R28). -/
def admitEntry (e : Entry) (s : State) : State := restartTearTimer (appendEntry e s)

/-- A record that needs one free entry and no arena bytes (R25). -/
def offerEntry (e : Entry) (s : State) : Offer :=
  if s.queue.hasEntry then .gone (admitEntry e s) else .noRoom s

/-- A first part (R22). -/
def offerFirst (h : LineHeader) (more : Bool) (runs : List Byte) (s : State) : Offer :=
  if s.queue.hasEntry ∧ runs.length ≤ s.queue.arenaFree then
    .gone (admitEntry (.line h [runs] (if more then .opened else .complete)) s)
  else .noRoom s

/-- A continuation part (R23). -/
def offerContinuation (more : Bool) (runs : List Byte) (s : State) : Offer :=
  match openTail s.queue with
  | none => .gone (latch .SQ s)
  | some (h, parts) =>
    if maxLineBytes < (parts.map List.length).sum + runs.length then .gone (discardOpen s)
    else if s.queue.arenaFree < runs.length then .noRoom s
    else
      .gone (restartTearTimer (setEntry (s.queue.entries.length - 1)
        (.line h (parts ++ [runs]) (if more then .opened else .complete)) s))

/-- A COMMIT: room, then the check against the stage (R25, R56). -/
def offerCommit (table page : Nat) (s : State) : Offer :=
  if s.queue.hasEntry then
    match commitMatches table page s.stage with
    | some b => .gone (admitEntry (.commit b.table b.page) (s.setStage (.held b)))
    | none => .gone (latch .TR s)
  else .noRoom s

/-- A SET: without a field it is accepted without an entry (R25). -/
def offerSet (f : SetFields) (s : State) : Offer :=
  match buildPartOf f, passPartOf f with
  | none, none => .gone (restartTearTimer s)
  | b, p => offerEntry (.settings b p) s

/-- The Line Queue's answer to an offered record (R21). -/
def offerRecord (r : QRecord) (s : State) : Offer :=
  match r with
  | .lineCont more runs => offerContinuation more runs s
  | .lineFirst h more runs => offerFirst h more runs (discardOpenTail s)
  | .advance mode count => offerEntry (.advance mode count) (discardOpenTail s)
  | .commit table page => offerCommit table.toNat page.toNat (discardOpenTail s)
  | .set f => offerSet f (discardOpenTail s)
  | .form l z => offerEntry (.form l z) (discardOpenTail s)
  | .geometry d g e r => offerEntry (.geometry d g e r) (discardOpenTail s)

/-- A record other than a continuation part (R24). -/
def QRecord.closesOpen : QRecord → Bool
  | .lineCont _ _ => false
  | _ => true

/-- The head of the lane Q order is offered; none when it waits and its offer changed nothing (R12, R13, R24). -/
def offerStep (s : State) : Option State :=
  match s.intake.laneQ with
  | [] => none
  | r :: rest =>
    match offerRecord r s with
    | .gone s' => some (s'.updIntake fun i => { i with laneQ := rest })
    | .noRoom s' => if r.closesOpen && (openTail s.queue).isSome then some s' else none

/-- One thing that follows in the same event: a feed of 0 steps ends, the builder goes on, Run Control acts, the head of
the lane Q order is offered, a paper request is made (R12, R13, R28, R29, R140, R149, R159; log 6). The head comes after
the builder and Run Control, so that it is offered once after all the entries that the event removes have gone (R33, log 9).
With `hold`, a pass start that has passed every check is left to be made (R113, log 31). -/
def followStep (hold : Bool) (s : State) : Option State :=
  match feedEnds s with
  | some t => some t
  | none =>
    match builderStep s with
    | some t => some t
    | none =>
      match if hold && passStartReady s then none else runStep s with
      | some t => some t
      | none =>
        match offerStep s with
        | some t => some t
        | none => requestStep s

/-- What follows in the same event, until nothing more follows; `fuel` bounds it. -/
def follow (hold : Bool) : Nat → State → State
  | 0, s => s
  | fuel + 1, s =>
    match followStep hold s with
    | some t => follow hold fuel t
    | none => s

/-- More steps than the entries and waiting frames of a state can call for. -/
def followFuel (s : State) : Nat := 16 * (s.queue.entries.length + s.intake.laneQ.length + 4)

/-- An event is worked out: all that follows, then the timers judged (log 6). -/
def finishEvent (s : State) : State := judgeTimers (follow false (followFuel s) s)

/-- The event at which a pass run stops is worked out: all that follows but a pass start that has passed every check. That
start is left due, so that a RESET taken with the arrival finds the carriage STOPPED at p_end (R113, log 31); PASS_START,
or the working out of any later event, makes it. -/
def finishRunStop (s : State) : State := judgeTimers (follow true (followFuel s) s)

end Sys2Proof.Machine
end

