-- ==== Sys2Proof/Machine/Frames.lean ====
section
/-! DEFINITION. Frames: the kinds and their lengths, payload fields, reply frames (01, 11_record_formats.md). -/

namespace Sys2Proof.Machine

/-- The intake buffer's size, and RDY's threshold (R8, R10). -/
def intakeSize : Nat := 2304
def readyThreshold : Nat := 1100

/-- The sync byte (R1). -/
def syncByte : Byte := 0xC3

/-- The sizes of a SET's fields in the order of their bits (11_record_formats.md, SET). -/
def setSizes : List Nat := [2, 1, 2, 1, 1, 1, 2, 3, 3, 3, 1]

/-- The sizes of the fields that a presence set names (bits 11 to 15 ignored). -/
def presentSizes (present : Nat) : List Nat :=
  (List.range 11).map fun k => if present.testBit k then setSizes.getD k 0 else 0

/-- Field `k` of a SET payload, where its presence set names it. -/
def setField (p : List Byte) (k : Nat) : Option Nat :=
  let present := fieldAt p 0 2
  if present.testBit k then some (fieldAt p (2 + ((presentSizes present).take k).sum) (setSizes.getD k 0)) else none

/-- A SET's length equals the presence set plus the sizes of the fields named (R5). -/
def setConsistent (p : List Byte) : Bool := decide (p.length = 2 + (presentSizes (fieldAt p 0 2)).sum)

/-- The fields of a SET payload (R171). -/
def setFieldsOf (p : List Byte) : SetFields :=
  { tRec := (setField p 0).map (BitVec.ofNat 16), qualityFloor := (setField p 1).map (BitVec.ofNat 8),
    substSlot := (setField p 2).map (BitVec.ofNat 16), formsClass := (setField p 3).map (BitVec.ofNat 8),
    bidirectional := (setField p 4).map (BitVec.ofNat 8), alignment := (setField p 5).map (BitVec.ofNat 8),
    flightTime := (setField p 6).map (BitVec.ofNat 16), hWarm := (setField p 7).map (BitVec.ofNat 24),
    hHot := (setField p 8).map (BitVec.ofNat 24), hLimit := (setField p 9).map (BitVec.ofNat 24),
    tearDelay := (setField p 10).map (BitVec.ofNat 8) }

/-- The header fields of a LINE payload (11_record_formats.md, LINE). -/
def lineHeaderOf (p : List Byte) : LineHeader :=
  { offset := BitVec.ofNat 16 (fieldAt p 1 2), step := p.getD 3 0, classReq := p.getD 4 0, dirReq := p.getD 5 0,
    twoPass := p.getD 6 0, feedAfter := BitVec.ofNat 16 (fieldAt p 7 2) }

/-- The kinds the Intake accepts (R3; 11_record_formats.md, kind codes). -/
inductive Kind where
  | line | advance | commit | set | form | geometry
  | query | halt | go | drop | reset | ack | stage | read
  deriving DecidableEq, Repr

def Kind.ofCode (c : Nat) : Option Kind :=
  match c with
  | 0x10 => some .line | 0x11 => some .advance | 0x12 => some .commit | 0x13 => some .set | 0x14 => some .form
  | 0x15 => some .geometry | 0x20 => some .query | 0x21 => some .halt | 0x22 => some .go | 0x23 => some .drop
  | 0x24 => some .reset | 0x25 => some .ack | 0x26 => some .stage | 0x27 => some .read
  | _ => none

/-- The required lane: true for lane N (R3). -/
def Kind.laneN : Kind → Bool
  | .line => false | .advance => false | .commit => false | .set => false | .form => false | .geometry => false
  | _ => true

/-- The payload lengths a kind allows (R3; 11_record_formats.md). -/
def Kind.allows (k : Kind) (n : Nat) : Bool :=
  match k with
  | .line => decide (9 ≤ n ∧ n ≤ 1024)
  | .advance => n == 3
  | .commit => n == 3
  | .set => decide (2 ≤ n ∧ n ≤ 22)
  | .form => n == 4
  | .geometry => n == 6
  | .query => n == 0
  | .halt => n == 0
  | .go => n == 0
  | .drop => n == 0
  | .reset => n == 0
  | .ack => n == 2 || n == 4
  | .stage => decide (6 ≤ n ∧ n ≤ 1006)
  | .read => n == 4

/-- A sound lane Q payload as a record; none for a lane N kind and for an inconsistent SET (R5, R171). -/
def qRecordOf (k : Kind) (p : List Byte) : Option QRecord :=
  match k with
  | .line =>
    let flags := p.getD 0 0
    if flags.getLsbD 0 then some (.lineFirst (lineHeaderOf p) (flags.getLsbD 1) (p.drop 9))
    else some (.lineCont (flags.getLsbD 1) (p.drop 9))
  | .advance => some (.advance (p.getD 0 0) (BitVec.ofNat 16 (fieldAt p 1 2)))
  | .commit => some (.commit (p.getD 0 0) (BitVec.ofNat 16 (fieldAt p 1 2)))
  | .set => if setConsistent p then some (.set (setFieldsOf p)) else none
  | .form => some (.form (BitVec.ofNat 16 (fieldAt p 0 2)) (BitVec.ofNat 16 (fieldAt p 2 2)))
  | .geometry =>
    some (.geometry (p.getD 0 0) (BitVec.ofNat 16 (fieldAt p 1 2)) (BitVec.ofNat 16 (fieldAt p 3 2)) (p.getD 5 0))
  | _ => none

/-- A sound lane N payload as a record; none for a lane Q kind (R171). -/
def nRecordOf (k : Kind) (p : List Byte) : Option NRecord :=
  match k with
  | .query => some .query
  | .halt => some .halt
  | .go => some .go
  | .drop => some .drop
  | .reset => some .reset
  | .ack =>
    some (.ack (BitVec.ofNat 16 (fieldAt p 0 2))
      (if p.length = 4 then some (BitVec.ofNat 16 (fieldAt p 2 2)) else none))
  | .stage =>
    some (.stage (p.getD 0 0) (BitVec.ofNat 16 (fieldAt p 1 2)) (BitVec.ofNat 16 (fieldAt p 3 2))
      ((p.getD 5 0).getLsbD 0) (p.drop 6))
  | .read => some (.read (p.getD 0 0) (BitVec.ofNat 16 (fieldAt p 1 2)) (p.getD 3 0))
  | _ => none

/-! ## Bytes held (R8) -/

/-- The payload length of a SET record: the presence set and the fields it names. -/
def setSize (f : SetFields) : Nat :=
  let one {α : Type} (o : Option α) (n : Nat) : Nat := if o.isSome then n else 0
  2 + one f.tRec 2 + one f.qualityFloor 1 + one f.substSlot 2 + one f.formsClass 1 + one f.bidirectional 1 +
    one f.alignment 1 + one f.flightTime 2 + one f.hWarm 3 + one f.hHot 3 + one f.hLimit 3 + one f.tearDelay 1

/-- The payload length of a lane Q record (11_record_formats.md). -/
def QRecord.payloadSize : QRecord → Nat
  | .lineFirst _ _ runs => 9 + runs.length
  | .lineCont _ runs => 9 + runs.length
  | .advance _ _ => 3
  | .commit _ _ => 3
  | .set f => setSize f
  | .form _ _ => 4
  | .geometry _ _ _ _ => 6

/-- The length of its frame: sync, kind, two length bytes, payload, check. -/
def QRecord.frameSize (r : QRecord) : Nat := 5 + r.payloadSize

/-- The bytes held: the frame under reception and the waiting lane Q frames (R8). -/
def Intake.held (i : Intake) : Nat := i.frame.length + (i.laneQ.map QRecord.frameSize).sum

/-- The free space (R8). -/
def Intake.freeSpace (i : Intake) : Nat := intakeSize - i.held

/-- RDY: asserted while the free space is 1,100 bytes or more (R10). -/
def State.rdy (s : State) : Bool := decide (readyThreshold ≤ s.intake.freeSpace)

/-! ## Replies (R15 to R17, R172) -/

/-- The check byte that brings the sum of kind, length, payload and check to 0 modulo 256 (R4, R15). -/
def checkByte (body : List Byte) : Byte := -(body.foldl (· + ·) 0)

/-- A frame with its kind byte and payload (R1, R15; 11_record_formats.md, 11.1). -/
def frameOf (kind : Byte) (payload : List Byte) : List Byte :=
  let body := kind :: toBytes payload.length 2 ++ payload
  syncByte :: body ++ [checkByte body]

/-! ## The frame of a lane Q record, as the host sends it (11.1, 11.2) -/

/-- The code of a kind. -/
def Kind.code : Kind → Nat
  | .line => 0x10 | .advance => 0x11 | .commit => 0x12 | .set => 0x13 | .form => 0x14 | .geometry => 0x15
  | .query => 0x20 | .halt => 0x21 | .go => 0x22 | .drop => 0x23 | .reset => 0x24 | .ack => 0x25 | .stage => 0x26
  | .read => 0x27

/-- The kind of a lane Q record. -/
def QRecord.kind : QRecord → Kind
  | .lineFirst _ _ _ => .line
  | .lineCont _ _ => .line
  | .advance _ _ => .advance
  | .commit _ _ => .commit
  | .set _ => .set
  | .form _ _ => .form
  | .geometry _ _ _ _ => .geometry

/-- A field of a SET as sent: nothing where it is not named. -/
def fieldBytes {w : Nat} (n : Nat) (field : Option (BitVec w)) : List Byte :=
  match field with
  | some v => toBytes v.toNat n
  | none => []

/-- The presence set of a SET: bit k is set when field k is named. -/
def presenceSet (f : SetFields) : Nat :=
  f.tRec.isSome.toNat + 2 * f.qualityFloor.isSome.toNat + 4 * f.substSlot.isSome.toNat +
    8 * f.formsClass.isSome.toNat + 16 * f.bidirectional.isSome.toNat + 32 * f.alignment.isSome.toNat +
    64 * f.flightTime.isSome.toNat + 128 * f.hWarm.isSome.toNat + 256 * f.hHot.isSome.toNat +
    512 * f.hLimit.isSome.toNat + 1024 * f.tearDelay.isSome.toNat

/-- The payload of a SET. -/
def setPayload (f : SetFields) : List Byte :=
  toBytes (presenceSet f) 2 ++ fieldBytes 2 f.tRec ++ fieldBytes 1 f.qualityFloor ++ fieldBytes 2 f.substSlot ++
    fieldBytes 1 f.formsClass ++ fieldBytes 1 f.bidirectional ++ fieldBytes 1 f.alignment ++
    fieldBytes 2 f.flightTime ++ fieldBytes 3 f.hWarm ++ fieldBytes 3 f.hHot ++ fieldBytes 3 f.hLimit ++
    fieldBytes 1 f.tearDelay

/-- The payload of a lane Q record; the bytes that a continuation part leaves unread are 0. -/
def QRecord.payload : QRecord → List Byte
  | .lineFirst h more runs =>
    BitVec.ofNat 8 (1 + 2 * more.toNat) :: toBytes h.offset.toNat 2 ++ [h.step, h.classReq, h.dirReq, h.twoPass] ++
      toBytes h.feedAfter.toNat 2 ++ runs
  | .lineCont more runs => BitVec.ofNat 8 (2 * more.toNat) :: List.replicate 8 0 ++ runs
  | .advance mode count => mode :: toBytes count.toNat 2
  | .commit table page => table :: toBytes page.toNat 2
  | .set f => setPayload f
  | .form l z => toBytes l.toNat 2 ++ toBytes z.toNat 2
  | .geometry d g e r => d :: toBytes g.toNat 2 ++ toBytes e.toNat 2 ++ [r]

/-- The frame of a lane Q record: the lane bit of its kind byte is 0. -/
def QRecord.frame (r : QRecord) : List Byte := frameOf (BitVec.ofNat 8 r.kind.code) r.payload

/-- The kind of a lane N record. -/
def NRecord.kind : NRecord → Kind
  | .query => .query
  | .halt => .halt
  | .go => .go
  | .drop => .drop
  | .reset => .reset
  | .ack _ _ => .ack
  | .stage _ _ _ _ _ => .stage
  | .read _ _ _ => .read

/-- The payload of a lane N record (11.2). -/
def NRecord.payload : NRecord → List Byte
  | .query => []
  | .halt => []
  | .go => []
  | .drop => []
  | .reset => []
  | .ack causes mask => toBytes causes.toNat 2 ++ fieldBytes 2 mask
  | .stage table page offset clearFirst data =>
    table :: toBytes page.toNat 2 ++ toBytes offset.toNat 2 ++ [BitVec.ofNat 8 clearFirst.toNat] ++ data
  | .read table page source => table :: toBytes page.toNat 2 ++ [source]

/-- The frame of a lane N record: the lane bit of its kind byte is 1. -/
def NRecord.frame (r : NRecord) : List Byte := frameOf (BitVec.ofNat 8 (128 + r.kind.code)) r.payload

/-! ## The records that the record commands stand for (log 7) -/

/-- The lane Q record of a command, if it is one. -/
def qRecordOfCommand : Instr → Option QRecord
  | .lineFirstPart h more runs => some (.lineFirst h more runs)
  | .lineContinuation more runs => some (.lineCont more runs)
  | .advance mode count => some (.advance mode count)
  | .commit table page => some (.commit table page)
  | .set f => some (.set f)
  | .form l z => some (.form l z)
  | .geometry d g e r => some (.geometry d g e r)
  | _ => none

/-- The lane N record of a command, if it is one. -/
def nRecordOfCommand : Instr → Option NRecord
  | .query => some .query
  | .read table page source => some (.read table page source)
  | .stage table page offset clearFirst data => some (.stage table page offset clearFirst data)
  | .halt => some .halt
  | .go => some .go
  | .drop => some .drop
  | .reset => some .reset
  | .ack causes mask => some (.ack causes mask)
  | _ => none

/-! ## The codes of STATUS (R172) -/

def Executor.code : Executor → Nat
  | .homing => 0 | .ready => 1 | .running => 2 | .waiting => 3 | .halting => 4 | .halted => 5 | .faultStop => 6

def WaitReason.code : WaitReason → Nat
  | .none => 0 | .heat => 1 | .paper => 2 | .lever => 3 | .notBuilt => 4 | .paperReturning => 5

def Paper.code : Paper → Nat
  | .noForms => 0 | .loading => 1 | .atPrint => 2 | .tearing => 3 | .atTear => 4 | .returning => 5 | .ejecting => 6

def Stage.code : Stage → Nat
  | .empty => 0 | .bound _ => 1 | .held _ => 2

def Buffer.code : Buffer → Nat
  | .free => 0 | .filling _ => 1 | .ready _ => 2 | .inUse _ => 3

def Drive.code : Drive → Nat
  | .unhomed => 0 | .homing _ => 1 | .stopped => 2 | .positioning _ _ => 3 | .passRun _ => 4 | .stopping _ => 5

/-- The carriage position as sent: 0xFFFF when unknown (R172). -/
def positionCode (p : Option Int) : Nat :=
  match p with
  | some x => x.toNat
  | none => 0xFFFF

/-- The STATUS payload, 46 bytes (R17, R172). -/
def statusPayload (s : State) : List Byte :=
  toBytes s.run.executor.code 1 ++ toBytes s.run.reason.code 1 ++ toBytes s.forms.paper.code 1 ++
  toBytes s.run.causes.toNat 2 ++ toBytes (firstCause s.run.causes) 1 ++ toBytes s.run.mask.toNat 2 ++
  toBytes s.queue.entries.length 1 ++ toBytes s.queue.arenaFree 2 ++
  toBytes s.stage.code 1 ++ toBytes ((s.stage.binding.map (·.table.code)).getD 0) 1 ++
  toBytes ((s.stage.binding.map (·.page)).getD 0) 2 ++ toBytes ((s.stage.binding.map (·.cursor)).getD 0) 2 ++
  toBytes s.buffers.one.code 1 ++ toBytes s.buffers.two.code 1 ++
  toBytes (positionCode s.carriage.position) 2 ++ toBytes s.carriage.drive.code 1 ++
  toBytes s.heat.level 3 ++ toBytes s.heat.band 1 ++
  toBytes s.forms.position 2 ++ toBytes s.forms.length 2 ++ toBytes s.forms.count 2 ++
  toBytes (s.forms.tracking.getD 0xFFFF) 2 ++ maskBytes s.firing.dead ++ toBytes s.run.locked.toNat 1 ++
  toBytes s.builder.suppressed 2 ++ toBytes s.firing.deadDots 2 ++ toBytes s.builder.clipped 2 ++
  toBytes s.intake.frameFaults 1 ++ toBytes s.intake.unanswered 1

/-- The stage bytes, where the stage is BOUND or HELD to a page (R59). -/
def stagedPage (g : Stage) (id : TableId) (page : Nat) : Option Page :=
  match g.binding with
  | some b => if b.table = id ∧ b.page = page then some b.bytes else none
  | none => none

/-- The TABLE DATA payload of a READ: bit 0 of the flags stage not bound, bit 1 no such page (R59, R60, R172, log 16). -/
def tablePayload (table : Byte) (page : BitVec 16) (source : Byte) (s : State) : List Byte :=
  let head (flags : Byte) : List Byte := table :: toBytes page.toNat 2 ++ [source, flags]
  match pageNamed table.toNat page.toNat with
  | none => head 2
  | some (id, n) =>
    if source = 0 then head 0 ++ livePage s.tables id n
    else
      match stagedPage s.stage id n with
      | some p => head 0 ++ p
      | none => head 1 ++ livePage s.tables id n

/-- A reply joins the reply queue, or the request is counted unanswered when it holds 4 (R16). -/
def answer (frame : List Byte) (s : State) : State :=
  if s.intake.replies.length < 4 then s.updIntake fun i => { i with replies := i.replies ++ [frame] }
  else countUnanswered s

end Sys2Proof.Machine
end

