-- ==== Sys2Proof/Machine/Control.lean ====
section
/-! DEFINITION. What the lane N records do when taken: QUERY, READ, STAGE, HALT, GO, DROP, RESET, ACK; and a lane Q frame's
arrival in its order (R11 to R17, R36, R51, R162, R163, R167, R169). -/

namespace Sys2Proof.Machine

/-- QUERY (R16, R17). -/
def takeQuery (s : State) : State := answer (frameOf 0xC0 (statusPayload s)) s

/-- READ (R16, R59, R60). -/
def takeRead (table : Byte) (page : BitVec 16) (source : Byte) (s : State) : State :=
  answer (frameOf 0xC1 (tablePayload table page source s)) s

/-- HALT (R162). -/
def haltState (e : Executor) : Executor :=
  match e with
  | .ready => .halted
  | .running => .halting
  | .waiting => .halting
  | e => e

def takeHalt (s : State) : State :=
  judgeTimers (s.updRun fun c => { c with executor := haltState c.executor })

/-- GO (R162). -/
def goState (e : Executor) (reason : WaitReason) : Executor :=
  match e with
  | .halting => if reason = .none then .running else .waiting
  | .halted => .ready
  | e => e

def takeGo (s : State) : State :=
  finishEvent (s.updRun fun c => { c with executor := goState c.executor c.reason })

/-- An ACTIVE line (R26). -/
def Entry.isActive : Entry → Bool
  | .line _ _ (.active _) => true
  | _ => false

/-- The entry is a commit marker that holds the stage (R37, R56). -/
def Entry.holdsStage (g : Stage) : Entry → Bool
  | .commit id page => g.binding.any fun b => b.table = id && b.page = page
  | _ => false

/-- The column buffers of the entries removed become FREE (R33, R36). -/
def freeBuffersOf (es : List Entry) (b : Buffers) : Buffers := es.foldl (fun b e => freeBufferOf e b) b

/-- The entry in hand is an ACTIVE line. -/
def InHand.isActive : InHand → Bool
  | .lineDue _ _ => true
  | .linePass _ _ _ => true
  | .lineFeed _ => true
  | _ => false

/-- DROP on the Line Queue: every entry but an ACTIVE line removed, its stage released, DR if it emptied the queue
(R34, R36, R37, R58, R81). -/
def dropEntries (s : State) : State :=
  let gone := s.queue.entries.filter fun e => !e.isActive
  let kept := s.queue.entries.filter Entry.isActive
  let held := gone.any (Entry.holdsStage s.stage)
  let s := s.updBuffers (freeBuffersOf gone)
  let s := s.updQueue fun _ => { entries := kept, cursor := kept.length }
  let s := if held then s.setStage (releaseStage s.stage) else s
  latchIf (!gone.isEmpty && kept.isEmpty) .DR s

/-- DROP on Run Control and the Forms Drive: an entry in hand that is no ACTIVE line is left, its paper request withdrawn,
a FEED or TOP feed stopped (R36, R156, R163). -/
def dropInHand (s : State) : State :=
  match s.run.inHand with
  | none => s
  | some h =>
    if h.isActive then s
    else leaveEntry ((abandonFeed (· = .advance) s).updForms fun g => { g with paperRequest := false })

/-- The Intake after DROP and RESET: the lane Q order empty, the frame state HUNT (R14). -/
def clearIntake (s : State) : State :=
  s.updIntake fun i => { i with laneQ := [], frame := [], frameState := .hunt, timer := false }

/-- DROP (R14, R36, R163). -/
def takeDrop (s : State) : State := finishEvent (dropEntries (dropInHand (clearIntake s)))

/-- The Intake's counters and replies at RESET: the reply being sent, the oldest, stays (R14, R15). -/
def resetIntake (s : State) : State :=
  (clearIntake s).updIntake fun i => { i with replies := i.replies.take 1, frameFaults := 0, unanswered := 0 }

/-- The pending causes after RESET: CF and PF, and condition causes whose condition holds (R169). -/
def resetCauses (s : State) : State :=
  s.updRun fun c => { c with causes := c.causes &&& (stickyCauses ||| heldCauses s) }

/-- The executor after RESET (R169). -/
def resetExecutor (e : Executor) : Executor :=
  match e with
  | .faultStop => .faultStop
  | .homing => .homing
  | _ => .ready

/-- RESET (R14, R38, R61, R82, R111, R112, R128, R138, R157, R169). -/
def takeReset (s : State) : State :=
  let s := resetIntake s
  let s := s.updQueue fun _ => { entries := [], cursor := 0 }
  let s := s.updBuffers fun _ => { one := .free, two := .free }
  let s := s.updBuilder fun _ => { clipped := 0, suppressed := 0 }
  let s := s.setStage .empty
  let s := s.updPlanner fun _ => { schedule := none, keptDir := none }
  let s := s.updFiring fun f => { f with state := .idle, deadDots := 0, lastPending := false }
  let s := s.updHeat fun h => { h with hold := false }
  let s := s.updCarriage fun c => { c with drive := resetDrive c.drive }
  let s := resetForms s
  let s := s.updRun fun c => { c with executor := resetExecutor c.executor, reason := .none, inHand := none }
  judgeTimers (restartTearTimer (resetCauses s))

/-- Run Control leaves FAULT STOP: by HOMING when the carriage is UNHOMED, else READY (R167). -/
def leaveFaultStop (s : State) : State :=
  if s.carriage.drive = .unhomed then beginHoming (s.updRun fun c => { c with executor := .homing })
  else enterReady s

/-- The causes an ACK clears: those named, but for condition causes whose condition holds; bit 15 is ignored (R167). -/
def ackCauses (named : BitVec 16) (s : State) : CauseSet :=
  s.run.causes &&& ~~~(named.setWidth 15 &&& ~~~heldCauses s)

/-- ACK, steps 1 to 3 (R127, R167). -/
def ackClear (named : BitVec 16) (mask : Option (BitVec 16)) (s : State) : State :=
  let s := s.updRun fun c =>
    { c with causes := ackCauses named s, mask := orKeep mask (fun m => m.setWidth 15) c.mask }
  if named.getLsbD 1 then s.updFiring fun f => { f with dead := 0 } else s

/-- ACK (R167). -/
def takeAck (named : BitVec 16) (mask : Option (BitVec 16)) (s : State) : State :=
  let s := ackClear named mask s
  if s.run.executor = .faultStop ∧ s.run.causes &&& stickyCauses = 0 then finishEvent (leaveFaultStop s) else s

/-- A lane N record acts at the moment it is taken (R11). -/
def takeN (r : NRecord) (s : State) : State :=
  match r with
  | .query => takeQuery s
  | .halt => takeHalt s
  | .go => takeGo s
  | .drop => takeDrop s
  | .reset => takeReset s
  | .ack causes mask => takeAck causes mask s
  | .stage table page offset clearFirst data => takeStage table.toNat page.toNat offset.toNat clearFirst data s
  | .read table page source => takeRead table page source s

/-- A complete lane Q frame joins the lane Q order and, when it is the head, is offered (R12). -/
def joinLaneQ (r : QRecord) (s : State) : State :=
  finishEvent (s.updIntake fun i => { i with laneQ := i.laneQ ++ [r] })

/-- A lane Q record sent whole: a length its kind does not allow is a frame fault (R2), a frame that the buffer cannot
hold is an overrun (R9); else it joins the order (R12, log 7). -/
def sendQ (r : QRecord) (s : State) : State :=
  if 1024 < r.payloadSize ∨ s.intake.freeSpace < r.frameSize then frameFault s else joinLaneQ r s

end Sys2Proof.Machine
end

