-- ==== Sys2Proof/Machine/LinkCommands.lean ====
section
/-! DEFINITION. The meanings of the link's own commands: POWER_ON_RESET, RECEIVE_BYTE, INTER_BYTE_TIMEOUT, REPLY_SENT. -/

namespace Sys2Proof.Machine

/-- POWER_ON_RESET: every block from its power-on state (R18, R39, R61, R82, R115, R116, R138, R157, R170). -/
def execPowerOnReset (straps : BitVec 2) (homeActive formsPresent leverOpen : Bool) (s : State) :
    Host.Outcome State Fault Refusal :=
  .next (State.powerOn s.pending straps homeActive formsPresent leverOpen)

/-- The Intake back in HUNT with the frame's bytes released (R1, R8). -/
def releaseFrame (s : State) : State :=
  s.updIntake fun i => { i with frameState := .hunt, frame := [], timer := false }

/-- A byte stored for the frame under reception; the inter-byte timer restarts (R2, R4, R8). -/
def storeByte (b : Byte) (next : FrameState) (s : State) : State :=
  s.updIntake fun i => { i with frame := i.frame ++ [b], frameState := next, timer := true }

/-- The payload length in a frame's header. -/
def frameLength (frame : List Byte) : Nat := fieldAt frame 2 2

/-- The kind in a frame's header: the low seven bits of the kind byte (R2). -/
def frameKind (frame : List Byte) : Option Kind := Kind.ofCode ((frame.getD 1 0).toNat % 128)

/-- The lane bit in a frame's header: true for lane N (R5). -/
def frameLaneN (frame : List Byte) : Bool := (frame.getD 1 0).getLsbD 7

/-- The judgement of a header (R2, R3). -/
def headerSound (frame : List Byte) : Bool :=
  decide (frameLength frame ≤ 1024) && (frameKind frame).any fun k => k.allows (frameLength frame)

/-- The sum of the kind byte, the length bytes, the payload and the check byte (R4). -/
def frameSum (frame : List Byte) : Byte := (frame.drop 1).foldl (· + ·) 0

/-- A frame complete with a good sum: the lane check, the SET check, then taken or joining the lane Q order
(R5, R11, R12). -/
def completeFrame (frame : List Byte) (s : State) : State :=
  match frameKind frame with
  | none => frameFault s
  | some k =>
    let payload := (frame.drop 4).take (frameLength frame)
    if k.laneN != frameLaneN frame then latch .LN (releaseFrame s)
    else if k.laneN then
      match nRecordOf k payload with
      | some r => takeN r (releaseFrame s)
      | none => frameFault s
    else
      match qRecordOf k payload with
      | some r => joinLaneQ r (releaseFrame s)
      | none => frameFault s

/-- A byte stored in HEADER; after the third one the header is judged (R2). -/
def headerByte (b : Byte) (s : State) : State :=
  let frame := s.intake.frame ++ [b]
  if frame.length < 4 then storeByte b .header s
  else if headerSound frame then storeByte b .body s
  else frameFault s

/-- A byte stored in BODY; after the check byte the sum is judged (R4). -/
def bodyByte (b : Byte) (s : State) : State :=
  let frame := s.intake.frame ++ [b]
  if frame.length < 5 + frameLength frame then storeByte b .body s
  else if frameSum frame = 0 then completeFrame frame s
  else frameFault s

/-- RECEIVE_BYTE (R1, R2, R4, R5, R7, R9). -/
def execReceiveByte (b : Byte) (stopGood : Bool) (s : State) : Host.Outcome State Fault Refusal :=
  match s.intake.frameState with
  | .hunt =>
    if stopGood = false ∨ b ≠ syncByte then .next s
    else if s.intake.freeSpace = 0 then .next (frameFault s)
    else .next (s.updIntake fun i => { i with frame := [b], frameState := .header, timer := true })
  | .header =>
    if stopGood = false ∨ s.intake.freeSpace = 0 then .next (frameFault s) else .next (headerByte b s)
  | .body =>
    if stopGood = false ∨ s.intake.freeSpace = 0 then .next (frameFault s) else .next (bodyByte b s)

/-- INTER_BYTE_TIMEOUT: a frame fault while the timer runs, in HEADER or BODY; it does not run in HUNT (R6, R7). -/
def execInterByteTimeout (s : State) : Host.Outcome State Fault Refusal :=
  if s.intake.frameState = .hunt ∨ s.intake.timer = false then .next s else .next (frameFault s)

/-- REPLY_SENT: the reply being sent leaves the queue (R15). -/
def execReplySent (s : State) : Host.Outcome State Fault Refusal :=
  .next (s.updIntake fun i => { i with replies := i.replies.drop 1 })

end Sys2Proof.Machine
end

