-- ==== Sys2Proof/Machine/RecordCommands.lean ====
section
/-! DEFINITION. The meanings of the record commands, each a whole record of its kind in its right lane (log 7). -/

namespace Sys2Proof.Machine

/-! ## Lane N -/

/-- QUERY (R16, R17). -/
def execQuery (s : State) : Host.Outcome State Fault Refusal := .next (takeQuery s)

/-- READ (R16, R59, R60). -/
def execRead (table : Byte) (page : BitVec 16) (source : Byte) (s : State) : Host.Outcome State Fault Refusal :=
  .next (takeRead table page source s)

/-- STAGE; more than 1,000 data bytes make a length its kind does not allow (R2, R51 to R55). -/
def execStage (table : Byte) (page offset : BitVec 16) (clearFirst : Bool) (data : List Byte) (s : State) :
    Host.Outcome State Fault Refusal :=
  if 1000 < data.length then .next (frameFault s)
  else .next (takeStage table.toNat page.toNat offset.toNat clearFirst data s)

/-- HALT (R162). -/
def execHalt (s : State) : Host.Outcome State Fault Refusal := .next (takeHalt s)

/-- GO (R162). -/
def execGo (s : State) : Host.Outcome State Fault Refusal := .next (takeGo s)

/-- DROP (R14, R36, R163). -/
def execDrop (s : State) : Host.Outcome State Fault Refusal := .next (takeDrop s)

/-- RESET (R14, R38, R169). -/
def execReset (s : State) : Host.Outcome State Fault Refusal := .next (takeReset s)

/-- ACK (R167). -/
def execAck (causes : BitVec 16) (mask : Option (BitVec 16)) (s : State) : Host.Outcome State Fault Refusal :=
  .next (takeAck causes mask s)

/-! ## Lane Q -/

/-- LINE, first part (R22). -/
def execLineFirstPart (h : LineHeader) (more : Bool) (runs : List Byte) (s : State) :
    Host.Outcome State Fault Refusal :=
  .next (sendQ (.lineFirst h more runs) s)

/-- LINE, continuation part (R23). -/
def execLineContinuation (more : Bool) (runs : List Byte) (s : State) : Host.Outcome State Fault Refusal :=
  .next (sendQ (.lineCont more runs) s)

/-- ADVANCE (R25). -/
def execAdvance (mode : Byte) (count : BitVec 16) (s : State) : Host.Outcome State Fault Refusal :=
  .next (sendQ (.advance mode count) s)

/-- COMMIT (R25, R56). -/
def execCommit (table : Byte) (page : BitVec 16) (s : State) : Host.Outcome State Fault Refusal :=
  .next (sendQ (.commit table page) s)

/-- SET (R25). -/
def execSet (f : SetFields) (s : State) : Host.Outcome State Fault Refusal := .next (sendQ (.set f) s)

/-- FORM (R25). -/
def execForm (length skip : BitVec 16) (s : State) : Host.Outcome State Fault Refusal :=
  .next (sendQ (.form length skip) s)

/-- GEOMETRY (R25). -/
def execGeometry (stagger : Byte) (tearGap sensorDist : BitVec 16) (ratio : Byte) (s : State) :
    Host.Outcome State Fault Refusal :=
  .next (sendQ (.geometry stagger tearGap sensorDist ratio) s)

end Sys2Proof.Machine
end

