-- ==== Sys2Proof/Machine/PrintCommands.lean ====
section
/-! DEFINITION. The meanings of the printing events: BUILD_END, TAKE_UP_FRONT_ENTRY, PASS_START, the four arrivals,
PULSE_END, COOLING_TICK. An event whose time has not come (no build, no such move, no such pulse) changes nothing
(log 5). -/

namespace Sys2Proof.Machine

/-- BUILD_END (R78). -/
def execBuildEnd (s : State) : Host.Outcome State Fault Refusal :=
  match buildInProgress s with
  | some (h, parts, b, inp) => .next (finishEvent (endBuild h parts b (buildResult inp) s))
  | none => .next s

/-- TAKE_UP_FRONT_ENTRY (R159, log 6). -/
def execTakeUpFrontEntry (s : State) : Host.Outcome State Fault Refusal :=
  match s.run.inHand, takeUpStep s with
  | none, some t => .next (finishEvent t)
  | _, _ => .next s

/-- PASS_START: the checks are run through for a line whose pass start is due and whose need has been met (R160, log 6). -/
def execPassStart (s : State) : Host.Outcome State Fault Refusal :=
  match s.run.inHand with
  | some (.lineDue first n) =>
    if s.run.executor.executing && needMet n s then .next (finishEvent (runChecks first s)) else .next s
  | _ => .next s

/-- POSITIONING_ARRIVAL (R102, R109). -/
def execPositioningArrival (homeActive : Bool) (s : State) : Host.Outcome State Fault Refusal :=
  match s.carriage.drive with
  | .positioning m run =>
    let s := arriveCarriage m.side homeActive s
    if homeCheck s.carriage.position homeActive then
      if m.idx + 1 < m.len then .next (setDrive (.positioning { m with idx := m.idx + 1 } run) s)
      else .next (setDrive (.passRun (runMove run)) s)
    else .next (finishEvent (carriageFault s))
  | _ => .next s

/-- The last fire is reported if it is done, and what follows is worked out (R122). -/
def finishLastFire (s : State) : State := if lastFireDue s then finishEvent (reportLastFire s) else s

/-- PASS_RUN_ARRIVAL: position, home check, fire schedule, next step or the end of the run (R97, R103, R109). A pass start
that the end of the run makes due is left to PASS_START (R113, log 31). -/
def execPassRunArrival (homeActive : Bool) (s : State) : Host.Outcome State Fault Refusal :=
  match s.carriage.drive with
  | .passRun m =>
    let s := arriveCarriage m.side homeActive s
    if homeCheck s.carriage.position homeActive then
      let s := offerArrival s
      if m.idx + 1 < m.len then .next (finishLastFire (setDrive (.passRun { m with idx := m.idx + 1 }) s))
      else .next (finishRunStop (runStopped (discardSchedule (setDrive .stopped (reportLastFire s)))))
    else .next (finishEvent (carriageFault s))
  | _ => .next s

/-- STOPPING_ARRIVAL (R109, R111). -/
def execStoppingArrival (homeActive : Bool) (s : State) : Host.Outcome State Fault Refusal :=
  match s.carriage.drive with
  | .stopping d =>
    let s := arriveCarriage d.side homeActive s
    if homeCheck s.carriage.position homeActive then
      if d.left = 0 then .next (finishEvent (setDrive .stopped s))
      else
        .next (setDrive (.stopping
          { d with interval := d.profile.ramp.getD (d.left - 1) d.profile.cruise, left := d.left - 1 }) s)
    else .next (finishEvent (carriageFault s))
  | _ => .next s

/-- Where homing stands after an arrival (R106 to R108, R112). -/
inductive HomingResult where
  | goesOn (h : Homing)
  | edgeFound
  | complete
  | failed
  deriving DecidableEq, Repr

/-- The arrival of a homing step in its phase, by the sensor (R106 to R109). -/
def homingResult (h : Homing) (position : Option Int) (homeActive : Bool) : HomingResult :=
  match h.phase with
  | .one =>
    if homeActive then
      if 240 ≤ h.steps + 1 then .failed else .goesOn { h with steps := h.steps + 1 }
    else .goesOn { h with phase := .two, steps := 0 }
  | .two =>
    if homeActive then .edgeFound
    else if 7400 ≤ h.steps + 1 then .failed else .goesOn { h with steps := h.steps + 1 }
  | .three =>
    if homeCheck position homeActive then
      if 24 ≤ h.steps + 1 then .complete else .goesOn { h with steps := h.steps + 1 }
    else .failed

/-- The direction of a homing step (R106, R107). -/
def HomingPhase.side : HomingPhase → Side
  | .one => .rightward
  | .two => .leftward
  | .three => .rightward

/-- HOMING_ARRIVAL: a failure is a carriage fault; a restart asked for by a RESET comes at this arrival in place of the
phase's own progress (R106 to R108, R112, log 14). -/
def execHomingArrival (homeActive : Bool) (s : State) : Host.Outcome State Fault Refusal :=
  match s.carriage.drive with
  | .homing h =>
    let s := arriveCarriage h.phase.side homeActive s
    match homingResult h s.carriage.position homeActive with
    | .failed => .next (finishEvent (carriageFault s))
    | .goesOn h' => if h.restart then .next (beginHoming s) else .next (setDrive (.homing h') s)
    | .edgeFound =>
      if h.restart then .next (beginHoming s)
      else
        .next (s.updCarriage fun _ =>
          { position := some 24, drive := .homing { phase := .three, steps := 0, restart := false } })
    | .complete =>
      if h.restart then .next (beginHoming s)
      else .next (finishEvent (homingComplete (setDrive .stopped s)))
  | _ => .next s

/-- PULSE_END of the running fire numbered `i` (R120, R122, R123, R125). -/
def execPulseEnd (i : Nat) (faults : PinMask) (s : State) : Host.Outcome State Fault Refusal :=
  match s.firing.pulses[i]? with
  | some p =>
    let t := endPulse i p faults s
    if isThirdDead s.firing.dead t.firing.dead then .next (finishEvent (thirdDeadPin t))
    else .next (finishLastFire t)
  | none => .next s

/-- COOLING_TICK; the first tick that leaves H below H_warm releases a heat hold (R131, R135). -/
def execCoolingTick (s : State) : Host.Outcome State Fault Refusal :=
  let t := s.updHeat coolHeat
  if t.heat.hold ∧ t.heat.level < t.heat.warm then
    .next (finishEvent (t.updHeat fun h => { h with hold := false }))
  else .next t

end Sys2Proof.Machine
end

