-- ==== Sys2Proof/Machine/FormsCommands.lean ====
section
/-! DEFINITION. The meanings of the paper events: FEED_STEP_ARRIVAL, the tear, presence and settle timers, the forms sensor,
the tractor lever. An event whose time has not come changes nothing (log 5). -/

namespace Sys2Proof.Machine

/-- A feed whose forward arrival brings r to 0 is stopped by paper out (R153). -/
def Purpose.stopsAtTail : Purpose → Bool
  | .afterLine => true
  | .advance => true
  | .skip => true
  | .tearAdvance => true
  | .return => false
  | .loading => false
  | .ejection => false

/-- Paper out found by a feed: EJECTING with r = 0, and the feed's end reported unless its steps had been abandoned or
stopped (R140, R144, R153, log 27). -/
def tailReached (f : Feed) (s : State) : State :=
  let s := eject 0 s
  if f.ending = .goOn then
    if f.purpose = .tearAdvance then tearEnded s else feedComplete f.purpose s
  else s

/-- FEED_STEP_ARRIVAL (R140, R142, R145, R151 to R153, R155 to R157). -/
def execFeedStepArrival (s : State) : Host.Outcome State Fault Refusal :=
  match s.forms.feed with
  | none => .next s
  | some f =>
    if f.suspended ∨ f.remaining = 0 then .next s
    else
      let s := s.updForms (arriveStep s.geometry.sensorDist f)
      if f.purpose.stopsAtTail ∧ f.dir = .forward ∧ s.forms.tracking = some 0 then
        .next (finishEvent (tailReached f s))
      else
        match f.ending with
        | .abandon => .next (finishEvent (clearFeed s))
        | .reset => .next (finishEvent (resetPaper s))
        | .cutShort => .next (finishEvent (enterNoForms s))
        | .goOn => if f.remaining = 1 then .next (finishEvent s) else .next (startStep s)

/-- TEAR_TIMER_EXPIRY (R147, R148). -/
def execTearTimerExpiry (s : State) : Host.Outcome State Fault Refusal :=
  if s.forms.tearTimer.isSome && tearTimerDue s && s.forms.feed.isNone then .next (finishEvent (beginTearOff s))
  else .next s

/-- PRESENCE_TIMER_EXPIRY (R150). -/
def execPresenceTimerExpiry (s : State) : Host.Outcome State Fault Refusal :=
  if s.forms.presenceTimer && presenceDue s && s.forms.feed.isNone then .next (finishEvent (beginLoading s))
  else .next s

/-- End tracking starts in these paper states (R152). -/
def Paper.tracks : Paper → Bool
  | .atPrint => true
  | .tearing => true
  | .atTear => true
  | .returning => true
  | _ => false

/-- A loading that sees no forms stops at the arrival of the step in progress, or at once when it is suspended
(R151, log 15); also when a RESET has asked for its restart at that arrival (log 29). -/
def cutLoading (s : State) : State :=
  match s.forms.feed with
  | some f =>
    if f.suspended then enterNoForms s
    else s.updForms fun g => { g with feed := some { f with ending := .cutShort } }
  | none => enterNoForms s

/-- FORMS_SENSOR_NO_FORMS: the sensor goes from forms present to no forms (R150 to R152, log 24). -/
def execFormsSensorNoForms (s : State) : Host.Outcome State Fault Refusal :=
  if s.pins.formsPresent then
    let s := s.updPins fun p => { p with formsPresent := false }
    if s.forms.paper.tracks then
      .next (judgeTimers (s.updForms fun g => { g with tracking := some s.geometry.sensorDist }))
    else if s.forms.paper = .loading then .next (finishEvent (cutLoading s))
    else .next (judgeTimers s)
  else .next s

/-- FORMS_SENSOR_FORMS_PRESENT: end tracking ends; in NO FORMS the presence timer may run (R150, R152). -/
def execFormsSensorFormsPresent (s : State) : Host.Outcome State Fault Refusal :=
  .next (judgeTimers ((s.updPins fun p => { p with formsPresent := true }).updForms fun g =>
    { g with tracking := none }))

/-- LEVER_OPEN: lever OPEN, LO latched; a feed is suspended at its next arrival (R150, R154, R155). -/
def execLeverOpen (s : State) : Host.Outcome State Fault Refusal :=
  .next (judgeTimers (latch .LO ((s.updPins fun p => { p with leverOpen := true }).updForms fun g =>
    { g with lever := .opened })))

/-- LEVER_CLOSE: from OPEN the lever is SETTLING (R154, log 24). -/
def execLeverClose (s : State) : Host.Outcome State Fault Refusal :=
  let t := s.updPins fun p => { p with leverOpen := false }
  if s.forms.lever = .opened then .next (judgeTimers (t.updForms fun g => { g with lever := .settling }))
  else .next t

/-- SETTLE_TIME_EXPIRY: from SETTLING the lever is CLOSED, and a suspended feed resumes (R154, R155). -/
def execSettleTimeExpiry (s : State) : Host.Outcome State Fault Refusal :=
  if s.forms.lever = .settling then
    .next (finishEvent (startStep (s.updForms fun g => { g with lever := .closed })))
  else .next s

end Sys2Proof.Machine
end

