-- ==== Sys2Proof/Machine/Dispatch.lean ====
section
/-! DEFINITION. The dispatch: one meaning per command of spec/opcode_table.json. -/

namespace Sys2Proof.Machine

def exec (i : Instr) (s : State) : Host.Outcome State Fault Refusal :=
  match i with
  | .powerOnReset straps home forms lever => Sys2Proof.Machine.execPowerOnReset straps home forms lever s
  | .receiveByte byte good => Sys2Proof.Machine.execReceiveByte byte good s
  | .interByteTimeout => Sys2Proof.Machine.execInterByteTimeout s
  | .query => Sys2Proof.Machine.execQuery s
  | .read table page source => Sys2Proof.Machine.execRead table page source s
  | .stage table page offset clearFirst data => Sys2Proof.Machine.execStage table page offset clearFirst data s
  | .halt => Sys2Proof.Machine.execHalt s
  | .go => Sys2Proof.Machine.execGo s
  | .drop => Sys2Proof.Machine.execDrop s
  | .reset => Sys2Proof.Machine.execReset s
  | .ack causes mask => Sys2Proof.Machine.execAck causes mask s
  | .lineFirstPart header more runs => Sys2Proof.Machine.execLineFirstPart header more runs s
  | .lineContinuation more runs => Sys2Proof.Machine.execLineContinuation more runs s
  | .advance mode count => Sys2Proof.Machine.execAdvance mode count s
  | .commit table page => Sys2Proof.Machine.execCommit table page s
  | .set fields => Sys2Proof.Machine.execSet fields s
  | .form length skip => Sys2Proof.Machine.execForm length skip s
  | .geometry stagger tearGap sensorDist ratio => Sys2Proof.Machine.execGeometry stagger tearGap sensorDist ratio s
  | .replySent => Sys2Proof.Machine.execReplySent s
  | .buildEnd => Sys2Proof.Machine.execBuildEnd s
  | .takeUpFrontEntry => Sys2Proof.Machine.execTakeUpFrontEntry s
  | .passStart => Sys2Proof.Machine.execPassStart s
  | .positioningArrival home => Sys2Proof.Machine.execPositioningArrival home s
  | .passRunArrival home => Sys2Proof.Machine.execPassRunArrival home s
  | .stoppingArrival home => Sys2Proof.Machine.execStoppingArrival home s
  | .homingArrival home => Sys2Proof.Machine.execHomingArrival home s
  | .pulseEnd fire faults => Sys2Proof.Machine.execPulseEnd fire faults s
  | .coolingTick => Sys2Proof.Machine.execCoolingTick s
  | .feedStepArrival => Sys2Proof.Machine.execFeedStepArrival s
  | .tearTimerExpiry => Sys2Proof.Machine.execTearTimerExpiry s
  | .presenceTimerExpiry => Sys2Proof.Machine.execPresenceTimerExpiry s
  | .formsSensorNoForms => Sys2Proof.Machine.execFormsSensorNoForms s
  | .formsSensorFormsPresent => Sys2Proof.Machine.execFormsSensorFormsPresent s
  | .leverOpen => Sys2Proof.Machine.execLeverOpen s
  | .leverClose => Sys2Proof.Machine.execLeverClose s
  | .settleTimeExpiry => Sys2Proof.Machine.execSettleTimeExpiry s

end Sys2Proof.Machine
end

