-- ==== Sys2Proof/Safety.lean ====
section
/-! DEFINITION. What counts as a sound state: the laws of the device that the spec states for every moment. -/

namespace Sys2Proof.Machine

/-- H and the thresholds keep their ranges and order (R129, R132). -/
def HeatSound (h : Heat) : Prop :=
  h.level ≤ heatMax ∧ 1 ≤ h.warm ∧ h.warm ≤ h.hot ∧ h.hot ≤ h.limit ∧ h.limit ≤ heatMax

/-- The tractor accumulator stays within 0 and 15 (R141). -/
def AccSound (f : Forms) : Prop := f.acc ≤ 15

/-- The reply queue holds at most 4 replies (R15, R16). -/
def RepliesSound (i : Intake) : Prop := i.replies.length ≤ 4

/-- The counters keep their ranges (R7, R16, R79, R116). -/
def CountersSound (s : State) : Prop :=
  s.intake.frameFaults ≤ 255 ∧ s.intake.unanswered ≤ 255 ∧ s.builder.clipped ≤ 65535 ∧
    s.builder.suppressed ≤ 65535 ∧ s.firing.deadDots ≤ 65535

/-- The form position stays within 0 and L − 1 (R142). -/
def FormSound (f : Forms) : Prop := f.position < f.length

/-- The Line Queue holds at most 8 entries, and the run bytes of its lines total at most 24,576 (R20). -/
def QueueSound (q : Queue) : Prop :=
  q.entries.length ≤ maxEntries ∧ (q.entries.map Entry.runBytes).sum ≤ arenaSize ∧ q.cursor ≤ q.entries.length

/-- The settings keep their ranges (R164). -/
def SettingsSound (t : Settings) : Prop :=
  100 ≤ t.tRec ∧ t.tRec ≤ 2000 ∧ t.qualityFloor ≤ 3 ∧ t.substSlot ≤ 447 ∧ t.formsClass ≤ 7 ∧ t.bidirectional ≤ 1 ∧
    -32 ≤ t.alignment ∧ t.alignment ≤ 31 ∧ t.flightTime ≤ 1000 ∧ t.tearDelay ≤ 60

/-- The geometry keeps its ranges (R165). -/
def GeometrySound (g : Geometry) : Prop :=
  g.stagger ≤ 63 ∧ g.tearGap ≤ 2880 ∧ 576 ≤ g.sensorDist ∧ g.sensorDist ≤ 4032 ∧ 8 ≤ g.ratio ∧ g.ratio ≤ 24

/-- The live cruises do not fall from class to class, and each live ramp has 1 to 200 entries, each at least its cruise
(R49). -/
def ProfilesSound (t : Tables) : Prop :=
  liveCruise t 0 ≤ liveCruise t 1 ∧ liveCruise t 1 ≤ liveCruise t 2 ∧ liveCruise t 2 ≤ liveCruise t 3 ∧
    ∀ c < 4, 50 ≤ liveCruise t c ∧ 1 ≤ (liveProfile t c).ramp.length ∧ (liveProfile t c).ramp.length ≤ 200 ∧
      ∀ v ∈ (liveProfile t c).ramp, liveCruise t c ≤ v

/-- L, z, the form count and the remainder r keep their ranges (R139, R142, R143, R152). -/
def FormRanges (f : Forms) (g : Geometry) : Prop :=
  288 ≤ f.length ∧ f.length ≤ 6912 ∧ f.skip ≤ f.length - 144 ∧ f.count ≤ 65535 ∧
    ∀ r, f.tracking = some r → r ≤ g.sensorDist

/-- The tear timer runs exactly under the conditions of R147, the presence timer exactly under those of R150. -/
def TimersSound (s : State) : Prop :=
  (s.forms.tearTimer ≠ none ↔ s.run.executor = .ready ∧ s.queue.entries = [] ∧ s.forms.paper = .atPrint ∧
    s.settings.tearDelay ≠ 0) ∧
  (s.forms.presenceTimer = true ↔ s.forms.paper = .noForms ∧ s.pins.formsPresent = true ∧ s.forms.lever ≠ .opened)

/-- R158's law: the wait reason is none but in WAITING and HALTING, and WAITING has one; an entry is in hand in RUNNING,
WAITING and HALTING, and in no other state but for an advance whose feed goes on through a fault stop (R163, log 11). -/
def ExecutorSound (r : RunControl) : Prop :=
  (r.reason ≠ .none → r.executor = .waiting ∨ r.executor = .halting) ∧ (r.executor = .waiting → r.reason ≠ .none) ∧
    (r.executor.executing = true → r.inHand ≠ none) ∧
    (r.inHand ≠ none → r.executor.executing = true ∨
      (r.executor = .faultStop ∨ r.executor = .homing) ∧ r.inHand = some (.advance true))

/-- The bytes held are at most 2,304 (R8), and the frame under reception is as far as its frame state says: none in HUNT, one
to three bytes in HEADER, a sound header and a frame not complete in BODY (R1, R2, R4). -/
def IntakeSound (i : Intake) : Prop :=
  i.held ≤ 2304 ∧ (i.frameState = .hunt → i.frame = []) ∧
    (i.frameState = .header → 1 ≤ i.frame.length ∧ i.frame.length ≤ 3) ∧
    (i.frameState = .body → 4 ≤ i.frame.length ∧ i.frame.length < 5 + frameLength i.frame ∧
      headerSound i.frame = true)

/-! ## Lines, their buffers and the entry in hand (R26, R62, R158) -/

/-- A line's column buffer is FILLING, READY or IN USE as the line is BUILDING, BUILT or ACTIVE (R26, R62). -/
def Entry.fits (b : Buffers) : Entry → Prop
  | .line _ _ (.building i) => ∃ inp, b.get i = .filling inp
  | .line _ _ (.built i) => ∃ img, b.get i = .ready img
  | .line _ _ (.active i) => ∃ img, b.get i = .inUse img
  | _ => True

/-- R26's law: each line that is BUILDING, BUILT or ACTIVE holds a column buffer in the state that goes with it, no two lines
hold one buffer, a buffer that no line holds is FREE; only the front entry is ACTIVE; only the entry under the cursor is
BUILDING (R28). -/
structure LinesSound (q : Queue) (b : Buffers) : Prop where
  fits : ∀ e ∈ q.entries, e.fits b
  once : ∀ (i j : Nat) (d e : Entry) (n : BufId), q.entries[i]? = some d → q.entries[j]? = some e →
    d.buf = some n → e.buf = some n → i = j
  held : ∀ n, b.get n ≠ .free → ∃ e ∈ q.entries, e.buf = some n
  front : ∀ (i : Nat) (e : Entry), q.entries[i]? = some e → e.isActive = true → frontIndex q = some i
  cursor : ∀ (i : Nat) (h : LineHeader) (ps : List (List Byte)) (n : BufId),
    q.entries[i]? = some (.line h ps (.building n)) → i = q.cursor

/-- The front entry is a line that is ACTIVE with an image whose dark extent satisfies a test. -/
def FrontActive (q : Queue) (b : Buffers) (test : Option (Nat × Nat) → Prop) : Prop :=
  ∃ h ps n img, frontEntry q = some (.line h ps (.active n)) ∧ b.get n = .inUse img ∧ test img.extent

/-- The entry in hand is the front entry, with progress of its kind; no line is ACTIVE but the one in hand (R158). -/
def InHandSound (x : Option InHand) (q : Queue) (b : Buffers) : Prop :=
  match x with
  | none => ∀ e ∈ q.entries, e.isActive = false
  | some .notBuilt => ∃ h ps st, frontEntry q = some (.line h ps st) ∧ ∀ n, st ≠ .active n
  | some .marker => (∃ l z, frontEntry q = some (.form l z)) ∨ ∃ d g e r, frontEntry q = some (.geometry d g e r)
  | some (.advance _) => ∃ m c, frontEntry q = some (.advance m c)
  | some (.lineDue _ _) => FrontActive q b (· ≠ none)
  | some (.linePass _ _ _) => FrontActive q b (· ≠ none)
  | some (.lineFeed _) => FrontActive q b (· = none)

/-! ## The stage and the pages (R40, R50, R56) -/

/-- Every live page that the host can load has its table's size (R40). -/
def TablesSound (t : Tables) : Prop :=
  t.codeMap.length = 16 ∧ (∀ p ∈ t.codeMap, p.length = 128) ∧ t.loadable.length = 64 ∧
    (∀ p ∈ t.loadable, p.length = 38) ∧ t.strike.length = 32 ∧ t.profiles.length = 4 ∧
    ∀ p ∈ t.profiles, p.length = 403

/-- What a BOUND or HELD stage keeps: a page that may be staged, bytes of its size, a cursor within it (R50, R51). -/
def Binding.sound (b : Binding) : Prop :=
  b.page < b.table.pages ∧ stageable b.table b.page = true ∧ b.bytes.length = b.table.pageSize ∧
    b.cursor ≤ b.table.pageSize

/-- R56's law: a commit marker in the queue holds the stage, at most one does, and a HELD stage is held by one. -/
structure StageSound (q : Queue) (g : Stage) (t : Tables) : Prop where
  tables  : TablesSound t
  binding : ∀ b, g.binding = some b → b.sound
  holds   : ∀ (id : TableId) (page : Nat), Entry.commit id page ∈ q.entries →
    ∃ b, g = .held b ∧ b.table = id ∧ b.page = page
  once    : ∀ (i j : Nat) (id id' : TableId) (page page' : Nat), q.entries[i]? = some (.commit id page) →
    q.entries[j]? = some (.commit id' page') → i = j
  held    : ∀ b, g = .held b → Entry.commit b.table b.page ∈ q.entries

/-! ## The carriage (R105) -/

/-- The columns of a finished image lie in the printable window, its class is one of the four, and its dark extent is that
of its columns (R72, R73, R75). -/
def Image.sound (img : Image) : Prop :=
  (∀ k < img.cols.length, img.offset + k * img.step ≤ 6527) ∧ img.cls ≤ 3 ∧ img.extent = darkExtent img.cols

/-- The images in the column buffers are sound, and the quality floor that a build has read is a class (R77, R164). -/
def BuffersSound (b : Buffers) : Prop :=
  ∀ i, match b.get i with
    | .free => True
    | .filling inp => inp.floor ≤ 3
    | .ready img => img.sound
    | .inUse img => img.sound

/-- The positions that a pass can reach (R95, R105). -/
def InPassTravel (p : Int) : Prop := 41 ≤ p ∧ p ≤ 7115

/-- The position `n` steps on from `p`. -/
def Side.ahead (d : Side) (p : Int) (n : Nat) : Int :=
  match d with
  | .rightward => p + n
  | .leftward => p - n

/-- The position of the carriage in each motion state: unknown until the home edge is found, 24 to 47 in phase 3, and in the
moves of a pass, their decelerations and at rest within the travel of a pass, with the end of the move within it too
(R102, R103, R105 to R108, R111). -/
def CarriageSound (c : Carriage) : Prop :=
  match c.drive with
  | .unhomed => c.position = none
  | .homing h =>
    match h.phase with
    | .one => c.position = none ∧ h.steps < 240
    | .two => c.position = none ∧ h.steps < 7400
    | .three => c.position = some (24 + h.steps) ∧ h.steps < 24
  | .stopped => ∃ p, c.position = some p ∧ InPassTravel p
  | .positioning m run => ∃ p, c.position = some p ∧ InPassTravel p ∧ m.idx < m.len ∧
      m.side.ahead p (m.len - m.idx) = run.start ∧ InPassTravel run.start ∧ InPassTravel run.stop ∧
      run.start ≠ run.stop ∧ run.side.ahead run.start (run.stop - run.start).natAbs = run.stop
  | .passRun m => ∃ p, c.position = some p ∧ InPassTravel p ∧ m.idx < m.len ∧
      InPassTravel (m.side.ahead p (m.len - m.idx))
  | .stopping d => ∃ p, c.position = some p ∧ InPassTravel p ∧ InPassTravel (d.side.ahead p (d.left + 1))

/-- Nothing follows in the same event any more (log 6). -/
def Settled (s : State) : Prop := followStep false s = none

/-- Every law of this file at once. -/
structure Sound (s : State) : Prop where
  heat     : HeatSound s.heat
  acc      : AccSound s.forms
  replies  : RepliesSound s.intake
  counters : CountersSound s
  form     : FormSound s.forms
  ranges   : FormRanges s.forms s.geometry
  timers   : TimersSound s
  executor : ExecutorSound s.run
  intake   : IntakeSound s.intake
  queue    : QueueSound s.queue
  lines    : LinesSound s.queue s.buffers
  inHand   : InHandSound s.run.inHand s.queue s.buffers
  stage    : StageSound s.queue s.stage s.tables
  settings : SettingsSound s.settings
  geometry : GeometrySound s.geometry
  profiles : ProfilesSound s.tables
  buffers  : BuffersSound s.buffers
  carriage : CarriageSound s.carriage

/-! ## Where an event has little or nothing to follow it: the hypotheses of the statements -/

/-- No feed stands at its end. -/
def NoFeedEnds (s : State) : Prop := feedEnds s = none

/-- Run Control does nothing by itself: no entry in hand, none taken up in its state, no paper request kept. -/
def RunAtRest (s : State) : Prop :=
  s.run.inHand = none ∧ s.forms.paperRequest = false ∧
    (s.run.executor = .homing ∨ s.run.executor = .halted ∨ s.run.executor = .faultStop)

/-- Nothing is queued, in hand or asked for. -/
def NoWork (s : State) : Prop :=
  s.queue.entries = [] ∧ s.intake.laneQ = [] ∧ s.run.inHand = none ∧ s.forms.paperRequest = false ∧ NoFeedEnds s

/-- The builder and the lane Q order have nothing to do. -/
def NoneWaits (s : State) : Prop := builderStep s = none ∧ s.intake.laneQ = []

/-- A record joining the lane Q order is offered at once, and Run Control does not act on what it admits: nothing follows any
more, no frame waits, the build cursor stands at the end, and Run Control has an entry in hand that is at the front, or none
and is not about to take one up. -/
def OffersAtOnce (s : State) : Prop :=
  Settled s ∧ s.intake.laneQ = [] ∧ s.queue.cursor = s.queue.entries.length ∧
    (s.run.inHand = none → s.run.executor = .ready → s.carriage.drive.moving = true) ∧
    (s.run.inHand ≠ none → frontEntry s.queue ≠ none)

/-- A record that is admitted as an entry is taken up in the same event: READY, the queue empty, the carriage not moving. -/
def TakesUpAtOnce (s : State) : Prop :=
  s.run.executor = .ready ∧ s.run.inHand = none ∧ s.carriage.drive.moving = false ∧
    s.queue = { entries := [], cursor := 0 } ∧ s.intake.laneQ = [] ∧ s.forms.paperRequest = false ∧ NoFeedEnds s

/-- The bytes of a frame received one after another, each with a good stop bit. -/
def receiveAll : List Byte → State → Host.Outcome State Fault Refusal
  | [], s => .next s
  | b :: rest, s =>
    match exec (.receiveByte b true) s with
    | .next t => receiveAll rest t
    | o => o

end Sys2Proof.Machine
end

