-- ==== Sys2Proof/Certificates/Slice0/Obligations.lean ====
section
/-! DEFINITION. The statements for the provers. -/

open Sys2Proof Sys2Proof.Machine

/-! ## Steps and whole-machine laws -/

/-- A step runs the command at the front of the queue on the state with the queue's rest; an empty queue idles. The
queue interface is the model's own (log 1). -/
def Obligations.StepRunsFrontCommand : Prop :=
  (∀ (c : Instr) (rest : List Instr) (s : State), s.pending = c :: rest →
    step s = exec c { s with pending := rest }) ∧
  ∀ s : State, s.pending = [] → step s = .next s

/-- Every command completes in every state, and none touches the waiting commands: no command of the table ends in a stop
(log 1), and a command for an event that cannot come (a build end with no build, a pulse end with no fire, the expiry of a
timer that does not run) completes with nothing done (log 5, the model's choice). This says nothing of any effect: the
statements below say where each command completes with its effect. -/
def Obligations.CommandsCompleteAndKeepPending : Prop :=
  ∀ (c : Instr) (s : State), ∃ t, exec c s = .next t ∧ t.pending = s.pending

/-- R20's law: at most 8 entries, at most 24,576 run bytes; and the cursor stands within the queue. Every step keeps it. -/
def Obligations.StepKeepsQueueLaw : Prop :=
  ∀ s t : State, QueueSound s.queue → step s = .next t → QueueSound t.queue

/-- The law of R26, R28, R32, R62 and R158 about the lines, their column buffers and the entry in hand, and the law of R40,
R50 and R56 about the tables, the stage and its commit marker: every step keeps them. -/
def Obligations.StepKeepsLinesAndStage : Prop :=
  ∀ s t : State, LinesSound s.queue s.buffers → InHandSound s.run.inHand s.queue s.buffers →
    StageSound s.queue s.stage s.tables → step s = .next t →
    LinesSound t.queue t.buffers ∧ InHandSound t.run.inHand t.queue t.buffers ∧
      StageSound t.queue t.stage t.tables

/-- Every step keeps the ranges and the order of the heat values (R129, R132), the ranges of R164 and R165, p within 0 and
L − 1, L within 288 and 6,912, z at most L − 144, the form count at most 65,535, r at most S_e, acc within 0 and 15 (R139, R141
to R143, R152), at most 4 replies, and the counters within their ranges. -/
def Obligations.StepKeepsRanges : Prop :=
  (∀ s t : State, HeatSound s.heat ∧ SettingsSound s.settings ∧ GeometrySound s.geometry → step s = .next t →
     HeatSound t.heat ∧ SettingsSound t.settings ∧ GeometrySound t.geometry) ∧
  ∀ s t : State,
    FormSound s.forms ∧ FormRanges s.forms s.geometry ∧ AccSound s.forms ∧ RepliesSound s.intake ∧ CountersSound s →
    step s = .next t →
    FormSound t.forms ∧ FormRanges t.forms t.geometry ∧ AccSound t.forms ∧ RepliesSound t.intake ∧ CountersSound t

/-- R158's law about the executor, the wait reason and the entry in hand: every step keeps it. That an advance whose feed
goes on through a fault stop stays in hand in FAULT STOP, and in the HOMING after it, is log 11 (DEDUCED). -/
def Obligations.StepKeepsExecutorLaw : Prop :=
  ∀ s t : State, ExecutorSound s.run → step s = .next t → ExecutorSound t.run

/-- The law of the device in R49 about the live profiles: every step keeps it. -/
def Obligations.StepKeepsProfileLaw : Prop :=
  ∀ s t : State, ProfilesSound s.tables → step s = .next t → ProfilesSound t.tables

/-- The bytes held are those of the frame under reception and of the waiting lane Q frames; they never exceed 2,304, and the
frame under reception is never further than its frame state says: every step keeps that (R1, R2, R4, R8). RDY is asserted
exactly while 1,100 bytes or more are free (R10). -/
def Obligations.StepKeepsIntakeLaw : Prop :=
  (∀ s t : State, IntakeSound s.intake → step s = .next t → IntakeSound t.intake) ∧
  ∀ s : State,
    s.intake.held = s.intake.frame.length + (s.intake.laneQ.map fun r => r.frame.length).sum ∧
    s.intake.freeSpace = 2304 - s.intake.held ∧ (s.rdy = true ↔ 1100 ≤ 2304 - s.intake.held) ∧
    (s.intake.freeSpace = 1100 → s.rdy = true) ∧ (s.intake.freeSpace = 1099 → s.rdy = false)

/-- R105's law, with what it rests on: from a state in which the laws of Safety hold, every step leaves the carriage in a
place that its motion state allows, and every finished image within the printable window. So a known position lies within 0
and 7,199, during every pass run within 41 and 7,115, and a move or a deceleration ends within 41 and 7,115. -/
def Obligations.StepKeepsCarriageLaw : Prop :=
  (∀ s t : State, Sound s → step s = .next t → CarriageSound t.carriage ∧ BuffersSound t.buffers) ∧
  ∀ (c : Carriage) (p : Int), CarriageSound c → c.position = some p →
    0 ≤ p ∧ p ≤ 7199 ∧ (∀ m, c.drive = .passRun m → 41 ≤ p ∧ p ≤ 7115) ∧
    (c.drive = .stopped → 41 ≤ p ∧ p ≤ 7115) ∧
    ∀ d, c.drive = .stopping d →
      (match d.side with
        | .rightward => p + d.left + 1 ≤ 7115
        | .leftward => 41 ≤ p - d.left - 1)

/-- Every law of Safety holds in the state after reset, with the pins of log 3. -/
def Obligations.SoundAtReset : Prop := Sound State.reset

/-- Once locked, the geometry stays as it is until the next power-on reset, whatever command comes (R165). -/
def Obligations.LockedGeometryStays : Prop :=
  ∀ (c : Instr) (s t : State), (∀ a b d e, c ≠ .powerOnReset a b d e) → s.run.locked = true →
    exec c s = .next t → t.run.locked = true ∧ t.geometry = s.geometry

/-- CF and PF, once pending, stay pending, and dead pins stay dead, through every command but an ACK and a power-on
reset (an ACK may come as the bytes of its frame) (R127, R166, R169). -/
def Obligations.StickyCausesStay : Prop :=
  ∀ (c : Instr) (s t : State), (∀ a b d e, c ≠ .powerOnReset a b d e) → (∀ a b, c ≠ .ack a b) →
    (∀ a b, c ≠ .receiveByte a b) → exec c s = .next t →
      s.run.causes &&& stickyCauses &&& ~~~t.run.causes = 0 ∧ s.firing.dead &&& ~~~t.firing.dead = 0

/-! ## Power-on -/

/-- What a power-on reset leaves in every block but the tables (R18, R39, R61, R82, R115, R116, R129, R157, R164, R165,
R170). -/
def Obligations.PowerOnReset : Prop :=
  (∀ (straps : BitVec 2) (home forms lever : Bool) (s : State), ∃ t,
     exec (.powerOnReset straps home forms lever) s = .next t ∧
     t.pending = s.pending ∧
     t.pins = { homeSensor := home, formsPresent := forms, leverOpen := lever } ∧
     t.intake = { bitRate := [19200, 57600, 115200, 230400].getD straps.toNat 0, frameState := .hunt, frame := [],
                  timer := false, laneQ := [], replies := [], frameFaults := 0, unanswered := 0 } ∧
     t.queue = { entries := [], cursor := 0 } ∧ t.queue.arenaFree = 24576 ∧ t.stage = .empty ∧
     t.buffers = { one := .free, two := .free } ∧ t.builder = { clipped := 0, suppressed := 0 } ∧
     t.planner = { schedule := none, keptDir := none } ∧
     t.carriage = { position := none,
                    drive := .homing { phase := if home then .one else .two, steps := 0, restart := false } } ∧
     t.firing = { state := .idle, pulses := [], dead := 0, deadDots := 0, lastPending := false } ∧
     t.heat = { level := 262144, warm := 262144, hot := 524288, limit := 786432, hold := false } ∧ t.heat.band = 1) ∧
  ∀ (straps : BitVec 2) (home forms lever : Bool) (s : State), ∃ t,
    exec (.powerOnReset straps home forms lever) s = .next t ∧
    t.settings = { tRec := 400, qualityFloor := 0, substSlot := 63, formsClass := 0, bidirectional := 1,
                   alignment := 0, flightTime := 300, tearDelay := 5 } ∧
    t.geometry = { stagger := 40, tearGap := 720, sensorDist := 2016, ratio := 16 } ∧
    t.forms.paper = (if forms = true ∧ lever = false then .atPrint else .noForms) ∧
    t.forms.lever = (if lever then .opened else .closed) ∧
    t.forms.position = 0 ∧ t.forms.length = 3168 ∧ t.forms.skip = 0 ∧ t.forms.count = 0 ∧ t.forms.acc = 0 ∧
    t.forms.tracking = none ∧ t.forms.feed = none ∧ t.forms.tearAdvance = none ∧ t.forms.tearTimer = none ∧
    t.forms.presenceTimer = false ∧
    t.run.executor = .homing ∧ t.run.reason = .none ∧ t.run.inHand = none ∧ t.run.locked = false ∧
    t.run.mask = BitVec.allOnes 15 ∧
    (∀ c : Cause, isPending c t = true ↔
      (c = .PO ∧ ¬(forms = true ∧ lever = false)) ∨ (c = .LO ∧ lever = true)) ∧
    (t.attn = true ↔ forms = false ∨ lever = true)

/-- The tables after a power-on reset: the identity code map, blank loadable glyphs, 45 + 7·fc − 2·band, and the ramps
of R48 (R41, R43, R45, R48, R61). -/
def Obligations.PowerOnTables : Prop :=
  ∀ (straps : BitVec 2) (home forms lever : Bool) (s : State), ∃ t,
    exec (.powerOnReset straps home forms lever) s = .next t ∧
    (∀ set < 4, ∀ code < 256, codeMapEntry t.tables.codeMap set code = code) ∧
    (∀ slot, 384 ≤ slot → slot < 448 →
      livePage t.tables .glyphs slot = 12#8 :: 0#8 :: List.replicate 36 0#8) ∧
    (∀ fc < 8, ∀ band < 4, strikeEntry t.tables.strike fc band = 45 + 7 * fc - 2 * band) ∧
    ∀ c < 4, (liveProfile t.tables c).cruise = [125, 167, 250, 500].getD c 0 ∧
      (liveProfile t.tables c).ramp = (List.range ([64, 48, 32, 16].getD c 0)).map fun i =>
        let tc := [125, 167, 250, 500].getD c 0
        let r := [64, 48, 32, 16].getD c 0
        tc + (2000 - tc) * (r - 1 - i) / r

/-! ## The link -/

/-- HUNT: a byte other than the sync byte and a byte with a bad stop bit are discarded; a sync byte starts a frame when
there is room (R1). A byte that completes neither the header nor the frame is stored and restarts the inter-byte timer; the
third byte of a sound header takes the Intake to BODY (R2, R4, R8). What a sound header is (R2, R3). -/
def Obligations.BytesReceived : Prop :=
  (∀ (b : Byte) (good : Bool) (s : State), s.intake.frameState = .hunt →
     (good = false ∨ b ≠ 0xC3 → exec (.receiveByte b good) s = .next s) ∧
     (good = true → b = 0xC3 → s.intake.freeSpace ≠ 0 → exec (.receiveByte b good) s =
       .next { s with intake := { s.intake with frame := [0xC3], frameState := .header, timer := true } })) ∧
  (∀ (b : Byte) (s : State), s.intake.freeSpace ≠ 0 →
    (s.intake.frameState = .header ∧ s.intake.frame.length < 3 ∨
       s.intake.frameState = .body ∧ s.intake.frame.length + 1 < 5 + frameLength (s.intake.frame ++ [b]) →
     exec (.receiveByte b true) s =
       .next { s with intake := { s.intake with frame := s.intake.frame ++ [b], timer := true } }) ∧
    (s.intake.frameState = .header → s.intake.frame.length = 3 → headerSound (s.intake.frame ++ [b]) = true →
     exec (.receiveByte b true) s = .next { s with
       intake := { s.intake with frame := s.intake.frame ++ [b], frameState := .body, timer := true } })) ∧
  ∀ kind high low : Byte,
    let n := 256 * high.toNat + low.toNat
    headerSound [0xC3, kind, high, low] = true ↔
      match kind.toNat % 128 with
      | 0x10 => 9 ≤ n ∧ n ≤ 1024
      | 0x11 => n = 3
      | 0x12 => n = 3
      | 0x13 => 2 ≤ n ∧ n ≤ 22
      | 0x14 => n = 4
      | 0x15 => n = 6
      | 0x20 => n = 0
      | 0x21 => n = 0
      | 0x22 => n = 0
      | 0x23 => n = 0
      | 0x24 => n = 0
      | 0x25 => n = 2 ∨ n = 4
      | 0x26 => 6 ≤ n ∧ n ≤ 1006
      | 0x27 => n = 4
      | _ => False

/-- The frame fault of R7: a bad stop bit or an overrun in HEADER or BODY, an overrun of a sync byte in HUNT (R9), a header
at fault (R2), a bad sum (R4), a SET whose length is not that of the fields it names (R5), the expiry of the inter-byte timer
(R6). A frame of a known kind with a good sum in the wrong lane is discarded with LN, the frame fault counter and FR staying
as they are (R5). A timeout in HUNT is the expiry of a timer that does not run: it changes nothing (log 5, the model's
choice). -/
def Obligations.FramesDiscarded : Prop :=
  (∀ (b : Byte) (good : Bool) (s : State),
     let frame := s.intake.frame ++ [b]
     let payload := (frame.drop 4).take (frameLength frame)
     let faulted : State :=
       { s with intake := { s.intake with frameState := .hunt, frame := [], timer := false,
                                          frameFaults := min 255 (s.intake.frameFaults + 1) },
                run := { s.run with causes := s.run.causes ||| Cause.FR.bit } }
     (s.intake.frameState ≠ .hunt → good = false ∨ s.intake.freeSpace = 0 →
       exec (.receiveByte b good) s = .next faulted) ∧
     (s.intake.frameState = .hunt → s.intake.freeSpace = 0 → exec (.receiveByte 0xC3 true) s = .next faulted) ∧
     (s.intake.frameState = .header → s.intake.freeSpace ≠ 0 → s.intake.frame.length = 3 →
       headerSound frame = false → exec (.receiveByte b true) s = .next faulted) ∧
     (s.intake.frameState = .body → s.intake.freeSpace ≠ 0 → frame.length = 5 + frameLength frame →
       (frameSum frame ≠ 0 → exec (.receiveByte b true) s = .next faulted) ∧
       (frameSum frame = 0 → frameKind frame = some .set → frameLaneN frame = false →
         payload.length ≠ 2 + ((List.range 11).map fun k =>
           if (fieldAt payload 0 2).testBit k then [2, 1, 2, 1, 1, 1, 2, 3, 3, 3, 1].getD k 0 else 0).sum →
         exec (.receiveByte b true) s = .next faulted)) ∧
     (s.intake.frameState ≠ .hunt → s.intake.timer = true → exec .interByteTimeout s = .next faulted) ∧
     (s.intake.frameState = .hunt → exec .interByteTimeout s = .next s)) ∧
  ∀ (b : Byte) (k : Kind) (s : State), s.intake.frameState = .body → s.intake.freeSpace ≠ 0 →
    s.intake.frame.length + 1 = 5 + frameLength (s.intake.frame ++ [b]) →
    frameSum (s.intake.frame ++ [b]) = 0 → frameKind (s.intake.frame ++ [b]) = some k →
    k.laneN ≠ frameLaneN (s.intake.frame ++ [b]) →
    exec (.receiveByte b true) s =
      .next { s with intake := { s.intake with frameState := .hunt, frame := [], timer := false },
                     run := { s.run with causes := s.run.causes ||| Cause.LN.bit } }

/-- The bytes of a record's frame, received one after another from HUNT, have exactly the effect of the record's command,
in lane Q and in lane N (R1 to R5, R8, R11, R12; the record commands of log 7). -/
def Obligations.FrameBytesAreRecordCommands : Prop :=
  ∀ (c : Instr) (s : State), s.intake.frameState = .hunt → s.intake.frame = [] → s.intake.timer = false →
    (∀ r, qRecordOfCommand c = some r → r.payloadSize ≤ 1024 → r.frameSize ≤ s.intake.freeSpace →
      receiveAll r.frame s = exec c s) ∧
    (∀ r, nRecordOfCommand c = some r → r.payload.length ≤ 1006 → r.frame.length ≤ s.intake.freeSpace →
      receiveAll r.frame s = exec c s)

/-- The payload of every record of the host, laid out as chapter 11 gives it, is read back as that record (R171). -/
def Obligations.PayloadReadBack : Prop :=
  (∀ r : QRecord, qRecordOf r.kind r.payload = some r) ∧ ∀ r : NRecord, nRecordOf r.kind r.payload = some r

/-- A lane Q record that needs a free entry, sent while the queue holds 8, waits in the lane Q order, and the queue is
unchanged. A SET that names no field needs none: it is accepted at once, however many entries the queue holds, and restarts the
tear timer (R12, R21, R22, R25). The model's commands are whole frames (log 7). -/
def Obligations.RecordWaitsForEntry : Prop :=
  (∀ (c : Instr) (r : QRecord) (s : State), qRecordOfCommand c = some r → Settled s → s.intake.laneQ = [] →
    s.queue.entries.length = 8 → openTail s.queue = none → r.closesOpen = true →
    (∀ f, r = .set f → ¬(buildPartOf f = none ∧ passPartOf f = none)) →
    r.payloadSize ≤ 1024 → r.frameSize ≤ s.intake.freeSpace →
    exec c s = .next (judgeTimers { s with intake := { s.intake with laneQ := [r] } })) ∧
  ∀ (f : SetFields) (s : State), Settled s → s.intake.laneQ = [] → openTail s.queue = none → buildPartOf f = none →
    passPartOf f = none → 7 ≤ s.intake.freeSpace →
    exec (.set f) s = .next (judgeTimers { s with forms := { s.forms with tearTimer := none } })

/-! ## Replies -/

/-- QUERY and READ: with fewer than 4 replies queued the reply joins the end of the queue; with 4 the request is discarded
unanswered and counted, and no cause is latched. Nothing else changes (R16, R17, R59, R60). That a READ of no such page
answers flags of 2, bit 1 alone, whatever its source is log 16 (DEDUCED). A reply frame: its length, its first bytes, and a sum
of 0 modulo 256 without the sync byte; the reply being sent leaves the queue when its check byte has gone, the others keeping
their order (R15). -/
def Obligations.RequestsAnswered : Prop :=
  (∀ (table : Byte) (page : BitVec 16) (source : Byte) (s : State), s.intake.replies.length < 4 →
     let joined (f : List Byte) : State := { s with intake := { s.intake with replies := s.intake.replies ++ [f] } }
     let reply (flags : Byte) (bytes : Page) : List Byte :=
       frameOf 0xC1 ([table] ++ toBytes page.toNat 2 ++ [source, flags] ++ bytes)
     exec .query s = .next (joined (frameOf 0xC0 (statusPayload s))) ∧
     (pageNamed table.toNat page.toNat = none → exec (.read table page source) s = .next (joined (reply 2 []))) ∧
     ∀ id n, pageNamed table.toNat page.toNat = some (id, n) →
       (source = 0 → exec (.read table page source) s = .next (joined (reply 0 (livePage s.tables id n)))) ∧
       (source ≠ 0 → ∀ p, stagedPage s.stage id n = some p →
         exec (.read table page source) s = .next (joined (reply 0 p))) ∧
       (source ≠ 0 → stagedPage s.stage id n = none →
         exec (.read table page source) s = .next (joined (reply 1 (livePage s.tables id n))))) ∧
  (∀ (table : Byte) (page : BitVec 16) (source : Byte) (s : State), 4 ≤ s.intake.replies.length →
    let counted : State :=
      { s with intake := { s.intake with unanswered := min 255 (s.intake.unanswered + 1) } }
    exec .query s = .next counted ∧ exec (.read table page source) s = .next counted) ∧
  (∀ (kind : Byte) (payload : List Byte), payload.length < 65536 →
     (frameOf kind payload).length = payload.length + 5 ∧
     (frameOf kind payload).take 2 = [0xC3, kind] ∧
     frameLength (frameOf kind payload) = payload.length ∧
     ((frameOf kind payload).drop 4).take payload.length = payload ∧
     frameSum (frameOf kind payload) = 0) ∧
  ∀ (f : List Byte) (rest : List (List Byte)) (s : State), s.intake.replies = f :: rest →
    exec .replySent s = .next { s with intake := { s.intake with replies := rest } }

/-- The coding of a column buffer's state in STATUS (R172). -/
def bufferCode : Buffer → Nat
  | .free => 0
  | .filling _ => 1
  | .ready _ => 2
  | .inUse _ => 3

/-- The fields of a STATUS payload at the offsets and with the codings of R172, for the values the fields can hold. -/
def Obligations.StatusLayout : Prop :=
  ∀ s : State, let p := statusPayload s
    p.length = 46 ∧
    byteAt p 0 = (match s.run.executor with
      | .homing => 0 | .ready => 1 | .running => 2 | .waiting => 3 | .halting => 4 | .halted => 5 | .faultStop => 6) ∧
    byteAt p 1 = (match s.run.reason with
      | .none => 0 | .heat => 1 | .paper => 2 | .lever => 3 | .notBuilt => 4 | .paperReturning => 5) ∧
    byteAt p 2 = (match s.forms.paper with
      | .noForms => 0 | .loading => 1 | .atPrint => 2 | .tearing => 3 | .atTear => 4 | .returning => 5
      | .ejecting => 6) ∧
    fieldAt p 3 2 = s.run.causes.toNat ∧
    byteAt p 5 = firstCause s.run.causes ∧ fieldAt p 6 2 = s.run.mask.toNat ∧
    (s.queue.entries.length ≤ 8 → byteAt p 8 = s.queue.entries.length) ∧
    fieldAt p 9 2 = 24576 - (s.queue.entries.map Entry.runBytes).sum ∧
    (s.stage = .empty → byteAt p 11 = 0 ∧ fieldAt p 12 1 = 0 ∧ fieldAt p 13 2 = 0 ∧ fieldAt p 15 2 = 0) ∧
    (∀ b, s.stage = .bound b → byteAt p 11 = 1) ∧ (∀ b, s.stage = .held b → byteAt p 11 = 2) ∧
    (∀ b, s.stage = .bound b ∨ s.stage = .held b → b.page < 448 → b.cursor ≤ 403 →
      byteAt p 12 = (match b.table with
        | .codeMap => 0 | .glyphs => 1 | .strike => 2 | .profile => 3) ∧
      fieldAt p 13 2 = b.page ∧ fieldAt p 15 2 = b.cursor) ∧
    byteAt p 17 = bufferCode s.buffers.one ∧ byteAt p 18 = bufferCode s.buffers.two ∧
    (s.carriage.position = none → fieldAt p 19 2 = 0xFFFF) ∧
    (∀ x : Nat, x ≤ 7199 → s.carriage.position = some (x : Int) → fieldAt p 19 2 = x) ∧
    byteAt p 21 = (match s.carriage.drive with
      | .unhomed => 0 | .homing _ => 1 | .stopped => 2 | .positioning _ _ => 3 | .passRun _ => 4 | .stopping _ => 5) ∧
    (s.heat.level ≤ 1048575 → fieldAt p 22 3 = s.heat.level) ∧ byteAt p 25 = s.heat.band ∧
    (s.forms.position < 65536 → fieldAt p 26 2 = s.forms.position) ∧
    (s.forms.length < 65536 → fieldAt p 28 2 = s.forms.length) ∧
    (s.forms.count < 65536 → fieldAt p 30 2 = s.forms.count) ∧
    (s.forms.tracking = none → fieldAt p 32 2 = 0xFFFF) ∧
    (∀ r, s.forms.tracking = some r → r ≤ 4032 → fieldAt p 32 2 = r) ∧
    fieldAt p 34 3 = s.firing.dead.toNat ∧ byteAt p 37 = (if s.run.locked then 1 else 0) ∧
    (CountersSound s → fieldAt p 38 2 = s.builder.suppressed ∧ fieldAt p 40 2 = s.firing.deadDots ∧
      fieldAt p 42 2 = s.builder.clipped ∧ byteAt p 44 = s.intake.frameFaults ∧
      byteAt p 45 = s.intake.unanswered)

/-! ## The stage and the tables -/

/-- A STAGE that is refused: TR for no page or a resident glyph slot in any stage state, SB for a HELD stage and for
another page without clear-first (R51, R54, R55). Clear-first with no data that names a page that may be staged empties
the stage (R54). A STAGE that writes: from EMPTY, and from BOUND with clear-first and data, the stage is bound to a copy of the
live page; from BOUND to the same page without clear-first it keeps its bytes. The data lie from the offset on, as far as the
page reaches; SS is latched when some do not fit (R52 to R54). Nothing else changes. -/
def Obligations.StagesJudged : Prop :=
  (∀ (table : Byte) (page offset : BitVec 16) (clear : Bool) (data : List Byte) (s : State), data.length ≤ 1000 →
     let refused (c : Cause) : State := { s with run := { s.run with causes := s.run.causes ||| c.bit } }
     (pageNamed table.toNat page.toNat = none →
       exec (.stage table page offset clear data) s = .next (refused .TR)) ∧
     ∀ id n, pageNamed table.toNat page.toNat = some (id, n) →
       (stageable id n = false → exec (.stage table page offset clear data) s = .next (refused .TR)) ∧
       (stageable id n = true → ∀ b, s.stage = .held b →
         exec (.stage table page offset clear data) s = .next (refused .SB)) ∧
       (stageable id n = true → ∀ b, s.stage = .bound b → clear = false → ¬(b.table = id ∧ b.page = n) →
         exec (.stage table page offset clear data) s = .next (refused .SB))) ∧
  (∀ (table : Byte) (page offset : BitVec 16) (id : TableId) (n : Nat) (s : State),
    pageNamed table.toNat page.toNat = some (id, n) → stageable id n = true → (∀ b, s.stage ≠ .held b) →
    exec (.stage table page offset true []) s = .next { s with stage := .empty }) ∧
  ∀ (table : Byte) (page offset : BitVec 16) (clear : Bool) (data : List Byte) (id : TableId) (n : Nat) (old : Page)
    (s : State), data.length ≤ 1000 → pageNamed table.toNat page.toNat = some (id, n) → stageable id n = true →
    old.length = id.pageSize →
    (s.stage = .empty ∧ ¬(clear = true ∧ data = []) ∧ old = livePage s.tables id n ∨
     (∃ b, s.stage = .bound b) ∧ clear = true ∧ data ≠ [] ∧ old = livePage s.tables id n ∨
     (∃ b, s.stage = .bound b ∧ b.table = id ∧ b.page = n ∧ b.bytes = old) ∧ clear = false) →
    let o := min offset.toNat id.pageSize
    exec (.stage table page offset clear data) s =
      .next { s with
        stage := .bound
          { table := id, page := n, cursor := min id.pageSize (o + data.length),
            bytes := old.take o ++ data.take (id.pageSize - o) ++ old.drop (o + data.length) },
        run := { s.run with
          causes := if id.pageSize < o + data.length then s.run.causes ||| Cause.SS.bit else s.run.causes } }

/-- The clamps of a page made live: a code map entry of 448 or more becomes 511 (R42), the advance of a glyph lies from 1
to 15, its width is at most 12 and its masks keep pins 1 to 18 (R44), a strike entry lies from 25 to 125 (R46), a profile page
keeps its first 3 + 2R bytes and holds 0 past them (R47). A profile page is valid exactly when it passes the six checks of R49
against the live cruises. -/
def Obligations.LivePagesClamped : Prop :=
  (∀ p : Page,
    (∀ i < 64, fieldAt (clampCodeMap p) (2 * i) 2 =
      if fieldAt p (2 * i) 2 ≤ 447 then fieldAt p (2 * i) 2 else 511) ∧
    byteAt (clampGlyph p) 0 = min 15 (max 1 (byteAt p 0)) ∧ byteAt (clampGlyph p) 1 = min 12 (byteAt p 1) ∧
    (∀ i < 12, fieldAt (clampGlyph p) (2 + 3 * i) 3 = fieldAt p (2 + 3 * i) 3 % 2 ^ 18) ∧
    (∀ i < 32, byteAt (clampStrike p) i = min 125 (max 25 (byteAt p i))) ∧
    (clampCodeMap p).length = 128 ∧ (clampGlyph p).length = 38 ∧ (clampStrike p).length = 32 ∧
    (p.length = 403 → byteAt p 2 ≤ 200 → (clampProfile p).length = 403 ∧
      ∀ i < 403, byteAt (clampProfile p) i = if i < 3 + 2 * byteAt p 2 then byteAt p i else 0)) ∧
  ∀ (t : Tables) (c : Nat) (p : Page), c < 4 →
    let cruise := fieldAt p 0 2
    let r := byteAt p 2
    let ramp (i : Nat) : Nat := fieldAt p (3 + 2 * i) 2
    let live (k : Nat) : Nat := fieldAt (livePage t .profile k) 0 2
    (profileValid t c p = true ↔
      50 ≤ cruise ∧ cruise ≤ 2000 ∧ 1 ≤ r ∧ r ≤ 200 ∧ (∀ i < r, cruise ≤ ramp i ∧ ramp i ≤ 20000) ∧
      (∀ i, i + 1 < r → ramp (i + 1) ≤ ramp i) ∧ (0 < c → live (c - 1) ≤ cruise) ∧ (c < 3 → cruise ≤ live (c + 1)))

/-! ## Feeds, as the statements about them speak of them -/

/-- The forms after a forward feed of `n` steps, none of them 0, has begun: its first step with its tractor steps where the
lever is CLOSED, else the whole feed suspended (R140, R141, R155). -/
def begunForward (purpose : Purpose) (n : Nat) (s : State) (g : Forms) : Forms :=
  let fed : Forms :=
    { g with feed := some { purpose := purpose, dir := .forward, total := n, remaining := n,
                            suspended := decide (s.forms.lever ≠ .closed), ending := .goOn } }
  if s.forms.lever = .closed then
    { fed with acc := (s.forms.acc + s.geometry.ratio) % 16,
               tractorMotor := s.forms.tractorMotor + ((s.forms.acc + s.geometry.ratio) / 16 : Nat),
               feedMotor := s.forms.feedMotor + 1 }
  else fed

/-- The forms after a reverse feed of `n` steps, none of them 0, has begun (R140, R141, R155). -/
def begunReverse (purpose : Purpose) (n : Nat) (s : State) (g : Forms) : Forms :=
  let fed : Forms :=
    { g with feed := some { purpose := purpose, dir := .reverse, total := n, remaining := n,
                            suspended := decide (s.forms.lever ≠ .closed), ending := .goOn } }
  if s.forms.lever = .closed then
    { fed with acc := (((s.forms.acc : Int) - s.geometry.ratio) % 16).toNat,
               tractorMotor := s.forms.tractorMotor + ((s.forms.acc : Int) - s.geometry.ratio) / 16,
               feedMotor := s.forms.feedMotor - 1 }
  else fed

/-- The forms as the arrival of a forward feed step counts them, no loading: p, the form count and r (R142, R152). -/
def countedForward (g : Forms) : Forms :=
  { g with
    position := if g.position + 1 ≥ g.length then 0 else g.position + 1,
    count := if g.position + 1 ≥ g.length then (g.count + 1) % 65536 else g.count,
    tracking := g.tracking.map (· - 1) }

/-- The same at the arrival of a reverse feed step (R142, R152). -/
def countedReverse (sensorDist : Nat) (g : Forms) : Forms :=
  { g with
    position := if g.position = 0 then g.length - 1 else g.position - 1,
    count := if g.position = 0 then (g.count + 65535) % 65536 else g.count,
    tracking := g.tracking.map fun r => min sensorDist (r + 1) }

/-! ## A pass start, as the statements about it speak of it -/

/-- The checks of R160 before the heat check, all passed, for a pass start that is due with its need met. -/
def PassStartDue (first : Bool) (s : State) : Prop :=
  (∃ n, s.run.inHand = some (.lineDue first n) ∧ needMet n s = true) ∧ s.run.executor.executing = true ∧
    s.forms.paper = .atPrint ∧ s.forms.feed = none ∧ s.forms.lever = .closed ∧ s.carriage.drive = .stopped ∧
    NoneWaits s

/-- The state in which a pass start leaves the machine: the plan made for the class of the image or the heat band, whichever
is slower, and handed out; the carriage on its way from `p`; the Firing Unit ARMED; the geometry locked (R84, R87, R96, R102,
R117, R160, R165). A last fire not yet reported is given up (log 17). -/
def startedPass (first : Bool) (h : LineHeader) (img : Image) (p : Int) (s : State) : State :=
  let inp : PlanInputs :=
    { image := img, stagger := s.geometry.stagger, flightTime := s.settings.flightTime,
      alignment := s.settings.alignment, profile := liveProfile s.tables (max img.cls s.heat.band) }
  let side := passDirection first h inp p s
  let two := first = true ∧ h.twoPass ≠ 0
  { s with
    planner := { schedule := some { fires := fireSchedule inp side, mark := 0 },
                 keptDir := if two then some side else none },
    carriage := { s.carriage with
      drive := beginPass { side := side, start := passStartPos inp side, stop := passEndPos inp side,
                           profile := inp.profile } p },
    firing := { s.firing with state := .armed img.tRec, lastPending := false },
    run := { s.run with
      executor := if s.run.executor = .halting then .halting else .running,
      reason := .none, inHand := some (.linePass (decide ¬two) false false), locked := true } }

/-! ## Control records -/

/-- HALT (R162): READY goes to HALTED, RUNNING and WAITING to HALTING with the wait reason kept, the other states stay;
nothing else changes but the timers, and the tear timer does not run. GO, where nothing follows it: HALTED goes to READY,
HALTING to RUNNING, or to WAITING with the kept reason, the other states stay. GO on a queue of pass-only settings with a first
part waiting: all the settings are applied and removed in the one event, DR is latched, and then the head is offered, once, and
admitted (R33, R34, R159; log 9). -/
def Obligations.HaltAndGo : Prop :=
  (∀ s : State, ∃ t, exec .halt s = .next t ∧
     t = { s with
       run := { s.run with
         executor := match s.run.executor with
           | .ready => .halted
           | .running => .halting
           | .waiting => .halting
           | e => e },
       forms := { s.forms with tearTimer := t.forms.tearTimer, presenceTimer := t.forms.presenceTimer } } ∧
     t.forms.tearTimer = none) ∧
  (∀ s : State,
    let gone : State :=
      { s with
        run := { s.run with
          executor := match s.run.executor with
            | .halting => if s.run.reason = .none then .running else .waiting
            | .halted => .ready
            | e => e } }
    Settled gone → exec .go s = .next (judgeTimers gone)) ∧
  ∀ (ps : List PassPart) (h : LineHeader) (runs : List Byte) (s : State), s.run.executor = .halted →
    s.run.inHand = none → s.carriage.drive.moving = false → s.forms.paperRequest = false → NoFeedEnds s →
    ps ≠ [] → ps.length ≤ 8 → runs.length ≤ 1015 →
    s.queue = { entries := ps.map fun p => .settings none (some p), cursor := ps.length } →
    s.intake.laneQ = [.lineFirst h true runs] →
    exec .go s = .next (judgeTimers
      { s with
        intake := { s.intake with laneQ := [] },
        queue := { entries := [.line h [runs] .opened], cursor := 0 },
        settings := ps.foldl (fun t p => applyPassSettings p t) s.settings,
        heat := ps.foldl (fun t p => applyThresholds p t) s.heat,
        forms := { s.forms with tearTimer := none },
        run := { s.run with executor := .waiting, reason := .notBuilt, inHand := some .notBuilt,
                            causes := s.run.causes ||| Cause.DR.bit } })

/-- DROP (R14, R36, R37, R58). With no ACTIVE line the queue and the lane Q order are emptied, the buffers of the lines
removed are FREE, a stage held by a removed commit marker is BOUND again, and DR is latched if anything was removed. With an
entry in hand that is no ACTIVE line, Run Control leaves it besides: its paper request is withdrawn and an advance's feed is
abandoned, at once where it is suspended, else at the arrival of the step in progress (R156, R163). An ACTIVE line in hand
stays at the front, in its pass, before its pass start or its feed, and during its feed, and DR is not latched. The frame
under reception goes too (log 7). -/
def Obligations.DropRemoves : Prop :=
  (∀ s : State, (∀ e ∈ s.queue.entries, e.isActive = false) → NoFeedEnds s →
     let dropped : State :=
       { s with
         intake := { s.intake with laneQ := [], frame := [], frameState := .hunt, timer := false },
         queue := { entries := [], cursor := 0 },
         buffers := freeBuffersOf s.queue.entries s.buffers,
         stage := if s.queue.entries.any (Entry.holdsStage s.stage) then releaseStage s.stage else s.stage,
         run := { s.run with
           causes := if s.queue.entries = [] then s.run.causes else s.run.causes ||| Cause.DR.bit } }
     (s.run.inHand = none → s.forms.paperRequest = false → exec .drop s = .next (judgeTimers dropped)) ∧
     ∀ x, s.run.inHand = some x → x = .notBuilt ∨ x = .marker ∨ x = .advance false ∨ x = .advance true →
       exec .drop s = .next (judgeTimers
         { dropped with
           forms := { s.forms with
             paperRequest := false,
             feed := match s.forms.feed with
               | some f =>
                 if f.purpose = .advance then
                   if f.suspended then none else some { f with ending := .abandon }
                 else some f
               | none => none },
           run := { dropped.run with
             executor := match s.run.executor with
               | .running => .ready
               | .waiting => .ready
               | .halting => .halted
               | e => e,
             reason := .none, inHand := none } })) ∧
  ∀ (h : LineHeader) (parts : List (List Byte)) (b : BufId) (rest : List Entry) (s : State),
    s.queue.entries = .line h parts (.active b) :: rest → (∀ e ∈ rest, e.isActive = false) →
    ((∃ last rs fd, s.run.inHand = some (.linePass last rs fd)) ∧ NoFeedEnds s ∧ s.forms.paperRequest = false ∨
     (∃ x, s.run.inHand = some x ∧ x.isActive = true) ∧ Settled s) →
    exec .drop s = .next (judgeTimers
      { s with
        intake := { s.intake with laneQ := [], frame := [], frameState := .hunt, timer := false },
        queue := { entries := [.line h parts (.active b)], cursor := 1 },
        buffers := freeBuffersOf rest s.buffers,
        stage := if rest.any (Entry.holdsStage s.stage) then releaseStage s.stage else s.stage })

/-- RESET in every block but the Forms Drive (R14, R38, R61, R82, R99, R111, R112, R128, R169): what is emptied, cleared and
kept. That a last fire noted and not yet reported is given up here is log 17 (DEDUCED). -/
def Obligations.ResetClears : Prop :=
  ∀ s : State, ∃ t, exec .reset s = .next t ∧
    t.pins = s.pins ∧
    t.intake = { s.intake with laneQ := [], frame := [], frameState := .hunt, timer := false,
                               replies := s.intake.replies.take 1, frameFaults := 0, unanswered := 0 } ∧
    t.queue = { entries := [], cursor := 0 } ∧ t.buffers = { one := .free, two := .free } ∧
    t.builder = { clipped := 0, suppressed := 0 } ∧ t.tables = s.tables ∧ t.stage = .empty ∧
    t.settings = s.settings ∧ t.geometry = s.geometry ∧ t.planner = { schedule := none, keptDir := none } ∧
    t.carriage.position = s.carriage.position ∧
    t.carriage.drive = (match s.carriage.drive with
      | .positioning m _ =>
        .stopping { side := m.side, interval := m.interval, left := min m.rampIndex m.profile.ramp.length,
                    profile := m.profile }
      | .passRun m =>
        .stopping { side := m.side, interval := m.interval, left := min m.rampIndex m.profile.ramp.length,
                    profile := m.profile }
      | .homing h => .homing { h with restart := true }
      | d => d) ∧
    t.firing = { s.firing with state := .idle, deadDots := 0, lastPending := false } ∧
    t.heat = { s.heat with hold := false } ∧
    t.run.executor = (match s.run.executor with
      | .faultStop => .faultStop
      | .homing => .homing
      | _ => .ready) ∧
    t.run.reason = .none ∧ t.run.inHand = none ∧ t.run.locked = s.run.locked ∧ t.run.mask = s.run.mask ∧
    (∀ c : Cause, isPending c t = true ↔ isPending c s = true ∧
      (c = .CF ∨ c = .PF ∨
       (c = .PO ∧ (t.forms.paper = .noForms ∨ t.forms.paper = .loading ∨ t.forms.paper = .ejecting)) ∨
       (c = .LO ∧ (s.forms.lever = .opened ∨ s.forms.lever = .settling))))

/-- RESET in the Forms Drive (R157): p, L, z, the form count, end tracking and the lever state are kept. With no feed step in
progress, acc is kept too but for the first step of a restarted feed: the paper of a tear-off is AT PRINT at once without a
return, a feed at print is abandoned, a loading begins afresh with S_e steps, an ejection with the count it began with. With a
feed step in progress everything stands until its arrival (log 10), and then does the same. -/
def Obligations.ResetForms : Prop :=
  (∀ s : State, ∃ t, exec .reset s = .next t ∧
    t.forms.position = s.forms.position ∧ t.forms.length = s.forms.length ∧ t.forms.skip = s.forms.skip ∧
    t.forms.count = s.forms.count ∧ t.forms.tracking = s.forms.tracking ∧ t.forms.lever = s.forms.lever ∧
    t.forms.paperRequest = false ∧
    ((∀ f, s.forms.feed = some f → f.suspended = true) →
      (s.forms.paper = .atPrint ∨ s.forms.paper = .tearing ∨ s.forms.paper = .atTear ∨ s.forms.paper = .returning →
        t.forms.paper = .atPrint ∧ t.forms.feed = none ∧ t.forms.acc = s.forms.acc) ∧
      (s.forms.paper = .tearing ∨ s.forms.paper = .atTear ∨ s.forms.paper = .returning →
        t.forms.tearAdvance = none) ∧
      (s.forms.paper = .loading → s.geometry.sensorDist ≠ 0 →
        t = judgeTimers { t with
          forms := { begunForward .loading s.geometry.sensorDist s s.forms with paperRequest := false, tearTimer := none } }) ∧
      (s.forms.paper = .ejecting → ∀ f, s.forms.feed = some f → f.total ≠ 0 →
        t = judgeTimers { t with
          forms := { begunForward .ejection f.total s s.forms with paperRequest := false, tearTimer := none } }) ∧
      (s.forms.paper = .noForms → t.forms.paper = .noForms ∧ t.forms.acc = s.forms.acc)) ∧
    ∀ f, s.forms.feed = some f → f.suspended = false → f.ending ≠ .cutShort →
      t.forms.paper = s.forms.paper ∧ t.forms.acc = s.forms.acc ∧ t.forms.tearAdvance = s.forms.tearAdvance ∧
        t.forms.feed = some { f with ending := .reset }) ∧
  ∀ (f : Feed) (s : State), s.forms.feed = some f → f.suspended = false → f.remaining ≠ 0 → f.ending = .reset →
    s.forms.tracking = none → NoWork s →
    let counted : Forms :=
      match f.dir with
      | .forward => countedForward s.forms
      | .reverse => countedReverse s.geometry.sensorDist s.forms
    (s.forms.paper = .atPrint → f.purpose ≠ .loading →
      exec .feedStepArrival s = .next (judgeTimers { s with forms := { counted with feed := none } })) ∧
    (s.forms.paper = .tearing ∨ s.forms.paper = .returning → f.purpose ≠ .loading →
      exec .feedStepArrival s = .next (judgeTimers
        { s with forms := { counted with feed := none, paper := .atPrint, tearAdvance := none } })) ∧
    (s.forms.paper = .loading → f.purpose = .loading → s.geometry.sensorDist ≠ 0 →
      exec .feedStepArrival s = .next (judgeTimers
        { s with forms := begunForward .loading s.geometry.sensorDist s s.forms })) ∧
    (s.forms.paper = .ejecting → f.purpose = .ejection → f.dir = .forward → f.total ≠ 0 →
      exec .feedStepArrival s = .next (judgeTimers { s with forms := begunForward .ejection f.total s counted }))

/-- ACK (R127, R167). Outside FAULT STOP, and in FAULT STOP where CF or PF stays pending: a named cause is cleared unless it
is a condition cause whose condition holds, a mask given replaces the mask, naming PF empties the dead-pin set, and the
executor stays. In FAULT STOP with neither pending any more: with the carriage UNHOMED Run Control goes to HOMING, and homing
begins by the home sensor's level (R106; the level is that of the last arrival, log 4, the model's choice); with the carriage
at a known position it goes to READY, here with nothing to take up. -/
def Obligations.AcksTaken : Prop :=
  (∀ (named : BitVec 16) (mask : Option (BitVec 16)) (s : State),
    s.run.executor ≠ .faultStop ∨ s.run.causes &&& stickyCauses &&& ~~~(named.setWidth 15) ≠ 0 →
    ∃ t, exec (.ack named mask) s = .next t ∧
      t = { s with
        run := { s.run with causes := t.run.causes, mask := (mask.map (·.setWidth 15)).getD s.run.mask },
        firing := { s.firing with dead := if named.getLsbD 1 then 0 else s.firing.dead } } ∧
      ∀ c : Cause, isPending c t = true ↔ isPending c s = true ∧
        (named.getLsbD (c.priority - 1) = false ∨
         (c = .PO ∧ (s.forms.paper = .noForms ∨ s.forms.paper = .loading ∨ s.forms.paper = .ejecting)) ∨
         (c = .LO ∧ (s.forms.lever = .opened ∨ s.forms.lever = .settling)) ∨ (c = .HW ∧ s.heat.hold = true))) ∧
  ∀ (named : BitVec 16) (mask : Option (BitVec 16)) (s : State), s.run.executor = .faultStop →
    s.run.causes &&& stickyCauses &&& ~~~(named.setWidth 15) = 0 →
    (s.carriage.drive = .unhomed → ∃ t, exec (.ack named mask) s = .next t ∧ t.run.executor = .homing ∧
      isPending .CF t = false ∧ isPending .PF t = false ∧
      t.carriage =
        { position := none,
          drive := .homing { phase := if s.pins.homeSensor then .one else .two, steps := 0, restart := false } }) ∧
    (s.carriage.drive ≠ .unhomed → NoWork s → ∃ t, exec (.ack named mask) s = .next t ∧
      isPending .CF t = false ∧ isPending .PF t = false ∧
      t = judgeTimers { s with
        run := { s.run with executor := .ready, reason := .none, causes := t.run.causes,
                            mask := (mask.map (·.setWidth 15)).getD s.run.mask },
        firing := { s.firing with dead := if named.getLsbD 1 then 0 else s.firing.dead } })

/-! ## Attention -/

/-- The first cause and ATTN (R166, R168). -/
def Obligations.FirstCauseAndAttn : Prop :=
  ∀ s : State,
    (firstCause s.run.causes = 0 ↔ s.run.causes = 0) ∧
    (s.run.causes ≠ 0 → ∃ c : Cause, isPending c s = true ∧ c.priority = firstCause s.run.causes ∧
      ∀ d : Cause, isPending d s = true → c.priority ≤ d.priority) ∧
    (s.attn = true ↔ ∃ c : Cause, isPending c s = true ∧ s.run.mask &&& c.bit ≠ 0)

/-! ## The Line Queue -/

/-- ADVANCE, FORM and GEOMETRY with a free entry become one entry at the tail, which the build cursor passes (R25, R28). The
build part of a SET is applied as the cursor reaches it, its pass part waits in the entry for the front; a SET with no pass
part leaves no entry, one with no field is accepted without an entry, also when none is free (R25, R27). In these Run Control
does not act on the entry, its executor in any state. Admitted to an empty queue in READY with the carriage not moving, the
entry is taken up in the same event (R159), as AdvanceTakenUp, MarkersTakenUp and NoNeedsTakenUp say. The record is sent
whole (log 7). -/
def Obligations.MarkersAdmitted : Prop :=
  (∀ s : State, OffersAtOnce s → s.queue.entries.length < 8 → openTail s.queue = none → 11 ≤ s.intake.freeSpace →
     let admitted (e : Entry) : State :=
       { s with queue := { entries := s.queue.entries ++ [e], cursor := s.queue.entries.length + 1 },
                forms := { s.forms with tearTimer := none } }
     (∀ mode count, exec (.advance mode count) s = .next (judgeTimers (admitted (.advance mode count)))) ∧
     (∀ l z, exec (.form l z) s = .next (judgeTimers (admitted (.form l z)))) ∧
     ∀ d g e r, exec (.geometry d g e r) s = .next (judgeTimers (admitted (.geometry d g e r)))) ∧
  (∀ (f : SetFields) (p : PassPart) (s : State), OffersAtOnce s → s.queue.entries.length < 8 →
    openTail s.queue = none → 27 ≤ s.intake.freeSpace → passPartOf f = some p →
    exec (.set f) s = .next (judgeTimers
      { s with queue := { entries := s.queue.entries ++ [.settings none (some p)],
                          cursor := s.queue.entries.length + 1 },
               settings := match buildPartOf f with
                 | some b => applyBuildPart b s.settings
                 | none => s.settings,
               forms := { s.forms with tearTimer := none } })) ∧
  (∀ (f : SetFields) (s : State), OffersAtOnce s ∨ TakesUpAtOnce s → openTail s.queue = none →
    27 ≤ s.intake.freeSpace → passPartOf f = none →
    (∀ b, buildPartOf f = some b → s.queue.entries.length < 8 → exec (.set f) s = .next (judgeTimers
      { s with settings := applyBuildPart b s.settings,
               run := { s.run with causes :=
                 if s.queue.entries = [] then s.run.causes ||| Cause.DR.bit else s.run.causes },
               forms := { s.forms with tearTimer := none } })) ∧
    (buildPartOf f = none → exec (.set f) s = .next (judgeTimers
      { s with forms := { s.forms with tearTimer := none } }))) ∧
  ∀ s : State, TakesUpAtOnce s → 27 ≤ s.intake.freeSpace →
    let placed (e : Entry) : State :=
      { s with queue := { entries := [e], cursor := 1 }, forms := { s.forms with tearTimer := none } }
    (∀ mode count, exec (.advance mode count) s = exec .takeUpFrontEntry (placed (.advance mode count))) ∧
    (∀ l z, exec (.form l z) s = exec .takeUpFrontEntry (placed (.form l z))) ∧
    (∀ d g e r, exec (.geometry d g e r) s = exec .takeUpFrontEntry (placed (.geometry d g e r))) ∧
    ∀ f p, passPartOf f = some p → exec (.set f) s = exec .takeUpFrontEntry
      { placed (.settings none (some p)) with
        settings := match buildPartOf f with
          | some b => applyBuildPart b s.settings
          | none => s.settings }

/-- COMMIT (R25, R28, R56, R57): with the stage BOUND to its page, a strike or profile commit waits for the front with the
stage HELD, the builder stopping at the profile commit; a code map or glyph commit is applied by the builder in the same
event; in every other case it is refused with TR. A strike or profile commit admitted to an empty queue in READY with the
carriage not moving is taken up in the same event, as NoNeedsTakenUp says (R159). The record is sent whole (log 7). -/
def Obligations.CommitJudged : Prop :=
  ∀ (table : Byte) (page : BitVec 16) (s : State), OffersAtOnce s ∨ TakesUpAtOnce s → s.queue.entries.length < 8 →
    openTail s.queue = none → 8 ≤ s.intake.freeSpace →
    ((∀ b, s.stage = .bound b → ¬(b.table.code = table.toNat ∧ b.page = page.toNat)) →
      exec (.commit table page) s = .next (judgeTimers
        { s with run := { s.run with causes := s.run.causes ||| Cause.TR.bit } })) ∧
    ∀ b, s.stage = .bound b → b.table.code = table.toNat → b.page = page.toNat →
      let placed : State :=
        { s with queue := { entries := s.queue.entries ++ [.commit b.table b.page],
                            cursor := s.queue.entries.length + (if b.table = .strike then 1 else 0) },
                 stage := .held b,
                 forms := { s.forms with tearTimer := none } }
      (b.table = .strike ∨ b.table = .profile →
        (OffersAtOnce s → exec (.commit table page) s = .next (judgeTimers placed)) ∧
        (TakesUpAtOnce s → exec (.commit table page) s = exec .takeUpFrontEntry placed)) ∧
      (b.table = .codeMap ∨ b.table = .glyphs → exec (.commit table page) s = .next (judgeTimers
        { s with tables := setLivePage b.table b.page
                   (if b.table = .codeMap then clampCodeMap b.bytes else clampGlyph b.bytes) s.tables,
                 stage := .empty,
                 run := { s.run with causes :=
                   if s.queue.entries = [] then s.run.causes ||| Cause.DR.bit else s.run.causes },
                 forms := { s.forms with tearTimer := none } }))

/-- The first part of a line with room (R22, R26, R28, R62, R63): OPEN when more parts follow; else COMPLETE, and BUILDING at
once in a FREE column buffer with the inputs read at that moment. Admitted to an empty queue in READY with the carriage not
moving, the line is taken up in the same event, and Run Control waits with the reason not built (R32, R159, R160). The record is
sent whole (log 7). -/
def Obligations.FirstPartAdmitted : Prop :=
  ∀ (h : LineHeader) (more : Bool) (runs : List Byte) (s : State), OffersAtOnce s ∨ TakesUpAtOnce s →
    s.queue.entries.length < 8 → openTail s.queue = none → runs.length ≤ 1015 → runs.length ≤ s.queue.arenaFree →
    runs.length + 14 ≤ s.intake.freeSpace →
    let admitted (st : LineState) (bs : Buffers) : State :=
      { s with queue := { s.queue with entries := s.queue.entries ++ [.line h [runs] st] },
               buffers := bs,
               forms := { s.forms with tearTimer := none } }
    let becomes (t : State) : Prop :=
      (OffersAtOnce s → exec (.lineFirstPart h more runs) s = .next (judgeTimers t)) ∧
      (TakesUpAtOnce s → exec (.lineFirstPart h more runs) s = .next (judgeTimers
        { t with run := { s.run with executor := .waiting, reason := .notBuilt, inHand := some .notBuilt } }))
    (more = true → becomes (admitted .opened s.buffers)) ∧
    (more = false → s.buffers.firstFree = none → becomes (admitted .complete s.buffers)) ∧
    ∀ b, more = false → s.buffers.firstFree = some b →
      becomes (admitted (.building b) (s.buffers.set b (.filling
        { header := h, parts := [runs], tRec := s.settings.tRec, floor := s.settings.qualityFloor,
          subst := s.settings.substSlot, codeMap := s.tables.codeMap, loadable := s.tables.loadable,
          cruises := [liveCruise s.tables 0, liveCruise s.tables 1, liveCruise s.tables 2,
            liveCruise s.tables 3] })))

/-- A continuation part (R23): appended to the OPEN line at the tail when the line stays within 12,288 bytes and the arena
has room; the last part makes it COMPLETE, and with the cursor on it and a column buffer FREE its build starts at once (R28,
R62, R63); without room in the arena it waits; discarded with SQ when no line at the tail is OPEN. -/
def Obligations.ContinuationJudged : Prop :=
  ∀ (more : Bool) (runs : List Byte) (s : State), Settled s → s.intake.laneQ = [] → runs.length ≤ 1015 →
    runs.length + 14 ≤ s.intake.freeSpace →
    (openTail s.queue = none → exec (.lineContinuation more runs) s = .next (judgeTimers
      { s with run := { s.run with causes := s.run.causes ||| Cause.SQ.bit } })) ∧
    ∀ h parts, openTail s.queue = some (h, parts) → (parts.map List.length).sum + runs.length ≤ 12288 →
      let extended (st : LineState) : State :=
        { s with
          queue := { s.queue with
            entries := s.queue.entries.set (s.queue.entries.length - 1) (.line h (parts ++ [runs]) st) },
          forms := { s.forms with tearTimer := none } }
      (runs.length ≤ s.queue.arenaFree → more = true →
        exec (.lineContinuation more runs) s = .next (judgeTimers (extended .opened))) ∧
      (runs.length ≤ s.queue.arenaFree → more = false →
        s.buffers.firstFree = none ∨ s.queue.cursor + 1 ≠ s.queue.entries.length →
        exec (.lineContinuation more runs) s = .next (judgeTimers (extended .complete))) ∧
      (∀ b, runs.length ≤ s.queue.arenaFree → more = false → s.buffers.firstFree = some b →
        s.queue.cursor + 1 = s.queue.entries.length →
        exec (.lineContinuation more runs) s = .next (judgeTimers
          { extended (.building b) with
            buffers := s.buffers.set b (.filling
              { header := h, parts := parts ++ [runs], tRec := s.settings.tRec, floor := s.settings.qualityFloor,
                subst := s.settings.substSlot, codeMap := s.tables.codeMap, loadable := s.tables.loadable,
                cruises := [liveCruise s.tables 0, liveCruise s.tables 1, liveCruise s.tables 2,
                  liveCruise s.tables 3] }) })) ∧
      (s.queue.arenaFree < runs.length → exec (.lineContinuation more runs) s = .next (judgeTimers
        { s with intake := { s.intake with laneQ := [.lineCont more runs] } }))

/-- A sequence discard (R23 step 2, R24): the OPEN line at the tail is removed with SQ and without DR, by a continuation part
that would take it past 12,288 bytes, and by a record of any of the six kinds, a first part, an ADVANCE, a COMMIT, a SET, a
FORM, a GEOMETRY, which is then judged as if the OPEN line had never been there; an ADVANCE is so admitted in its place. An
OPEN line that Run Control waits for at the front is given up: WAITING goes to READY, HALTING to HALTED (R160). The records
are sent whole (log 7). -/
def Obligations.OpenLineDiscarded : Prop :=
  (∀ (h : LineHeader) (parts : List (List Byte)) (before : List Entry) (s : State),
    RunAtRest s → NoFeedEnds s → s.intake.laneQ = [] → s.queue.entries = before ++ [.line h parts .opened] →
    before.length < 8 → s.queue.cursor = before.length → 1029 ≤ s.intake.freeSpace →
    let causes := s.run.causes ||| Cause.SQ.bit
    let discarded : State :=
      { s with queue := { entries := before, cursor := before.length }, run := { s.run with causes := causes } }
    (∀ more runs, runs.length ≤ 1015 → 12288 < (parts.map List.length).sum + runs.length →
      exec (.lineContinuation more runs) s = .next (judgeTimers discarded)) ∧
    (openTail discarded.queue = none → ∀ c r, qRecordOfCommand c = some r → (∀ m rs, r ≠ .lineCont m rs) →
      r.payloadSize ≤ 1024 → exec c s = exec c discarded) ∧
    ∀ mode count, exec (.advance mode count) s = .next (judgeTimers
      { s with queue := { entries := before ++ [.advance mode count], cursor := before.length + 1 },
               run := { s.run with causes := causes },
               forms := { s.forms with tearTimer := none } })) ∧
  ∀ (h : LineHeader) (parts : List (List Byte)) (s : State), s.run.inHand = some .notBuilt →
    s.run.executor = .waiting ∨ s.run.executor = .halting → NoFeedEnds s → s.intake.laneQ = [] →
    s.forms.paperRequest = false → s.queue = { entries := [.line h parts .opened], cursor := 0 } →
    1029 ≤ s.intake.freeSpace →
    let given : State :=
      { s with queue := { entries := [], cursor := 0 },
               run := { s.run with executor := if s.run.executor = .halting then .halted else .ready,
                                   reason := .none, inHand := none, causes := s.run.causes ||| Cause.SQ.bit } }
    (∀ more runs, runs.length ≤ 1015 → 12288 < (parts.map List.length).sum + runs.length →
      exec (.lineContinuation more runs) s = .next (judgeTimers given)) ∧
    ∀ c r, qRecordOfCommand c = some r → (∀ m rs, r ≠ .lineCont m rs) → r.payloadSize ≤ 1024 →
      exec c s = exec c given

/-! ## The Column Builder -/

/-- Pattern column `i` of a glyph page as a character's advance column without attributes: below the width and the advance
the glyph's mask, else empty (R43, R66). -/
def advanceColumn (g : Page) (i : Nat) : PinMask :=
  if i < byteAt g 0 ∧ i < min (byteAt g 1) 12 then BitVec.ofNat 18 (fieldAt g (2 + 3 * i) 3) else 0

/-- The columns of one character of a TEXT run under its attributes (bit 0 underline, bit 1 bold, bit 2 double width) and
gap (R66 to R68). -/
def characterColumns (attr : Byte) (gap : Nat) (g : Page) : List PinMask :=
  let n := if attr.getLsbD 2 then 2 * byteAt g 0 else byteAt g 0
  let base (i : Nat) : PinMask := advanceColumn g (if attr.getLsbD 2 then i / 2 else i)
  (List.range (n + gap)).map fun i =>
    (if i < n then base i ||| (if attr.getLsbD 1 = true ∧ 0 < i then base (i - 1) else 0) else 0) |||
      (if attr.getLsbD 0 then 0x20000 else 0)

/-- The glyph page of a code in a code set: the slot of the code map entry, the substitution slot for the unmapped mark 511;
slots below 384 resident (R41, R65). -/
def glyphOfCode (inp : BuildInputs) (set code : Nat) : Page :=
  let e := fieldAt (inp.codeMap.getD (4 * set + code / 64) []) (2 * (code % 64)) 2
  let slot := if e = 511 then inp.subst else e
  if slot < 384 then residentGlyph slot else inp.loadable.getD (slot - 384) []

/-- From runs to columns (R64 to R71): the parts in their order; within a part TEXT, GRAPHICS and SKIP runs one after another;
what lies within the part of a run cut short; nothing of a run whose fixed fields are cut short and of a run of unknown type,
which end their part. -/
def Obligations.RunsMakeColumns : Prop :=
  ∀ inp : BuildInputs,
    let columns (parts : List (List Byte)) : List PinMask := lineColumns { inp with parts := parts }
    columns [] = [] ∧ columns [[]] = [] ∧
    (∀ p ps, columns (p :: ps) = columns [p] ++ columns ps) ∧
    (∀ (set attr gap n1 n0 : Byte) (codes more : List Byte),
      let made := codes.flatMap fun c =>
        characterColumns attr (min 7 gap.toNat) (glyphOfCode inp (min 3 set.toNat) c.toNat)
      (codes.length = 256 * n1.toNat + n0.toNat →
        columns [1 :: set :: attr :: gap :: n1 :: n0 :: (codes ++ more)] = made ++ columns [more]) ∧
      (codes.length < 256 * n1.toNat + n0.toNat → columns [1 :: set :: attr :: gap :: n1 :: n0 :: codes] = made)) ∧
    (∀ (n1 n0 : Byte) (masks more : List Byte),
      let made := (List.range (masks.length / 3)).map fun k => BitVec.ofNat 18 (fieldAt masks (3 * k) 3)
      (masks.length = 3 * (256 * n1.toNat + n0.toNat) → columns [2 :: n1 :: n0 :: (masks ++ more)] = made ++ columns [more]) ∧
      (masks.length < 3 * (256 * n1.toNat + n0.toNat) → columns [2 :: n1 :: n0 :: masks] = made)) ∧
    (∀ (n1 n0 : Byte) (more : List Byte),
      columns [3 :: n1 :: n0 :: more] = List.replicate (256 * n1.toNat + n0.toNat) 0 ++ columns [more]) ∧
    (∀ rest : List Byte, rest.length < 5 → columns [1 :: rest] = []) ∧
    (∀ rest : List Byte, rest.length < 2 → columns [2 :: rest] = [] ∧ columns [3 :: rest] = []) ∧
    ∀ (t : Byte) (rest : List Byte), t ≠ 1 → t ≠ 2 → t ≠ 3 → columns [t :: rest] = []

/-- The end of a build (R78, R79): the image in its buffer READY, the line BUILT, the counts added with saturation, CL and DS
latched where they are not zero, the cursor moved on. The builder then considers the next entry (R28): it may stop there,
pass a marker, or start the next line's build where a column buffer is FREE. A line at the front that Run Control waits for
becomes ACTIVE in the same event, its buffer IN USE, and is carried out: to its first pass start, the wait for the lever
among them, or, with no dark extent, to its feed after line, and where that is 0 steps to its end (R32, R78, R145, R160).
That a noted last fire is given up at the pass start is log 17 (DEDUCED). -/
def Obligations.BuildEnds : Prop :=
  ∀ (h : LineHeader) (parts : List (List Byte)) (b : BufId) (inp : BuildInputs) (s : State),
    buildInProgress s = some (h, parts, b, inp) → NoFeedEnds s → s.intake.laneQ = [] →
    let r := buildResult inp
    let cl := if r.clipped = 0 then s.run.causes else s.run.causes ||| Cause.CL.bit
    let ended : State :=
      { s with
        queue := { entries := s.queue.entries.set s.queue.cursor (.line h parts (.built b)),
                   cursor := s.queue.cursor + 1 },
        buffers := s.buffers.set b (.ready r.image),
        builder := { clipped := min 65535 (s.builder.clipped + r.clipped),
                     suppressed := min 65535 (s.builder.suppressed + r.suppressed) },
        run := { s.run with causes := if r.suppressed = 0 then cl else cl ||| Cause.DS.bit } }
    (RunAtRest s →
      (builderStep ended = none → exec .buildEnd s = .next (judgeTimers ended)) ∧
      (∀ e, s.queue.entries[s.queue.cursor + 1]? = some e → s.queue.cursor + 2 = s.queue.entries.length →
        ((∃ mode count, e = .advance mode count) ∨ (∃ l z, e = .form l z) ∨ ∃ d g e' q, e = .geometry d g e' q) →
        exec .buildEnd s = .next (judgeTimers
          { ended with queue := { ended.queue with cursor := s.queue.entries.length } })) ∧
      ∀ h2 parts2 b2, s.queue.entries[s.queue.cursor + 1]? = some (.line h2 parts2 .complete) →
        ended.buffers.firstFree = some b2 →
        exec .buildEnd s = .next (judgeTimers
          { ended with
            queue := { ended.queue with
              entries := ended.queue.entries.set (s.queue.cursor + 1) (.line h2 parts2 (.building b2)) },
            buffers := ended.buffers.set b2 (.filling
              { header := h2, parts := parts2, tRec := s.settings.tRec, floor := s.settings.qualityFloor,
                subst := s.settings.substSlot, codeMap := s.tables.codeMap, loadable := s.tables.loadable,
                cruises := [liveCruise s.tables 0, liveCruise s.tables 1, liveCruise s.tables 2,
                  liveCruise s.tables 3] }) })) ∧
    (s.queue = { entries := [.line h parts (.building b)], cursor := 0 } → s.run.inHand = some .notBuilt →
      s.run.executor = .waiting ∨ s.run.executor = .halting → s.forms.paper = .atPrint → s.forms.feed = none →
      let active : State :=
        { ended with queue := { entries := [.line h parts (.active b)], cursor := 1 },
                     buffers := s.buffers.set b (.inUse r.image) }
      (r.image.extent ≠ none → s.forms.lever ≠ .closed → exec .buildEnd s = .next (judgeTimers
        { active with run := { ended.run with reason := .lever, inHand := some (.lineDue true .lever) } })) ∧
      (∀ p, r.image.extent ≠ none → s.forms.lever = .closed →
        s.carriage = { position := some p, drive := .stopped } → skipDue s.forms = false →
        (∀ q, s.forms.tracking = some q → 144 ≤ q) → s.heat.band ≠ 3 →
        exec .buildEnd s = .next (judgeTimers (startedPass true h r.image p active))) ∧
      (r.image.extent = none → h.feedAfter ≠ 0 → exec .buildEnd s = .next (judgeTimers
        { active with
          forms := begunForward .afterLine (min 4095 h.feedAfter.toNat) s s.forms,
          run := { ended.run with executor := if s.run.executor = .halting then .halting else .running,
                                  reason := .none, inHand := some (.lineFeed true) } })) ∧
      (r.image.extent = none → h.feedAfter = 0 → exec .buildEnd s = .next (judgeTimers
        { ended with
          queue := { entries := [], cursor := 0 },
          buffers := s.buffers.set b .free,
          planner := { s.planner with keptDir := none },
          run := { ended.run with executor := if s.run.executor = .halting then .halted else .ready,
                                  reason := .none, inHand := none,
                                  causes := ended.run.causes ||| Cause.DR.bit } })))

/-- Clipping (R72): K is 0 beyond the window, else the lesser of the columns produced and floor((6,527 − o)/S) + 1, never
above 3,264; every column produced is stored or clipped. The figures of the image (R63, R73, R77): its step by the table of
R63, the offset as received, the recovery time read, and the dark extent of its own columns: the least and the greatest column
that carries a pin; none when no column does. -/
def Obligations.ImageMeasured : Prop :=
  (∀ inp : BuildInputs,
     let r := buildResult inp
     let o := inp.header.offset.toNat
     let produced := (lineColumns inp).length
     r.image.cols.length = (if o ≤ 6527 then min produced ((6527 - o) / r.image.step + 1) else 0) ∧
     r.image.cols.length ≤ 3264 ∧ r.clipped = produced - r.image.cols.length ∧
     r.image.step = (match inp.header.step.toNat with
       | 0 => 2 | 1 => 2 | 2 => 2 | 3 => 3 | 4 => 4 | _ => 6) ∧
     r.image.offset = o ∧ r.image.tRec = inp.tRec ∧ r.image.extent = darkExtent r.image.cols) ∧
  ∀ cols : List PinMask,
    (darkExtent cols = none ↔ ∀ c ∈ cols, c = 0) ∧
    ∀ a b, darkExtent cols = some (a, b) → a ≤ b ∧ b < cols.length ∧ cols.getD a 0 ≠ 0 ∧ cols.getD b 0 ≠ 0 ∧
      ∀ k, cols.getD k 0 ≠ 0 → a ≤ k ∧ k ≤ b

/-- Any two dots of one pin in these columns lie at least `tRec` apart in time at step `st` and cruise `t` (R74, R75). -/
def DotsApart (cols : List PinMask) (tRec st t : Nat) : Prop :=
  ∀ pin < 18, ∀ i j, i < j → (cols.getD i 0).getLsbD pin = true → (cols.getD j 0).getLsbD pin = true →
    tRec ≤ (j - i) * st * t

/-- The build class and the recovery of the pins (R74 to R76, R121). Where the dots of the stored columns lie far enough apart
at some class, the image holds those columns, and its class is the greatest of the class request, the quality floor and the
least such class. Where they do so at no class, the class is 3, and of each pin a dot is kept exactly when it lies m columns
or more to the right of every dot of the pin that is kept before it, so the first is; what is not kept is counted. In every
image any two dots of one pin lie at least t_rec apart in time at the cruise of its class and at every slower class. -/
def Obligations.BuiltDotsRecover : Prop :=
  ∀ inp : BuildInputs, (∀ i j, i ≤ j → j < 4 → inp.cruises.getD i 0 ≤ inp.cruises.getD j 0) →
    0 < inp.cruises.getD 3 0 → inp.floor ≤ 3 →
    let r := buildResult inp
    let img := r.image
    let stored := (lineColumns inp).take img.cols.length
    let apart (c : Nat) : Prop := DotsApart stored inp.tRec img.step (inp.cruises.getD c 0)
    img.cls ≤ 3 ∧ (∀ c, img.cls ≤ c → c ≤ 3 → DotsApart img.cols inp.tRec img.step (inp.cruises.getD c 0)) ∧
    (∀ c, c ≤ 3 → apart c → (∀ d, d < c → ¬apart d) →
      img.cols = stored ∧ r.suppressed = 0 ∧ img.cls = max (min 3 inp.header.classReq.toNat) (max inp.floor c)) ∧
    ((∀ c, c ≤ 3 → ¬apart c) →
      let m := (inp.tRec + img.step * inp.cruises.getD 3 0 - 1) / (img.step * inp.cruises.getD 3 0)
      img.cls = 3 ∧ r.suppressed + (img.cols.map pinCount).sum = (stored.map pinCount).sum ∧
      ∀ pin < 18, ∀ i, (img.cols.getD i 0).getLsbD pin = true ↔
        (stored.getD i 0).getLsbD pin = true ∧ ∀ j, j < i → (img.cols.getD j 0).getLsbD pin = true → j + m ≤ i)

/-! ## Taking up entries -/

/-- Entries with no needs, alone in the queue, taken up READY with the carriage not moving (R49, R57, R132, R159, R164): a pass
part is put into effect; the strike page is made live, a valid profile page is made live, an invalid one refused with TR, the
stage EMPTY; the entry goes in the same event, and DR is latched. The clamps of R164 and R132 on every field of a SET that is
present; an absent field keeps the value in effect. -/
def Obligations.NoNeedsTakenUp : Prop :=
  (∀ (p : PassPart) (s : State), s.run.executor = .ready → s.run.inHand = none → s.carriage.drive.moving = false →
     s.queue.entries = [.settings none (some p)] → s.intake.laneQ = [] → s.forms.paperRequest = false →
     NoFeedEnds s →
     exec .takeUpFrontEntry s = .next (judgeTimers
       { s with queue := { entries := [], cursor := s.queue.cursor - 1 },
                settings := applyPassSettings p s.settings,
                heat := applyThresholds p s.heat,
                run := { s.run with causes := s.run.causes ||| Cause.DR.bit } })) ∧
  (∀ (b : Binding) (s : State), s.run.executor = .ready → s.run.inHand = none → s.carriage.drive.moving = false →
    s.queue.entries = [.commit b.table b.page] → s.stage = .held b → s.intake.laneQ = [] →
    s.forms.paperRequest = false → NoFeedEnds s →
    let gone (tables : Tables) (causes : CauseSet) : State :=
      { s with queue := { entries := [], cursor := s.queue.cursor - 1 }, stage := .empty, tables := tables,
               run := { s.run with causes := causes ||| Cause.DR.bit } }
    (b.table = .strike → exec .takeUpFrontEntry s = .next (judgeTimers
      (gone { s.tables with strike := clampStrike b.bytes } s.run.causes))) ∧
    (b.table = .profile → profileValid s.tables b.page b.bytes = true →
      exec .takeUpFrontEntry s = .next (judgeTimers
        (gone { s.tables with profiles := s.tables.profiles.set b.page (clampProfile b.bytes) } s.run.causes))) ∧
    (b.table = .profile → profileValid s.tables b.page b.bytes = false →
      exec .takeUpFrontEntry s = .next (judgeTimers (gone s.tables (s.run.causes ||| Cause.TR.bit))))) ∧
  ∀ (b : BuildPart) (p : PassPart) (t : Settings) (h : Heat),
    let t' := applyPassSettings p (applyBuildPart b t)
    t'.tRec = (match b.tRec with | some v => min 2000 (max 100 v.toNat) | none => t.tRec) ∧
    t'.qualityFloor = (match b.qualityFloor with | some v => min 3 v.toNat | none => t.qualityFloor) ∧
    t'.substSlot = (match b.substSlot with | some v => min 447 v.toNat | none => t.substSlot) ∧
    t'.formsClass = (match p.formsClass with | some v => min 7 v.toNat | none => t.formsClass) ∧
    t'.bidirectional = (match p.bidirectional with | some v => min 1 v.toNat | none => t.bidirectional) ∧
    t'.alignment = (match p.alignment with | some v => min 31 (max (-32) v.toInt) | none => t.alignment) ∧
    t'.flightTime = (match p.flightTime with | some v => min 1000 v.toNat | none => t.flightTime) ∧
    t'.tearDelay = (match p.tearDelay with | some v => min 60 v.toNat | none => t.tearDelay) ∧
    (applyThresholds p h).level = h.level ∧ (applyThresholds p h).hold = h.hold ∧
    (applyThresholds p h).warm =
      (match p.hWarm with | some v => min 1048575 (max 1 v.toNat) | none => h.warm) ∧
    (applyThresholds p h).hot =
      max (applyThresholds p h).warm (match p.hHot with | some v => min 1048575 (max 1 v.toNat) | none => h.hot) ∧
    (applyThresholds p h).limit =
      max (applyThresholds p h).hot (match p.hLimit with | some v => min 1048575 (max 1 v.toNat) | none => h.limit)

/-- A geometry marker alone in the queue with paper AT PRINT (R165): applied, clamped, with the lock locked and r lowered to
the new S_e; with the lock locked, discarded with GL. A form marker (R143): L and z clamped, p set to 0. That either is carried
out while a feed step is still to arrive is log 18 (DEDUCED). -/
def Obligations.MarkersTakenUp : Prop :=
  ∀ s : State, s.run.executor = .ready → s.run.inHand = none → s.carriage.drive.moving = false →
    s.forms.paper = .atPrint → s.intake.laneQ = [] → s.forms.paperRequest = false → NoFeedEnds s →
    let gone (causes : CauseSet) : State :=
      { s with queue := { entries := [], cursor := s.queue.cursor - 1 },
               planner := { s.planner with keptDir := none },
               run := { s.run with causes := causes ||| Cause.DR.bit, reason := .none } }
    (∀ d g e r, s.queue.entries = [.geometry d g e r] → s.queue.cursor = 1 →
      (s.run.locked = true → exec .takeUpFrontEntry s = .next (judgeTimers (gone (s.run.causes ||| Cause.GL.bit)))) ∧
      (s.run.locked = false → exec .takeUpFrontEntry s = .next (judgeTimers
        { gone s.run.causes with
          geometry := { stagger := min 63 d.toNat, tearGap := min 2880 g.toNat,
                        sensorDist := min 4032 (max 576 e.toNat), ratio := min 24 (max 8 r.toNat) },
          forms := { s.forms with tracking := s.forms.tracking.map (min (min 4032 (max 576 e.toNat))) },
          run := { (gone s.run.causes).run with locked := true } }))) ∧
    ∀ l z, s.queue.entries = [.form l z] → s.queue.cursor = 1 →
      exec .takeUpFrontEntry s = .next (judgeTimers
        { gone s.run.causes with
          forms := { s.forms with length := min 6912 (max 288 l.toNat),
                                  skip := min (min 6912 (max 288 l.toNat) - 144) z.toNat, position := 0 } })

/-- An advance alone in the queue taken up (R144, R148, R149, R159). AT PRINT, FEED (any mode but 1 and 2) begins a feed of n
steps, n at most 4,095, TOP (1) one of (L − p) mod L, TEAR (2) a tear-off; one of no steps is done in the event; with the
last step of an abandoned feed still to arrive it waits for that arrival in RUNNING (log 12, DEDUCED). AT TEAR, TEAR is
finished at once, the others start the return of a_t reverse steps. In TEARING, TEAR stays RUNNING until the tear-off's end,
the others wait with their paper request kept, and so does TEAR where a RESET has stopped the tear-off (log 32, DEDUCED). In
RETURNING, and in NO FORMS, LOADING and EJECTING, all of them wait with a paper request. -/
def Obligations.AdvanceTakenUp : Prop :=
  ∀ (mode : Byte) (count : BitVec 16) (s : State), s.run.executor = .ready → s.run.inHand = none →
    s.carriage.drive.moving = false → s.queue = { entries := [.advance mode count], cursor := 1 } →
    s.intake.laneQ = [] → s.forms.paperRequest = false → NoFeedEnds s →
    let begun (g : Forms) : State :=
      { s with forms := g,
               run := { s.run with executor := .running, reason := .none, inHand := some (.advance true) } }
    let waits (r : WaitReason) (g : Forms) : State :=
      { s with forms := { g with paperRequest := true },
               run := { s.run with executor := .waiting, reason := r, inHand := some (.advance false) } }
    let done : State :=
      { s with queue := { entries := [], cursor := 0 }, planner := { s.planner with keptDir := none },
               run := { s.run with causes := s.run.causes ||| Cause.DR.bit, reason := .none } }
    let n := if mode = 1 then (s.forms.length - s.forms.position) % s.forms.length else min 4095 count.toNat
    let a := (s.forms.length - s.forms.position) % s.forms.length + s.geometry.tearGap
    (s.forms.paper = .atPrint → s.forms.feed = none →
      (mode ≠ 2 → n ≠ 0 → exec .takeUpFrontEntry s = .next (judgeTimers (begun (begunForward .advance n s s.forms)))) ∧
      (mode ≠ 2 → n = 0 → exec .takeUpFrontEntry s = .next (judgeTimers done)) ∧
      (mode = 2 → a ≠ 0 → exec .takeUpFrontEntry s = .next (judgeTimers
        (begun (begunForward .tearAdvance a s { s.forms with paper := .tearing, tearAdvance := some a })))) ∧
      (mode = 2 → a = 0 → exec .takeUpFrontEntry s = .next (judgeTimers
        { done with forms := { s.forms with paper := .atTear, tearAdvance := some 0 } }))) ∧
    (s.forms.paper = .atPrint → s.forms.feed ≠ none → exec .takeUpFrontEntry s = .next (judgeTimers
      { s with run := { s.run with executor := .running, reason := .none, inHand := some (.advance false) } })) ∧
    (s.forms.paper = .atTear → s.forms.feed = none →
      (mode = 2 → exec .takeUpFrontEntry s = .next (judgeTimers done)) ∧
      (mode ≠ 2 → ∀ k, s.forms.tearAdvance = some k → k ≠ 0 → exec .takeUpFrontEntry s = .next (judgeTimers
        (waits .paperReturning (begunReverse .return k s { s.forms with paper := .returning }))))) ∧
    (∀ f, s.forms.paper = .tearing → s.forms.feed = some f →
      (mode = 2 → f.ending = .goOn → exec .takeUpFrontEntry s = .next (judgeTimers (begun s.forms))) ∧
      (mode ≠ 2 ∨ f.ending = .reset →
        exec .takeUpFrontEntry s = .next (judgeTimers (waits .paperReturning s.forms)))) ∧
    (s.forms.paper = .returning → exec .takeUpFrontEntry s = .next (judgeTimers (waits .paperReturning s.forms))) ∧
    (s.forms.paper = .noForms ∨ s.forms.paper = .loading ∨ s.forms.paper = .ejecting →
      exec .takeUpFrontEntry s = .next (judgeTimers (waits .paper s.forms)))

/-- A BUILT line taken up becomes ACTIVE with its buffer IN USE, and with the lever not CLOSED Run Control waits for the lever
(R26, R32, R62, R159, R160). A line with no dark extent has no pass, whatever its two-pass flag: its feed after line begins in
the same event, and where that feed is 0 steps the line is done at once, its buffer FREE (R32, R83, R145, R160). -/
def Obligations.BuiltLineTakenUp : Prop :=
  ∀ (h : LineHeader) (parts : List (List Byte)) (b : BufId) (img : Image) (s : State),
    s.run.executor = .ready → s.run.inHand = none → s.carriage.drive.moving = false →
    s.queue = { entries := [.line h parts (.built b)], cursor := 1 } → s.buffers.get b = .ready img →
    s.intake.laneQ = [] → s.forms.paper = .atPrint → s.forms.feed = none →
    let taken : State :=
      { s with queue := { entries := [.line h parts (.active b)], cursor := 1 },
               buffers := s.buffers.set b (.inUse img) }
    (img.extent ≠ none → s.forms.lever ≠ .closed → exec .takeUpFrontEntry s = .next (judgeTimers
      { taken with
        run := { s.run with executor := .waiting, reason := .lever, inHand := some (.lineDue true .lever) } })) ∧
    (img.extent = none → h.feedAfter ≠ 0 → exec .takeUpFrontEntry s = .next (judgeTimers
      { taken with
        forms := begunForward .afterLine (min 4095 h.feedAfter.toNat) s s.forms,
        run := { s.run with executor := .running, reason := .none, inHand := some (.lineFeed true) } })) ∧
    (img.extent = none → h.feedAfter = 0 →
      exec .takeUpFrontEntry s = .next (judgeTimers
        { s with queue := { entries := [], cursor := 0 }, buffers := s.buffers.set b .free,
                 planner := { s.planner with keptDir := none },
                 run := { s.run with causes := s.run.causes ||| Cause.DR.bit, reason := .none } }))

/-! ## Pass starts -/

/-- A pass starts (R84, R87, R96, R102, R117, R160, R165): the plan is made for the class of the image or the heat band,
whichever is slower, and handed out; the geometry is locked. That a last fire still to be reported is given up here is log 17
(DEDUCED). -/
def Obligations.PassStarts : Prop :=
  ∀ (first : Bool) (h : LineHeader) (img : Image) (p : Int) (s : State), PassStartDue first s →
    s.carriage.position = some p → ¬(first = true ∧ skipDue s.forms = true) →
    (∀ r, s.forms.tracking = some r → 144 ≤ r) → s.heat.band ≠ 3 →
    frontHeader s.queue = some h → activeImage s = some img →
    exec .passStart s = .next (judgeTimers (startedPass first h img p s))

/-- A pass start that finds band 3 is not made (R134, R160): the heat hold is set, HW latched, and Run Control waits for heat.
A first pass start in the skip zone (R141, R146): a skip feed of L − p steps begins, and Run Control stays with the pass
start. A pass start that finds r below 144 is not made (R153): PO is latched, tracking ends, the paper is EJECTING with a
forward feed of r + the tear gap, in NO FORMS at once where that is 0 steps, and Run Control waits for paper with the line
ACTIVE; R158's law, a premise there, is StepKeepsExecutorLaw. -/
def Obligations.PassStartDeferred : Prop :=
  (∀ (first : Bool) (p : Int) (s : State), PassStartDue first s → s.carriage.position = some p →
     ¬(first = true ∧ skipDue s.forms = true) → (∀ r, s.forms.tracking = some r → 144 ≤ r) → s.heat.band = 3 →
     exec .passStart s = .next (judgeTimers
       { s with
         heat := { s.heat with hold := true },
         run := { s.run with
           executor := if s.run.executor = .halting then .halting else .waiting,
           reason := .heat, inHand := some (.lineDue first .heat), causes := s.run.causes ||| Cause.HW.bit } })) ∧
  (∀ (p : Int) (s : State), PassStartDue true s → s.carriage.position = some p → FormSound s.forms →
    0 < s.forms.skip → s.forms.length - s.forms.skip ≤ s.forms.position →
    exec .passStart s = .next (judgeTimers
      { s with
        forms := begunForward .skip (s.forms.length - s.forms.position) s s.forms,
        run := { s.run with
          executor := if s.run.executor = .halting then .halting else .running,
          reason := .none, inHand := some (.lineDue true .skipFeed) } })) ∧
  ∀ (first : Bool) (p : Int) (r : Nat) (s : State), PassStartDue first s → ExecutorSound s.run →
    s.carriage.position = some p →
    ¬(first = true ∧ skipDue s.forms = true) → s.forms.tracking = some r → r < 144 →
    let ejecting : Forms :=
      { s.forms with paper := .ejecting, tracking := none, tearAdvance := none, paperRequest := true }
    exec .passStart s = .next (judgeTimers
      { s with
        forms := if r + s.geometry.tearGap = 0 then { ejecting with paper := .noForms }
          else begunForward .ejection (r + s.geometry.tearGap) s ejecting,
        run := { s.run with
          executor := if s.run.executor = .halting then .halting else .waiting,
          reason := .paper, inHand := some (.lineDue first .paper), causes := s.run.causes ||| Cause.PO.bit } })

/-! ## The plan of a pass -/

/-- The flight distance (R89), the fire position (R90), and the direction of a pass (R85 to R87). -/
def Obligations.PlanFormulas : Prop :=
  ∀ (inp : PlanInputs) (sg k : Nat) (bidi : Nat) (p : Int) (kept : Side),
    let x : Int := 336 + inp.image.offset + k * inp.image.step
    let t := inp.profile.cruise
    let df : Int := ((2 * inp.flightTime + t) / (2 * t) : Nat)
    firePosition inp .rightward sg k = x - sg * inp.stagger - df ∧
    firePosition inp .leftward sg k = x - sg * inp.stagger + df + inp.alignment ∧
    (inp.flightTime ≤ 1000 → 50 ≤ t → df ≤ 20) ∧
    firstDirection inp .right bidi p = .rightward ∧ firstDirection inp .left bidi p = .leftward ∧
    firstDirection inp .auto 0 p = .rightward ∧
    (bidi ≠ 0 → (firstDirection inp .auto bidi p = .leftward ↔
      |passStartPos inp .leftward - p| < |passStartPos inp .rightward - p|)) ∧
    secondDirection kept 0 = kept ∧ (bidi ≠ 0 → secondDirection kept bidi ≠ kept)

/-- The fire schedule (R91 to R93): its positions rise strictly on a rightward pass and fall strictly on a leftward one; every
dot of the image is in the entry at its group's fire position; every pin of an entry is such a dot; no entry is empty, and
there are at most 2K of them. -/
def Obligations.ScheduleExact : Prop :=
  ∀ (inp : PlanInputs) (side : Side),
    ((fireSchedule inp side).map (·.pos)).Pairwise (fun a b =>
      match side with
      | .rightward => a < b
      | .leftward => b < a) ∧
    (∀ f ∈ fireSchedule inp side, f.mask ≠ 0) ∧
    (fireSchedule inp side).length ≤ 2 * inp.image.cols.length ∧
    ∀ (pin : Nat) (x : Int), pin < 18 →
      ((∃ f ∈ fireSchedule inp side, f.pos = x ∧ f.mask.getLsbD pin = true) ↔
        ∃ k < inp.image.cols.length, (inp.image.cols.getD k 0).getLsbD pin = true ∧
          firePosition inp side (pin % 2) k = x)

/-- The run of a pass (R94): p_start and p_end, the length d = F_hi − F_lo + 2R + 1, F_lo and F_hi the least and the
greatest fire position, and every entry of the schedule met by a step j with R ≤ j ≤ d − R − 1, which takes the cruise
interval (so every fire is on cruise, R104). -/
def Obligations.FiresOnCruise : Prop :=
  ∀ (inp : PlanInputs) (side : Side) (f : Fire), f ∈ fireSchedule inp side →
    let run := passRunOf inp side
    let m := runMove run
    let r := inp.profile.ramp.length
    (match side with
      | .rightward => run.start = fireLo inp side - r - 1 ∧ run.stop = fireHi inp side + r
      | .leftward => run.start = fireHi inp side + r + 1 ∧ run.stop = fireLo inp side - r) ∧
    (m.len : Int) = fireHi inp side - fireLo inp side + 2 * r + 1 ∧ 2 * r + 1 ≤ m.len ∧
    (∃ g ∈ fireSchedule inp side, g.pos = fireLo inp side) ∧ (∃ g ∈ fireSchedule inp side, g.pos = fireHi inp side) ∧
    fireLo inp side ≤ f.pos ∧ f.pos ≤ fireHi inp side ∧
    ∃ j, r ≤ j ∧ j + r + 1 ≤ m.len ∧
      f.pos = (match side with
        | .rightward => run.start + (j + 1)
        | .leftward => run.start - (j + 1)) ∧
      ({ m with idx := j } : Move).interval = inp.profile.cruise

/-- The bounds of R95 on fire, start and end positions, pass by pass, for the ranges its terms have. -/
def Obligations.PassPositionsBounded : Prop :=
  ∀ (inp : PlanInputs) (side : Side),
    (∀ k < inp.image.cols.length, inp.image.offset + k * inp.image.step ≤ 6527) → inp.stagger ≤ 63 →
    inp.flightTime ≤ 1000 → 50 ≤ inp.profile.cruise → -32 ≤ inp.alignment → inp.alignment ≤ 31 →
    1 ≤ inp.profile.ramp.length → inp.profile.ramp.length ≤ 200 → fireSchedule inp side ≠ [] →
    match side with
    | .rightward =>
      (∀ f ∈ fireSchedule inp side, 253 ≤ f.pos ∧ f.pos ≤ 6863) ∧
      52 ≤ passStartPos inp side ∧ passStartPos inp side ≤ 6861 ∧
      254 ≤ passEndPos inp side ∧ passEndPos inp side ≤ 7063
    | .leftward =>
      (∀ f ∈ fireSchedule inp side, 241 ≤ f.pos ∧ f.pos ≤ 6914) ∧
      243 ≤ passStartPos inp side ∧ passStartPos inp side ≤ 7115 ∧
      41 ≤ passEndPos inp side ∧ passEndPos inp side ≤ 6913

/-! ## The carriage -/

/-- The step interval rule of R101 for every step of a profile move. An arrival of the positioning move that passes the home
check (R100, R102, R109): the position changes by one, and the next step or the pass run begins. The deceleration under RESET
(R111): the next step takes the ramp interval below; after the step that takes ramp[0] the carriage is STOPPED. -/
def Obligations.MovesArrive : Prop :=
  (∀ m : Move, m.idx < m.len →
    let i := min m.idx (m.len - 1 - m.idx)
    (i < m.profile.ramp.length → m.profile.ramp[i]? = some m.interval) ∧
    (m.profile.ramp.length ≤ i → m.interval = m.profile.cruise)) ∧
  (∀ (m : Move) (run : PassRun) (p q : Int) (home : Bool) (s : State), s.carriage.drive = .positioning m run →
     s.carriage.position = some p → q = (match m.side with | .rightward => p + 1 | .leftward => p - 1) →
     (home = true ↔ q ≤ 24) →
     exec (.positioningArrival home) s = .next
       { s with
         pins := { s.pins with homeSensor := home },
         carriage := { position := some q, drive :=
           if m.idx + 1 < m.len then .positioning { m with idx := m.idx + 1 } run
           else .passRun { side := run.side, len := (run.stop - run.start).natAbs, idx := 0, profile := run.profile } } }) ∧
  ∀ (d : Decel) (p q : Int) (home : Bool) (s : State), s.carriage.drive = .stopping d →
    s.carriage.position = some p → q = (match d.side with | .rightward => p + 1 | .leftward => p - 1) →
    (home = true ↔ q ≤ 24) →
    let moved (drive : Drive) : State :=
      { s with pins := { s.pins with homeSensor := home }, carriage := { position := some q, drive := drive } }
    (∀ n, d.left = n + 1 → exec (.stoppingArrival home) s = .next
      (moved (.stopping { d with interval := d.profile.ramp.getD n d.profile.cruise, left := n }))) ∧
    (d.left = 0 → NoWork s → exec (.stoppingArrival home) s = .next (judgeTimers (moved .stopped)))

/-- An arrival of the pass run before its last, at the marked entry's position while ARMED (R97, R103, R118, R119, R124,
R130): the entry's pins that are not dead are energized for the effective width, dead ones are counted with DS, and the heat
of the fire is added. The last entry handed is noted (R118 step 6); where that fire energizes nothing and no on-timer runs,
the last fire is done at once, and with a line's last pass the feed after line begins (R122, R145); where on-timers still run
it stays noted. SILENT only moves the mark. An arrival elsewhere hands nothing, nor does one of the run-out, after the last
entry. -/
def Obligations.PassRunFires : Prop :=
  (∀ (m : Move) (sc : Schedule) (f : Fire) (tRec : Nat) (p q : Int) (home : Bool) (s : State),
    s.carriage.drive = .passRun m → s.carriage.position = some p →
    q = (match m.side with | .rightward => p + 1 | .leftward => p - 1) → (home = true ↔ q ≤ 24) →
    m.idx + 1 < m.len → s.planner.schedule = some sc → sc.fires[sc.mark]? = some f →
    s.firing.lastPending = false →
    let moved : State :=
      { s with pins := { s.pins with homeSensor := home },
               carriage := { position := some q, drive := .passRun { m with idx := m.idx + 1 } } }
    let fired := f.mask &&& ~~~s.firing.dead
    let skipped := f.mask &&& s.firing.dead
    let w := min (4 * strikeEntry s.tables.strike s.settings.formsClass s.heat.band) (tRec - 50)
    let handed : State :=
      { moved with
        planner := { s.planner with schedule := some { sc with mark := sc.mark + 1 } },
        firing := { s.firing with
          pulses := dropPins fired s.firing.pulses ++ (if fired = 0 then [] else [{ pins := fired, width := w }]),
          deadDots := min 65535 (s.firing.deadDots + pinCount skipped) },
        run := { s.run with
          causes := if skipped = 0 then s.run.causes else s.run.causes ||| Cause.DS.bit },
        heat := { s.heat with level := min 1048575 (s.heat.level + pinCount fired * (w / 4)) } }
    (f.pos ≠ q → exec (.passRunArrival home) s = .next moved) ∧
    (f.pos = q → s.firing.state = .armed tRec →
      (sc.mark + 1 < sc.fires.length → exec (.passRunArrival home) s = .next handed) ∧
      (sc.mark + 1 = sc.fires.length → handed.firing.pulses ≠ [] → exec (.passRunArrival home) s = .next
        { handed with firing := { handed.firing with lastPending := true } }) ∧
      (sc.mark + 1 = sc.fires.length → handed.firing.pulses = [] → NoneWaits s →
        (∀ rs h, s.run.inHand = some (.linePass true rs false) → frontHeader s.queue = some h → h.feedAfter ≠ 0 →
          exec (.passRunArrival home) s = .next (judgeTimers
            { handed with forms := begunForward .afterLine (min 4095 h.feedAfter.toNat) s s.forms })) ∧
        (∀ rs fd, s.run.inHand = some (.linePass false rs fd) → s.forms.paperRequest = false → NoFeedEnds s →
          exec (.passRunArrival home) s = .next (judgeTimers handed)))) ∧
    (f.pos = q → ∀ t, s.firing.state = .silent t →
      exec (.passRunArrival home) s = .next
        { moved with planner := { s.planner with schedule := some { sc with mark := sc.mark + 1 } } })) ∧
  ∀ (m : Move) (p q : Int) (home : Bool) (s : State), s.carriage.drive = .passRun m → s.carriage.position = some p →
    q = (match m.side with | .rightward => p + 1 | .leftward => p - 1) → (home = true ↔ q ≤ 24) →
    m.idx + 1 < m.len → (∀ sc, s.planner.schedule = some sc → sc.fires.length ≤ sc.mark) → lastFireDue s = false →
    exec (.passRunArrival home) s = .next
      { s with pins := { s.pins with homeSensor := home },
               carriage := { position := some q, drive := .passRun { m with idx := m.idx + 1 } } }

/-- The last arrival of a pass run (R99, R103, R117, R161): the carriage is STOPPED, the schedule gone, the Firing Unit IDLE;
running pulses run on. After a line's last pass the run stop is recorded, or, with the feed after line complete, the line is
done: removed, its buffer FREE, DR latched (R32, R33, R34). After pass 1 the start of pass 2 is due, and with every check passed
it is left to PASS_START (log 31); so, in whichever order the last arrival and a RESET are taken, the carriage is STOPPED at
p_end (R113). -/
def Obligations.PassRunStops : Prop :=
  ∀ (m : Move) (p q : Int) (home : Bool) (s : State),
    s.carriage.drive = .passRun m → s.carriage.position = some p →
    q = (match m.side with | .rightward => p + 1 | .leftward => p - 1) → (home = true ↔ q ≤ 24) →
    ¬(m.idx + 1 < m.len) →
    let stopped : State :=
      { s with
        pins := { s.pins with homeSensor := home },
        carriage := { position := some q, drive := .stopped },
        planner := { s.planner with schedule := none },
        firing := { s.firing with state := .idle } }
    (∀ sc, s.planner.schedule = some sc → sc.fires.length ≤ sc.mark → lastFireDue s = false → NoFeedEnds s →
      s.forms.paperRequest = false →
      (s.run.inHand = some (.linePass true false false) → NoneWaits s →
        exec (.passRunArrival home) s = .next (judgeTimers
          { stopped with run := { s.run with inHand := some (.linePass true true false) } })) ∧
      (∀ rs h parts b, s.run.inHand = some (.linePass true rs true) →
        s.queue = { entries := [.line h parts (.active b)], cursor := 1 } → s.intake.laneQ = [] →
        s.run.executor.executing = true →
        exec (.passRunArrival home) s = .next (judgeTimers
          { stopped with
            queue := { entries := [], cursor := 0 },
            buffers := s.buffers.set b .free,
            planner := { schedule := none, keptDir := none },
            run := { s.run with executor := if s.run.executor = .halting then .halted else .ready,
                                reason := .none, inHand := none, causes := s.run.causes ||| Cause.DR.bit } })) ∧
      (∀ rs fd img, s.run.inHand = some (.linePass false rs fd) → NoneWaits s → s.run.executor.executing = true →
        s.forms.paper = .atPrint → s.forms.feed = none → s.forms.lever = .closed →
        (∀ r, s.forms.tracking = some r → 144 ≤ r) → s.heat.band ≠ 3 → activeImage s = some img →
        exec (.passRunArrival home) s = .next (judgeTimers
          { stopped with run := { s.run with inHand := some (.lineDue false .ready) } }))) ∧
    (∃ t u, exec (.passRunArrival home) s = .next t ∧ exec .reset t = .next u ∧
      u.carriage = { position := some q, drive := .stopped }) ∧
    ∃ t u, exec .reset s = .next t ∧ exec (.stoppingArrival home) t = .next u ∧
      u.carriage = { position := some q, drive := .stopped }

/-- An arrival that the home check or a homing limit faults. -/
def arrivalFaults (home : Bool) (s : State) : Instr → Prop
  | .positioningArrival h => h = home ∧ ∃ m run p, s.carriage.drive = .positioning m run ∧
      s.carriage.position = some p ∧ ¬(home = true ↔ m.side.next p ≤ 24)
  | .passRunArrival h => h = home ∧ ∃ m p, s.carriage.drive = .passRun m ∧ s.carriage.position = some p ∧
      ¬(home = true ↔ m.side.next p ≤ 24)
  | .stoppingArrival h => h = home ∧ ∃ d p, s.carriage.drive = .stopping d ∧ s.carriage.position = some p ∧
      ¬(home = true ↔ d.side.next p ≤ 24)
  | .homingArrival h => h = home ∧ ∃ g, s.carriage.drive = .homing g ∧
      (g.phase = .one ∧ home = true ∧ 240 ≤ g.steps + 1 ∨ g.phase = .two ∧ home = false ∧ 7400 ≤ g.steps + 1 ∨
       g.phase = .three ∧ ∃ p, s.carriage.position = some p ∧ ¬(home = true ↔ p + 1 ≤ 24))
  | _ => False

/-- Homing (R106 to R108). With no restart asked for: each arrival within its phase, the home edge at position 24, the end at
position 48 with the executor READY. With a restart asked for by a RESET (R112), at an arrival that is no carriage fault:
homing begins anew by the sensor's reading there, its position unknown; that it does so also where the arrival finds the home
edge or would complete homing is log 14 (DEDUCED). -/
def Obligations.HomingArrives : Prop :=
  (∀ (n : Nat) (home : Bool) (s : State),
    let at_ (ph : HomingPhase) (p : Option Int) : Prop :=
      s.carriage = { position := p, drive := .homing { phase := ph, steps := n, restart := false } }
    let to_ (ph : HomingPhase) (k : Nat) (p : Option Int) : State :=
      { s with pins := { s.pins with homeSensor := home },
               carriage := { position := p, drive := .homing { phase := ph, steps := k, restart := false } } }
    (at_ .one none → home = true → n + 1 < 240 →
      exec (.homingArrival home) s = .next (to_ .one (n + 1) none)) ∧
    (at_ .one none → home = false → exec (.homingArrival home) s = .next (to_ .two 0 none)) ∧
    (at_ .two none → home = false → n + 1 < 7400 →
      exec (.homingArrival home) s = .next (to_ .two (n + 1) none)) ∧
    (at_ .two none → home = true → exec (.homingArrival home) s = .next (to_ .three 0 (some 24))) ∧
    (at_ .three (some (24 + n)) → home = false → n + 1 < 24 →
      exec (.homingArrival home) s = .next (to_ .three (n + 1) (some (24 + n + 1)))) ∧
    (at_ .three (some 47) → n = 23 → home = false → s.run.executor = .homing → NoWork s →
      exec (.homingArrival home) s = .next (judgeTimers
        { s with pins := { s.pins with homeSensor := home },
                 carriage := { position := some 48, drive := .stopped },
                 run := { s.run with executor := .ready, reason := .none } }))) ∧
  ∀ (g : Homing) (home : Bool) (s : State), s.carriage.drive = .homing g → g.restart = true →
    ¬arrivalFaults home s (.homingArrival home) →
    exec (.homingArrival home) s = .next
      { s with pins := { s.pins with homeSensor := home },
               carriage := { position := none,
                             drive := .homing { phase := if home then .one else .two, steps := 0,
                                                restart := false } } }

/-- What a fault stop does to a line in hand that is ACTIVE, at the front of a queue that the builder has passed (R35, R136,
R145, R156, R163): the line is removed and its buffer FREE, DR is latched if it was alone, its feed after line or skip feed is
abandoned, the heat hold ended. That its kept paper request is withdrawn too is the model's choice, log 33 (DEDUCED). -/
def ActiveLineDiscarded (s t : State) : Prop :=
  ∀ h parts b rest, s.queue = { entries := .line h parts (.active b) :: rest, cursor := rest.length + 1 } →
    s.intake.laneQ = [] → NoFeedEnds s → s.run.executor ≠ .faultStop →
    (∃ x, s.run.inHand = some x ∧ x.isActive = true) →
    t.queue = { entries := rest, cursor := rest.length } ∧ t.buffers = s.buffers.set b .free ∧
      (rest = [] → isPending .DR t = true) ∧ t.heat.hold = false ∧ t.run.inHand = none ∧ t.run.reason = .none ∧
      t.forms.paperRequest = false ∧ t.planner.keptDir = none ∧
      t.forms.feed = (match s.forms.feed with
        | some f =>
          if f.purpose = .afterLine ∨ f.purpose = .skip then
            if f.suspended then none else some { f with ending := .abandon }
          else some f
        | none => none)

/-- What a fault stop leaves of an entry in hand that is no ACTIVE line (R163): the entry stays in the queue, its paper request
is withdrawn, and an advance whose feed has begun stays in hand with its feed going on. -/
def OtherEntryStays (s t : State) : Prop :=
  ∀ x, s.run.inHand = some x → x = .notBuilt ∨ x = .marker ∨ x = .advance false ∨ x = .advance true →
    NoneWaits s → NoFeedEnds s → s.run.executor ≠ .faultStop → (x = .advance true → s.forms.paperRequest = false) →
    t.queue = s.queue ∧ t.buffers = s.buffers ∧ t.forms.feed = s.forms.feed ∧ t.forms.paperRequest = false ∧
      t.run.reason = .none ∧ t.run.inHand = if x = .advance true then some x else none

/-- A carriage fault (R108 to R110, R163): the carriage UNHOMED at an unknown position, CF pending, the schedule discarded,
the Firing Unit IDLE with its pulses running on, the executor in FAULT STOP, the ACTIVE line in hand discarded (R35) and any
other entry in hand left in the queue. That the kept paper request of the line discarded is withdrawn is the model's choice,
log 33 (DEDUCED). -/
def Obligations.CarriageFaultStops : Prop :=
  ∀ (c : Instr) (home : Bool) (s : State), arrivalFaults home s c →
    ∃ t, exec c s = .next t ∧ t.carriage = { position := none, drive := .unhomed } ∧ isPending .CF t = true ∧
      t.planner.schedule = none ∧ t.firing.state = .idle ∧ t.firing.pulses = s.firing.pulses ∧
      t.firing.dead = s.firing.dead ∧ t.run.executor = .faultStop ∧ t.heat.level = s.heat.level ∧
      t.tables.strike = s.tables.strike ∧ t.geometry = s.geometry ∧ ActiveLineDiscarded s t ∧ OtherEntryStays s t

/-! ## Firing and heat -/

/-- The end of a fire's pulses below the third dead pin (R120, R122, R123): its pins are de-energized, those whose driver reads
fault join the dead-pin set with PF; when it is the last fire of a line's last pass, the feed after line begins, with its first
step where the lever is CLOSED, else suspended, and is complete at once where it is 0 steps (R145, R155); when it is that of
pass 1 of a two-pass line nothing follows (R161). -/
def Obligations.PulseEnds : Prop :=
  ∀ (i : Nat) (p : Pulse) (faults : PinMask) (s : State), s.firing.pulses[i]? = some p →
    let joined := p.pins &&& faults &&& ~~~s.firing.dead
    ¬(pinCount s.firing.dead < 3 ∧ 3 ≤ pinCount (s.firing.dead ||| joined)) →
    let ended : State :=
      { s with
        firing := { s.firing with pulses := s.firing.pulses.eraseIdx i, dead := s.firing.dead ||| joined },
        run := { s.run with causes := if joined = 0 then s.run.causes else s.run.causes ||| Cause.PF.bit } }
    let reported : State := { ended with firing := { ended.firing with lastPending := false } }
    (s.firing.lastPending = false ∨ 2 ≤ s.firing.pulses.length → exec (.pulseEnd i faults) s = .next ended) ∧
    (s.firing.lastPending = true → s.firing.pulses = [p] → NoneWaits s →
      (∀ h rs, s.run.inHand = some (.linePass true rs false) → frontHeader s.queue = some h → h.feedAfter ≠ 0 →
        exec (.pulseEnd i faults) s = .next (judgeTimers
          { reported with forms := begunForward .afterLine (min 4095 h.feedAfter.toNat) s s.forms })) ∧
      (∀ h, s.run.inHand = some (.linePass true false false) → frontHeader s.queue = some h → h.feedAfter = 0 →
        s.forms.paperRequest = false →
        exec (.pulseEnd i faults) s = .next (judgeTimers
          { reported with forms := { s.forms with feed := none },
                          run := { ended.run with inHand := some (.linePass true false true) } })) ∧
      (∀ rs fd, s.run.inHand = some (.linePass false rs fd) → s.forms.paperRequest = false → NoFeedEnds s →
        exec (.pulseEnd i faults) s = .next (judgeTimers reported)))

/-- The third dead pin (R123, R125, R163): PF pending, an ARMED pass SILENT, the executor in FAULT STOP; the carriage goes on;
the ACTIVE line in hand is discarded (R35) and any other entry in hand left in the queue. That a last fire noted and not yet
reported is given up here, also while other pulses run, is the model's choice, log 17 (DEDUCED); so is that the kept paper
request of the line discarded is withdrawn, log 33 (DEDUCED). -/
def Obligations.ThirdDeadPinStops : Prop :=
  ∀ (i : Nat) (p : Pulse) (faults : PinMask) (s : State), s.firing.pulses[i]? = some p →
    let dead := s.firing.dead ||| (p.pins &&& faults)
    pinCount s.firing.dead < 3 → 3 ≤ pinCount dead →
    ∃ t, exec (.pulseEnd i faults) s = .next t ∧ t.run.executor = .faultStop ∧ isPending .PF t = true ∧
      t.firing = { s.firing with
        pulses := s.firing.pulses.eraseIdx i, dead := dead, lastPending := false,
        state := match s.firing.state with
          | .armed r => .silent r
          | st => st } ∧
      t.carriage = s.carriage ∧ t.heat.level = s.heat.level ∧ ActiveLineDiscarded s t ∧ OtherEntryStays s t

/-- The cooling tick (R131, R135): ceil(H / 256) is taken from H; with no hold to release nothing else changes. A tick that
leaves H below H_warm with the hold set releases it, and the checks are run through again: with the lever not CLOSED they
stop there, with every check passed the held pass starts; that a last fire noted and not yet reported is given up at that
start is the model's choice, log 17 (DEDUCED). The heat band of R133. -/
def Obligations.HeatCools : Prop :=
  (∀ s : State,
     let h := s.heat.level - (s.heat.level + 255) / 256
     (¬(s.heat.hold = true ∧ h < s.heat.warm) →
       exec .coolingTick s = .next { s with heat := { s.heat with level := h } }) ∧
     ∀ (first : Bool) (hd : LineHeader), s.heat.hold = true → h < s.heat.warm →
       s.run.inHand = some (.lineDue first .heat) → (s.run.executor = .waiting ∨ s.run.executor = .halting) →
       frontHeader s.queue = some hd → s.forms.paper = .atPrint → s.forms.feed = none → NoneWaits s →
       let released : State := { s with heat := { s.heat with level := h, hold := false } }
       (s.forms.lever ≠ .closed → exec .coolingTick s = .next (judgeTimers
         { released with run := { s.run with reason := .lever, inHand := some (.lineDue first .lever) } })) ∧
       ∀ img p, s.forms.lever = .closed → s.carriage = { position := some p, drive := .stopped } →
         ¬(first = true ∧ skipDue s.forms = true) → (∀ r, s.forms.tracking = some r → 144 ≤ r) →
         activeImage s = some img →
         exec .coolingTick s = .next (judgeTimers (startedPass first hd img p released))) ∧
  ∀ h : Heat, HeatSound h →
    (h.band = 0 ↔ h.level < h.warm) ∧ (h.band = 1 ↔ h.warm ≤ h.level ∧ h.level < h.hot) ∧
    (h.band = 2 ↔ h.hot ≤ h.level ∧ h.level < h.limit) ∧ (h.band = 3 ↔ h.limit ≤ h.level)

/-! ## Forms -/

/-- A feed step arrives within a feed that is no loading (R140 to R142, R152, R155): p, the form count and r are counted, and
the next step begins with its tractor steps unless the lever is not CLOSED. A forward arrival that brings r to 0 is paper out
(R153): the feed stops there, whatever is left of it, PO is latched, tracking ends, and the ejection of the tear gap begins; a
feed after line is complete so, an ADVANCE is finished, a tear-off by the timer just ends in EJECTING (R140, R144, R149). A feed
and a reverse feed of the same length bring p, the form count, acc and both motors back (R141, R142, R149). -/
def Obligations.FeedStepArrives : Prop :=
  (∀ (f : Feed) (s : State), s.forms.feed = some f → f.suspended = false → 2 ≤ f.remaining → f.ending = .goOn →
    f.purpose ≠ .loading →
    let go : Bool := s.forms.lever = .closed
    let fed (g : Forms) : Forms := { g with feed := some { f with remaining := f.remaining - 1, suspended := !go } }
    (f.dir = .forward →
      (s.forms.tracking ≠ some 1 ∧ s.forms.tracking ≠ some 0 ∨ f.purpose = .ejection) →
      exec .feedStepArrival s = .next { s with forms :=
        { fed (countedForward s.forms) with
          acc := if go then (s.forms.acc + s.geometry.ratio) % 16 else s.forms.acc,
          tractorMotor := if go then s.forms.tractorMotor + ((s.forms.acc + s.geometry.ratio) / 16 : Nat)
            else s.forms.tractorMotor,
          feedMotor := if go then s.forms.feedMotor + 1 else s.forms.feedMotor } }) ∧
    (f.dir = .reverse →
      exec .feedStepArrival s = .next { s with forms :=
        { fed (countedReverse s.geometry.sensorDist s.forms) with
          acc := if go then (((s.forms.acc : Int) - s.geometry.ratio) % 16).toNat else s.forms.acc,
          tractorMotor := if go then s.forms.tractorMotor + ((s.forms.acc : Int) - s.geometry.ratio) / 16
            else s.forms.tractorMotor,
          feedMotor := if go then s.forms.feedMotor - 1 else s.forms.feedMotor } })) ∧
  (∀ (f : Feed) (s : State), s.forms.feed = some f → f.suspended = false → f.remaining ≠ 0 → f.ending = .goOn →
    f.dir = .forward → s.forms.tracking = some 1 → s.geometry.tearGap ≠ 0 →
    let out (run : RunControl) : State :=
      { s with
        forms := begunForward .ejection s.geometry.tearGap s
          { countedForward s.forms with paper := .ejecting, tracking := none, tearAdvance := none },
        run := { run with causes := s.run.causes ||| Cause.PO.bit } }
    (f.purpose = .afterLine → s.run.inHand = some (.linePass true false false) → NoneWaits s →
      exec .feedStepArrival s = .next (judgeTimers (out { s.run with inHand := some (.linePass true false true) }))) ∧
    (f.purpose = .tearAdvance → NoWork s → exec .feedStepArrival s = .next (judgeTimers (out s.run))) ∧
    (∀ mode count, f.purpose = .advance ∨ f.purpose = .tearAdvance →
      s.queue = { entries := [.advance mode count], cursor := 1 } → s.intake.laneQ = [] →
      s.run.inHand = some (.advance true) → s.run.executor = .running → s.forms.paperRequest = false →
      exec .feedStepArrival s = .next (judgeTimers
        { out { s.run with executor := .ready, reason := .none, inHand := none } with
          queue := { entries := [], cursor := 0 },
          planner := { s.planner with keptDir := none },
          run := { s.run with executor := .ready, reason := .none, inHand := none,
                              causes := s.run.causes ||| Cause.PO.bit ||| Cause.DR.bit } }))) ∧
  ∀ (n ratio : Nat) (f : Forms), f.acc ≤ 15 → f.position < f.length → f.count < 65536 →
    (fun g => tractorReverse ratio (countReverse g))^[n] ((fun g => countForward (tractorForward ratio g))^[n] f) = f

/-- The ends of feeds, at their last step. An ADVANCE alone in the queue is finished and removed, with DR (R33, R34, R140,
R144, R159), also when it is TEAR and its tear advance reaches AT TEAR. A feed after line is recorded; after the run stop, or
for a line with no pass, the line is done: removed, its buffer FREE, with DR (R32, R161). The tear advance reaches AT TEAR
and keeps a_t (R148); with a paper request kept the return begins at once (R149). The return reaches AT PRINT, discards a_t
and answers a kept paper request: an advance that waited begins, a form or geometry marker is carried out and removed
(R143, R165), the feed of a line with no pass begins, and where it is 0 steps the line is done (R145), a pass start is made
(R149, R160). A loading reaches AT PRINT with p at 0 and answers a kept paper request: an advance that waited begins, the pass
start of a line that waited is made (R151, R153, R160); one cut short, at any step, NO FORMS with PO (R151, R153). An ejection
reaches NO FORMS with PO (R153). After a skip feed Run Control comes back to the same pass start: it waits for the lever where
that is not CLOSED, and with every check passed the pass starts (R146, R160, R161). That a noted last fire is given up at a
pass start is log 17 (DEDUCED). -/
def Obligations.FeedsEnd : Prop :=
  (∀ (f : Feed) (s : State), s.forms.feed = some f → f.suspended = false → f.remaining = 1 → f.ending = .goOn →
    f.dir = .forward → s.forms.tracking = none → s.intake.laneQ = [] →
    let counted : Forms := { countedForward s.forms with feed := none }
    let atTear : Forms := { counted with paper := .atTear }
    let gone : RunControl :=
      { s.run with executor := if s.run.executor = .halting then .halted else .ready, reason := .none, inHand := none,
                   causes := s.run.causes ||| Cause.DR.bit }
    let removed (g : Forms) : State :=
      { s with queue := { entries := [], cursor := 0 }, planner := { s.planner with keptDir := none },
               forms := g, run := gone }
    (∀ mode count, s.queue = { entries := [.advance mode count], cursor := 1 } →
      s.run.inHand = some (.advance true) → s.run.executor.executing = true → s.forms.paperRequest = false →
      (f.purpose = .advance → exec .feedStepArrival s = .next (judgeTimers (removed counted))) ∧
      (f.purpose = .tearAdvance → exec .feedStepArrival s = .next (judgeTimers (removed atTear)))) ∧
    (f.purpose = .afterLine → s.run.inHand = some (.linePass true false false) → NoneWaits s →
      s.forms.paperRequest = false → exec .feedStepArrival s = .next (judgeTimers
        { s with forms := counted, run := { s.run with inHand := some (.linePass true false true) } })) ∧
    (∀ h parts b, f.purpose = .afterLine →
      s.run.inHand = some (.linePass true true false) ∨ s.run.inHand = some (.lineFeed true) →
      s.queue = { entries := [.line h parts (.active b)], cursor := 1 } → s.run.executor.executing = true →
      s.forms.paperRequest = false →
      exec .feedStepArrival s = .next (judgeTimers { removed counted with buffers := s.buffers.set b .free })) ∧
    (f.purpose = .tearAdvance → NoWork s →
      exec .feedStepArrival s = .next (judgeTimers { s with forms := atTear })) ∧
    (∀ a, f.purpose = .tearAdvance → builderStep s = none → s.forms.tearAdvance = some a → a ≠ 0 →
      s.run.inHand = some .marker ∨ s.run.inHand = some (.lineFeed false) ∨
        (∃ first, s.run.inHand = some (.lineDue first .paper)) →
      s.run.executor.executing = true → s.run.reason = .paperReturning → s.forms.paperRequest = true →
      exec .feedStepArrival s = .next (judgeTimers
        { s with forms := begunReverse .return a s { atTear with paper := .returning } })) ∧
    (∀ first, f.purpose = .skip → s.run.inHand = some (.lineDue first .skipFeed) → s.run.executor.executing = true →
      builderStep s = none → s.forms.paper = .atPrint → frontHeader s.queue ≠ none →
      (s.forms.lever ≠ .closed → exec .feedStepArrival s = .next (judgeTimers
        { s with forms := counted,
                 run := { s.run with executor := if s.run.executor = .halting then .halting else .waiting,
                                     reason := .lever, inHand := some (.lineDue first .lever) } })) ∧
      ∀ hd img p, s.forms.lever = .closed → s.carriage = { position := some p, drive := .stopped } →
        ¬(first = true ∧ skipDue counted = true) → s.heat.band ≠ 3 → frontHeader s.queue = some hd →
        activeImage s = some img →
        exec .feedStepArrival s = .next (judgeTimers (startedPass first hd img p { s with forms := counted }))) ∧
    (f.purpose = .ejection → NoWork s → exec .feedStepArrival s = .next (judgeTimers
      { s with forms := { counted with paper := .noForms },
               run := { s.run with causes := s.run.causes ||| Cause.PO.bit } })) ∧
    (f.purpose = .loading → s.pins.formsPresent = true →
      let loaded : Forms :=
        { s.forms with feed := none, paper := .atPrint, tearAdvance := none, paperRequest := false, position := 0 }
      (s.queue.entries = [] → s.run.inHand = none →
        exec .feedStepArrival s = .next (judgeTimers { s with forms := loaded })) ∧
      (∀ mode count, s.queue = { entries := [.advance mode count], cursor := 1 } → mode ≠ 1 → mode ≠ 2 → count ≠ 0 →
        s.run.inHand = some (.advance false) → s.run.executor = .waiting →
        exec .feedStepArrival s = .next (judgeTimers
          { s with forms := begunForward .advance (min 4095 count.toNat) s loaded,
                   run := { s.run with executor := .running, reason := .none, inHand := some (.advance true) } })) ∧
      ∀ first hd img p, s.run.inHand = some (.lineDue first .paper) →
        s.run.executor = .waiting ∨ s.run.executor = .halting → builderStep s = none → s.forms.lever = .closed →
        s.carriage = { position := some p, drive := .stopped } → ¬(first = true ∧ skipDue loaded = true) →
        s.heat.band ≠ 3 → frontHeader s.queue = some hd → activeImage s = some img →
        exec .feedStepArrival s = .next (judgeTimers (startedPass first hd img p { s with forms := loaded })))) ∧
  (∀ (f : Feed) (s : State), s.forms.feed = some f → f.suspended = false → f.remaining = 1 → f.ending = .goOn →
    f.dir = .reverse → f.purpose = .return → s.intake.laneQ = [] →
    let atPrint : Forms :=
      { countedReverse s.geometry.sensorDist s.forms with
        feed := none, paper := .atPrint, tearAdvance := none, paperRequest := false }
    (s.queue.entries = [] → s.run.inHand = none →
      exec .feedStepArrival s = .next (judgeTimers { s with forms := atPrint })) ∧
    (∀ mode count, s.queue = { entries := [.advance mode count], cursor := 1 } → mode ≠ 1 → mode ≠ 2 → count ≠ 0 →
      s.run.inHand = some (.advance false) → s.run.executor = .waiting →
      exec .feedStepArrival s = .next (judgeTimers
        { s with forms := begunForward .advance (min 4095 count.toNat) s atPrint,
                 run := { s.run with executor := .running, reason := .none, inHand := some (.advance true) } })) ∧
    (s.run.executor = .waiting ∨ s.run.executor = .halting →
      let removed (g : Forms) (causes : CauseSet) : State :=
        { s with queue := { entries := [], cursor := 0 }, planner := { s.planner with keptDir := none },
                 forms := g,
                 run := { s.run with executor := if s.run.executor = .halting then .halted else .ready,
                                     reason := .none, inHand := none, causes := causes ||| Cause.DR.bit } }
      (∀ l z, s.queue = { entries := [.form l z], cursor := 1 } → s.run.inHand = some .marker →
        exec .feedStepArrival s = .next (judgeTimers (removed
          { atPrint with length := min 6912 (max 288 l.toNat),
                         skip := min (min 6912 (max 288 l.toNat) - 144) z.toNat, position := 0 } s.run.causes))) ∧
      (∀ d g e q, s.queue = { entries := [.geometry d g e q], cursor := 1 } → s.run.inHand = some .marker →
        (s.run.locked = true → exec .feedStepArrival s = .next (judgeTimers
          (removed atPrint (s.run.causes ||| Cause.GL.bit)))) ∧
        (s.run.locked = false → exec .feedStepArrival s = .next (judgeTimers
          { removed { atPrint with tracking := atPrint.tracking.map (min (min 4032 (max 576 e.toNat))) } s.run.causes with
            geometry := { stagger := min 63 d.toNat, tearGap := min 2880 g.toNat,
                          sensorDist := min 4032 (max 576 e.toNat), ratio := min 24 (max 8 q.toNat) },
            run := { (removed atPrint s.run.causes).run with locked := true } }))) ∧
      (∀ hd, s.run.inHand = some (.lineFeed false) → builderStep s = none → frontHeader s.queue = some hd →
        hd.feedAfter ≠ 0 → exec .feedStepArrival s = .next (judgeTimers
          { s with forms := begunForward .afterLine (min 4095 hd.feedAfter.toNat) s atPrint,
                   run := { s.run with executor := if s.run.executor = .halting then .halting else .running,
                                       reason := .none, inHand := some (.lineFeed true) } })) ∧
      (∀ hd parts b, s.run.inHand = some (.lineFeed false) → hd.feedAfter = 0 →
        s.queue = { entries := [.line hd parts (.active b)], cursor := 1 } →
        exec .feedStepArrival s = .next (judgeTimers
          { removed atPrint s.run.causes with buffers := s.buffers.set b .free })) ∧
      ∀ first hd img p, s.run.inHand = some (.lineDue first .paper) → builderStep s = none →
        s.forms.lever = .closed → s.carriage = { position := some p, drive := .stopped } →
        ¬(first = true ∧ skipDue atPrint = true) → (∀ r, atPrint.tracking = some r → 144 ≤ r) → s.heat.band ≠ 3 →
        frontHeader s.queue = some hd → activeImage s = some img →
        exec .feedStepArrival s = .next (judgeTimers (startedPass first hd img p { s with forms := atPrint })))) ∧
  ∀ (f : Feed) (s : State), s.forms.feed = some f → f.suspended = false → f.remaining ≠ 0 → f.ending = .cutShort →
    f.purpose = .loading → s.forms.tracking = none → NoWork s →
    exec .feedStepArrival s = .next (judgeTimers
      { s with forms := { s.forms with feed := none, paper := .noForms },
               run := { s.run with causes := s.run.causes ||| Cause.PO.bit } })

/-- The tear timer's expiry (R147, R148): TEARING, a_t = ((L − p) mod L) + the tear gap, and a forward feed of a_t steps; the
presence timer's (R150): LOADING, and a forward feed of S_e steps; suspended when the lever is not CLOSED (R155). Every step
keeps this law: the tear timer runs exactly in READY with the queue empty, the paper AT PRINT and a tear delay, the presence
timer exactly in NO FORMS with forms present and the lever not OPEN (R147, R150). -/
def Obligations.FormsTimers : Prop :=
  (∀ s : State, NoWork s → s.forms.feed = none →
     (s.forms.tearTimer ≠ none → s.run.executor = .ready → s.forms.paper = .atPrint → s.settings.tearDelay ≠ 0 →
       let a := (s.forms.length - s.forms.position) % s.forms.length + s.geometry.tearGap
       a ≠ 0 → exec .tearTimerExpiry s = .next (judgeTimers
         { s with forms := begunForward .tearAdvance a s { s.forms with paper := .tearing, tearAdvance := some a } })) ∧
     (s.forms.presenceTimer = true → s.forms.paper = .noForms → s.pins.formsPresent = true →
       s.forms.lever ≠ .opened → s.geometry.sensorDist ≠ 0 →
       exec .presenceTimerExpiry s = .next (judgeTimers
         { s with forms := begunForward .loading s.geometry.sensorDist s { s.forms with paper := .loading } }))) ∧
  ∀ s t : State, TimersSound s → step s = .next t → TimersSound t

/-- The forms sensor (R150 to R152): no forms starts end tracking at S_e in AT PRINT, TEARING, AT TEAR and RETURNING, and
cuts a loading short, at its next arrival or, suspended, at once; forms present ends tracking. The tractor lever (R154,
R155): opening latches LO, closing starts the settle time, and at its end the lever is CLOSED, a suspended feed takes its
next step, forward or reverse (R155), and a pass start that waited for the lever is made with every check passed (R160; a
noted last fire is given up there, log 17, DEDUCED). The model's choices: a suspended loading that sees no forms stops at
once (log 15, DEDUCED); one that a RESET is to restart at its next arrival is cut short all the same (log 29, DEDUCED);
LEVER_OPEN and FORMS_SENSOR_FORMS_PRESENT do the same at a level that was there already (log 24, DEDUCED). -/
def Obligations.SensorsAndLever : Prop :=
  (∀ s : State,
     (s.pins.formsPresent = true →
       s.forms.paper = .atPrint ∨ s.forms.paper = .tearing ∨ s.forms.paper = .atTear ∨ s.forms.paper = .returning →
       exec .formsSensorNoForms s = .next (judgeTimers
         { s with pins := { s.pins with formsPresent := false },
                  forms := { s.forms with tracking := some s.geometry.sensorDist } })) ∧
     (∀ f, s.pins.formsPresent = true → s.forms.paper = .loading → s.forms.feed = some f → f.remaining ≠ 0 → NoWork s →
       let seen : State := { s with pins := { s.pins with formsPresent := false } }
       (f.suspended = false → exec .formsSensorNoForms s = .next (judgeTimers
         { seen with forms := { s.forms with feed := some { f with ending := .cutShort } } })) ∧
       (f.suspended = true → exec .formsSensorNoForms s = .next (judgeTimers
         { seen with forms := { s.forms with feed := none, paper := .noForms },
                     run := { s.run with causes := s.run.causes ||| Cause.PO.bit } }))) ∧
     exec .formsSensorFormsPresent s = .next (judgeTimers
       { s with pins := { s.pins with formsPresent := true }, forms := { s.forms with tracking := none } })) ∧
  ∀ s : State,
    exec .leverOpen s = .next (judgeTimers
      { s with pins := { s.pins with leverOpen := true }, forms := { s.forms with lever := .opened },
               run := { s.run with causes := s.run.causes ||| Cause.LO.bit } }) ∧
    (s.forms.lever = .opened → exec .leverClose s = .next (judgeTimers
      { s with pins := { s.pins with leverOpen := false }, forms := { s.forms with lever := .settling } })) ∧
    (s.forms.lever = .settling → NoWork s → s.forms.feed = none →
      exec .settleTimeExpiry s = .next (judgeTimers { s with forms := { s.forms with lever := .closed } })) ∧
    (∀ f, s.forms.lever = .settling → NoWork s → s.forms.feed = some f → f.suspended = true → f.remaining ≠ 0 →
      let resumed : Forms := { s.forms with lever := .closed, feed := some { f with suspended := false } }
      (f.dir = .forward → exec .settleTimeExpiry s = .next (judgeTimers
        { s with forms := { resumed with
          acc := (s.forms.acc + s.geometry.ratio) % 16,
          tractorMotor := s.forms.tractorMotor + ((s.forms.acc + s.geometry.ratio) / 16 : Nat),
          feedMotor := s.forms.feedMotor + 1 } })) ∧
      (f.dir = .reverse → exec .settleTimeExpiry s = .next (judgeTimers
        { s with forms := { resumed with
          acc := (((s.forms.acc : Int) - s.geometry.ratio) % 16).toNat,
          tractorMotor := s.forms.tractorMotor + ((s.forms.acc : Int) - s.geometry.ratio) / 16,
          feedMotor := s.forms.feedMotor - 1 } }))) ∧
    ∀ first hd img p, s.forms.lever = .settling → s.run.inHand = some (.lineDue first .lever) →
      s.run.executor = .waiting ∨ s.run.executor = .halting → NoneWaits s → s.forms.paper = .atPrint →
      s.forms.feed = none → s.carriage = { position := some p, drive := .stopped } →
      ¬(first = true ∧ skipDue s.forms = true) → (∀ r, s.forms.tracking = some r → 144 ≤ r) → s.heat.band ≠ 3 →
      frontHeader s.queue = some hd → activeImage s = some img →
      exec .settleTimeExpiry s = .next (judgeTimers
        (startedPass first hd img p { s with forms := { s.forms with lever := .closed } }))
end

