-- ==== Sys2Proof/Laws/State.lean ====
section
/-! SUPPORT. One lemma per field per update of one block of State, true by unfolding. -/

namespace Sys2Proof.Machine

section
variable (s : State) (f : Pins → Pins)
@[simp] theorem State.updPins_pending : (s.updPins f).pending = s.pending := rfl
@[simp] theorem State.updPins_pins : (s.updPins f).pins = f s.pins := rfl
@[simp] theorem State.updPins_intake : (s.updPins f).intake = s.intake := rfl
@[simp] theorem State.updPins_queue : (s.updPins f).queue = s.queue := rfl
@[simp] theorem State.updPins_tables : (s.updPins f).tables = s.tables := rfl
@[simp] theorem State.updPins_stage : (s.updPins f).stage = s.stage := rfl
@[simp] theorem State.updPins_buffers : (s.updPins f).buffers = s.buffers := rfl
@[simp] theorem State.updPins_builder : (s.updPins f).builder = s.builder := rfl
@[simp] theorem State.updPins_settings : (s.updPins f).settings = s.settings := rfl
@[simp] theorem State.updPins_geometry : (s.updPins f).geometry = s.geometry := rfl
@[simp] theorem State.updPins_planner : (s.updPins f).planner = s.planner := rfl
@[simp] theorem State.updPins_carriage : (s.updPins f).carriage = s.carriage := rfl
@[simp] theorem State.updPins_firing : (s.updPins f).firing = s.firing := rfl
@[simp] theorem State.updPins_heat : (s.updPins f).heat = s.heat := rfl
@[simp] theorem State.updPins_forms : (s.updPins f).forms = s.forms := rfl
@[simp] theorem State.updPins_run : (s.updPins f).run = s.run := rfl
end

section
variable (s : State) (f : Intake → Intake)
@[simp] theorem State.updIntake_pending : (s.updIntake f).pending = s.pending := rfl
@[simp] theorem State.updIntake_pins : (s.updIntake f).pins = s.pins := rfl
@[simp] theorem State.updIntake_intake : (s.updIntake f).intake = f s.intake := rfl
@[simp] theorem State.updIntake_queue : (s.updIntake f).queue = s.queue := rfl
@[simp] theorem State.updIntake_tables : (s.updIntake f).tables = s.tables := rfl
@[simp] theorem State.updIntake_stage : (s.updIntake f).stage = s.stage := rfl
@[simp] theorem State.updIntake_buffers : (s.updIntake f).buffers = s.buffers := rfl
@[simp] theorem State.updIntake_builder : (s.updIntake f).builder = s.builder := rfl
@[simp] theorem State.updIntake_settings : (s.updIntake f).settings = s.settings := rfl
@[simp] theorem State.updIntake_geometry : (s.updIntake f).geometry = s.geometry := rfl
@[simp] theorem State.updIntake_planner : (s.updIntake f).planner = s.planner := rfl
@[simp] theorem State.updIntake_carriage : (s.updIntake f).carriage = s.carriage := rfl
@[simp] theorem State.updIntake_firing : (s.updIntake f).firing = s.firing := rfl
@[simp] theorem State.updIntake_heat : (s.updIntake f).heat = s.heat := rfl
@[simp] theorem State.updIntake_forms : (s.updIntake f).forms = s.forms := rfl
@[simp] theorem State.updIntake_run : (s.updIntake f).run = s.run := rfl
end

section
variable (s : State) (f : Queue → Queue)
@[simp] theorem State.updQueue_pending : (s.updQueue f).pending = s.pending := rfl
@[simp] theorem State.updQueue_pins : (s.updQueue f).pins = s.pins := rfl
@[simp] theorem State.updQueue_intake : (s.updQueue f).intake = s.intake := rfl
@[simp] theorem State.updQueue_queue : (s.updQueue f).queue = f s.queue := rfl
@[simp] theorem State.updQueue_tables : (s.updQueue f).tables = s.tables := rfl
@[simp] theorem State.updQueue_stage : (s.updQueue f).stage = s.stage := rfl
@[simp] theorem State.updQueue_buffers : (s.updQueue f).buffers = s.buffers := rfl
@[simp] theorem State.updQueue_builder : (s.updQueue f).builder = s.builder := rfl
@[simp] theorem State.updQueue_settings : (s.updQueue f).settings = s.settings := rfl
@[simp] theorem State.updQueue_geometry : (s.updQueue f).geometry = s.geometry := rfl
@[simp] theorem State.updQueue_planner : (s.updQueue f).planner = s.planner := rfl
@[simp] theorem State.updQueue_carriage : (s.updQueue f).carriage = s.carriage := rfl
@[simp] theorem State.updQueue_firing : (s.updQueue f).firing = s.firing := rfl
@[simp] theorem State.updQueue_heat : (s.updQueue f).heat = s.heat := rfl
@[simp] theorem State.updQueue_forms : (s.updQueue f).forms = s.forms := rfl
@[simp] theorem State.updQueue_run : (s.updQueue f).run = s.run := rfl
end

section
variable (s : State) (f : Tables → Tables)
@[simp] theorem State.updTables_pending : (s.updTables f).pending = s.pending := rfl
@[simp] theorem State.updTables_pins : (s.updTables f).pins = s.pins := rfl
@[simp] theorem State.updTables_intake : (s.updTables f).intake = s.intake := rfl
@[simp] theorem State.updTables_queue : (s.updTables f).queue = s.queue := rfl
@[simp] theorem State.updTables_tables : (s.updTables f).tables = f s.tables := rfl
@[simp] theorem State.updTables_stage : (s.updTables f).stage = s.stage := rfl
@[simp] theorem State.updTables_buffers : (s.updTables f).buffers = s.buffers := rfl
@[simp] theorem State.updTables_builder : (s.updTables f).builder = s.builder := rfl
@[simp] theorem State.updTables_settings : (s.updTables f).settings = s.settings := rfl
@[simp] theorem State.updTables_geometry : (s.updTables f).geometry = s.geometry := rfl
@[simp] theorem State.updTables_planner : (s.updTables f).planner = s.planner := rfl
@[simp] theorem State.updTables_carriage : (s.updTables f).carriage = s.carriage := rfl
@[simp] theorem State.updTables_firing : (s.updTables f).firing = s.firing := rfl
@[simp] theorem State.updTables_heat : (s.updTables f).heat = s.heat := rfl
@[simp] theorem State.updTables_forms : (s.updTables f).forms = s.forms := rfl
@[simp] theorem State.updTables_run : (s.updTables f).run = s.run := rfl
end

section
variable (s : State) (f : Buffers → Buffers)
@[simp] theorem State.updBuffers_pending : (s.updBuffers f).pending = s.pending := rfl
@[simp] theorem State.updBuffers_pins : (s.updBuffers f).pins = s.pins := rfl
@[simp] theorem State.updBuffers_intake : (s.updBuffers f).intake = s.intake := rfl
@[simp] theorem State.updBuffers_queue : (s.updBuffers f).queue = s.queue := rfl
@[simp] theorem State.updBuffers_tables : (s.updBuffers f).tables = s.tables := rfl
@[simp] theorem State.updBuffers_stage : (s.updBuffers f).stage = s.stage := rfl
@[simp] theorem State.updBuffers_buffers : (s.updBuffers f).buffers = f s.buffers := rfl
@[simp] theorem State.updBuffers_builder : (s.updBuffers f).builder = s.builder := rfl
@[simp] theorem State.updBuffers_settings : (s.updBuffers f).settings = s.settings := rfl
@[simp] theorem State.updBuffers_geometry : (s.updBuffers f).geometry = s.geometry := rfl
@[simp] theorem State.updBuffers_planner : (s.updBuffers f).planner = s.planner := rfl
@[simp] theorem State.updBuffers_carriage : (s.updBuffers f).carriage = s.carriage := rfl
@[simp] theorem State.updBuffers_firing : (s.updBuffers f).firing = s.firing := rfl
@[simp] theorem State.updBuffers_heat : (s.updBuffers f).heat = s.heat := rfl
@[simp] theorem State.updBuffers_forms : (s.updBuffers f).forms = s.forms := rfl
@[simp] theorem State.updBuffers_run : (s.updBuffers f).run = s.run := rfl
end

section
variable (s : State) (f : BuilderCounters → BuilderCounters)
@[simp] theorem State.updBuilder_pending : (s.updBuilder f).pending = s.pending := rfl
@[simp] theorem State.updBuilder_pins : (s.updBuilder f).pins = s.pins := rfl
@[simp] theorem State.updBuilder_intake : (s.updBuilder f).intake = s.intake := rfl
@[simp] theorem State.updBuilder_queue : (s.updBuilder f).queue = s.queue := rfl
@[simp] theorem State.updBuilder_tables : (s.updBuilder f).tables = s.tables := rfl
@[simp] theorem State.updBuilder_stage : (s.updBuilder f).stage = s.stage := rfl
@[simp] theorem State.updBuilder_buffers : (s.updBuilder f).buffers = s.buffers := rfl
@[simp] theorem State.updBuilder_builder : (s.updBuilder f).builder = f s.builder := rfl
@[simp] theorem State.updBuilder_settings : (s.updBuilder f).settings = s.settings := rfl
@[simp] theorem State.updBuilder_geometry : (s.updBuilder f).geometry = s.geometry := rfl
@[simp] theorem State.updBuilder_planner : (s.updBuilder f).planner = s.planner := rfl
@[simp] theorem State.updBuilder_carriage : (s.updBuilder f).carriage = s.carriage := rfl
@[simp] theorem State.updBuilder_firing : (s.updBuilder f).firing = s.firing := rfl
@[simp] theorem State.updBuilder_heat : (s.updBuilder f).heat = s.heat := rfl
@[simp] theorem State.updBuilder_forms : (s.updBuilder f).forms = s.forms := rfl
@[simp] theorem State.updBuilder_run : (s.updBuilder f).run = s.run := rfl
end

section
variable (s : State) (f : Settings → Settings)
@[simp] theorem State.updSettings_pending : (s.updSettings f).pending = s.pending := rfl
@[simp] theorem State.updSettings_pins : (s.updSettings f).pins = s.pins := rfl
@[simp] theorem State.updSettings_intake : (s.updSettings f).intake = s.intake := rfl
@[simp] theorem State.updSettings_queue : (s.updSettings f).queue = s.queue := rfl
@[simp] theorem State.updSettings_tables : (s.updSettings f).tables = s.tables := rfl
@[simp] theorem State.updSettings_stage : (s.updSettings f).stage = s.stage := rfl
@[simp] theorem State.updSettings_buffers : (s.updSettings f).buffers = s.buffers := rfl
@[simp] theorem State.updSettings_builder : (s.updSettings f).builder = s.builder := rfl
@[simp] theorem State.updSettings_settings : (s.updSettings f).settings = f s.settings := rfl
@[simp] theorem State.updSettings_geometry : (s.updSettings f).geometry = s.geometry := rfl
@[simp] theorem State.updSettings_planner : (s.updSettings f).planner = s.planner := rfl
@[simp] theorem State.updSettings_carriage : (s.updSettings f).carriage = s.carriage := rfl
@[simp] theorem State.updSettings_firing : (s.updSettings f).firing = s.firing := rfl
@[simp] theorem State.updSettings_heat : (s.updSettings f).heat = s.heat := rfl
@[simp] theorem State.updSettings_forms : (s.updSettings f).forms = s.forms := rfl
@[simp] theorem State.updSettings_run : (s.updSettings f).run = s.run := rfl
end

section
variable (s : State) (f : Geometry → Geometry)
@[simp] theorem State.updGeometry_pending : (s.updGeometry f).pending = s.pending := rfl
@[simp] theorem State.updGeometry_pins : (s.updGeometry f).pins = s.pins := rfl
@[simp] theorem State.updGeometry_intake : (s.updGeometry f).intake = s.intake := rfl
@[simp] theorem State.updGeometry_queue : (s.updGeometry f).queue = s.queue := rfl
@[simp] theorem State.updGeometry_tables : (s.updGeometry f).tables = s.tables := rfl
@[simp] theorem State.updGeometry_stage : (s.updGeometry f).stage = s.stage := rfl
@[simp] theorem State.updGeometry_buffers : (s.updGeometry f).buffers = s.buffers := rfl
@[simp] theorem State.updGeometry_builder : (s.updGeometry f).builder = s.builder := rfl
@[simp] theorem State.updGeometry_settings : (s.updGeometry f).settings = s.settings := rfl
@[simp] theorem State.updGeometry_geometry : (s.updGeometry f).geometry = f s.geometry := rfl
@[simp] theorem State.updGeometry_planner : (s.updGeometry f).planner = s.planner := rfl
@[simp] theorem State.updGeometry_carriage : (s.updGeometry f).carriage = s.carriage := rfl
@[simp] theorem State.updGeometry_firing : (s.updGeometry f).firing = s.firing := rfl
@[simp] theorem State.updGeometry_heat : (s.updGeometry f).heat = s.heat := rfl
@[simp] theorem State.updGeometry_forms : (s.updGeometry f).forms = s.forms := rfl
@[simp] theorem State.updGeometry_run : (s.updGeometry f).run = s.run := rfl
end

section
variable (s : State) (f : Planner → Planner)
@[simp] theorem State.updPlanner_pending : (s.updPlanner f).pending = s.pending := rfl
@[simp] theorem State.updPlanner_pins : (s.updPlanner f).pins = s.pins := rfl
@[simp] theorem State.updPlanner_intake : (s.updPlanner f).intake = s.intake := rfl
@[simp] theorem State.updPlanner_queue : (s.updPlanner f).queue = s.queue := rfl
@[simp] theorem State.updPlanner_tables : (s.updPlanner f).tables = s.tables := rfl
@[simp] theorem State.updPlanner_stage : (s.updPlanner f).stage = s.stage := rfl
@[simp] theorem State.updPlanner_buffers : (s.updPlanner f).buffers = s.buffers := rfl
@[simp] theorem State.updPlanner_builder : (s.updPlanner f).builder = s.builder := rfl
@[simp] theorem State.updPlanner_settings : (s.updPlanner f).settings = s.settings := rfl
@[simp] theorem State.updPlanner_geometry : (s.updPlanner f).geometry = s.geometry := rfl
@[simp] theorem State.updPlanner_planner : (s.updPlanner f).planner = f s.planner := rfl
@[simp] theorem State.updPlanner_carriage : (s.updPlanner f).carriage = s.carriage := rfl
@[simp] theorem State.updPlanner_firing : (s.updPlanner f).firing = s.firing := rfl
@[simp] theorem State.updPlanner_heat : (s.updPlanner f).heat = s.heat := rfl
@[simp] theorem State.updPlanner_forms : (s.updPlanner f).forms = s.forms := rfl
@[simp] theorem State.updPlanner_run : (s.updPlanner f).run = s.run := rfl
end

section
variable (s : State) (f : Carriage → Carriage)
@[simp] theorem State.updCarriage_pending : (s.updCarriage f).pending = s.pending := rfl
@[simp] theorem State.updCarriage_pins : (s.updCarriage f).pins = s.pins := rfl
@[simp] theorem State.updCarriage_intake : (s.updCarriage f).intake = s.intake := rfl
@[simp] theorem State.updCarriage_queue : (s.updCarriage f).queue = s.queue := rfl
@[simp] theorem State.updCarriage_tables : (s.updCarriage f).tables = s.tables := rfl
@[simp] theorem State.updCarriage_stage : (s.updCarriage f).stage = s.stage := rfl
@[simp] theorem State.updCarriage_buffers : (s.updCarriage f).buffers = s.buffers := rfl
@[simp] theorem State.updCarriage_builder : (s.updCarriage f).builder = s.builder := rfl
@[simp] theorem State.updCarriage_settings : (s.updCarriage f).settings = s.settings := rfl
@[simp] theorem State.updCarriage_geometry : (s.updCarriage f).geometry = s.geometry := rfl
@[simp] theorem State.updCarriage_planner : (s.updCarriage f).planner = s.planner := rfl
@[simp] theorem State.updCarriage_carriage : (s.updCarriage f).carriage = f s.carriage := rfl
@[simp] theorem State.updCarriage_firing : (s.updCarriage f).firing = s.firing := rfl
@[simp] theorem State.updCarriage_heat : (s.updCarriage f).heat = s.heat := rfl
@[simp] theorem State.updCarriage_forms : (s.updCarriage f).forms = s.forms := rfl
@[simp] theorem State.updCarriage_run : (s.updCarriage f).run = s.run := rfl
end

section
variable (s : State) (f : Firing → Firing)
@[simp] theorem State.updFiring_pending : (s.updFiring f).pending = s.pending := rfl
@[simp] theorem State.updFiring_pins : (s.updFiring f).pins = s.pins := rfl
@[simp] theorem State.updFiring_intake : (s.updFiring f).intake = s.intake := rfl
@[simp] theorem State.updFiring_queue : (s.updFiring f).queue = s.queue := rfl
@[simp] theorem State.updFiring_tables : (s.updFiring f).tables = s.tables := rfl
@[simp] theorem State.updFiring_stage : (s.updFiring f).stage = s.stage := rfl
@[simp] theorem State.updFiring_buffers : (s.updFiring f).buffers = s.buffers := rfl
@[simp] theorem State.updFiring_builder : (s.updFiring f).builder = s.builder := rfl
@[simp] theorem State.updFiring_settings : (s.updFiring f).settings = s.settings := rfl
@[simp] theorem State.updFiring_geometry : (s.updFiring f).geometry = s.geometry := rfl
@[simp] theorem State.updFiring_planner : (s.updFiring f).planner = s.planner := rfl
@[simp] theorem State.updFiring_carriage : (s.updFiring f).carriage = s.carriage := rfl
@[simp] theorem State.updFiring_firing : (s.updFiring f).firing = f s.firing := rfl
@[simp] theorem State.updFiring_heat : (s.updFiring f).heat = s.heat := rfl
@[simp] theorem State.updFiring_forms : (s.updFiring f).forms = s.forms := rfl
@[simp] theorem State.updFiring_run : (s.updFiring f).run = s.run := rfl
end

section
variable (s : State) (f : Heat → Heat)
@[simp] theorem State.updHeat_pending : (s.updHeat f).pending = s.pending := rfl
@[simp] theorem State.updHeat_pins : (s.updHeat f).pins = s.pins := rfl
@[simp] theorem State.updHeat_intake : (s.updHeat f).intake = s.intake := rfl
@[simp] theorem State.updHeat_queue : (s.updHeat f).queue = s.queue := rfl
@[simp] theorem State.updHeat_tables : (s.updHeat f).tables = s.tables := rfl
@[simp] theorem State.updHeat_stage : (s.updHeat f).stage = s.stage := rfl
@[simp] theorem State.updHeat_buffers : (s.updHeat f).buffers = s.buffers := rfl
@[simp] theorem State.updHeat_builder : (s.updHeat f).builder = s.builder := rfl
@[simp] theorem State.updHeat_settings : (s.updHeat f).settings = s.settings := rfl
@[simp] theorem State.updHeat_geometry : (s.updHeat f).geometry = s.geometry := rfl
@[simp] theorem State.updHeat_planner : (s.updHeat f).planner = s.planner := rfl
@[simp] theorem State.updHeat_carriage : (s.updHeat f).carriage = s.carriage := rfl
@[simp] theorem State.updHeat_firing : (s.updHeat f).firing = s.firing := rfl
@[simp] theorem State.updHeat_heat : (s.updHeat f).heat = f s.heat := rfl
@[simp] theorem State.updHeat_forms : (s.updHeat f).forms = s.forms := rfl
@[simp] theorem State.updHeat_run : (s.updHeat f).run = s.run := rfl
end

section
variable (s : State) (f : Forms → Forms)
@[simp] theorem State.updForms_pending : (s.updForms f).pending = s.pending := rfl
@[simp] theorem State.updForms_pins : (s.updForms f).pins = s.pins := rfl
@[simp] theorem State.updForms_intake : (s.updForms f).intake = s.intake := rfl
@[simp] theorem State.updForms_queue : (s.updForms f).queue = s.queue := rfl
@[simp] theorem State.updForms_tables : (s.updForms f).tables = s.tables := rfl
@[simp] theorem State.updForms_stage : (s.updForms f).stage = s.stage := rfl
@[simp] theorem State.updForms_buffers : (s.updForms f).buffers = s.buffers := rfl
@[simp] theorem State.updForms_builder : (s.updForms f).builder = s.builder := rfl
@[simp] theorem State.updForms_settings : (s.updForms f).settings = s.settings := rfl
@[simp] theorem State.updForms_geometry : (s.updForms f).geometry = s.geometry := rfl
@[simp] theorem State.updForms_planner : (s.updForms f).planner = s.planner := rfl
@[simp] theorem State.updForms_carriage : (s.updForms f).carriage = s.carriage := rfl
@[simp] theorem State.updForms_firing : (s.updForms f).firing = s.firing := rfl
@[simp] theorem State.updForms_heat : (s.updForms f).heat = s.heat := rfl
@[simp] theorem State.updForms_forms : (s.updForms f).forms = f s.forms := rfl
@[simp] theorem State.updForms_run : (s.updForms f).run = s.run := rfl
end

section
variable (s : State) (f : RunControl → RunControl)
@[simp] theorem State.updRun_pending : (s.updRun f).pending = s.pending := rfl
@[simp] theorem State.updRun_pins : (s.updRun f).pins = s.pins := rfl
@[simp] theorem State.updRun_intake : (s.updRun f).intake = s.intake := rfl
@[simp] theorem State.updRun_queue : (s.updRun f).queue = s.queue := rfl
@[simp] theorem State.updRun_tables : (s.updRun f).tables = s.tables := rfl
@[simp] theorem State.updRun_stage : (s.updRun f).stage = s.stage := rfl
@[simp] theorem State.updRun_buffers : (s.updRun f).buffers = s.buffers := rfl
@[simp] theorem State.updRun_builder : (s.updRun f).builder = s.builder := rfl
@[simp] theorem State.updRun_settings : (s.updRun f).settings = s.settings := rfl
@[simp] theorem State.updRun_geometry : (s.updRun f).geometry = s.geometry := rfl
@[simp] theorem State.updRun_planner : (s.updRun f).planner = s.planner := rfl
@[simp] theorem State.updRun_carriage : (s.updRun f).carriage = s.carriage := rfl
@[simp] theorem State.updRun_firing : (s.updRun f).firing = s.firing := rfl
@[simp] theorem State.updRun_heat : (s.updRun f).heat = s.heat := rfl
@[simp] theorem State.updRun_forms : (s.updRun f).forms = s.forms := rfl
@[simp] theorem State.updRun_run : (s.updRun f).run = f s.run := rfl
end

section
variable (s : State) (g : Stage)
@[simp] theorem State.setStage_pending : (s.setStage g).pending = s.pending := rfl
@[simp] theorem State.setStage_pins : (s.setStage g).pins = s.pins := rfl
@[simp] theorem State.setStage_intake : (s.setStage g).intake = s.intake := rfl
@[simp] theorem State.setStage_queue : (s.setStage g).queue = s.queue := rfl
@[simp] theorem State.setStage_tables : (s.setStage g).tables = s.tables := rfl
@[simp] theorem State.setStage_stage : (s.setStage g).stage = g := rfl
@[simp] theorem State.setStage_buffers : (s.setStage g).buffers = s.buffers := rfl
@[simp] theorem State.setStage_builder : (s.setStage g).builder = s.builder := rfl
@[simp] theorem State.setStage_settings : (s.setStage g).settings = s.settings := rfl
@[simp] theorem State.setStage_geometry : (s.setStage g).geometry = s.geometry := rfl
@[simp] theorem State.setStage_planner : (s.setStage g).planner = s.planner := rfl
@[simp] theorem State.setStage_carriage : (s.setStage g).carriage = s.carriage := rfl
@[simp] theorem State.setStage_firing : (s.setStage g).firing = s.firing := rfl
@[simp] theorem State.setStage_heat : (s.setStage g).heat = s.heat := rfl
@[simp] theorem State.setStage_forms : (s.setStage g).forms = s.forms := rfl
@[simp] theorem State.setStage_run : (s.setStage g).run = s.run := rfl
end

end Sys2Proof.Machine
end

