-- ==== Sys2Proof/Laws/Follow.lean ====
section
/-! SUPPORT. What follows an event: `follow` goes through `followStep`, and what each step keeps, the whole keeps. -/

namespace Sys2Proof.Machine

/-- `n` steps of what follows. -/
def followTo (hold : Bool) : Nat → State → Option State
  | 0, s => some s
  | n + 1, s =>
    match followStep hold s with
    | some t => followTo hold n t
    | none => none

@[simp] theorem followTo_zero (hold : Bool) (s : State) : followTo hold 0 s = some s := rfl

theorem followTo_succ {hold : Bool} {n : Nat} {s t u : State} (h : followStep hold s = some t)
    (hu : followTo hold n t = some u) : followTo hold (n + 1) s = some u := by
  simp [followTo, h, hu]

theorem follow_stop {hold : Bool} (n : Nat) {s : State} (h : followStep hold s = none) : follow hold n s = s := by
  cases n with
  | zero => rfl
  | succ n => simp [follow, h]

theorem follow_of_followTo {hold : Bool} {n : Nat} : ∀ {m : Nat} {s t : State}, n ≤ m → followTo hold n s = some t →
    followStep hold t = none → follow hold m s = t := by
  induction n with
  | zero =>
    intro m s t _ h ht
    cases h
    exact follow_stop m ht
  | succ n ih =>
    intro m s t hm h ht
    obtain ⟨m, rfl⟩ : ∃ k, m = k + 1 := ⟨m - 1, by omega⟩
    unfold followTo at h
    cases hs : followStep hold s with
    | none => rw [hs] at h; cases h
    | some u =>
      rw [hs] at h
      simp only [follow, hs]
      exact ih (by omega) h ht

theorem followFuel_ge (s : State) : 64 ≤ followFuel s := by unfold followFuel; omega

/-- An event after which nothing follows. -/
theorem finishEvent_settled {s : State} (h : Settled s) : finishEvent s = judgeTimers s := by
  unfold finishEvent
  rw [follow_stop _ h]

/-- An event that a few steps follow. -/
theorem finishEvent_of_followTo {n : Nat} {s t : State} (hn : n ≤ 64) (h : followTo false n s = some t)
    (ht : Settled t) : finishEvent s = judgeTimers t := by
  unfold finishEvent
  rw [follow_of_followTo (le_trans hn (followFuel_ge s)) h ht]

/-- The end of a pass run that a few steps follow. -/
theorem finishRunStop_of_followTo {n : Nat} {s t : State} (hn : n ≤ 64) (h : followTo true n s = some t)
    (ht : followStep true t = none) : finishRunStop s = judgeTimers t := by
  unfold finishRunStop
  rw [follow_of_followTo (le_trans hn (followFuel_ge s)) h ht]

/-- What every step of what follows keeps, the whole of it keeps. -/
theorem follow_keeps {hold : Bool} {P : State → Prop} (hP : ∀ s t, followStep hold s = some t → P s → P t) :
    ∀ (n : Nat) (s : State), P s → P (follow hold n s) := by
  intro n
  induction n with
  | zero => intro s h; exact h
  | succ n ih =>
    intro s h
    unfold follow
    cases hs : followStep hold s with
    | none => exact h
    | some t => exact ih t (hP s t hs h)

/-- The steps of what follows, by the block that acts. -/
theorem followStep_cases {hold : Bool} {s t : State} (h : followStep hold s = some t) :
    feedEnds s = some t ∨ builderStep s = some t ∨ offerStep s = some t ∨ runStep s = some t ∨
      requestStep s = some t := by
  unfold followStep at h
  repeat' split at h
  all_goals first
    | (cases h; done)
    | exact .inr (.inr (.inr (.inr h)))
    | skip
  all_goals cases h
  · exact .inl ‹_›
  · exact .inr (.inl ‹_›)
  · rename_i heq
    split at heq
    · cases heq
    · exact .inr (.inr (.inr (.inl heq)))
  · exact .inr (.inr (.inl ‹_›))

/-- No pass start is ready to be made: what follows is then the same with and without `hold`. -/
theorem followStep_notReady {s : State} (hold : Bool) (h : passStartReady s = false) :
    followStep hold s = followStep false s := by
  simp [followStep, h]

/-- Nothing follows when no block acts. -/
theorem settled_iff (s : State) : Settled s ↔ feedEnds s = none ∧ builderStep s = none ∧ offerStep s = none ∧
    runStep s = none ∧ requestStep s = none := by
  unfold Settled followStep
  cases h1 : feedEnds s <;> cases h2 : builderStep s <;> cases h3 : offerStep s <;> cases h4 : runStep s <;> simp

end Sys2Proof.Machine
end

