-- ==== Sys2Proof/Laws/Kept.lean ====
section
/-! SUPPORT. What the shared operations of the Line Queue, the Forms Drive and Run Control keep: one lemma for each. -/

namespace Sys2Proof.Machine

/-- What nothing that follows an event changes, and the laws that it keeps. -/
structure Kept (s t : State) : Prop where
  pending  : t.pending = s.pending
  pins     : t.pins = s.pins
  intake   : t.intake = { s.intake with laneQ := t.intake.laneQ }
  builder  : t.builder = s.builder
  position : t.carriage.position = s.carriage.position
  pulses   : t.firing.pulses = s.firing.pulses
  dead     : t.firing.dead = s.firing.dead
  deadDots : t.firing.deadDots = s.firing.deadDots
  level    : t.heat.level = s.heat.level
  mask     : t.run.mask = s.run.mask
  causes   : ∃ d, t.run.causes = s.run.causes ||| d
  locked   : s.run.locked = true → t.run.locked = true ∧ t.geometry = s.geometry
  heat     : HeatSound s.heat → HeatSound t.heat
  settings : SettingsSound s.settings → SettingsSound t.settings
  geometry : GeometrySound s.geometry → GeometrySound t.geometry
  form     : FormSound s.forms → FormSound t.forms
  acc      : AccSound s.forms → AccSound t.forms
  profiles : ProfilesSound s.tables → ProfilesSound t.tables

theorem Kept.refl (s : State) : Kept s s := by
  constructor <;> first | exact ⟨0, by simp⟩ | (intro h; first | exact h | exact ⟨h, rfl⟩) | rfl

theorem Kept.trans {s t u : State} (h : Kept s t) (k : Kept t u) : Kept s u where
  pending := k.pending.trans h.pending
  pins := k.pins.trans h.pins
  intake := by rw [k.intake, h.intake]
  builder := k.builder.trans h.builder
  position := k.position.trans h.position
  pulses := k.pulses.trans h.pulses
  dead := k.dead.trans h.dead
  deadDots := k.deadDots.trans h.deadDots
  level := k.level.trans h.level
  mask := k.mask.trans h.mask
  causes := by
    obtain ⟨d, hd⟩ := h.causes
    obtain ⟨e, he⟩ := k.causes
    exact ⟨d ||| e, by rw [he, hd, BitVec.or_assoc]⟩
  locked := fun hl =>
    have a := h.locked hl
    have b := k.locked a.1
    ⟨b.1, b.2.trans a.2⟩
  heat := fun x => k.heat (h.heat x)
  settings := fun x => k.settings (h.settings x)
  geometry := fun x => k.geometry (h.geometry x)
  form := fun x => k.form (h.form x)
  acc := fun x => k.acc (h.acc x)
  profiles := fun x => k.profiles (h.profiles x)

/-- A change of blocks that `Kept` says nothing about. -/
theorem Kept.of_eq {s t : State} (h1 : t.pending = s.pending) (h2 : t.pins = s.pins)
    (h3 : t.intake = { s.intake with laneQ := t.intake.laneQ }) (h4 : t.builder = s.builder)
    (h5 : t.carriage.position = s.carriage.position) (h6 : t.firing.pulses = s.firing.pulses)
    (h7 : t.firing.dead = s.firing.dead) (h8 : t.firing.deadDots = s.firing.deadDots)
    (h9 : t.heat.level = s.heat.level ∧ t.heat.warm = s.heat.warm ∧ t.heat.hot = s.heat.hot ∧
      t.heat.limit = s.heat.limit)
    (h10 : t.run.mask = s.run.mask) (h11 : ∃ d, t.run.causes = s.run.causes ||| d)
    (h12 : s.run.locked = true → t.run.locked = true) (h13 : t.settings = s.settings)
    (h14 : t.geometry = s.geometry)
    (h15 : t.forms.position = s.forms.position ∧ t.forms.length = s.forms.length ∧ t.forms.acc = s.forms.acc)
    (h16 : t.tables = s.tables) : Kept s t where
  pending := h1
  pins := h2
  intake := h3
  builder := h4
  position := h5
  pulses := h6
  dead := h7
  deadDots := h8
  level := h9.1
  mask := h10
  causes := h11
  locked := fun h => ⟨h12 h, h14⟩
  heat := by
    obtain ⟨a, b, c, d⟩ := h9
    unfold HeatSound
    rw [a, b, c, d]; exact id
  settings := by rw [h13]; exact id
  geometry := by rw [h14]; exact id
  form := by
    unfold FormSound
    rw [h15.1, h15.2.1]; exact id
  acc := by
    unfold AccSound
    rw [h15.2.2]; exact id
  profiles := by rw [h16]; exact id

/-! ## Causes, executor, queue -/

theorem latch_kept (c : Cause) (s : State) : Kept s (latch c s) := by
  apply Kept.of_eq <;> simp [latch]

theorem latchIf_kept (b : Bool) (c : Cause) (s : State) : Kept s (latchIf b c s) := by
  unfold latchIf
  split
  · exact latch_kept c s
  · exact Kept.refl s

theorem setInHand_kept (h : Option InHand) (s : State) : Kept s (setInHand h s) := by
  apply Kept.of_eq <;> simp [setInHand]
  exact ⟨0, by simp⟩

theorem setWait_kept (r : WaitReason) (s : State) : Kept s (setWait r s) := by
  apply Kept.of_eq <;> simp only [setWait, State.updRun_pending, State.updRun_pins, State.updRun_intake,
    State.updRun_builder, State.updRun_carriage, State.updRun_firing, State.updRun_heat, State.updRun_settings,
    State.updRun_geometry, State.updRun_forms, State.updRun_tables, State.updRun_run, and_self] <;>
    cases s.run.executor <;> first | rfl | exact ⟨0, by simp⟩ | exact id

theorem leaveEntry_kept (s : State) : Kept s (leaveEntry s) := by
  apply Kept.of_eq <;> simp [leaveEntry]
  exact ⟨0, by simp⟩

theorem enterReady_kept (s : State) : Kept s (enterReady s) := by
  apply Kept.of_eq <;> simp [enterReady]
  exact ⟨0, by simp⟩

theorem forgetDirection_kept (s : State) : Kept s (forgetDirection s) := by
  apply Kept.of_eq <;> simp [forgetDirection]
  exact ⟨0, by simp⟩

theorem updQueue_kept (f : Queue → Queue) (s : State) : Kept s (s.updQueue f) := by
  apply Kept.of_eq <;> simp
  exact ⟨0, by simp⟩

theorem updBuffers_kept (f : Buffers → Buffers) (s : State) : Kept s (s.updBuffers f) := by
  apply Kept.of_eq <;> simp
  exact ⟨0, by simp⟩

theorem setStage_kept (g : Stage) (s : State) : Kept s (s.setStage g) := by
  apply Kept.of_eq <;> simp
  exact ⟨0, by simp⟩

theorem setLaneQ_kept (l : List QRecord) (s : State) : Kept s (s.updIntake fun i => { i with laneQ := l }) := by
  apply Kept.of_eq <;> simp
  exact ⟨0, by simp⟩

theorem removeAt_kept (i : Nat) (s : State) : Kept s (removeAt i s) := by
  unfold removeAt
  split
  · exact (updBuffers_kept _ s).trans (updQueue_kept _ _)
  · exact Kept.refl s

theorem latchDrained_kept (s : State) : Kept s (latchDrained s) := latchIf_kept _ _ s

theorem removeFront_kept (s : State) : Kept s (removeFront s) := by
  unfold removeFront
  split
  · exact (removeAt_kept _ s).trans (latchDrained_kept _)
  · exact Kept.refl s

theorem finishEntry_kept (s : State) : Kept s (finishEntry s) :=
  ((removeFront_kept s).trans (forgetDirection_kept _)).trans (leaveEntry_kept _)

/-! ## The Forms Drive -/

/-- A change of the Forms Drive that keeps p, L and acc. -/
theorem updForms_kept (f : Forms → Forms) (s : State)
    (h : (f s.forms).position = s.forms.position ∧ (f s.forms).length = s.forms.length ∧
      (f s.forms).acc = s.forms.acc) : Kept s (s.updForms f) := by
  apply Kept.of_eq <;> simp [h]
  exact ⟨0, by simp⟩

/-- A change of the Forms Drive that keeps its two laws. -/
theorem updForms_kept_of_sound (f : Forms → Forms) (s : State) (h : FormSound s.forms → FormSound (f s.forms))
    (k : AccSound s.forms → AccSound (f s.forms)) : Kept s (s.updForms f) where
  pending := rfl
  pins := rfl
  intake := rfl
  builder := rfl
  position := rfl
  pulses := rfl
  dead := rfl
  deadDots := rfl
  level := rfl
  mask := rfl
  causes := ⟨0, by simp⟩
  locked := fun h => ⟨h, rfl⟩
  heat := id
  settings := id
  geometry := id
  form := h
  acc := k
  profiles := id

@[simp] theorem tractorStep_position (r : Nat) (d : FeedDir) (f : Forms) : (tractorStep r d f).position = f.position := by
  cases d <;> rfl

@[simp] theorem tractorStep_length (r : Nat) (d : FeedDir) (f : Forms) : (tractorStep r d f).length = f.length := by
  cases d <;> rfl

/-- The accumulator stays within 0 and 15 (R141). -/
theorem tractorStep_acc_le (r : Nat) (d : FeedDir) (f : Forms) : (tractorStep r d f).acc ≤ 15 := by
  cases d <;> simp only [tractorStep, tractorForward, tractorReverse] <;> omega

theorem startStep_kept (s : State) : Kept s (startStep s) := by
  unfold startStep
  split
  · split
    · apply updForms_kept_of_sound
      · simp [FormSound]
      · intro _
        exact tractorStep_acc_le _ _ _
    · exact Kept.refl s
  · exact Kept.refl s

theorem beginFeed_kept (p : Purpose) (d : FeedDir) (n : Nat) (s : State) : Kept s (beginFeed p d n s) :=
  (updForms_kept _ s ⟨rfl, rfl, rfl⟩).trans (startStep_kept _)

theorem clearFeed_kept (s : State) : Kept s (clearFeed s) := updForms_kept _ s ⟨rfl, rfl, rfl⟩

theorem abandonFeed_kept (test : Purpose → Bool) (s : State) : Kept s (abandonFeed test s) := by
  unfold abandonFeed
  split
  · split
    · split
      · exact clearFeed_kept s
      · exact updForms_kept _ s ⟨rfl, rfl, rfl⟩
    · exact Kept.refl s
  · exact Kept.refl s

theorem enterNoForms_kept (s : State) : Kept s (enterNoForms s) :=
  (updForms_kept _ s ⟨rfl, rfl, rfl⟩).trans (latch_kept _ _)

theorem eject_kept (r : Nat) (s : State) : Kept s (eject r s) :=
  ((updForms_kept _ s ⟨rfl, rfl, rfl⟩).trans (latch_kept _ _)).trans (beginFeed_kept _ _ _ _)

theorem beginTearOff_kept (s : State) : Kept s (beginTearOff s) :=
  (updForms_kept _ s ⟨rfl, rfl, rfl⟩).trans (beginFeed_kept _ _ _ _)

theorem beginReturn_kept (s : State) : Kept s (beginReturn s) :=
  (updForms_kept _ s ⟨rfl, rfl, rfl⟩).trans (beginFeed_kept _ _ _ _)

theorem arriveAtPrint_kept (s : State) : Kept s (arriveAtPrint s) := updForms_kept _ s ⟨rfl, rfl, rfl⟩

theorem beginLoading_kept (s : State) : Kept s (beginLoading s) :=
  (updForms_kept _ s ⟨rfl, rfl, rfl⟩).trans (beginFeed_kept _ _ _ _)

theorem resetPaper_kept (s : State) : Kept s (resetPaper s) := by
  unfold resetPaper
  split
  · exact clearFeed_kept s
  · exact arriveAtPrint_kept s
  · exact arriveAtPrint_kept s
  · exact arriveAtPrint_kept s
  · exact beginLoading_kept s
  · exact beginFeed_kept _ _ _ s
  · exact Kept.refl s

theorem resetForms_kept (s : State) : Kept s (resetForms s) := by
  unfold resetForms
  refine (updForms_kept (fun g => { g with paperRequest := false }) s ⟨rfl, rfl, rfl⟩).trans ?_
  dsimp only
  split
  · split
    · exact resetPaper_kept _
    · split
      · exact Kept.refl _
      · exact updForms_kept _ _ ⟨rfl, rfl, rfl⟩
  · exact resetPaper_kept _

theorem judgeTimers_kept (s : State) : Kept s (judgeTimers s) := updForms_kept _ s ⟨rfl, rfl, rfl⟩

theorem restartTearTimer_kept (s : State) : Kept s (restartTearTimer s) := updForms_kept _ s ⟨rfl, rfl, rfl⟩

theorem applyForm_kept (l z : BitVec 16) (s : State) : Kept s (applyForm l z s) := by
  unfold applyForm
  apply updForms_kept_of_sound
  · intro _
    simp only [FormSound, clamp]
    omega
  · exact fun h => h

theorem applyGeometry_kept (d : Byte) (g e : BitVec 16) (r : Byte) (s : State) : Kept s (applyGeometry d g e r s) := by
  unfold applyGeometry
  split
  · exact latch_kept _ s
  · rename_i h
    exact
      { pending := rfl, pins := rfl, intake := rfl, builder := rfl, position := rfl, pulses := rfl, dead := rfl,
        deadDots := rfl, level := rfl, mask := rfl, causes := ⟨0, by simp⟩, locked := fun k => absurd k h, heat := id,
        settings := id,
        geometry := fun _ => by simp only [State.updRun_geometry, State.updForms_geometry, State.updGeometry_geometry,
                                  GeometrySound, clampGeometry, clamp]; omega,
        form := id, acc := id, profiles := id }

/-! ## Tables, settings, heat -/

/-- A change of the tables that keeps the law of R49. -/
theorem updTables_kept_of_sound (f : Tables → Tables) (s : State)
    (h : ProfilesSound s.tables → ProfilesSound (f s.tables)) : Kept s (s.updTables f) where
  pending := rfl
  pins := rfl
  intake := rfl
  builder := rfl
  position := rfl
  pulses := rfl
  dead := rfl
  deadDots := rfl
  level := rfl
  mask := rfl
  causes := ⟨0, by simp⟩
  locked := fun h => ⟨h, rfl⟩
  heat := id
  settings := id
  geometry := id
  form := id
  acc := id
  profiles := h

/-- A change of the settings that keeps their ranges. -/
theorem updSettings_kept_of_sound (f : Settings → Settings) (s : State)
    (h : SettingsSound s.settings → SettingsSound (f s.settings)) : Kept s (s.updSettings f) where
  pending := rfl
  pins := rfl
  intake := rfl
  builder := rfl
  position := rfl
  pulses := rfl
  dead := rfl
  deadDots := rfl
  level := rfl
  mask := rfl
  causes := ⟨0, by simp⟩
  locked := fun h => ⟨h, rfl⟩
  heat := id
  settings := h
  geometry := id
  form := id
  acc := id
  profiles := id

/-- A change of the Heat Monitor that keeps H and the ranges. -/
theorem updHeat_kept_of_sound (f : Heat → Heat) (s : State) (hl : (f s.heat).level = s.heat.level)
    (h : HeatSound s.heat → HeatSound (f s.heat)) : Kept s (s.updHeat f) where
  pending := rfl
  pins := rfl
  intake := rfl
  builder := rfl
  position := rfl
  pulses := rfl
  dead := rfl
  deadDots := rfl
  level := hl
  mask := rfl
  causes := ⟨0, by simp⟩
  locked := fun h => ⟨h, rfl⟩
  heat := h
  settings := id
  geometry := id
  form := id
  acc := id
  profiles := id

theorem setHold_kept (b : Bool) (s : State) : Kept s (s.updHeat fun h => { h with hold := b }) :=
  updHeat_kept_of_sound _ s rfl id

/-- The build part keeps the ranges of R164. -/
theorem applyBuildPart_sound (p : BuildPart) (t : Settings) (h : SettingsSound t) :
    SettingsSound (applyBuildPart p t) := by
  obtain ⟨h1, h2, h3, h4, h5⟩ := h
  refine ⟨?_, ?_, ?_, ?_, h5⟩ <;> simp only [applyBuildPart, orKeep, clamp] <;> split <;> omega

/-- The pass part keeps the ranges of R164. -/
theorem applyPassSettings_sound (p : PassPart) (t : Settings) (h : SettingsSound t) :
    SettingsSound (applyPassSettings p t) := by
  obtain ⟨h1, h2, h3, h4, h5, h6, h7, h8, h9, h10⟩ := h
  refine ⟨h1, h2, h3, h4, ?_, ?_, ?_, ?_, ?_, ?_⟩ <;>
    simp only [applyPassSettings, orKeep, clampAlignment] <;> split <;> omega

/-- The thresholds are in range and in order after a pass part is applied (R132). -/
theorem applyThresholds_sound (p : PassPart) (h : Heat) (hs : HeatSound h) : HeatSound (applyThresholds p h) := by
  obtain ⟨h1, h2, h3, h4, h5⟩ := hs
  have key : ∀ (o : Option (BitVec 24)) (k : Nat), 1 ≤ k → k ≤ heatMax →
      1 ≤ orKeep o clampThreshold k ∧ orKeep o clampThreshold k ≤ heatMax := by
    intro o k hk hk'
    cases o with
    | none => exact ⟨hk, hk'⟩
    | some v => simp only [orKeep, clampThreshold, clamp, heatMax]; omega
  have a := key p.hWarm h.warm h2 (by omega)
  have b := key p.hHot h.hot (by omega) (by omega)
  have c := key p.hLimit h.limit (by omega) h5
  unfold HeatSound applyThresholds
  dsimp only
  omega

/-! ## The law of the profiles (R49) -/

/-- The byte past the end of a page reads as 0, and appending zeros does not change that. -/
theorem byteAt_clampProfile (p : Page) (i : Nat) (h : i < 3 + 2 * pageRampLen p) :
    byteAt (clampProfile p) i = byteAt p i := by
  unfold clampProfile byteAt
  dsimp only
  congr 1
  by_cases hi : i < p.length
  · rw [List.getD_eq_getElem?_getD, List.getElem?_append_left (by simp; omega), List.getElem?_take_of_lt h,
      List.getD_eq_getElem?_getD]
  · rw [List.getD_eq_getElem?_getD, List.getD_eq_getElem?_getD, List.getElem?_append_right (by simp; omega),
      List.getElem?_eq_none (l := p) (by omega), List.getElem?_replicate]
    split <;> rfl

theorem pageCruise_clampProfile (p : Page) : pageCruise (clampProfile p) = pageCruise p := by
  simp only [pageCruise, fieldAt]
  rw [byteAt_clampProfile p 0 (by omega), byteAt_clampProfile p (0 + 1) (by omega)]

theorem pageRampLen_clampProfile (p : Page) : pageRampLen (clampProfile p) = pageRampLen p :=
  byteAt_clampProfile p 2 (by omega)

theorem pageRamp_clampProfile (p : Page) : pageRamp (clampProfile p) = pageRamp p := by
  unfold pageRamp
  rw [pageRampLen_clampProfile]
  apply List.map_congr_left
  intro i hi
  have hi := List.mem_range.mp hi
  simp only [fieldAt]
  rw [byteAt_clampProfile p _ (by omega), byteAt_clampProfile p _ (by omega)]

/-- The law of the profiles reads the profile pages alone. -/
theorem profilesSound_of_profiles {t u : Tables} (h : u.profiles = t.profiles) (hs : ProfilesSound t) :
    ProfilesSound u := by
  simpa only [ProfilesSound, liveCruise, liveProfile, livePage, h] using hs

/-- A live profile page after one page is replaced. -/
theorem livePage_setProfile (t : Tables) (page : Nat) (p : Page) (c : Nat) (hc : (livePage t .profile c) ≠ []) :
    livePage (setLivePage .profile page p t) .profile c = if c = page then p else livePage t .profile c := by
  have hlt : c < t.profiles.length := by
    by_contra hn
    apply hc
    simp only [livePage]
    rw [List.getD_eq_getElem?_getD, List.getElem?_eq_none (by omega)]
    rfl
  simp only [livePage, setLivePage]
  rw [List.getD_eq_getElem?_getD, List.getElem?_set]
  split
  · rename_i h
    subst h
    simp [hlt]
  · rename_i h
    rw [if_neg (fun k => h k.symm), List.getD_eq_getElem?_getD]

/-- A valid profile page made live keeps the law of R49. -/
theorem profilesSound_set (t : Tables) (page : Nat) (p : Page) (hv : profileValid t page p = true)
    (hs : ProfilesSound t) : ProfilesSound (setLivePage .profile page (clampProfile p) t) := by
  obtain ⟨h0, h1, h2, h3⟩ := hs
  simp only [profileValid, Bool.and_eq_true, Bool.or_eq_true, decide_eq_true_eq, List.all_eq_true] at hv
  obtain ⟨⟨⟨⟨⟨hT, hR⟩, hramp⟩, -⟩, hlow⟩, hhigh⟩ := hv
  have live : ∀ c < 4, livePage t .profile c ≠ [] := by
    intro c hc he
    have := (h3 c hc).1
    simp [liveCruise, he, pageCruise, fieldAt, byteAt] at this
  have cruise : ∀ c < 4, liveCruise (setLivePage .profile page (clampProfile p) t) c =
      if c = page then pageCruise p else liveCruise t c := by
    intro c hc
    unfold liveCruise
    rw [livePage_setProfile t page _ c (live c hc)]
    split
    · exact pageCruise_clampProfile p
    · rfl
  have ramp : ∀ c < 4, (liveProfile (setLivePage .profile page (clampProfile p) t) c).ramp =
      if c = page then pageRamp p else (liveProfile t c).ramp := by
    intro c hc
    simp only [liveProfile]
    rw [livePage_setProfile t page _ c (live c hc)]
    split
    · exact pageRamp_clampProfile p
    · rfl
  have low : ∀ c, c + 1 = page → liveCruise t c ≤ pageCruise p := by
    intro c hc
    subst hc
    rcases hlow with h | h
    · omega
    · simpa using h
  have high : ∀ c, page + 1 = c → c < 4 → pageCruise p ≤ liveCruise t c := by
    intro c hc hc4
    subst hc
    rcases hhigh with h | h
    · omega
    · exact h
  refine ⟨?_, ?_, ?_, ?_⟩
  · rw [cruise 0 (by omega), cruise 1 (by omega)]
    split <;> split
    · omega
    · exact high 1 (by omega) (by omega)
    · exact low 0 (by omega)
    · exact h0
  · rw [cruise 1 (by omega), cruise 2 (by omega)]
    split <;> split
    · omega
    · exact high 2 (by omega) (by omega)
    · exact low 1 (by omega)
    · exact h1
  · rw [cruise 2 (by omega), cruise 3 (by omega)]
    split <;> split
    · omega
    · exact high 3 (by omega) (by omega)
    · exact low 2 (by omega)
    · exact h2
  · intro c hc
    rw [cruise c hc, ramp c hc]
    split
    · refine ⟨hT.1, ?_, ?_, fun v hv => (hramp v hv).1⟩
      · simp [pageRamp]; omega
      · simp [pageRamp]; omega
    · exact h3 c hc

/-- A page made live or refused (R57). -/
theorem makeLive_kept (id : TableId) (page : Nat) (p : Page) (s : State) : Kept s (makeLive id page p s) := by
  unfold makeLive
  cases id
  · exact updTables_kept_of_sound _ s (profilesSound_of_profiles rfl)
  · exact updTables_kept_of_sound _ s (profilesSound_of_profiles rfl)
  · exact updTables_kept_of_sound _ s (profilesSound_of_profiles rfl)
  · dsimp only
    split
    · rename_i h
      exact updTables_kept_of_sound _ s (profilesSound_set _ _ _ h)
    · exact latch_kept _ s

theorem applyCommit_kept (id : TableId) (page : Nat) (s : State) : Kept s (applyCommit id page s) := by
  unfold applyCommit
  exact (makeLive_kept _ _ _ s).trans (setStage_kept _ _)

end Sys2Proof.Machine
end

