-- ==== Sys2Proof/Laws/Queue.lean ====
section
/-! SUPPORT. The law of the Line Queue (R20): each operation on the queue, and each block that acts, keeps it. -/

namespace Sys2Proof.Machine

/-! ## Lists of entries -/

theorem sum_set_le (es : List Entry) (i : Nat) (e e' : Entry) (h : es[i]? = some e') :
    ((es.set i e).map Entry.runBytes).sum + e'.runBytes = (es.map Entry.runBytes).sum + e.runBytes := by
  induction es generalizing i with
  | nil => simp at h
  | cons x xs ih =>
    cases i with
    | zero =>
      simp only [List.getElem?_cons_zero, Option.some.injEq] at h
      subst h
      simp only [List.set_cons_zero, List.map_cons, List.sum_cons]
      omega
    | succ i =>
      simp only [List.getElem?_cons_succ] at h
      have := ih i h
      simp only [List.set_cons_succ, List.map_cons, List.sum_cons]
      omega

theorem sum_eraseIdx_le (es : List Entry) (i : Nat) :
    ((es.eraseIdx i).map Entry.runBytes).sum ≤ (es.map Entry.runBytes).sum := by
  induction es generalizing i with
  | nil => simp
  | cons x xs ih =>
    cases i with
    | zero => simp
    | succ i =>
      have := ih i
      simp only [List.eraseIdx_cons_succ, List.map_cons, List.sum_cons]
      omega

theorem sum_filter_le (es : List Entry) (p : Entry → Bool) :
    ((es.filter p).map Entry.runBytes).sum ≤ (es.map Entry.runBytes).sum := by
  induction es with
  | nil => simp
  | cons x xs ih =>
    rw [List.filter_cons]
    split <;> simp only [List.map_cons, List.sum_cons] <;> omega

theorem lt_of_getElem? {es : List Entry} {i : Nat} {e : Entry} (h : es[i]? = some e) : i < es.length := by
  by_contra hn
  rw [List.getElem?_eq_none (by omega)] at h
  cases h

/-- The entry at the front's place is the front entry. -/
theorem front_at {q : Queue} {i : Nat} {e : Entry} (hi : frontIndex q = some i) (he : frontEntry q = some e) :
    q.entries[i]? = some e := by
  unfold frontIndex at hi
  unfold frontEntry at he
  generalize q.entries = es at hi he
  induction es generalizing i with
  | nil => simp at he
  | cons x xs ih =>
    rw [List.findIdx?_cons] at hi
    rw [List.find?_cons] at he
    cases hx : x.atFront with
    | true =>
      simp only [hx, if_true, Option.some.injEq] at hi he
      subst hi
      simp [he]
    | false =>
      simp only [hx, Bool.false_eq_true, if_false, Option.map_eq_some_iff] at hi he
      obtain ⟨j, hj, rfl⟩ := hi
      simpa using ih hj he

theorem front_some {q : Queue} {i : Nat} (hi : frontIndex q = some i) : ∃ e, frontEntry q = some e := by
  unfold frontIndex at hi
  unfold frontEntry
  generalize q.entries = es at hi
  induction es generalizing i with
  | nil => simp at hi
  | cons x xs ih =>
    rw [List.findIdx?_cons] at hi
    rw [List.find?_cons]
    cases hx : x.atFront with
    | true => exact ⟨x, rfl⟩
    | false =>
      simp only [hx, Bool.false_eq_true, if_false, Option.map_eq_some_iff] at hi
      obtain ⟨j, hj, -⟩ := hi
      exact ih hj

/-! ## Operations on the queue -/

/-- Every operation that leaves the queue alone keeps its law. -/
theorem queueSound_of_eq {s t : State} (h : QueueSound s.queue) (e : t.queue = s.queue) : QueueSound t.queue := by
  rw [e]
  exact h

theorem removeAt_queueSound {i : Nat} {s : State} (h : QueueSound s.queue) : QueueSound (removeAt i s).queue := by
  unfold removeAt
  split
  · rename_i e he
    have hi := lt_of_getElem? he
    obtain ⟨h1, h2, h3⟩ := h
    refine ⟨?_, le_trans (sum_eraseIdx_le _ _) h2, ?_⟩
    · show (s.queue.entries.eraseIdx i).length ≤ maxEntries
      rw [List.length_eraseIdx_of_lt hi]
      omega
    · show (if i < s.queue.cursor then s.queue.cursor - 1 else s.queue.cursor) ≤ (s.queue.entries.eraseIdx i).length
      rw [List.length_eraseIdx_of_lt hi]
      split <;> omega
  · exact h

theorem latch_queue (c : Cause) (s : State) : (latch c s).queue = s.queue := rfl

theorem latchIf_queue (b : Bool) (c : Cause) (s : State) : (latchIf b c s).queue = s.queue := by
  unfold latchIf
  split <;> rfl

theorem latchDrained_queue (s : State) : (latchDrained s).queue = s.queue := latchIf_queue _ _ s

theorem removeFront_queueSound {s : State} (h : QueueSound s.queue) : QueueSound (removeFront s).queue := by
  unfold removeFront
  split
  · rw [latchDrained_queue]
    exact removeAt_queueSound h
  · exact h

theorem finishEntry_queueSound {s : State} (h : QueueSound s.queue) : QueueSound (finishEntry s).queue :=
  removeFront_queueSound h

/-- An entry replaced by one that holds no more bytes. -/
theorem setEntry_queueSound {i : Nat} {e e' : Entry} {s : State} (h : QueueSound s.queue)
    (hi : s.queue.entries[i]? = some e') (hb : e.runBytes ≤ e'.runBytes) : QueueSound (setEntry i e s).queue := by
  obtain ⟨h1, h2, h3⟩ := h
  have hs := sum_set_le _ i e _ hi
  refine ⟨?_, ?_, ?_⟩
  · simpa [setEntry] using h1
  · show ((s.queue.entries.set i e).map Entry.runBytes).sum ≤ arenaSize
    omega
  · simpa [setEntry] using h3

theorem moveCursor_queueSound {s : State} (h : QueueSound s.queue) (hi : s.queue.cursor < s.queue.entries.length) :
    QueueSound (moveCursor s).queue := ⟨h.1, h.2.1, hi⟩

/-- An entry appended with room for it. -/
theorem appendEntry_queueSound {e : Entry} {s : State} (h : QueueSound s.queue) (h1 : s.queue.hasEntry = true)
    (h2 : e.runBytes ≤ s.queue.arenaFree) : QueueSound (appendEntry e s).queue := by
  obtain ⟨g1, g2, g3⟩ := h
  simp only [Queue.hasEntry, decide_eq_true_eq] at h1
  unfold Queue.arenaFree at h2
  refine ⟨?_, ?_, ?_⟩
  · show (s.queue.entries ++ [e]).length ≤ maxEntries
    simp only [List.length_append, List.length_singleton]
    omega
  · show ((s.queue.entries ++ [e]).map Entry.runBytes).sum ≤ arenaSize
    simp only [List.map_append, List.map_cons, List.map_nil, List.sum_append, List.sum_cons, List.sum_nil]
    omega
  · show s.queue.cursor ≤ (s.queue.entries ++ [e]).length
    simp only [List.length_append, List.length_singleton]
    omega

theorem dropEntries_queueSound {s : State} (h : QueueSound s.queue) : QueueSound (dropEntries s).queue := by
  have he : (dropEntries s).queue =
      { entries := s.queue.entries.filter Entry.isActive, cursor := (s.queue.entries.filter Entry.isActive).length } := by
    unfold dropEntries
    dsimp only
    rw [latchIf_queue]
    split <;> rfl
  rw [he]
  exact ⟨le_trans (List.length_filter_le _ _) h.1, le_trans (sum_filter_le _ _) h.2.1, le_refl _⟩

theorem makeLive_queue (id : TableId) (page : Nat) (p : Page) (s : State) : (makeLive id page p s).queue = s.queue := by
  cases id with
  | codeMap => rfl
  | glyphs => rfl
  | strike => rfl
  | profile =>
    show (if profileValid s.tables page p then s.updTables (setLivePage .profile page (clampProfile p))
      else latch .TR s).queue = s.queue
    split <;> rfl

theorem applyCommit_queue (id : TableId) (page : Nat) (s : State) : (applyCommit id page s).queue = s.queue :=
  makeLive_queue _ _ _ s

theorem commitRemoved_queueSound {i page : Nat} {id : TableId} {s : State} (h : QueueSound s.queue) :
    QueueSound (latchDrained (removeAt i (applyCommit id page s))).queue := by
  rw [latchDrained_queue]
  exact removeAt_queueSound (by rw [applyCommit_queue]; exact h)

/-! ## The Column Builder -/

theorem startBuild_queueSound {i : Nat} {b : BufId} {hd : LineHeader} {ps : List (List Byte)} {st : LineState} {s : State}
    (h : QueueSound s.queue) (hi : s.queue.entries[i]? = some (.line hd ps st)) :
    QueueSound (startBuild i b hd ps s).queue := by
  unfold startBuild
  exact setEntry_queueSound h hi (le_refl _)

theorem builderStep_queueSound {s t : State} (hs : builderStep s = some t) (h : QueueSound s.queue) :
    QueueSound t.queue := by
  unfold builderStep at hs
  dsimp only at hs
  split at hs
  case h_1 => cases hs
  case h_2 => injection hs with hs; subst hs; exact commitRemoved_queueSound h
  case h_3 => injection hs with hs; subst hs; exact commitRemoved_queueSound h
  case h_5 => cases hs
  case h_6 =>
    injection hs with hs
    subst hs
    rw [latchDrained_queue]
    exact removeAt_queueSound h
  case h_7 he =>
    injection hs with hs
    subst hs
    exact moveCursor_queueSound (setEntry_queueSound h he (Nat.le_refl _))
      (by simpa [setEntry] using lt_of_getElem? he)
  case h_12 he =>
    simp only [Option.map_eq_some_iff] at hs
    obtain ⟨b, -, rfl⟩ := hs
    exact startBuild_queueSound h he
  case h_13 => cases hs
  case h_14 => cases hs
  all_goals
    rename_i he
    injection hs with hs
    subst hs
    exact moveCursor_queueSound h (lt_of_getElem? he)

theorem endBuild_queueSound {hd : LineHeader} {ps : List (List Byte)} {b : BufId} {r : BuildResult} {inp : BuildInputs}
    {s : State} (h : QueueSound s.queue) (hb : buildInProgress s = some (hd, ps, b, inp)) :
    QueueSound (endBuild hd ps b r s).queue := by
  have he : ∃ st, s.queue.entries[s.queue.cursor]? = some (.line hd ps st) := by
    unfold buildInProgress at hb
    split at hb
    · rename_i he
      split at hb
      · simp only [Option.some.injEq, Prod.mk.injEq] at hb
        obtain ⟨rfl, rfl, -, -⟩ := hb
        exact ⟨_, he⟩
      · cases hb
    · cases hb
  obtain ⟨st, he⟩ := he
  have hq : ∀ u : State, u.queue = s.queue →
      QueueSound (moveCursor (setEntry u.queue.cursor (.line hd ps (.built b)) u)).queue := by
    intro u hu
    refine moveCursor_queueSound (setEntry_queueSound (e' := .line hd ps st) (by rw [hu]; exact h)
      (by rw [hu]; exact he) (le_refl _)) ?_
    have := lt_of_getElem? he
    simpa [setEntry, hu] using this
  unfold endBuild
  exact hq _ (by simp only [latchIf_queue]; rfl)

/-! ## Offers -/

theorem leaveEntry_queue (s : State) : (leaveEntry s).queue = s.queue := rfl

theorem discardOpen_queueSound {s : State} (h : QueueSound s.queue) : QueueSound (discardOpen s).queue := by
  unfold discardOpen
  dsimp only
  split
  · rw [leaveEntry_queue, latch_queue]
    exact removeAt_queueSound h
  · rw [latch_queue]
    exact removeAt_queueSound h

theorem discardOpenTail_queueSound {s : State} (h : QueueSound s.queue) : QueueSound (discardOpenTail s).queue := by
  unfold discardOpenTail
  split
  · exact discardOpen_queueSound h
  · exact h

/-- The law holds in the state of an answer. -/
def Offer.QueueSound : Offer → Prop
  | .gone s => Machine.QueueSound s.queue
  | .noRoom s => Machine.QueueSound s.queue

theorem offerEntry_queueSound {e : Entry} {s : State} (h : QueueSound s.queue) (he : e.runBytes = 0) :
    (offerEntry e s).QueueSound := by
  unfold offerEntry
  split
  · rename_i hh
    exact appendEntry_queueSound h hh (by omega)
  · exact h

theorem offerFirst_queueSound {hd : LineHeader} {m : Bool} {r : List Byte} {s : State} (h : QueueSound s.queue) :
    (offerFirst hd m r s).QueueSound := by
  unfold offerFirst
  split
  · rename_i hh
    exact appendEntry_queueSound h hh.1 (by simpa [Entry.runBytes] using hh.2)
  · exact h

theorem openTail_at {q : Queue} {hd : LineHeader} {ps : List (List Byte)} (h : openTail q = some (hd, ps)) :
    q.entries[q.entries.length - 1]? = some (.line hd ps .opened) := by
  unfold openTail at h
  split at h
  · rename_i he
    simp only [Option.some.injEq, Prod.mk.injEq] at h
    obtain ⟨rfl, rfl⟩ := h
    rw [← List.getLast?_eq_getElem?]
    exact he
  · cases h

theorem offerContinuation_queueSound {m : Bool} {r : List Byte} {s : State} (h : QueueSound s.queue) :
    (offerContinuation m r s).QueueSound := by
  unfold offerContinuation
  split
  · exact h
  · rename_i hd ps ht
    split
    · exact discardOpen_queueSound h
    · split
      · exact h
      · rename_i hr
        have hi := openTail_at ht
        have hs := sum_set_le _ _ (.line hd (ps ++ [r]) (if m then .opened else .complete)) _ hi
        obtain ⟨h1, h2, h3⟩ := h
        simp only [Queue.arenaFree, Entry.runBytes, List.map_append, List.sum_append, List.map_cons, List.map_nil,
          List.sum_cons, List.sum_nil] at hr hs
        refine ⟨?_, ?_, ?_⟩
        · simpa [restartTearTimer, setEntry] using h1
        · show ((s.queue.entries.set (s.queue.entries.length - 1) _).map Entry.runBytes).sum ≤ arenaSize
          omega
        · simpa [restartTearTimer, setEntry] using h3

theorem offerRecord_queueSound {r : QRecord} {s : State} (h : QueueSound s.queue) : (offerRecord r s).QueueSound := by
  have hd := discardOpenTail_queueSound h
  unfold offerRecord
  split
  · exact offerContinuation_queueSound h
  · exact offerFirst_queueSound hd
  · exact offerEntry_queueSound hd rfl
  · unfold offerCommit
    split
    · rename_i hh
      split
      · exact appendEntry_queueSound (s := State.setStage _ _) hd hh (Nat.zero_le _)
      · exact hd
    · exact hd
  · unfold offerSet
    split
    · exact hd
    · exact offerEntry_queueSound hd rfl
  · exact offerEntry_queueSound hd rfl
  · exact offerEntry_queueSound hd rfl

theorem offerStep_queueSound {s t : State} (hs : offerStep s = some t) (h : QueueSound s.queue) :
    QueueSound t.queue := by
  unfold offerStep at hs
  split at hs
  · cases hs
  · rename_i r _ _
    have ho := offerRecord_queueSound (r := r) h
    split at hs
    · rename_i he
      rw [he] at ho
      cases hs
      exact ho
    · rename_i he
      rw [he] at ho
      split at hs
      · cases hs
        exact ho
      · cases hs

/-! ## Feeds, Run Control and what follows as a whole -/

theorem beginFeed_queue (p : Purpose) (d : FeedDir) (n : Nat) (s : State) : (beginFeed p d n s).queue = s.queue := by
  unfold beginFeed startStep
  split
  · split <;> rfl
  · rfl

theorem setWait_queue (r : WaitReason) (s : State) : (setWait r s).queue = s.queue := rfl

theorem setInHand_queue (h : Option InHand) (s : State) : (setInHand h s).queue = s.queue := rfl

theorem eject_queue (r : Nat) (s : State) : (eject r s).queue = s.queue := beginFeed_queue _ _ _ _

theorem beginTearOff_queue (s : State) : (beginTearOff s).queue = s.queue := beginFeed_queue _ _ _ _

theorem beginReturn_queue (s : State) : (beginReturn s).queue = s.queue := beginFeed_queue _ _ _ _

theorem applyGeometry_queue (d : Byte) (g e : BitVec 16) (r : Byte) (s : State) :
    (applyGeometry d g e r s).queue = s.queue := by
  unfold applyGeometry
  split <;> rfl

theorem feedComplete_queueSound {p : Purpose} {s : State} (h : QueueSound s.queue) :
    QueueSound (feedComplete p s).queue := by
  unfold feedComplete
  split <;> first | exact finishEntry_queueSound h | exact h

theorem tearEnded_queueSound {s : State} (h : QueueSound s.queue) : QueueSound (tearEnded s).queue := by
  unfold tearEnded
  split
  · exact finishEntry_queueSound h
  · exact h

theorem endFeed_queueSound {p : Purpose} {s : State} (h : QueueSound s.queue) : QueueSound (endFeed p s).queue := by
  unfold endFeed
  split
  · exact tearEnded_queueSound (s := s.updForms _) h
  · exact h
  · split <;> exact h
  · exact h
  · exact feedComplete_queueSound (s := clearFeed s) h

theorem feedEnds_queueSound {s t : State} (hs : feedEnds s = some t) (h : QueueSound s.queue) : QueueSound t.queue := by
  unfold feedEnds at hs
  split at hs
  · split at hs
    · injection hs with hs
      subst hs
      exact endFeed_queueSound h
    · cases hs
  · cases hs

theorem startPass_queue (first : Bool) (h : LineHeader) (img : Image) (p : Int) (s : State) :
    (startPass first h img p s).queue = s.queue := by
  unfold startPass
  dsimp only
  rw [setWait_queue, setInHand_queue]
  simp [setDrive]

theorem runChecks_queue (first : Bool) (s : State) : (runChecks first s).queue = s.queue := by
  unfold runChecks
  dsimp only
  split
  · exact setInHand_queue _ s
  split
  · rw [setWait_queue, setInHand_queue]
  split
  · rw [setWait_queue, setInHand_queue]
  split
  · split
    · rw [setWait_queue, setInHand_queue, beginFeed_queue]
    split
    · rw [setInHand_queue, eject_queue]
    split
    · rw [setWait_queue, setInHand_queue]
      rfl
    split
    · exact startPass_queue _ _ _ _ s
    · exact setInHand_queue _ s
  · rw [setWait_queue, setInHand_queue]

theorem activateLine_queueSound {i : Nat} {hd : LineHeader} {ps : List (List Byte)} {b : BufId} {st : LineState}
    {s : State} (h : QueueSound s.queue) (hi : s.queue.entries[i]? = some (.line hd ps st)) :
    QueueSound (activateLine i hd ps b s).queue := by
  unfold activateLine
  split
  · exact setEntry_queueSound (s := s.updBuffers _) h hi (Nat.le_refl _)
  · exact h

theorem takeUp_queueSound {i : Nat} {e : Entry} {s : State} (h : QueueSound s.queue)
    (hi : s.queue.entries[i]? = some e) : QueueSound (takeUp i e s).queue := by
  unfold takeUp
  dsimp only
  split
  · exact commitRemoved_queueSound h
  · split
    · rw [latchDrained_queue]
      exact removeAt_queueSound (s := (s.updSettings _).updHeat _) h
    · exact setEntry_queueSound (s := (s.updSettings _).updHeat _) h hi (Nat.le_refl _)
  all_goals exact h

theorem takeUpStep_queueSound {s t : State} (hs : takeUpStep s = some t) (h : QueueSound s.queue) :
    QueueSound t.queue := by
  unfold takeUpStep at hs
  split at hs
  · split at hs
    · rename_i hi he
      injection hs with hs
      subst hs
      exact takeUp_queueSound h (front_at hi he)
    · cases hs
  · cases hs

theorem advanceStep_queueSound {m : AdvanceMode} {c : BitVec 16} {s t : State} (hs : advanceStep m c s = some t)
    (h : QueueSound s.queue) : QueueSound t.queue := by
  unfold advanceStep at hs
  dsimp only at hs
  split at hs
  · split at hs
    · injection hs with hs
      subst hs
      exact queueSound_of_eq h (beginTearOff_queue s)
    · split at hs
      · injection hs with hs
        subst hs
        exact finishEntry_queueSound h
      · split at hs
        · injection hs with hs
          subst hs
          exact h
        · cases hs
  · split at hs
    · injection hs with hs
      subst hs
      exact queueSound_of_eq h (beginFeed_queue _ _ _ s)
    · cases hs

theorem carryOut_queueSound {x : InHand} {s t : State} (hs : carryOut x s = some t) (h : QueueSound s.queue) :
    QueueSound t.queue := by
  unfold carryOut at hs
  split at hs
  case h_1 he =>
    simp only [Option.map_eq_some_iff] at hs
    obtain ⟨i, hi, rfl⟩ := hs
    exact activateLine_queueSound h (front_at hi he)
  case h_2 =>
    split at hs
    · injection hs with hs
      subst hs
      exact finishEntry_queueSound h
    · cases hs
  case h_3 =>
    split at hs
    · injection hs with hs
      subst hs
      exact finishEntry_queueSound (queueSound_of_eq h (applyGeometry_queue _ _ _ _ s))
    · cases hs
  case h_4 => exact advanceStep_queueSound hs h
  case h_5 =>
    split at hs
    · injection hs with hs
      subst hs
      exact queueSound_of_eq h (beginFeed_queue _ _ _ s)
    · cases hs
  case h_6 =>
    split at hs
    · injection hs with hs
      subst hs
      exact queueSound_of_eq h (runChecks_queue _ s)
    · cases hs
  case h_7 => cases hs

theorem runStep_queueSound {s t : State} (hs : runStep s = some t) (h : QueueSound s.queue) : QueueSound t.queue := by
  unfold runStep at hs
  split at hs
  · split at hs
    · exact carryOut_queueSound hs h
    · cases hs
  · exact takeUpStep_queueSound hs h

theorem requestStep_queue {s t : State} (hs : requestStep s = some t) : t.queue = s.queue := by
  unfold requestStep at hs
  split at hs
  · injection hs with hs
    subst hs
    rfl
  · split at hs
    · injection hs with hs
      subst hs
      exact beginReturn_queue s
    · cases hs

theorem followStep_queueSound {hold : Bool} {s t : State} (hs : followStep hold s = some t)
    (h : QueueSound s.queue) : QueueSound t.queue := by
  rcases followStep_cases hs with k | k | k | k | k
  · exact feedEnds_queueSound k h
  · exact builderStep_queueSound k h
  · exact offerStep_queueSound k h
  · exact runStep_queueSound k h
  · exact queueSound_of_eq h (requestStep_queue k)

/-- The working out of an event keeps the law of the Line Queue. -/
theorem finishEvent_queueSound {s : State} (h : QueueSound s.queue) : QueueSound (finishEvent s).queue :=
  follow_keeps (P := fun u => QueueSound u.queue) (fun _ _ => followStep_queueSound) (followFuel s) s h

/-- The working out of the end of a pass run keeps it too. -/
theorem finishRunStop_queueSound {s : State} (h : QueueSound s.queue) : QueueSound (finishRunStop s).queue :=
  follow_keeps (P := fun u => QueueSound u.queue) (fun _ _ => followStep_queueSound) (followFuel s) s h

end Sys2Proof.Machine
end

