-- ==== Sys2Proof/Laws/Lines.lean ====
section
/-! SUPPORT. The front of the queue, and the laws of the lines and of the entry in hand (R26, R28, R158) under the changes of
a queue: an entry replaced, added or removed, the cursor moved. -/

namespace Sys2Proof.Machine

/-! ## The front -/

/-- The entry `e` at place `i` is the front: the oldest that still holds a pass-time item, a barrier or a line (R31). -/
def IsFront (q : Queue) (i : Nat) (e : Entry) : Prop :=
  q.entries[i]? = some e ∧ e.atFront = true ∧ ∀ j < i, ∀ d, q.entries[j]? = some d → d.atFront = false

theorem frontIndex_eq_some {q : Queue} {i : Nat} : frontIndex q = some i ↔ ∃ e, IsFront q i e := by
  unfold frontIndex IsFront
  rw [List.findIdx?_eq_some_iff_getElem]
  constructor
  · rintro ⟨h, h1, h2⟩
    refine ⟨q.entries[i], List.getElem?_eq_getElem h, h1, ?_⟩
    intro j hj d hd
    have hl : j < q.entries.length := by omega
    rw [List.getElem?_eq_getElem hl, Option.some.injEq] at hd
    have := h2 j hj
    subst hd
    simpa using this
  · rintro ⟨e, h, h1, h2⟩
    have hl := lt_of_getElem? h
    rw [List.getElem?_eq_getElem hl, Option.some.injEq] at h
    refine ⟨hl, by rw [h]; exact h1, ?_⟩
    intro j hj
    have := h2 j hj _ (List.getElem?_eq_getElem (by omega))
    simp [this]

theorem IsFront.unique {q : Queue} {i j : Nat} {d e : Entry} (h : IsFront q i d) (k : IsFront q j e) : i = j ∧ d = e := by
  have : i = j := by
    rcases lt_trichotomy i j with hl | hl | hl
    · have := k.2.2 i hl d h.1
      rw [h.2.1] at this
      cases this
    · exact hl
    · have := h.2.2 j hl e k.1
      rw [k.2.1] at this
      cases this
  subst this
  refine ⟨rfl, ?_⟩
  have := h.1.symm.trans k.1
  simpa using this

theorem frontEntry_eq_some {q : Queue} {e : Entry} : frontEntry q = some e ↔ ∃ i, IsFront q i e := by
  constructor
  · intro h
    have hi : ∃ i, frontIndex q = some i := by
      unfold frontEntry at h
      unfold frontIndex
      rw [← Option.isSome_iff_exists, List.findIdx?_isSome, List.any_eq_true]
      exact ⟨e, List.mem_of_find?_eq_some h, List.find?_some h⟩
    obtain ⟨i, hi⟩ := hi
    obtain ⟨d, hd⟩ := frontIndex_eq_some.mp hi
    have := front_at hi h
    rw [hd.1] at this
    injection this with this
    subst this
    exact ⟨i, hd⟩
  · rintro ⟨i, h⟩
    obtain ⟨d, hd⟩ := front_some (frontIndex_eq_some.mpr ⟨e, h⟩)
    have := front_at (frontIndex_eq_some.mpr ⟨e, h⟩) hd
    rw [h.1] at this
    injection this with this
    rw [hd, this]

/-- What a front entry is, told by the entries alone. -/
theorem IsFront.frontEntry {q : Queue} {i : Nat} {e : Entry} (h : IsFront q i e) : frontEntry q = some e :=
  frontEntry_eq_some.mpr ⟨i, h⟩

theorem IsFront.frontIndex {q : Queue} {i : Nat} {e : Entry} (h : IsFront q i e) : frontIndex q = some i :=
  frontIndex_eq_some.mpr ⟨e, h⟩

/-! ## Column buffers -/

@[simp] theorem Buffers.get_set_self (b : Buffers) (i : BufId) (v : Buffer) : (b.set i v).get i = v := by cases i <;> rfl

theorem Buffers.get_set_of_ne (b : Buffers) {i j : BufId} (v : Buffer) (h : i ≠ j) : (b.set i v).get j = b.get j := by
  cases i <;> cases j <;> first | rfl | exact absurd rfl h

theorem Buffers.firstFree_free {b : Buffers} {i : BufId} (h : b.firstFree = some i) : b.get i = .free := by
  unfold Buffers.firstFree at h
  split at h
  · cases h; assumption
  · split at h
    · cases h; assumption
    · cases h

/-- The entry holds no column buffer. -/
theorem Entry.fits_of_noBuf {e : Entry} (h : e.buf = none) (b : Buffers) : e.fits b := by
  cases e with
  | line hd ps st => cases st <;> trivial
  | _ => trivial

/-- A line fits when the buffer it holds is as before. -/
theorem Entry.fits_of_get {e : Entry} {b c : Buffers} (h : e.fits b) (k : ∀ n, e.buf = some n → c.get n = b.get n) :
    e.fits c := by
  cases e with
  | line hd ps st =>
    cases st with
    | building n => obtain ⟨inp, hi⟩ := h; exact ⟨inp, (k n rfl).trans hi⟩
    | built n => obtain ⟨inp, hi⟩ := h; exact ⟨inp, (k n rfl).trans hi⟩
    | active n => obtain ⟨inp, hi⟩ := h; exact ⟨inp, (k n rfl).trans hi⟩
    | _ => trivial
  | _ => trivial

theorem Entry.fits_ne_free {e : Entry} {b : Buffers} {n : BufId} (h : e.fits b) (k : e.buf = some n) : b.get n ≠ .free := by
  cases e with
  | line hd ps st =>
    cases st with
    | building m => cases k; obtain ⟨inp, hi⟩ := h; rw [hi]; exact nofun
    | built m => cases k; obtain ⟨inp, hi⟩ := h; rw [hi]; exact nofun
    | active m => cases k; obtain ⟨inp, hi⟩ := h; rw [hi]; exact nofun
    | _ => cases k
  | _ => cases k

theorem Entry.buf_of_active {e : Entry} (h : e.isActive = true) : ∃ hd ps n, e = .line hd ps (.active n) := by
  cases e with
  | line hd ps st => cases st <;> first | exact ⟨_, _, _, rfl⟩ | cases h
  | _ => cases h

/-! ## Changes of a queue -/

theorem getElem?_set_cases {es : List Entry} {i j : Nat} {e d : Entry} (h : (es.set i e)[j]? = some d) :
    (j = i ∧ d = e) ∨ (j ≠ i ∧ es[j]? = some d) := by
  by_cases hj : j = i
  · subst hj
    have hl := lt_of_getElem? h
    rw [List.length_set] at hl
    rw [List.getElem?_set_self hl] at h
    injection h with h
    exact .inl ⟨rfl, h.symm⟩
  · rw [List.getElem?_set_ne (Ne.symm hj)] at h
    exact .inr ⟨hj, h⟩

theorem getElem?_erase {es : List Entry} {i j : Nat} {d : Entry} (h : (es.eraseIdx i)[j]? = some d) :
    es[if j < i then j else j + 1]? = some d := by
  rw [List.getElem?_eraseIdx] at h
  split at h
  · rw [if_pos ‹_›]; exact h
  · rw [if_neg ‹_›]; exact h

theorem erase_getElem? {es : List Entry} {i j : Nat} {d : Entry} (h : es[j]? = some d) (hj : j ≠ i) :
    (es.eraseIdx i)[if j < i then j else j - 1]? = some d := by
  rw [List.getElem?_eraseIdx]
  by_cases hl : j < i
  · simp [hl, h]
  · have h1 : ¬ j - 1 < i := by omega
    have h2 : j - 1 + 1 = j := by omega
    simp [hl, h1, h2, h]

theorem mem_iff_getElem? {es : List Entry} {e : Entry} : e ∈ es ↔ ∃ i : Nat, es[i]? = some e := List.mem_iff_getElem?

/-- The front after an entry is replaced by one that is at the front as the old one was. -/
theorem IsFront.set {q : Queue} {i k : Nat} {e e' d : Entry} {c : Nat} (hi : q.entries[i]? = some e)
    (ha : e'.atFront = e.atFront) (h : IsFront q k d) :
    IsFront { entries := q.entries.set i e', cursor := c } k (if k = i then e' else d) := by
  have hl := lt_of_getElem? hi
  refine ⟨?_, ?_, ?_⟩
  · by_cases hk : k = i
    · subst hk
      simp [List.getElem?_set_self hl]
    · simp only [if_neg hk]
      rw [List.getElem?_set_ne (Ne.symm hk)]
      exact h.1
  · by_cases hk : k = i
    · subst hk
      rw [if_pos rfl, ha]
      have := hi.symm.trans h.1
      injection this with this
      rw [this]
      exact h.2.1
    · rw [if_neg hk]
      exact h.2.1
  · intro j hj f hf
    rcases getElem?_set_cases hf with ⟨rfl, rfl⟩ | ⟨hne, hf⟩
    · rw [ha]
      exact h.2.2 j hj e hi
    · exact h.2.2 j hj f hf

/-- The front after an entry is added at the tail. -/
theorem IsFront.append {q : Queue} {k : Nat} {e d : Entry} {c : Nat} (h : IsFront q k d) :
    IsFront { entries := q.entries ++ [e], cursor := c } k d := by
  have hl := lt_of_getElem? h.1
  refine ⟨by rw [List.getElem?_append_left hl]; exact h.1, h.2.1, ?_⟩
  intro j hj f hf
  rw [List.getElem?_append_left (by omega)] at hf
  exact h.2.2 j hj f hf

/-- The front after the removal of another entry. -/
theorem IsFront.erase {q : Queue} {i k : Nat} {d : Entry} {c : Nat} (h : IsFront q k d) (hk : k ≠ i) :
    IsFront { entries := q.entries.eraseIdx i, cursor := c } (if k < i then k else k - 1) d := by
  refine ⟨erase_getElem? h.1 hk, h.2.1, ?_⟩
  intro j hj f hf
  have hf := getElem?_erase hf
  refine h.2.2 _ ?_ f hf
  split at hj <;> split <;> omega

/-! ## The law of the lines -/

/-- The same entries with buffers that agree where they are held. -/
theorem LinesSound.cursor_of {q : Queue} {b : Buffers} (h : LinesSound q b) (c : Nat)
    (hc : ∀ (i : Nat) (hd : LineHeader) (ps : List (List Byte)) (n : BufId),
      q.entries[i]? = some (.line hd ps (.building n)) → i = c) : LinesSound { q with cursor := c } b :=
  { fits := h.fits, once := h.once, held := h.held, front := h.front, cursor := hc }

theorem LinesSound.active_front {q : Queue} {b : Buffers} (h : LinesSound q b) {i : Nat} {e : Entry}
    (hi : q.entries[i]? = some e) (ha : e.isActive = true) : IsFront q i e := by
  obtain ⟨d, hd⟩ := frontIndex_eq_some.mp (h.front i e hi ha)
  have := hd.1.symm.trans hi
  injection this with this
  subst this
  exact hd

/-- No entry is an ACTIVE line. -/
def NoActive (q : Queue) : Prop := ∀ e ∈ q.entries, e.isActive = false

/-- An entry without a buffer is replaced by another without one. -/
theorem LinesSound.set_plain {q : Queue} {b : Buffers} (h : LinesSound q b) {i : Nat} {e e' : Entry}
    (hi : q.entries[i]? = some e) (he : e.buf = none) (he' : e'.buf = none)
    (ha : e'.atFront = e.atFront ∨ NoActive q) : LinesSound { q with entries := q.entries.set i e' } b where
  fits := by
    intro d hd
    obtain ⟨j, hj⟩ := mem_iff_getElem?.mp hd
    rcases getElem?_set_cases hj with ⟨rfl, rfl⟩ | ⟨-, hj⟩
    · exact Entry.fits_of_noBuf he' b
    · exact h.fits d (mem_iff_getElem?.mpr ⟨j, hj⟩)
  once := by
    intro j k c d n hj hk hc hd
    rcases getElem?_set_cases hj with ⟨rfl, rfl⟩ | ⟨-, hj⟩
    · rw [he'] at hc; cases hc
    rcases getElem?_set_cases hk with ⟨rfl, rfl⟩ | ⟨-, hk⟩
    · rw [he'] at hd; cases hd
    exact h.once j k c d n hj hk hc hd
  held := by
    intro n hn
    obtain ⟨d, hd, hb⟩ := h.held n hn
    obtain ⟨j, hj⟩ := mem_iff_getElem?.mp hd
    have hji : i ≠ j := by
      rintro rfl
      rw [hi] at hj
      injection hj with hj
      subst hj
      rw [he] at hb; cases hb
    exact ⟨d, mem_iff_getElem?.mpr ⟨j, by rw [List.getElem?_set_ne hji]; exact hj⟩, hb⟩
  front := by
    intro j d hj hd
    rcases getElem?_set_cases hj with ⟨rfl, rfl⟩ | ⟨hne, hj⟩
    · obtain ⟨_, _, _, rfl⟩ := Entry.buf_of_active hd
      cases he'
    · rcases ha with ha | ha
      · have := IsFront.set (c := q.cursor) hi ha (h.active_front hj hd)
        exact this.frontIndex
      · rw [ha d (mem_iff_getElem?.mpr ⟨j, hj⟩)] at hd
        cases hd
  cursor := by
    intro j hd ps n hj
    rcases getElem?_set_cases hj with ⟨rfl, rfl⟩ | ⟨-, hj⟩
    · cases he'
    · exact h.cursor j hd ps n hj

/-- An entry without a buffer is added at the tail. -/
theorem LinesSound.append {q : Queue} {b : Buffers} (h : LinesSound q b) {e : Entry} (he : e.buf = none) :
    LinesSound { q with entries := q.entries ++ [e] } b where
  fits := by
    intro d hd
    rcases List.mem_append.mp hd with hd | hd
    · exact h.fits d hd
    · rw [List.mem_singleton.mp hd]
      exact Entry.fits_of_noBuf he b
  once := by
    have key : ∀ (j : Nat) (c : Entry) (n : BufId), (q.entries ++ [e])[j]? = some c → c.buf = some n →
        q.entries[j]? = some c := by
      intro j c n hj hc
      by_cases hl : j < q.entries.length
      · rwa [List.getElem?_append_left hl] at hj
      · rw [List.getElem?_append_right (by omega)] at hj
        have := List.mem_singleton.mp (List.mem_of_getElem? hj)
        subst this
        rw [he] at hc; cases hc
    intro j k c d n hj hk hc hd
    exact h.once j k c d n (key j c n hj hc) (key k d n hk hd) hc hd
  held := by
    intro n hn
    obtain ⟨d, hd, hb⟩ := h.held n hn
    exact ⟨d, List.mem_append.mpr (.inl hd), hb⟩
  front := by
    intro j d hj hd
    by_cases hl : j < q.entries.length
    · rw [List.getElem?_append_left hl] at hj
      exact (h.active_front hj hd).append.frontIndex
    · rw [List.getElem?_append_right (by omega)] at hj
      have := List.mem_singleton.mp (List.mem_of_getElem? hj)
      subst this
      obtain ⟨_, _, _, rfl⟩ := Entry.buf_of_active hd
      cases he
  cursor := by
    intro j hd ps n hj
    by_cases hl : j < q.entries.length
    · rw [List.getElem?_append_left hl] at hj
      exact h.cursor j hd ps n hj
    · rw [List.getElem?_append_right (by omega)] at hj
      have := List.mem_singleton.mp (List.mem_of_getElem? hj)
      subst this
      cases he

/-- An entry is removed, its buffer FREE (R33), where it is not ahead of an ACTIVE line that is the front. -/
theorem LinesSound.erase {q : Queue} {b : Buffers} (h : LinesSound q b) {i : Nat} {e : Entry}
    (hi : q.entries[i]? = some e) :
    LinesSound { entries := q.entries.eraseIdx i, cursor := if i < q.cursor then q.cursor - 1 else q.cursor }
      (freeBufferOf e b) where
  fits := by
    intro d hd
    obtain ⟨j, hj⟩ := mem_iff_getElem?.mp hd
    have hj := getElem?_erase hj
    have hd := h.fits d (mem_iff_getElem?.mpr ⟨_, hj⟩)
    unfold freeBufferOf
    cases hb : e.buf with
    | none => exact hd
    | some n =>
      refine Entry.fits_of_get hd fun m hm => Buffers.get_set_of_ne _ _ ?_
      rintro rfl
      have := h.once _ _ _ _ n hi hj hb hm
      split at this <;> omega
  once := by
    intro j k c d n hj hk hc hd
    have := h.once _ _ c d n (getElem?_erase hj) (getElem?_erase hk) hc hd
    split at this <;> split at this <;> omega
  held := by
    intro n hn
    have hn' : b.get n ≠ .free ∧ e.buf ≠ some n := by
      unfold freeBufferOf at hn
      cases hb : e.buf with
      | none => rw [hb] at hn; exact ⟨hn, nofun⟩
      | some m =>
        rw [hb] at hn
        by_cases hm : m = n
        · subst hm; simp at hn
        · dsimp only at hn
          rw [Buffers.get_set_of_ne _ _ hm] at hn
          exact ⟨hn, by simpa using hm⟩
    obtain ⟨d, hd, hb⟩ := h.held n hn'.1
    obtain ⟨j, hj⟩ := mem_iff_getElem?.mp hd
    have hji : j ≠ i := by
      rintro rfl
      rw [hi] at hj
      injection hj with hj
      subst hj
      exact hn'.2 hb
    exact ⟨d, mem_iff_getElem?.mpr ⟨_, erase_getElem? hj hji⟩, hb⟩
  front := by
    intro j d hj hd
    have hj' := getElem?_erase hj
    have := IsFront.erase (i := i) (c := if i < q.cursor then q.cursor - 1 else q.cursor) (h.active_front hj' hd)
      (by split <;> omega)
    have e1 : (if (if j < i then j else j + 1) < i then (if j < i then j else j + 1)
        else (if j < i then j else j + 1) - 1) = j := by
      by_cases hji : j < i
      · simp [hji]
      · have : ¬ j + 1 < i := by omega
        simp [hji, this]
    rw [e1] at this
    exact this.frontIndex
  cursor := by
    intro j hd ps n hj
    have := h.cursor _ hd ps n (getElem?_erase hj)
    dsimp only
    split at this <;> split <;> omega

/-- A line takes a buffer that is FREE: its build starts under the cursor (R28, R62). -/
theorem LinesSound.set_building {q : Queue} {b : Buffers} (h : LinesSound q b) {lh : LineHeader}
    {ps qs : List (List Byte)} {n : BufId} {inp : BuildInputs} {st : LineState}
    (hi : q.entries[q.cursor]? = some (.line lh ps st)) (hs : st.buf = none) (hn : b.get n = .free) :
    LinesSound { q with entries := q.entries.set q.cursor (.line lh qs (.building n)) } (b.set n (.filling inp)) where
  fits := by
    intro d hd
    obtain ⟨j, hj⟩ := mem_iff_getElem?.mp hd
    rcases getElem?_set_cases hj with ⟨rfl, rfl⟩ | ⟨-, hj⟩
    · exact ⟨inp, Buffers.get_set_self b n _⟩
    · have hd := h.fits d (mem_iff_getElem?.mpr ⟨j, hj⟩)
      refine Entry.fits_of_get hd fun m hm => Buffers.get_set_of_ne _ _ ?_
      rintro rfl
      exact Entry.fits_ne_free hd hm hn
  once := by
    have free : ∀ (j : Nat) (d : Entry), q.entries[j]? = some d → d.buf ≠ some n := by
      intro j d hj hb
      exact Entry.fits_ne_free (h.fits d (mem_iff_getElem?.mpr ⟨j, hj⟩)) hb hn
    intro j k c d m hj hk hc hd
    rcases getElem?_set_cases hj with ⟨rfl, rfl⟩ | ⟨-, hj⟩
    · injection hc with hc
      subst hc
      rcases getElem?_set_cases hk with ⟨rfl, -⟩ | ⟨-, hk⟩
      · rfl
      · exact absurd hd (free k d hk)
    · rcases getElem?_set_cases hk with ⟨rfl, rfl⟩ | ⟨-, hk⟩
      · injection hd with hd
        subst hd
        exact absurd hc (free j c hj)
      · exact h.once j k c d m hj hk hc hd
  held := by
    intro m hm
    have hl := lt_of_getElem? hi
    by_cases hmn : n = m
    · subst hmn
      exact ⟨_, mem_iff_getElem?.mpr ⟨q.cursor, List.getElem?_set_self hl⟩, rfl⟩
    · rw [Buffers.get_set_of_ne _ _ hmn] at hm
      obtain ⟨d, hd, hb⟩ := h.held m hm
      obtain ⟨j, hj⟩ := mem_iff_getElem?.mp hd
      have hji : q.cursor ≠ j := by
        intro hcj
        rw [← hcj, hi] at hj
        injection hj with hj
        subst hj
        rw [show (Entry.line _ ps st).buf = st.buf from rfl, hs] at hb
        cases hb
      exact ⟨d, mem_iff_getElem?.mpr ⟨j, by rw [List.getElem?_set_ne hji]; exact hj⟩, hb⟩
  front := by
    intro j d hj hd
    rcases getElem?_set_cases hj with ⟨rfl, rfl⟩ | ⟨hne, hj⟩
    · cases hd
    · have := IsFront.set (c := q.cursor) (e' := .line lh qs (.building n)) hi rfl (h.active_front hj hd)
      exact this.frontIndex
  cursor := by
    intro j hd' ps' m hj
    rcases getElem?_set_cases hj with ⟨rfl, -⟩ | ⟨-, hj⟩
    · rfl
    · exact h.cursor j hd' ps' m hj

/-- A line with a buffer goes on in that buffer: from BUILDING to BUILT, or from BUILT at the front to ACTIVE (R26). -/
theorem LinesSound.set_held {q : Queue} {b : Buffers} (h : LinesSound q b) {lh : LineHeader} {ps : List (List Byte)}
    {n : BufId} {st st' : LineState} {v : Buffer} {i : Nat} (hi : q.entries[i]? = some (.line lh ps st))
    (hs : st.buf = some n) (hs' : st'.buf = some n) (hf : (Entry.line lh ps st').fits (b.set n v))
    (hb : ∀ m, st' ≠ .building m)
    (ha : ∀ m, st' = .active m → frontIndex q = some i) :
    LinesSound { q with entries := q.entries.set i (.line lh ps st') } (b.set n v) where
  fits := by
    intro d hd
    obtain ⟨j, hj⟩ := mem_iff_getElem?.mp hd
    rcases getElem?_set_cases hj with ⟨rfl, rfl⟩ | ⟨hne, hj⟩
    · exact hf
    · have hd := h.fits d (mem_iff_getElem?.mpr ⟨j, hj⟩)
      refine Entry.fits_of_get hd fun m hm => Buffers.get_set_of_ne _ _ ?_
      rintro rfl
      exact hne (h.once j i d _ n hj hi hm hs)
  once := by
    intro j k c d m hj hk hc hd
    rcases getElem?_set_cases hj with ⟨rfl, rfl⟩ | ⟨-, hj2⟩
    · rw [show (Entry.line _ ps st').buf = st'.buf from rfl, hs'] at hc
      injection hc with hc
      subst hc
      rcases getElem?_set_cases hk with ⟨rfl, -⟩ | ⟨-, hk2⟩
      · rfl
      · exact h.once j k _ d n hi hk2 hs hd
    · rcases getElem?_set_cases hk with ⟨rfl, rfl⟩ | ⟨-, hk2⟩
      · rw [show (Entry.line _ ps st').buf = st'.buf from rfl, hs'] at hd
        injection hd with hd
        subst hd
        exact h.once j k c _ n hj2 hi hc hs
      · exact h.once j k c d m hj2 hk2 hc hd
  held := by
    intro m hm
    have hl := lt_of_getElem? hi
    by_cases hmn : n = m
    · subst hmn
      exact ⟨_, mem_iff_getElem?.mpr ⟨i, List.getElem?_set_self hl⟩, hs'⟩
    · rw [Buffers.get_set_of_ne _ _ hmn] at hm
      obtain ⟨d, hd, hb⟩ := h.held m hm
      obtain ⟨j, hj⟩ := mem_iff_getElem?.mp hd
      have hji : i ≠ j := by
        rintro rfl
        rw [hi] at hj
        injection hj with hj
        subst hj
        rw [show (Entry.line _ ps st).buf = st.buf from rfl, hs] at hb
        injection hb with hb
        exact hmn hb
      exact ⟨d, mem_iff_getElem?.mpr ⟨j, by rw [List.getElem?_set_ne hji]; exact hj⟩, hb⟩
  front := by
    intro j d hj hd
    rcases getElem?_set_cases hj with ⟨rfl, rfl⟩ | ⟨hne, hj⟩
    · obtain ⟨_, _, m, hm⟩ := Entry.buf_of_active hd
      injection hm with _ _ hm
      obtain ⟨e, he⟩ := frontIndex_eq_some.mp (ha m hm)
      have := IsFront.set (c := q.cursor) (e' := .line lh ps st') hi rfl he
      exact this.frontIndex
    · have := IsFront.set (c := q.cursor) (e' := .line lh ps st') hi rfl (h.active_front hj hd)
      exact this.frontIndex
  cursor := by
    intro j hd' ps' m hj
    rcases getElem?_set_cases hj with ⟨rfl, hj2⟩ | ⟨-, hj2⟩
    · injection hj2 with _ _ hj2
      exact absurd hj2.symm (hb m)
    · exact h.cursor j hd' ps' m hj2

theorem LinesSound.empty (c : Nat) : LinesSound { entries := [], cursor := c } { one := .free, two := .free } where
  fits := nofun
  once := by intro i j d e n hi; simp at hi
  held := by intro n hn; cases n <;> exact absurd rfl hn
  front := by intro i e hi; simp at hi
  cursor := by intro i hd ps n hi; simp at hi

end Sys2Proof.Machine
end

