-- ==== Sys2Proof/Laws/Steps.lean ====
section
/-! SUPPORT. Each block that acts after an event, and the working out of the event as a whole, keeps what `Kept` says. -/

namespace Sys2Proof.Machine

theorem feedComplete_kept (p : Purpose) (s : State) : Kept s (feedComplete p s) := by
  unfold feedComplete
  split <;> first | exact finishEntry_kept s | exact setInHand_kept _ s

theorem tearEnded_kept (s : State) : Kept s (tearEnded s) := by
  unfold tearEnded
  split
  · exact finishEntry_kept s
  · exact Kept.refl s

theorem endFeed_kept (p : Purpose) (s : State) : Kept s (endFeed p s) := by
  unfold endFeed
  split
  · exact (updForms_kept _ s ⟨rfl, rfl, rfl⟩).trans (tearEnded_kept _)
  · exact arriveAtPrint_kept s
  · split
    · refine (arriveAtPrint_kept s).trans (updForms_kept_of_sound _ _ ?_ (fun h => h))
      intro h
      exact Nat.lt_of_le_of_lt (Nat.zero_le _) h
    · exact enterNoForms_kept s
  · exact enterNoForms_kept s
  · exact (clearFeed_kept s).trans (feedComplete_kept _ _)

theorem feedEnds_kept {s t : State} (h : feedEnds s = some t) : Kept s t := by
  unfold feedEnds at h
  split at h
  · split at h
    · cases h; exact endFeed_kept _ s
    · cases h
  · cases h

theorem moveCursor_kept (s : State) : Kept s (moveCursor s) := updQueue_kept _ s

theorem setEntry_kept (i : Nat) (e : Entry) (s : State) : Kept s (setEntry i e s) := updQueue_kept _ s

theorem appendEntry_kept (e : Entry) (s : State) : Kept s (appendEntry e s) := updQueue_kept _ s

theorem startBuild_kept (i : Nat) (b : BufId) (h : LineHeader) (ps : List (List Byte)) (s : State) :
    Kept s (startBuild i b h ps s) := (updBuffers_kept _ s).trans (setEntry_kept _ _ _)

theorem buildPart_kept (p : BuildPart) (s : State) : Kept s (s.updSettings (applyBuildPart p)) :=
  updSettings_kept_of_sound _ s (applyBuildPart_sound p s.settings)

theorem commitRemoved_kept (i : Nat) (id : TableId) (page : Nat) (s : State) :
    Kept s (latchDrained (removeAt i (applyCommit id page s))) :=
  ((applyCommit_kept id page s).trans (removeAt_kept i _)).trans (latchDrained_kept _)

theorem builderStep_kept {s t : State} (h : builderStep s = some t) : Kept s t := by
  unfold builderStep at h
  dsimp only at h
  split at h <;> first
    | cases h; done
    | (cases h; exact commitRemoved_kept _ _ _ s)
    | (cases h; exact moveCursor_kept s)
    | (cases h; exact ((buildPart_kept _ s).trans (removeAt_kept _ _)).trans (latchDrained_kept _))
    | (cases h; exact ((buildPart_kept _ s).trans (setEntry_kept _ _ _)).trans (moveCursor_kept _))
    | skip
  rw [Option.map_eq_some_iff] at h
  obtain ⟨b, -, rfl⟩ := h
  exact startBuild_kept _ _ _ _ s

theorem discardOpen_kept (s : State) : Kept s (discardOpen s) := by
  unfold discardOpen
  dsimp only
  split
  · exact ((removeAt_kept _ s).trans (latch_kept _ _)).trans (leaveEntry_kept _)
  · exact (removeAt_kept _ s).trans (latch_kept _ _)

theorem discardOpenTail_kept (s : State) : Kept s (discardOpenTail s) := by
  unfold discardOpenTail
  split
  · exact discardOpen_kept s
  · exact Kept.refl s

theorem admitEntry_kept (e : Entry) (s : State) : Kept s (admitEntry e s) :=
  (appendEntry_kept e s).trans (restartTearTimer_kept _)

/-- The state an offer leaves. -/
def Offer.state : Offer → State
  | .gone s => s
  | .noRoom s => s

theorem offerEntry_kept (e : Entry) (s : State) : Kept s (offerEntry e s).state := by
  unfold offerEntry
  split
  · exact admitEntry_kept e s
  · exact Kept.refl s

theorem offerFirst_kept (h : LineHeader) (m : Bool) (r : List Byte) (s : State) :
    Kept s (offerFirst h m r s).state := by
  unfold offerFirst
  split
  · exact admitEntry_kept _ s
  · exact Kept.refl s

theorem offerContinuation_kept (m : Bool) (r : List Byte) (s : State) :
    Kept s (offerContinuation m r s).state := by
  unfold offerContinuation
  split
  · exact latch_kept _ s
  · split
    · exact discardOpen_kept s
    · split
      · exact Kept.refl s
      · exact (setEntry_kept _ _ s).trans (restartTearTimer_kept _)

theorem offerCommit_kept (table page : Nat) (s : State) : Kept s (offerCommit table page s).state := by
  unfold offerCommit
  split
  · split
    · exact (setStage_kept _ s).trans (admitEntry_kept _ _)
    · exact latch_kept _ s
  · exact Kept.refl s

theorem offerSet_kept (f : SetFields) (s : State) : Kept s (offerSet f s).state := by
  unfold offerSet
  split
  · exact restartTearTimer_kept s
  · exact offerEntry_kept _ s

theorem offerRecord_kept (r : QRecord) (s : State) : Kept s (offerRecord r s).state := by
  cases r <;> simp only [offerRecord]
  · exact (discardOpenTail_kept s).trans (offerFirst_kept _ _ _ _)
  · exact offerContinuation_kept _ _ s
  · exact (discardOpenTail_kept s).trans (offerEntry_kept _ _)
  · exact (discardOpenTail_kept s).trans (offerCommit_kept _ _ _)
  · exact (discardOpenTail_kept s).trans (offerSet_kept _ _)
  · exact (discardOpenTail_kept s).trans (offerEntry_kept _ _)
  · exact (discardOpenTail_kept s).trans (offerEntry_kept _ _)

theorem offerStep_kept {s t : State} (h : offerStep s = some t) : Kept s t := by
  unfold offerStep at h
  split at h
  · cases h
  · rename_i r rest hq
    have k := offerRecord_kept r s
    split at h
    · rename_i u hu
      rw [hu] at k
      cases h
      exact k.trans (setLaneQ_kept _ _)
    · rename_i u hu
      rw [hu] at k
      split at h
      · cases h; exact k
      · cases h

theorem setDrive_kept (d : Drive) (s : State) : Kept s (setDrive d s) := by
  apply Kept.of_eq <;> simp [setDrive]
  exact ⟨0, by simp⟩

theorem startPass_kept (first : Bool) (h : LineHeader) (img : Image) (p : Int) (s : State) :
    Kept s (startPass first h img p s) := by
  unfold startPass
  dsimp only
  refine Kept.trans ?_ (setWait_kept _ _)
  refine Kept.trans ?_ (setInHand_kept _ _)
  apply Kept.of_eq <;> simp [setDrive]
  exact ⟨0, by simp⟩

theorem runChecks_kept (first : Bool) (s : State) : Kept s (runChecks first s) := by
  unfold runChecks
  dsimp only
  split
  · exact setInHand_kept _ s
  split
  · exact (setInHand_kept _ s).trans (setWait_kept _ _)
  split
  · exact (setInHand_kept _ s).trans (setWait_kept _ _)
  split
  · split
    · exact ((beginFeed_kept _ _ _ s).trans (setInHand_kept _ _)).trans (setWait_kept _ _)
    split
    · exact (eject_kept _ s).trans (setInHand_kept _ _)
    split
    · exact (((setHold_kept true s).trans (latch_kept _ _)).trans (setInHand_kept _ _)).trans (setWait_kept _ _)
    split
    · exact startPass_kept _ _ _ _ s
    · exact setInHand_kept _ s
  · exact (setInHand_kept _ s).trans (setWait_kept _ _)

theorem activateLine_kept (i : Nat) (h : LineHeader) (ps : List (List Byte)) (b : BufId) (s : State) :
    Kept s (activateLine i h ps b s) := by
  unfold activateLine
  split
  · exact (((updBuffers_kept _ s).trans (setEntry_kept _ _ _)).trans (setInHand_kept _ _)).trans (setWait_kept _ _)
  · exact Kept.refl s

theorem passPart_kept (p : PassPart) (s : State) :
    Kept s ((s.updSettings (applyPassSettings p)).updHeat (applyThresholds p)) :=
  (updSettings_kept_of_sound _ s (applyPassSettings_sound p s.settings)).trans
    (updHeat_kept_of_sound _ _ rfl (applyThresholds_sound p _))

/-- An entry taken in hand. -/
theorem updRun_kept (f : RunControl → RunControl) (s : State)
    (h : (f s.run).mask = s.run.mask ∧ (f s.run).causes = s.run.causes ∧ (f s.run).locked = s.run.locked) :
    Kept s (s.updRun f) := by
  apply Kept.of_eq <;> simp [h]
  exact ⟨0, by simp⟩

theorem takeUp_kept (i : Nat) (e : Entry) (s : State) : Kept s (takeUp i e s) := by
  unfold takeUp
  dsimp only
  split <;> first
    | exact commitRemoved_kept _ _ _ s
    | exact updRun_kept _ s ⟨rfl, rfl, rfl⟩
    | exact Kept.refl s
    | exact (updRun_kept _ s ⟨rfl, rfl, rfl⟩).trans (setWait_kept _ _)
    | skip
  split
  · exact ((passPart_kept _ s).trans (removeAt_kept _ _)).trans (latchDrained_kept _)
  · exact (passPart_kept _ s).trans (setEntry_kept _ _ _)

theorem takeUpStep_kept {s t : State} (h : takeUpStep s = some t) : Kept s t := by
  unfold takeUpStep at h
  split at h
  · split at h
    · cases h; exact takeUp_kept _ _ s
    · cases h
  · cases h

theorem started_kept {s u : State} (h : Kept s u) (x : Option InHand) :
    Kept s (setWait .none (setInHand x u)) := (h.trans (setInHand_kept _ _)).trans (setWait_kept _ _)

theorem advanceStep_kept {m : AdvanceMode} {c : BitVec 16} {s t : State} (h : advanceStep m c s = some t) :
    Kept s t := by
  unfold advanceStep at h
  dsimp only at h
  split at h
  · split at h
    · cases h; exact started_kept (beginTearOff_kept s) _
    split at h
    · cases h; exact finishEntry_kept s
    split at h
    · cases h; exact started_kept (Kept.refl s) _
    · cases h
  · split at h
    · cases h; exact started_kept (beginFeed_kept _ _ _ s) _
    · cases h

theorem carryOut_kept {x : InHand} {s t : State} (h : carryOut x s = some t) : Kept s t := by
  unfold carryOut at h
  split at h
  · rw [Option.map_eq_some_iff] at h
    obtain ⟨i, -, rfl⟩ := h
    exact activateLine_kept _ _ _ _ s
  · split at h
    · cases h; exact (applyForm_kept _ _ s).trans (finishEntry_kept _)
    · cases h
  · split at h
    · cases h; exact (applyGeometry_kept _ _ _ _ s).trans (finishEntry_kept _)
    · cases h
  · exact advanceStep_kept h
  · split at h
    · cases h; exact started_kept (beginFeed_kept _ _ _ s) _
    · cases h
  · split at h
    · cases h; exact runChecks_kept _ s
    · cases h
  · cases h

theorem runStep_kept {s t : State} (h : runStep s = some t) : Kept s t := by
  unfold runStep at h
  split at h
  · split at h
    · exact carryOut_kept h
    · cases h
  · exact takeUpStep_kept h

theorem requestStep_kept {s t : State} (h : requestStep s = some t) : Kept s t := by
  unfold requestStep at h
  split at h
  · cases h
    exact (updForms_kept _ s ⟨rfl, rfl, rfl⟩).trans (setWait_kept _ _)
  · split at h
    · cases h; exact beginReturn_kept s
    · cases h

/-- A step of what follows an event. -/
theorem followStep_kept {hold : Bool} {s t : State} (h : followStep hold s = some t) : Kept s t := by
  rcases followStep_cases h with h | h | h | h | h
  · exact feedEnds_kept h
  · exact builderStep_kept h
  · exact offerStep_kept h
  · exact runStep_kept h
  · exact requestStep_kept h

/-- All that follows an event. -/
theorem follow_kept (hold : Bool) (n : Nat) (s : State) : Kept s (follow hold n s) :=
  follow_keeps (P := fun t => Kept s t) (fun _ _ h k => k.trans (followStep_kept h)) n s (Kept.refl s)

/-- The working out of an event. -/
theorem finishEvent_kept (s : State) : Kept s (finishEvent s) :=
  (follow_kept _ _ s).trans (judgeTimers_kept _)

/-- The working out of the end of a pass run. -/
theorem finishRunStop_kept (s : State) : Kept s (finishRunStop s) :=
  (follow_kept _ _ s).trans (judgeTimers_kept _)

/-! ## The fault stop -/

theorem discardActive_kept (s : State) : Kept s (discardActive s) := by
  unfold discardActive
  exact (((((removeFront_kept s).trans (forgetDirection_kept _)).trans (setHold_kept false _)).trans
    (abandonFeed_kept _ _)).trans (updForms_kept _ _ ⟨rfl, rfl, rfl⟩)).trans (setInHand_kept _ _)

theorem faultStop_kept (s : State) : Kept s (faultStop s) := by
  unfold faultStop
  split
  · exact Kept.refl s
  · refine (updRun_kept (fun c => { c with executor := .faultStop, reason := .none }) s ⟨rfl, rfl, rfl⟩).trans ?_
    dsimp only
    split
    · exact discardActive_kept _
    · exact discardActive_kept _
    · exact discardActive_kept _
    · exact Kept.refl _
    · exact (updForms_kept _ _ ⟨rfl, rfl, rfl⟩).trans (setInHand_kept _ _)

end Sys2Proof.Machine
end

