-- ==== Sys2Proof/Laws/Links.lean ====
section
/-! SUPPORT. The laws that link the queue with the column buffers, the entry in hand and the stage (R26, R56, R158): each
operation, and each block that acts, keeps them. -/

namespace Sys2Proof.Machine

/-! ## The entry in hand -/

/-- The entry in hand stays sound while the front entry stays, or stays a line that is not ACTIVE, and images IN USE stay. -/
theorem InHandSound.mono {x : Option InHand} {q q' : Queue} {b b' : Buffers} (h : InHandSound x q b)
    (hf : ∀ e, frontEntry q = some e → frontEntry q' = some e ∨
      ∃ hd ps st ps' st', e = .line hd ps st ∧ (∀ n, st ≠ .active n) ∧ frontEntry q' = some (.line hd ps' st') ∧
        ∀ n, st' ≠ .active n)
    (hb : ∀ n img, b.get n = .inUse img → b'.get n = .inUse img) (hn : NoActive q → NoActive q') :
    InHandSound x q' b' := by
  have active : ∀ test, FrontActive q b test → FrontActive q' b' test := by
    rintro test ⟨hd, ps, n, img, h1, h2, h3⟩
    rcases hf _ h1 with k | ⟨_, _, _, _, _, k, k1, -⟩
    · exact ⟨hd, ps, n, img, k, hb n img h2, h3⟩
    · injection k with _ _ k
      exact absurd k.symm (k1 n)
  match x, h with
  | none, h => exact hn h
  | some .notBuilt, h =>
    obtain ⟨hd, ps, st, h1, h2⟩ := h
    rcases hf _ h1 with k | ⟨_, _, _, ps', st', -, -, k, k2⟩
    · exact ⟨hd, ps, st, k, h2⟩
    · exact ⟨_, ps', st', k, k2⟩
  | some .marker, h =>
    rcases h with ⟨l, z, h1⟩ | ⟨d, g, e, r, h1⟩
    · rcases hf _ h1 with k | ⟨_, _, _, _, _, k, -⟩
      · exact .inl ⟨l, z, k⟩
      · cases k
    · rcases hf _ h1 with k | ⟨_, _, _, _, _, k, -⟩
      · exact .inr ⟨d, g, e, r, k⟩
      · cases k
  | some (.advance _), h =>
    obtain ⟨m, c, h1⟩ := h
    rcases hf _ h1 with k | ⟨_, _, _, _, _, k, -⟩
    · exact ⟨m, c, k⟩
    · cases k
  | some (.lineDue _ _), h => exact active (· ≠ none) h
  | some (.linePass _ _ _), h => exact active (· ≠ none) h
  | some (.lineFeed _), h => exact active (· = none) h

/-- With a line in hand that is not ACTIVE, or another kind of entry, no line is ACTIVE. -/
theorem noActive_of_inHand {x : Option InHand} {q : Queue} {b : Buffers} (hl : LinesSound q b) (h : InHandSound x q b)
    (hx : ∀ y, x = some y → y.isActive = false) : NoActive q := by
  have key : ∀ e, frontEntry q = some e → e.isActive = false → NoActive q := by
    intro e he ha d hd
    by_contra hc
    obtain ⟨j, hj⟩ := mem_iff_getElem?.mp hd
    have h1 := hl.active_front hj (by simpa using hc)
    rw [h1.frontEntry] at he
    injection he with he
    subst he
    exact hc ha
  match x, h with
  | none, h => exact h
  | some .notBuilt, ⟨hd, ps, st, h1, h2⟩ =>
    refine key _ h1 ?_
    cases st <;> first | rfl | exact absurd rfl (h2 _)
  | some .marker, .inl ⟨l, z, h1⟩ => exact key _ h1 rfl
  | some .marker, .inr ⟨d, g, e, r, h1⟩ => exact key _ h1 rfl
  | some (.advance _), ⟨m, c, h1⟩ => exact key _ h1 rfl
  | some (.lineDue _ _), _ => cases hx _ rfl
  | some (.linePass _ _ _), _ => cases hx _ rfl
  | some (.lineFeed _), _ => cases hx _ rfl

/-! ## The stage -/

/-- The entry is a commit marker. -/
def Entry.isCommit : Entry → Bool
  | .commit _ _ => true
  | _ => false

theorem Entry.commit_of {e : Entry} (h : e.isCommit = true) : ∃ id page, e = .commit id page := by
  cases e <;> first | exact ⟨_, _, rfl⟩ | cases h

/-- The same law for another queue with the same commit markers, told by their places. -/
theorem StageSound.move {q q' : Queue} {g : Stage} {t : Tables} (h : StageSound q g t) (f : Nat → Nat)
    (hinj : ∀ i j, f i = f j → (∃ d, q'.entries[i]? = some d) → (∃ d, q'.entries[j]? = some d) → i = j)
    (hto : ∀ (i : Nat) (id : TableId) (p : Nat), q'.entries[i]? = some (.commit id p) →
      q.entries[f i]? = some (.commit id p))
    (hfrom : ∀ (id : TableId) (p : Nat), Entry.commit id p ∈ q.entries → Entry.commit id p ∈ q'.entries) :
    StageSound q' g t where
  tables := h.tables
  binding := h.binding
  holds := by
    intro id page hm
    obtain ⟨i, hi⟩ := mem_iff_getElem?.mp hm
    exact h.holds id page (mem_iff_getElem?.mpr ⟨_, hto i id page hi⟩)
  once := by
    intro i j id id' p p' hi hj
    exact hinj i j (h.once _ _ id id' p p' (hto i id p hi) (hto j id' p' hj)) ⟨_, hi⟩ ⟨_, hj⟩
  held := fun b hb => hfrom _ _ (h.held b hb)

theorem StageSound.set {q : Queue} {g : Stage} {t : Tables} (h : StageSound q g t) {i : Nat} {e e' : Entry} {c : Nat}
    (hi : q.entries[i]? = some e) (he : e.isCommit = false) (he' : e'.isCommit = false) :
    StageSound { entries := q.entries.set i e', cursor := c } g t := by
  refine h.move id (fun _ _ hf _ _ => hf) ?_ ?_
  · intro j id p hj
    rcases getElem?_set_cases hj with ⟨-, hj⟩ | ⟨-, hj⟩
    · rw [← hj] at he'; cases he'
    · exact hj
  · intro id p hm
    obtain ⟨j, hj⟩ := mem_iff_getElem?.mp hm
    refine mem_iff_getElem?.mpr ⟨j, ?_⟩
    have : i ≠ j := by
      rintro rfl
      rw [hi] at hj
      injection hj with hj
      rw [hj] at he; cases he
    show (q.entries.set i e')[j]? = _
    rw [List.getElem?_set_ne this]
    exact hj

theorem StageSound.append {q : Queue} {g : Stage} {t : Tables} (h : StageSound q g t) {e : Entry} {c : Nat}
    (he : e.isCommit = false) : StageSound { entries := q.entries ++ [e], cursor := c } g t := by
  refine h.move id (fun _ _ hf _ _ => hf) ?_ fun id p hm => List.mem_append.mpr (.inl hm)
  intro j id p hj
  have hj : (q.entries ++ [e])[j]? = _ := hj
  by_cases hl : j < q.entries.length
  · rwa [List.getElem?_append_left hl] at hj
  · rw [List.getElem?_append_right (by omega)] at hj
    have := List.mem_singleton.mp (List.mem_of_getElem? hj)
    rw [← this] at he; cases he

theorem StageSound.erase {q : Queue} {g : Stage} {t : Tables} (h : StageSound q g t) {i : Nat} {e : Entry} {c : Nat}
    (hi : q.entries[i]? = some e) (he : e.isCommit = false) :
    StageSound { entries := q.entries.eraseIdx i, cursor := c } g t := by
  refine h.move (fun j => if j < i then j else j + 1) ?_ (fun j id p hj => getElem?_erase hj) ?_
  · intro j k hf _ _
    split at hf <;> split at hf <;> omega
  · intro id p hm
    obtain ⟨j, hj⟩ := mem_iff_getElem?.mp hm
    refine mem_iff_getElem?.mpr ⟨_, erase_getElem? hj ?_⟩
    rintro rfl
    rw [hi] at hj
    injection hj with hj
    rw [hj] at he; cases he

theorem StageSound.no_commit {q : Queue} {g : Stage} {t : Tables} (h : StageSound q g t) (hg : ∀ b, g ≠ .held b) :
    ∀ (id : TableId) (p : Nat), Entry.commit id p ∉ q.entries := by
  intro id p hm
  obtain ⟨b, hb, -⟩ := h.holds id p hm
  exact hg b hb

/-- With no commit marker in the queue, any stage that is not HELD. -/
theorem StageSound.of_no_commit {q : Queue} {g : Stage} {t : Tables} (ht : TablesSound t)
    (hb : ∀ b, g.binding = some b → b.sound) (hg : ∀ b, g ≠ .held b)
    (hq : ∀ (id : TableId) (p : Nat), Entry.commit id p ∉ q.entries) : StageSound q g t where
  tables := ht
  binding := hb
  holds := fun id p hm => absurd hm (hq id p)
  once := fun i _ id _ p _ hi _ => absurd (mem_iff_getElem?.mpr ⟨i, hi⟩) (hq id p)
  held := fun b hb => absurd hb (hg b)

/-- The commit marker at a place is removed with the stage EMPTY. -/
theorem StageSound.erase_commit {q : Queue} {g : Stage} {t u : Tables} (h : StageSound q g t) {i : Nat} {id : TableId}
    {p : Nat} {c : Nat} (hi : q.entries[i]? = some (.commit id p)) (hu : TablesSound u) :
    StageSound { entries := q.entries.eraseIdx i, cursor := c } .empty u := by
  refine StageSound.of_no_commit hu nofun nofun fun id' p' hm => ?_
  obtain ⟨j, hj⟩ := mem_iff_getElem?.mp hm
  have := h.once _ _ _ _ _ _ hi (getElem?_erase hj)
  split at this <;> omega

/-- A COMMIT joins the queue and the stage is HELD (R56). -/
theorem StageSound.append_commit {q : Queue} {b : Binding} {t : Tables} (h : StageSound q (.bound b) t) {c : Nat} :
    StageSound { entries := q.entries ++ [.commit b.table b.page], cursor := c } (.held b) t where
  tables := h.tables
  binding := fun x hx => h.binding x hx
  holds := by
    intro id p hm
    rcases List.mem_append.mp hm with hm | hm
    · exact absurd hm (h.no_commit nofun id p)
    · have := List.mem_singleton.mp hm
      injection this with h1 h2
      exact ⟨b, rfl, h1.symm, h2.symm⟩
  once := by
    have key : ∀ (j : Nat) (id : TableId) (p : Nat), (q.entries ++ [.commit b.table b.page])[j]? = some (.commit id p) →
        j = q.entries.length := by
      intro j id p hj
      by_cases hl : j < q.entries.length
      · rw [List.getElem?_append_left hl] at hj
        exact absurd (mem_iff_getElem?.mpr ⟨j, hj⟩) (h.no_commit nofun id p)
      · have := lt_of_getElem? hj
        simp at this
        omega
    intro i j id id' p p' hi hj
    rw [key i id p hi, key j id' p' hj]
  held := by
    intro x hx
    injection hx with hx
    subst hx
    exact List.mem_append.mpr (.inr (List.mem_singleton.mpr rfl))

/-! ## The three laws together -/

/-- The laws that link the queue with the column buffers, the entry in hand and the stage. -/
structure Linked (s : State) : Prop where
  lines  : LinesSound s.queue s.buffers
  inHand : InHandSound s.run.inHand s.queue s.buffers
  stage  : StageSound s.queue s.stage s.tables

/-- Nothing that the laws speak of has changed. -/
theorem Linked.of_eq {s t : State} (h : Linked s) (h1 : t.queue = s.queue) (h2 : t.buffers = s.buffers)
    (h3 : t.run.inHand = s.run.inHand) (h4 : t.stage = s.stage) (h5 : t.tables = s.tables) : Linked t where
  lines := by rw [h1, h2]; exact h.lines
  inHand := by rw [h1, h2, h3]; exact h.inHand
  stage := by rw [h1, h4, h5]; exact h.stage

theorem latch_linked {c : Cause} {s : State} (h : Linked s) : Linked (latch c s) := h.of_eq rfl rfl rfl rfl rfl

theorem latchIf_linked {b : Bool} {c : Cause} {s : State} (h : Linked s) : Linked (latchIf b c s) := by
  unfold latchIf
  split
  · exact latch_linked h
  · exact h

theorem setWait_inHand (r : WaitReason) (s : State) : (setWait r s).run.inHand = s.run.inHand := by
  simp only [setWait, State.updRun_run]
  cases s.run.executor <;> rfl

theorem setWait_linked {r : WaitReason} {s : State} (h : Linked s) : Linked (setWait r s) :=
  h.of_eq rfl rfl (setWait_inHand r s) rfl rfl

/-- Run Control takes another entry in hand, or more of it. -/
theorem setInHand_linked {x : Option InHand} {s : State} (h : Linked s) (hx : InHandSound x s.queue s.buffers) :
    Linked (setInHand x s) := ⟨h.lines, hx, h.stage⟩

theorem updForms_linked {f : Forms → Forms} {s : State} (h : Linked s) : Linked (s.updForms f) :=
  h.of_eq rfl rfl rfl rfl rfl

theorem startStep_linked {s : State} (h : Linked s) : Linked (startStep s) := by
  unfold startStep
  split
  · split
    · exact updForms_linked h
    · exact h
  · exact h

theorem beginFeed_linked {p : Purpose} {d : FeedDir} {n : Nat} {s : State} (h : Linked s) :
    Linked (beginFeed p d n s) := startStep_linked (updForms_linked h)

theorem eject_linked {r : Nat} {s : State} (h : Linked s) : Linked (eject r s) :=
  beginFeed_linked (latch_linked (updForms_linked h))

theorem beginTearOff_linked {s : State} (h : Linked s) : Linked (beginTearOff s) :=
  beginFeed_linked (updForms_linked h)

theorem beginReturn_linked {s : State} (h : Linked s) : Linked (beginReturn s) := beginFeed_linked (updForms_linked h)

theorem enterNoForms_linked {s : State} (h : Linked s) : Linked (enterNoForms s) := latch_linked (updForms_linked h)

theorem abandonFeed_linked {test : Purpose → Bool} {s : State} (h : Linked s) : Linked (abandonFeed test s) := by
  unfold abandonFeed
  split
  · split
    · split <;> exact updForms_linked h
    · exact h
  · exact h

theorem applyGeometry_linked {d : Byte} {g e : BitVec 16} {r : Byte} {s : State} (h : Linked s) :
    Linked (applyGeometry d g e r s) := by
  unfold applyGeometry
  split
  · exact latch_linked h
  · exact h.of_eq rfl rfl rfl rfl rfl

/-! ## Entries -/

/-- The front entry of a queue whose entry `i`, not the front, is replaced or removed. -/
theorem noActive_of_subset {q q' : Queue} (h : ∀ e ∈ q'.entries, e ∈ q.entries) (k : NoActive q) : NoActive q' :=
  fun e he => k e (h e he)

/-- The cursor passes an entry that is not BUILDING. -/
theorem moveCursor_linked {s : State} (h : Linked s)
    (hc : ∀ (hd : LineHeader) (ps : List (List Byte)) (n : BufId),
      s.queue.entries[s.queue.cursor]? ≠ some (.line hd ps (.building n))) : Linked (moveCursor s) where
  lines := by
    refine h.lines.cursor_of (s.queue.cursor + 1) ?_
    intro i hd ps n hi
    have := h.lines.cursor i hd ps n hi
    subst this
    exact absurd hi (hc hd ps n)
  inHand := h.inHand.mono (fun e he => .inl he) (fun _ _ hb => hb) id
  stage := h.stage.move id (fun _ _ hf _ _ => hf) (fun _ _ _ hi => hi) fun _ _ hm => hm

theorem appendEntry_linked {e : Entry} {s : State} (h : Linked s) (he : e.buf = none) (hc : e.isCommit = false) :
    Linked (appendEntry e s) where
  lines := h.lines.append he
  inHand := by
    refine h.inHand.mono (fun d hd => ?_) (fun _ _ hb => hb) fun k d hd => ?_
    · obtain ⟨i, hi⟩ := frontEntry_eq_some.mp hd
      exact .inl hi.append.frontEntry
    · rcases List.mem_append.mp hd with hd | hd
      · exact k d hd
      · rw [List.mem_singleton.mp hd]
        by_contra hn
        obtain ⟨_, _, _, rfl⟩ := Entry.buf_of_active (by simpa using hn)
        cases he
  stage := h.stage.append hc

/-- An entry without a buffer is replaced by another. -/
theorem setEntry_linked {i : Nat} {e e' : Entry} {s : State} (h : Linked s) (hi : s.queue.entries[i]? = some e)
    (hb : e.buf = none) (hb' : e'.buf = none) (hc : e.isCommit = false) (hc' : e'.isCommit = false)
    (ha : e'.atFront = e.atFront)
    (hk : e' = e ∨ e.atFront = false ∨ (∃ hd ps st ps' st', e = .line hd ps st ∧ e' = .line hd ps' st') ∨
      s.run.inHand = none ∨ ∃ b p b' p', e = .settings b p ∧ e' = .settings b' p') :
    Linked (setEntry i e' s) where
  lines := h.lines.set_plain hi hb hb' (.inl ha)
  inHand := by
    have noAct : ∀ d : Entry, d.buf = none → d.isActive = false := by
      intro d hd
      by_contra hn
      obtain ⟨_, _, _, rfl⟩ := Entry.buf_of_active (by simpa using hn)
      cases hd
    have hna : NoActive s.queue → NoActive { s.queue with entries := s.queue.entries.set i e' } := by
      intro k d hd
      obtain ⟨j, hj⟩ := mem_iff_getElem?.mp hd
      rcases getElem?_set_cases hj with ⟨-, rfl⟩ | ⟨-, hj⟩
      · exact noAct _ hb'
      · exact k d (mem_iff_getElem?.mpr ⟨j, hj⟩)
    have front : ∀ d k, IsFront s.queue k d → k ≠ i →
        frontEntry { s.queue with entries := s.queue.entries.set i e' } = some d := by
      intro d k hd hk
      have := IsFront.set (c := s.queue.cursor) hi ha hd
      rw [if_neg hk] at this
      exact this.frontEntry
    have same : ∀ d, IsFront s.queue i d → d = e := by
      intro d hd
      have := hd.1.symm.trans hi
      simpa using this
    by_cases hx : s.run.inHand = none
    · show InHandSound s.run.inHand _ _
      rw [hx]
      have := h.inHand
      rw [hx] at this
      exact hna this
    rcases hk with rfl | hk | ⟨hd, ps, st, ps', st', rfl, rfl⟩ | hk | ⟨b, p, b', p', rfl, rfl⟩
    · refine h.inHand.mono (fun d hd => .inl ?_) (fun _ _ hb => hb) hna
      obtain ⟨k, hk⟩ := frontEntry_eq_some.mp hd
      by_cases hki : k = i
      · subst hki
        have hs := same d hk
        subst hs
        have := IsFront.set (c := s.queue.cursor) hi ha hk
        rw [if_pos rfl] at this
        exact this.frontEntry
      · exact front d k hk hki
    · refine h.inHand.mono (fun d hd => .inl ?_) (fun _ _ hb => hb) hna
      obtain ⟨k, hk'⟩ := frontEntry_eq_some.mp hd
      refine front d k hk' ?_
      rintro rfl
      have hs := same d hk'
      subst hs
      rw [hk'.2.1] at hk
      cases hk
    · refine h.inHand.mono (fun d hd => ?_) (fun _ _ hb => hb) hna
      obtain ⟨k, hk⟩ := frontEntry_eq_some.mp hd
      by_cases hki : k = i
      · subst hki
        have hs := same d hk
        subst hs
        have := IsFront.set (c := s.queue.cursor) hi ha hk
        rw [if_pos rfl] at this
        refine .inr ⟨_, _, _, ps', st', rfl, ?_, this.frontEntry, ?_⟩
        · rintro n rfl; cases hb
        · rintro n rfl; cases hb'
      · exact .inl (front d k hk hki)
    · exact absurd hk hx
    · -- a settings marker at the front is in nobody's hand
      have notFront : ∀ d, frontEntry s.queue = some d → ∀ b p, d ≠ .settings b p := by
        intro d hd b p hdp
        subst hdp
        have := h.inHand
        match hy : s.run.inHand, this with
        | none, _ => exact hx hy
        | some .notBuilt, ⟨_, _, _, k, _⟩ => rw [hd] at k; cases k
        | some .marker, .inl ⟨_, _, k⟩ => rw [hd] at k; cases k
        | some .marker, .inr ⟨_, _, _, _, k⟩ => rw [hd] at k; cases k
        | some (.advance _), ⟨_, _, k⟩ => rw [hd] at k; cases k
        | some (.lineDue _ _), ⟨_, _, _, _, k, _⟩ => rw [hd] at k; cases k
        | some (.linePass _ _ _), ⟨_, _, _, _, k, _⟩ => rw [hd] at k; cases k
        | some (.lineFeed _), ⟨_, _, _, _, k, _⟩ => rw [hd] at k; cases k
      refine h.inHand.mono (fun d hd => .inl ?_) (fun _ _ hb => hb) hna
      obtain ⟨k, hk⟩ := frontEntry_eq_some.mp hd
      refine front d k hk ?_
      rintro rfl
      exact notFront d hd b p (same d hk)
  stage := h.stage.set hi hc hc'

/-- An entry that is not the front, or with nothing in hand, is removed. -/
theorem InHandSound.erase {x : Option InHand} {q : Queue} {b : Buffers} (h : InHandSound x q b) (hl : LinesSound q b)
    {i : Nat} {e : Entry} {c : Nat} (hi : q.entries[i]? = some e) (hf : x = none ∨ ¬IsFront q i e) :
    InHandSound x { entries := q.entries.eraseIdx i, cursor := c } (freeBufferOf e b) := by
  have hna : NoActive q → NoActive { entries := q.entries.eraseIdx i, cursor := c } :=
    noActive_of_subset fun d hd => List.mem_of_mem_eraseIdx hd
  rcases hf with rfl | hf
  · exact hna h
  have hfree : ∀ n, e.buf = some n → ∀ img, b.get n ≠ .inUse img := by
    intro n hn img himg
    have hfit := hl.fits e (mem_iff_getElem?.mpr ⟨i, hi⟩)
    cases e with
    | line hd ps st =>
      cases st with
      | building m => cases hn; obtain ⟨_, k⟩ := hfit; rw [himg] at k; cases k
      | built m => cases hn; obtain ⟨_, k⟩ := hfit; rw [himg] at k; cases k
      | active m => exact hf (hl.active_front hi rfl)
      | _ => cases hn
    | _ => cases hn
  refine h.mono (fun d hd => .inl ?_) (fun n img hb => ?_) hna
  · obtain ⟨k, hk⟩ := frontEntry_eq_some.mp hd
    refine (hk.erase ?_).frontEntry
    rintro rfl
    have := hk.1.symm.trans hi
    injection this with this
    subst this
    exact hf hk
  · unfold freeBufferOf
    cases hb' : e.buf with
    | none => exact hb
    | some m =>
      dsimp only
      rw [Buffers.get_set_of_ne]
      · exact hb
      · rintro rfl
        exact hfree m hb' img hb

/-- The same of the state; the entry is no commit marker. -/
theorem removeAt_linked {i : Nat} {e : Entry} {s : State} (h : Linked s) (hi : s.queue.entries[i]? = some e)
    (hc : e.isCommit = false) (hf : s.run.inHand = none ∨ ¬IsFront s.queue i e) : Linked (removeAt i s) := by
  have hr : removeAt i s = (s.updBuffers (freeBufferOf e)).updQueue fun q =>
      { entries := q.entries.eraseIdx i, cursor := if i < q.cursor then q.cursor - 1 else q.cursor } := by
    simp [removeAt, hi]
  rw [hr]
  exact ⟨h.lines.erase hi, h.inHand.erase h.lines hi hf, h.stage.erase hi hc⟩

theorem latchDrained_linked {s : State} (h : Linked s) : Linked (latchDrained s) := latchIf_linked h

/-! ## The tables -/

theorem length_toBytes (v n : Nat) : (toBytes v n).length = n := by
  induction n with
  | zero => rfl
  | succ n ih => simp [toBytes, ih]

theorem length_clampCodeMap (p : Page) : (clampCodeMap p).length = 128 := by
  simp [clampCodeMap, List.length_flatMap, length_toBytes]

theorem length_clampGlyph (p : Page) : (clampGlyph p).length = 38 := by
  simp [clampGlyph, List.length_flatMap, maskBytes, length_toBytes]

theorem length_clampStrike (p : Page) : (clampStrike p).length = 32 := by simp [clampStrike]

theorem length_clampProfile {p : Page} (h : p.length = 403) (hr : pageRampLen p ≤ 200) : (clampProfile p).length = 403 := by
  simp only [clampProfile, List.length_append, List.length_take, List.length_replicate]
  omega

theorem mem_set_imp {α : Type} {l : List α} {i : Nat} {a b : α} (h : b ∈ l.set i a) : b = a ∨ b ∈ l := by
  obtain ⟨j, hj⟩ := List.mem_iff_getElem?.mp h
  by_cases hji : i = j
  · subst hji
    by_cases hl : i < l.length
    · rw [List.getElem?_set_self hl] at hj
      injection hj with hj
      exact .inl hj.symm
    · rw [List.getElem?_eq_none (by simpa using hl)] at hj
      cases hj
  · rw [List.getElem?_set_ne hji] at hj
    exact .inr (List.mem_iff_getElem?.mpr ⟨j, hj⟩)

/-- A page made live keeps the sizes of the pages (R40, R57). -/
theorem makeLive_tables {b : Binding} {s : State} (hb : b.sound) (h : TablesSound s.tables) :
    TablesSound (makeLive b.table b.page b.bytes s).tables := by
  obtain ⟨h1, h2, h3, h4, h5, h6, h7⟩ := h
  obtain ⟨g1, g2, g3, g4⟩ := hb
  obtain ⟨id, page, cursor, bytes⟩ := b
  cases id with
  | codeMap =>
    refine ⟨by simpa [makeLive, setLivePage] using h1, ?_, h3, h4, h5, h6, h7⟩
    intro p hp
    rcases mem_set_imp hp with rfl | hp
    · exact length_clampCodeMap _
    · exact h2 p hp
  | glyphs =>
    refine ⟨h1, h2, by simpa [makeLive, setLivePage] using h3, ?_, h5, h6, h7⟩
    intro p hp
    rcases mem_set_imp hp with rfl | hp
    · exact length_clampGlyph _
    · exact h4 p hp
  | strike => exact ⟨h1, h2, h3, h4, length_clampStrike _, h6, h7⟩
  | profile =>
    unfold makeLive
    dsimp only
    split
    · rename_i hv
      refine ⟨h1, h2, h3, h4, h5, by simpa [setLivePage] using h6, ?_⟩
      intro p hp
      rcases mem_set_imp hp with rfl | hp
      · refine length_clampProfile g3 ?_
        simp only [profileValid, Bool.and_eq_true, decide_eq_true_eq] at hv
        exact hv.1.1.1.1.2.2
      · exact h7 p hp
    · exact ⟨h1, h2, h3, h4, h5, h6, h7⟩

/-- A commit marker is applied and removed, with nothing in hand or away from the front (R28, R57). -/
theorem commitRemoved_linked {i page : Nat} {id : TableId} {s : State} (h : Linked s)
    (hi : s.queue.entries[i]? = some (.commit id page))
    (hf : s.run.inHand = none ∨ ¬IsFront s.queue i (.commit id page)) :
    Linked (latchDrained (removeAt i (applyCommit id page s))) := by
  apply latchDrained_linked
  obtain ⟨b, hb, rfl, rfl⟩ := h.stage.holds id page (mem_iff_getElem?.mpr ⟨i, hi⟩)
  have hbs := h.stage.binding b (by rw [hb]; rfl)
  have ht := makeLive_tables hbs h.stage.tables
  have hm : ∀ (x : TableId) (n : Nat) (p : Page), (makeLive x n p s).buffers = s.buffers ∧
      (makeLive x n p s).run.inHand = s.run.inHand := by
    intro x n p
    cases x with
    | profile => unfold makeLive; dsimp only; split <;> exact ⟨rfl, rfl⟩
    | _ => exact ⟨rfl, rfl⟩
  have ha : applyCommit b.table b.page s = (makeLive b.table b.page b.bytes s).setStage .empty := by
    simp [applyCommit, hb, Stage.binding]
  have hq : (applyCommit b.table b.page s).queue = s.queue := applyCommit_queue _ _ _
  have hr : removeAt i (applyCommit b.table b.page s) =
      ((applyCommit b.table b.page s).updBuffers (freeBufferOf (.commit b.table b.page))).updQueue fun q =>
        { entries := q.entries.eraseIdx i, cursor := if i < q.cursor then q.cursor - 1 else q.cursor } := by
    unfold removeAt
    rw [hq, hi]
  rw [hr, ha]
  have hq' : ((makeLive b.table b.page b.bytes s).setStage .empty).queue = s.queue := by rw [← ha]; exact hq
  have hb' : ((makeLive b.table b.page b.bytes s).setStage .empty).buffers = s.buffers := (hm _ _ _).1
  have hx : ((makeLive b.table b.page b.bytes s).setStage .empty).run.inHand = s.run.inHand := (hm _ _ _).2
  generalize hu : (makeLive b.table b.page b.bytes s).setStage .empty = u at hq' hb' hx
  have hut : u.tables = (makeLive b.table b.page b.bytes s).tables ∧ u.stage = .empty := by rw [← hu]; exact ⟨rfl, rfl⟩
  refine ⟨?_, ?_, ?_⟩
  · show LinesSound (Queue.mk (u.queue.entries.eraseIdx i) (if i < u.queue.cursor then u.queue.cursor - 1 else u.queue.cursor))
      u.buffers
    rw [hq', hb']
    exact h.lines.erase hi
  · show InHandSound u.run.inHand (Queue.mk (u.queue.entries.eraseIdx i) _) u.buffers
    rw [hq', hb', hx]
    exact h.inHand.erase h.lines hi hf
  · show StageSound (Queue.mk (u.queue.entries.eraseIdx i) _) u.stage u.tables
    rw [hq', hut.1, hut.2]
    exact h.stage.erase_commit hi ht

/-! ## Run Control leaves the front entry -/

theorem InHandSound.front {x : InHand} {q : Queue} {b : Buffers} (h : InHandSound (some x) q b) :
    ∃ i e, IsFront q i e ∧ e.isCommit = false := by
  have key : ∀ e, frontEntry q = some e → e.isCommit = false → ∃ i e, IsFront q i e ∧ e.isCommit = false := by
    intro e he hc
    obtain ⟨i, hi⟩ := frontEntry_eq_some.mp he
    exact ⟨i, e, hi, hc⟩
  match x, h with
  | .notBuilt, ⟨_, _, _, h1, _⟩ => exact key _ h1 rfl
  | .marker, .inl ⟨_, _, h1⟩ => exact key _ h1 rfl
  | .marker, .inr ⟨_, _, _, _, h1⟩ => exact key _ h1 rfl
  | .advance _, ⟨_, _, h1⟩ => exact key _ h1 rfl
  | .lineDue _ _, ⟨_, _, _, _, h1, _⟩ => exact key _ h1 rfl
  | .linePass _ _ _, ⟨_, _, _, _, h1, _⟩ => exact key _ h1 rfl
  | .lineFeed _, ⟨_, _, _, _, h1, _⟩ => exact key _ h1 rfl

/-- With the front removed, no line is ACTIVE. -/
theorem LinesSound.noActive_erase {q : Queue} {b : Buffers} (h : LinesSound q b) {i : Nat} {e : Entry} {c : Nat}
    (hi : IsFront q i e) : NoActive { entries := q.entries.eraseIdx i, cursor := c } := by
  intro d hd
  by_contra hc
  obtain ⟨j, hj⟩ := mem_iff_getElem?.mp hd
  have := (IsFront.unique hi (h.active_front (getElem?_erase hj) (by simpa using hc))).1
  split at this <;> omega

/-- The front entry in hand is removed, and nothing is in hand any more. -/
theorem removeFront_linked {s t : State} {x : InHand} (h : Linked s) (hx : s.run.inHand = some x)
    (h1 : t.queue = (removeFront s).queue) (h2 : t.buffers = (removeFront s).buffers) (h3 : t.run.inHand = none)
    (h4 : t.stage = s.stage) (h5 : t.tables = s.tables) : Linked t := by
  have hs := h.inHand
  rw [hx] at hs
  obtain ⟨i, e, hi, hc⟩ := hs.front
  have hr : removeFront s = latchDrained ((s.updBuffers (freeBufferOf e)).updQueue fun q =>
      { entries := q.entries.eraseIdx i, cursor := if i < q.cursor then q.cursor - 1 else q.cursor }) := by
    simp [removeFront, hi.frontIndex, removeAt, hi.1]
  have hq : (removeFront s).queue =
      { entries := s.queue.entries.eraseIdx i,
        cursor := if i < s.queue.cursor then s.queue.cursor - 1 else s.queue.cursor } := by
    rw [hr]; unfold latchDrained latchIf; split <;> rfl
  have hb : (removeFront s).buffers = freeBufferOf e s.buffers := by
    rw [hr]; unfold latchDrained latchIf; split <;> rfl
  refine ⟨?_, ?_, ?_⟩
  · rw [h1, h2, hq, hb]; exact h.lines.erase hi.1
  · rw [h1, h2, h3, hq]; exact h.lines.noActive_erase hi
  · rw [h1, h4, h5, hq]; exact h.stage.erase hi.1 hc

theorem removeFront_stage (s : State) : (removeFront s).stage = s.stage ∧ (removeFront s).tables = s.tables := by
  unfold removeFront
  split
  · unfold latchDrained latchIf removeAt
    repeat' split
    all_goals exact ⟨rfl, rfl⟩
  · exact ⟨rfl, rfl⟩

/-- The front entry is finished: removed, with nothing in hand any more. -/
theorem finishEntry_linked {s : State} {x : InHand} (h : Linked s) (hx : s.run.inHand = some x) :
    Linked (finishEntry s) :=
  removeFront_linked h hx rfl rfl rfl (removeFront_stage s).1 (removeFront_stage s).2

theorem leaveEntry_linked {s : State} (h : Linked s) (hn : NoActive s.queue) : Linked (leaveEntry s) :=
  ⟨h.lines, hn, h.stage⟩

theorem enterReady_linked {s : State} (h : Linked s) : Linked (enterReady s) := h.of_eq rfl rfl rfl rfl rfl

/-! ## What follows an event -/

theorem feedComplete_linked {p : Purpose} {s : State} (h : Linked s) : Linked (feedComplete p s) := by
  unfold feedComplete
  split
  · exact finishEntry_linked h ‹_›
  · rename_i hx
    refine setInHand_linked h ?_
    have := h.inHand; rw [hx] at this; exact this
  · exact finishEntry_linked h ‹_›
  · exact finishEntry_linked h ‹_›
  · rename_i hx
    refine setInHand_linked h ?_
    have := h.inHand; rw [hx] at this; exact this
  · exact h

theorem tearEnded_linked {s : State} (h : Linked s) : Linked (tearEnded s) := by
  unfold tearEnded
  split
  · exact finishEntry_linked h ‹_›
  · exact h

theorem endFeed_linked {p : Purpose} {s : State} (h : Linked s) : Linked (endFeed p s) := by
  unfold endFeed
  split
  · exact tearEnded_linked (updForms_linked h)
  · exact updForms_linked h
  · split
    · exact updForms_linked (updForms_linked h)
    · exact enterNoForms_linked h
  · exact enterNoForms_linked h
  · exact feedComplete_linked (updForms_linked h)

theorem feedEnds_linked {s t : State} (h : Linked s) (ht : feedEnds s = some t) : Linked t := by
  unfold feedEnds at ht
  split at ht
  · split at ht
    · cases ht; exact endFeed_linked h
    · cases ht
  · cases ht

theorem not_front {q : Queue} {i : Nat} {e : Entry} (h : e.atFront = false) : ¬IsFront q i e := by
  intro k
  rw [k.2.1] at h
  cases h

theorem startBuild_linked {b : BufId} {hd : LineHeader} {ps : List (List Byte)} {s : State} (h : Linked s)
    (hi : s.queue.entries[s.queue.cursor]? = some (.line hd ps .complete)) (hb : s.buffers.get b = .free) :
    Linked (startBuild s.queue.cursor b hd ps s) where
  lines := h.lines.set_building hi rfl hb
  inHand := by
    refine h.inHand.mono (fun d hd' => ?_) (fun n img hn => ?_) fun k d hd' => ?_
    · obtain ⟨k, hk⟩ := frontEntry_eq_some.mp hd'
      have := IsFront.set (c := s.queue.cursor) (e' := .line hd ps (.building b)) hi rfl hk
      by_cases hki : k = s.queue.cursor
      · rw [if_pos hki] at this
        subst hki
        have he := hk.1.symm.trans hi
        injection he with he
        subst he
        exact .inr ⟨_, _, _, _, _, rfl, nofun, this.frontEntry, nofun⟩
      · rw [if_neg hki] at this
        exact .inl this.frontEntry
    · show (s.buffers.set b _).get n = _
      rw [Buffers.get_set_of_ne]
      · exact hn
      · rintro rfl
        rw [hb] at hn; cases hn
    · obtain ⟨j, hj⟩ := mem_iff_getElem?.mp hd'
      rcases getElem?_set_cases hj with ⟨-, rfl⟩ | ⟨-, hj⟩
      · rfl
      · exact k d (mem_iff_getElem?.mpr ⟨j, hj⟩)
  stage := h.stage.set hi rfl rfl

theorem builderStep_linked {s t : State} (h : Linked s) (ht : builderStep s = some t) : Linked t := by
  unfold builderStep at ht
  dsimp only at ht
  have hs : ∀ p, Linked (s.updSettings (applyBuildPart p)) := fun p => h.of_eq rfl rfl rfl rfl rfl
  split at ht
  · cases ht
  · cases ht; exact commitRemoved_linked h ‹_› (.inr (not_front rfl))
  · cases ht; exact commitRemoved_linked h ‹_› (.inr (not_front rfl))
  · rename_i hi; cases ht; exact moveCursor_linked h (by rw [hi]; exact nofun)
  · cases ht
  · rename_i p hi
    cases ht
    exact latchDrained_linked (removeAt_linked (hs p) hi rfl (.inr (not_front rfl)))
  · rename_i p q hi
    cases ht
    have := setEntry_linked (i := s.queue.cursor) (e' := .settings none (some q)) (hs p) hi rfl rfl rfl rfl rfl
      (.inr (.inr (.inr (.inr ⟨_, _, _, _, rfl, rfl⟩))))
    refine moveCursor_linked this ?_
    intro hd ps n hc
    rcases getElem?_set_cases hc with ⟨-, hc⟩ | ⟨hc, -⟩
    · cases hc
    · exact hc rfl
  · rename_i hi; cases ht; exact moveCursor_linked h (by rw [hi]; exact nofun)
  · rename_i hi; cases ht; exact moveCursor_linked h (by rw [hi]; exact nofun)
  · rename_i hi; cases ht; exact moveCursor_linked h (by rw [hi]; exact nofun)
  · rename_i hi; cases ht; exact moveCursor_linked h (by rw [hi]; exact nofun)
  · rename_i hi
    rw [Option.map_eq_some_iff] at ht
    obtain ⟨b, hb, rfl⟩ := ht
    exact startBuild_linked h hi (Buffers.firstFree_free hb)
  · cases ht
  · cases ht
  · rename_i hi; cases ht; exact moveCursor_linked h (by rw [hi]; exact nofun)
  · rename_i hi; cases ht; exact moveCursor_linked h (by rw [hi]; exact nofun)

/-- An entry replaced by the same line further on in the same buffer: from BUILDING to BUILT. -/
theorem endBuild_linked {hd : LineHeader} {ps : List (List Byte)} {b : BufId} {inp : BuildInputs} {r : BuildResult}
    {s : State} (h : Linked s) (hp : buildInProgress s = some (hd, ps, b, inp)) : Linked (endBuild hd ps b r s) := by
  have hi : s.queue.entries[s.queue.cursor]? = some (.line hd ps (.building b)) ∧ s.buffers.get b = .filling inp := by
    unfold buildInProgress at hp
    split at hp
    · split at hp
      · cases hp; exact ⟨‹_›, ‹_›⟩
      · cases hp
    · cases hp
  obtain ⟨hi, hb⟩ := hi
  have hq : (endBuild hd ps b r s).queue =
      { entries := s.queue.entries.set s.queue.cursor (.line hd ps (.built b)), cursor := s.queue.cursor + 1 } ∧
      (endBuild hd ps b r s).buffers = s.buffers.set b (.ready r.image) ∧
      (endBuild hd ps b r s).run.inHand = s.run.inHand ∧ (endBuild hd ps b r s).stage = s.stage ∧
      (endBuild hd ps b r s).tables = s.tables := by
    unfold endBuild latchIf
    dsimp only
    split <;> split <;> exact ⟨rfl, rfl, rfl, rfl, rfl⟩
  obtain ⟨q1, q2, q3, q4, q5⟩ := hq
  have base := h.lines.set_held (b := s.buffers) (st' := .built b) (v := .ready r.image) hi rfl rfl
    ⟨r.image, Buffers.get_set_self _ _ _⟩ nofun nofun
  refine ⟨?_, ?_, ?_⟩
  · rw [q1, q2]
    refine base.cursor_of (s.queue.cursor + 1) ?_
    intro i hd' ps' n hn
    exfalso
    rcases getElem?_set_cases hn with ⟨-, hn⟩ | ⟨hne, hn⟩
    · cases hn
    · exact hne (h.lines.cursor i hd' ps' n hn)
  · rw [q1, q2, q3]
    refine h.inHand.mono (fun d hd' => ?_) (fun n img hn => ?_) fun k d hd' => ?_
    · obtain ⟨k, hk⟩ := frontEntry_eq_some.mp hd'
      have := IsFront.set (c := s.queue.cursor + 1) (e' := .line hd ps (.built b)) hi rfl hk
      by_cases hki : k = s.queue.cursor
      · rw [if_pos hki] at this
        subst hki
        have he := hk.1.symm.trans hi
        injection he with he
        subst he
        exact .inr ⟨_, _, _, _, _, rfl, nofun, this.frontEntry, nofun⟩
      · rw [if_neg hki] at this
        exact .inl this.frontEntry
    · rw [Buffers.get_set_of_ne]
      · exact hn
      · rintro rfl
        rw [hb] at hn; cases hn
    · obtain ⟨j, hj⟩ := mem_iff_getElem?.mp hd'
      rcases getElem?_set_cases hj with ⟨-, rfl⟩ | ⟨-, hj⟩
      · rfl
      · exact k d (mem_iff_getElem?.mpr ⟨j, hj⟩)
  · rw [q1, q4, q5]; exact h.stage.set hi rfl rfl

/-! ## Offers -/

theorem openTail_some {q : Queue} {hd : LineHeader} {ps : List (List Byte)} (h : openTail q = some (hd, ps)) :
    q.entries[q.entries.length - 1]? = some (.line hd ps .opened) := by
  unfold openTail at h
  rw [List.getLast?_eq_getElem?] at h
  split at h
  · cases h; assumption
  · cases h

theorem discardOpen_linked {s : State} (h : Linked s) (ho : (openTail s.queue).isSome = true) :
    Linked (discardOpen s) := by
  obtain ⟨⟨hd, ps⟩, ho⟩ := Option.isSome_iff_exists.mp ho
  have hi := openTail_some ho
  unfold discardOpen
  dsimp only
  split
  · rename_i hc
    obtain ⟨e, hf⟩ := frontIndex_eq_some.mp hc.1
    have hrf : removeFront s = latchDrained (removeAt (s.queue.entries.length - 1) s) := by
      simp [removeFront, hc.1]
    have e1 : (removeFront s).queue = (removeAt (s.queue.entries.length - 1) s).queue := by
      rw [hrf]; unfold latchDrained latchIf; split <;> rfl
    have e2 : (removeFront s).buffers = (removeAt (s.queue.entries.length - 1) s).buffers := by
      rw [hrf]; unfold latchDrained latchIf; split <;> rfl
    have e3 : (removeAt (s.queue.entries.length - 1) s).stage = s.stage ∧
        (removeAt (s.queue.entries.length - 1) s).tables = s.tables := by simp [removeAt, hi]
    exact removeFront_linked h hc.2 e1.symm e2.symm rfl e3.1 e3.2
  · rename_i hc
    refine latch_linked (removeAt_linked h hi rfl ?_)
    by_cases hx : s.run.inHand = none
    · exact .inl hx
    · refine .inr fun hf => ?_
      have hfi := hf.frontIndex
      have hfe := hf.frontEntry
      refine hc ⟨hfi, ?_⟩
      have := h.inHand
      match hy : s.run.inHand, this with
      | none, _ => exact absurd hy hx
      | some .notBuilt, _ => rfl
      | some .marker, .inl ⟨_, _, k⟩ => rw [hfe] at k; cases k
      | some .marker, .inr ⟨_, _, _, _, k⟩ => rw [hfe] at k; cases k
      | some (.advance _), ⟨_, _, k⟩ => rw [hfe] at k; cases k
      | some (.lineDue _ _), ⟨_, _, _, _, k, _⟩ => rw [hfe] at k; cases k
      | some (.linePass _ _ _), ⟨_, _, _, _, k, _⟩ => rw [hfe] at k; cases k
      | some (.lineFeed _), ⟨_, _, _, _, k, _⟩ => rw [hfe] at k; cases k

theorem discardOpenTail_linked {s : State} (h : Linked s) : Linked (discardOpenTail s) := by
  unfold discardOpenTail
  split
  · exact discardOpen_linked h ‹_›
  · exact h

theorem restartTearTimer_linked {s : State} (h : Linked s) : Linked (restartTearTimer s) := updForms_linked h

theorem admitEntry_linked {e : Entry} {s : State} (h : Linked s) (he : e.buf = none) (hc : e.isCommit = false) :
    Linked (admitEntry e s) := restartTearTimer_linked (appendEntry_linked h he hc)

theorem offerEntry_linked {e : Entry} {s : State} (h : Linked s) (he : e.buf = none) (hc : e.isCommit = false) :
    Linked (offerEntry e s).state := by
  unfold offerEntry
  split
  · exact admitEntry_linked h he hc
  · exact h

theorem offerFirst_linked {hd : LineHeader} {m : Bool} {r : List Byte} {s : State} (h : Linked s) :
    Linked (offerFirst hd m r s).state := by
  unfold offerFirst
  split
  · exact admitEntry_linked h (by cases m <;> rfl) rfl
  · exact h

theorem offerContinuation_linked {m : Bool} {r : List Byte} {s : State} (h : Linked s) :
    Linked (offerContinuation m r s).state := by
  unfold offerContinuation
  split
  · exact latch_linked h
  · rename_i hd ps ho
    split
    · exact discardOpen_linked h (by rw [ho]; rfl)
    · split
      · exact h
      · refine restartTearTimer_linked (setEntry_linked h (openTail_some ho) rfl ?_ rfl rfl rfl
          (.inr (.inr (.inl ⟨_, _, _, _, _, rfl, rfl⟩))))
        cases m <;> rfl

theorem offerCommit_linked {table page : Nat} {s : State} (h : Linked s) : Linked (offerCommit table page s).state := by
  unfold offerCommit
  split
  · split
    · rename_i b hm
      have hs : s.stage = .bound b := by
        unfold commitMatches at hm
        split at hm
        · split at hm
          · cases hm; assumption
          · cases hm
        · cases hm
      have hst := h.stage
      rw [hs] at hst
      refine restartTearTimer_linked (Linked.mk (h.lines.append rfl) ?_ hst.append_commit)
      refine h.inHand.mono (fun d hd => ?_) (fun _ _ hb => hb) fun k d hd => ?_
      · obtain ⟨i, hi⟩ := frontEntry_eq_some.mp hd
        exact .inl hi.append.frontEntry
      · rcases List.mem_append.mp hd with hd | hd
        · exact k d hd
        · rw [List.mem_singleton.mp hd]; rfl
    · exact latch_linked h
  · exact h

theorem offerSet_linked {f : SetFields} {s : State} (h : Linked s) : Linked (offerSet f s).state := by
  unfold offerSet
  split
  · exact restartTearTimer_linked h
  · exact offerEntry_linked h rfl rfl

theorem offerRecord_linked {r : QRecord} {s : State} (h : Linked s) : Linked (offerRecord r s).state := by
  cases r <;> simp only [offerRecord]
  · exact offerFirst_linked (discardOpenTail_linked h)
  · exact offerContinuation_linked h
  · exact offerEntry_linked (discardOpenTail_linked h) rfl rfl
  · exact offerCommit_linked (discardOpenTail_linked h)
  · exact offerSet_linked (discardOpenTail_linked h)
  · exact offerEntry_linked (discardOpenTail_linked h) rfl rfl
  · exact offerEntry_linked (discardOpenTail_linked h) rfl rfl

theorem offerStep_linked {s t : State} (h : Linked s) (ht : offerStep s = some t) : Linked t := by
  unfold offerStep at ht
  split at ht
  · cases ht
  · rename_i r rest hq
    have k := offerRecord_linked (r := r) h
    split at ht
    · rename_i u hu
      rw [hu] at k
      cases ht
      exact k.of_eq rfl rfl rfl rfl rfl
    · rename_i u hu
      rw [hu] at k
      split at ht
      · cases ht; exact k
      · cases ht

end Sys2Proof.Machine
end

