-- ==== Sys2Proof/Laws/LinkSteps.lean ====
section
/-! SUPPORT. Run Control, the working out of an event and the commands keep the laws that link the queue with the column
buffers, the entry in hand and the stage. -/

namespace Sys2Proof.Machine

/-! ## Run Control -/

/-- The entry in hand goes on with progress of the same kind. -/
theorem sameKind_linked {x y : InHand} {s u : State} (h : Linked u) (hx : s.run.inHand = some x)
    (hu : u.run.inHand = s.run.inHand)
    (hk : ∀ q b, InHandSound (some x) q b → InHandSound (some y) q b) : Linked (setInHand (some y) u) := by
  refine setInHand_linked h (hk _ _ ?_)
  have := h.inHand
  rw [hu, hx] at this
  exact this

theorem beginFeed_inHand (p : Purpose) (d : FeedDir) (n : Nat) (s : State) :
    (beginFeed p d n s).run.inHand = s.run.inHand := by
  unfold beginFeed startStep
  split
  · split <;> rfl
  · rfl

theorem setDrive_linked {d : Drive} {s : State} (h : Linked s) : Linked (setDrive d s) := h.of_eq rfl rfl rfl rfl rfl

theorem updPlanner_linked {f : Planner → Planner} {s : State} (h : Linked s) : Linked (s.updPlanner f) :=
  h.of_eq rfl rfl rfl rfl rfl

theorem updFiring_linked {f : Firing → Firing} {s : State} (h : Linked s) : Linked (s.updFiring f) :=
  h.of_eq rfl rfl rfl rfl rfl

theorem updHeat_linked {f : Heat → Heat} {s : State} (h : Linked s) : Linked (s.updHeat f) :=
  h.of_eq rfl rfl rfl rfl rfl

theorem updPins_linked {f : Pins → Pins} {s : State} (h : Linked s) : Linked (s.updPins f) :=
  h.of_eq rfl rfl rfl rfl rfl

theorem updCarriage_linked {f : Carriage → Carriage} {s : State} (h : Linked s) : Linked (s.updCarriage f) :=
  h.of_eq rfl rfl rfl rfl rfl

theorem updIntake_linked {f : Intake → Intake} {s : State} (h : Linked s) : Linked (s.updIntake f) :=
  h.of_eq rfl rfl rfl rfl rfl

/-- A change of Run Control that leaves the entry in hand. -/
theorem updRun_linked {f : RunControl → RunControl} {s : State} (h : Linked s) (hf : (f s.run).inHand = s.run.inHand) :
    Linked (s.updRun f) := h.of_eq rfl rfl hf rfl rfl

theorem startPass_linked {first : Bool} {n : Need} {hd : LineHeader} {img : Image} {p : Int} {s : State} (h : Linked s)
    (hx : s.run.inHand = some (.lineDue first n)) : Linked (startPass first hd img p s) := by
  unfold startPass
  dsimp only
  refine setWait_linked (sameKind_linked (updRun_linked (updFiring_linked (updPlanner_linked (setDrive_linked h))) rfl)
    hx ?_ fun _ _ k => k)
  simp only [State.updRun_run, State.updFiring_run, State.updPlanner_run, setDrive, State.updCarriage_run]

theorem runChecks_linked {first : Bool} {n : Need} {s : State} (h : Linked s)
    (hx : s.run.inHand = some (.lineDue first n)) : Linked (runChecks first s) := by
  have stop : ∀ (m : Need) (u : State), Linked u → u.run.inHand = s.run.inHand →
      Linked (setInHand (some (.lineDue first m)) u) :=
    fun m u hu e => sameKind_linked hu hx e fun _ _ k => k
  unfold runChecks
  dsimp only
  split
  · exact stop _ _ h rfl
  split
  · exact setWait_linked (stop _ _ h rfl)
  split
  · exact setWait_linked (stop _ _ h rfl)
  split
  · split
    · exact setWait_linked (stop _ _ (beginFeed_linked h) (beginFeed_inHand _ _ _ _))
    split
    · exact stop _ _ (eject_linked h) (beginFeed_inHand _ _ _ _)
    split
    · refine setWait_linked (stop _ _ (latch_linked ?_) rfl)
      exact h.of_eq rfl rfl rfl rfl rfl
    split
    · exact startPass_linked h hx
    · exact stop _ _ h rfl
  · exact setWait_linked (stop _ _ h rfl)

/-- A BUILT line at the front becomes ACTIVE (R26, R32). -/
theorem activateLine_linked {i : Nat} {hd : LineHeader} {ps : List (List Byte)} {b : BufId} {s : State} (h : Linked s)
    (hi : IsFront s.queue i (.line hd ps (.built b))) : Linked (activateLine i hd ps b s) := by
  obtain ⟨img, hb⟩ := h.lines.fits _ (mem_iff_getElem?.mpr ⟨i, hi.1⟩)
  unfold activateLine
  rw [hb]
  dsimp only
  have base := h.lines.set_held (b := s.buffers) (st' := .active b) (v := .inUse img) hi.1 rfl rfl
    ⟨img, Buffers.get_set_self _ _ _⟩ nofun fun _ _ => hi.frontIndex
  have hf : IsFront { s.queue with entries := s.queue.entries.set i (.line hd ps (.active b)) } i
      (.line hd ps (.active b)) := by
    have := IsFront.set (c := s.queue.cursor) (e' := .line hd ps (.active b)) hi.1 rfl hi
    rwa [if_pos rfl] at this
  have hs := h.stage.set (c := s.queue.cursor) (e' := .line hd ps (.active b)) hi.1 rfl rfl
  refine setWait_linked ⟨base, ?_, hs⟩
  cases hx : img.extent with
  | none => exact ⟨hd, ps, b, img, hf.frontEntry, Buffers.get_set_self _ _ _, hx⟩
  | some x => exact ⟨hd, ps, b, img, hf.frontEntry, Buffers.get_set_self _ _ _, by rw [hx]; exact nofun⟩

/-- An entry taken up: with nothing in hand, no line is ACTIVE. -/
theorem takeUp_linked {i : Nat} {e : Entry} {s : State} (h : Linked s) (hx : s.run.inHand = none)
    (hi : IsFront s.queue i e) : Linked (takeUp i e s) := by
  have hn := h.inHand
  rw [hx] at hn
  have hand : ∀ y, InHandSound (some y) s.queue s.buffers →
      Linked (s.updRun fun c => { c with executor := .running, inHand := some y }) := fun y hy => ⟨h.lines, hy, h.stage⟩
  unfold takeUp
  dsimp only
  split
  · exact commitRemoved_linked h hi.1 (.inl hx)
  · rename_i build p
    have hu : Linked ((s.updSettings (applyPassSettings p)).updHeat (applyThresholds p)) := h.of_eq rfl rfl rfl rfl rfl
    split
    · exact latchDrained_linked (removeAt_linked hu hi.1 rfl (.inl hx))
    · refine ⟨?_, ?_, hu.stage.set hi.1 rfl rfl⟩
      · exact hu.lines.set_plain hi.1 rfl rfl (.inr hn)
      · show InHandSound s.run.inHand _ _
        rw [hx]
        intro d hd
        obtain ⟨j, hj⟩ := mem_iff_getElem?.mp hd
        rcases getElem?_set_cases hj with ⟨-, rfl⟩ | ⟨-, hj⟩
        · rfl
        · exact hn d (mem_iff_getElem?.mpr ⟨j, hj⟩)
  · exact h
  · exact hand _ (.inl ⟨_, _, hi.frontEntry⟩)
  · exact hand _ (.inr ⟨_, _, _, _, hi.frontEntry⟩)
  · exact hand _ ⟨_, _, hi.frontEntry⟩
  · exact hand _ ⟨_, _, _, hi.frontEntry, nofun⟩
  · exact absurd (hn _ (mem_iff_getElem?.mpr ⟨i, hi.1⟩)) (by simp [Entry.isActive])
  · rename_i st h1 h2
    refine setWait_linked (hand _ ⟨_, _, st, hi.frontEntry, ?_⟩)
    rintro n rfl
    exact h2 _ rfl

theorem takeUpStep_linked {s t : State} (h : Linked s) (hx : s.run.inHand = none) (ht : takeUpStep s = some t) :
    Linked t := by
  unfold takeUpStep at ht
  split at ht
  · split at ht
    · rename_i i e hi he
      cases ht
      obtain ⟨d, hd⟩ := frontIndex_eq_some.mp hi
      have := hd.frontEntry.symm.trans he
      injection this with this
      subst this
      exact takeUp_linked h hx hd
    · cases ht
  · cases ht

theorem started_linked {x y : InHand} {s u : State} (h : Linked u) (hx : s.run.inHand = some x)
    (hu : u.run.inHand = s.run.inHand)
    (hk : ∀ q b, InHandSound (some x) q b → InHandSound (some y) q b) : Linked (setWait .none (setInHand (some y) u)) :=
  setWait_linked (sameKind_linked h hx hu hk)

theorem advanceStep_linked {m : AdvanceMode} {c : BitVec 16} {s t : State} (h : Linked s)
    (hx : s.run.inHand = some (.advance false)) (ht : advanceStep m c s = some t) : Linked t := by
  unfold advanceStep at ht
  dsimp only at ht
  split at ht
  · split at ht
    · cases ht; exact started_linked (beginTearOff_linked h) hx (beginFeed_inHand _ _ _ _) fun _ _ k => k
    split at ht
    · cases ht; exact finishEntry_linked h hx
    split at ht
    · cases ht; exact started_linked h hx rfl fun _ _ k => k
    · cases ht
  · split at ht
    · cases ht; exact started_linked (beginFeed_linked h) hx (beginFeed_inHand _ _ _ _) fun _ _ k => k
    · cases ht

theorem applyGeometry_inHand (d : Byte) (g e : BitVec 16) (r : Byte) (s : State) :
    (applyGeometry d g e r s).run.inHand = s.run.inHand := by
  unfold applyGeometry
  split <;> rfl

theorem applyForm_linked {l z : BitVec 16} {s : State} (h : Linked s) : Linked (applyForm l z s) := by
  unfold applyForm
  exact updForms_linked h

theorem carryOut_linked {x : InHand} {s t : State} (h : Linked s) (hx : s.run.inHand = some x)
    (ht : carryOut x s = some t) : Linked t := by
  unfold carryOut at ht
  split at ht
  · rename_i he
    rw [Option.map_eq_some_iff] at ht
    obtain ⟨i, hi, rfl⟩ := ht
    obtain ⟨d, hd⟩ := frontIndex_eq_some.mp hi
    have := hd.frontEntry.symm.trans he
    injection this with this
    subst this
    exact activateLine_linked h hd
  · split at ht
    · cases ht; exact finishEntry_linked (applyForm_linked h) hx
    · cases ht
  · split at ht
    · cases ht; exact finishEntry_linked (applyGeometry_linked h) ((applyGeometry_inHand _ _ _ _ _).trans hx)
    · cases ht
  · exact advanceStep_linked h hx ht
  · split at ht
    · cases ht
      exact started_linked (beginFeed_linked h) hx (beginFeed_inHand _ _ _ _) fun _ _ k => k
    · cases ht
  · split at ht
    · cases ht; exact runChecks_linked h hx
    · cases ht
  · cases ht

theorem runStep_linked {s t : State} (h : Linked s) (ht : runStep s = some t) : Linked t := by
  unfold runStep at ht
  split at ht
  · split at ht
    · exact carryOut_linked h ‹_› ht
    · cases ht
  · exact takeUpStep_linked h ‹_› ht

theorem requestStep_linked {s t : State} (h : Linked s) (ht : requestStep s = some t) : Linked t := by
  unfold requestStep at ht
  split at ht
  · cases ht; exact setWait_linked (updForms_linked h)
  · split at ht
    · cases ht; exact beginReturn_linked h
    · cases ht

theorem followStep_linked {hold : Bool} {s t : State} (ht : followStep hold s = some t) (h : Linked s) : Linked t := by
  rcases followStep_cases ht with k | k | k | k | k
  · exact feedEnds_linked h k
  · exact builderStep_linked h k
  · exact offerStep_linked h k
  · exact runStep_linked h k
  · exact requestStep_linked h k

theorem judgeTimers_linked {s : State} (h : Linked s) : Linked (judgeTimers s) := updForms_linked h

/-- The working out of an event keeps the laws. -/
theorem finishEvent_linked {s : State} (h : Linked s) : Linked (finishEvent s) :=
  judgeTimers_linked (follow_keeps (fun _ _ => followStep_linked) _ s h)

theorem finishRunStop_linked {s : State} (h : Linked s) : Linked (finishRunStop s) :=
  judgeTimers_linked (follow_keeps (fun _ _ => followStep_linked) _ s h)

/-! ## The fault stop -/

theorem discardSchedule_linked {s : State} (h : Linked s) : Linked (discardSchedule s) := h.of_eq rfl rfl rfl rfl rfl

theorem forgetLastFire_linked {s : State} (h : Linked s) : Linked (forgetLastFire s) := h.of_eq rfl rfl rfl rfl rfl

theorem abandonFeed_queue (test : Purpose → Bool) (s : State) :
    (abandonFeed test s).queue = s.queue ∧ (abandonFeed test s).buffers = s.buffers ∧
      (abandonFeed test s).stage = s.stage ∧ (abandonFeed test s).tables = s.tables ∧
      (abandonFeed test s).run = s.run := by
  unfold abandonFeed
  split
  · split
    · split <;> exact ⟨rfl, rfl, rfl, rfl, rfl⟩
    · exact ⟨rfl, rfl, rfl, rfl, rfl⟩
  · exact ⟨rfl, rfl, rfl, rfl, rfl⟩

theorem discardActive_linked {x : InHand} {s : State} (h : Linked s) (hx : s.run.inHand = some x) :
    Linked (discardActive s) := by
  have k := removeFront_stage s
  unfold discardActive
  dsimp only
  generalize hu : ((forgetDirection (removeFront s)).updHeat fun h => { h with hold := false }) = u
  have ha := abandonFeed_queue (fun p => p = .afterLine ∨ p = .skip) u
  refine removeFront_linked h hx ?_ ?_ rfl ?_ ?_
  · show (abandonFeed _ u).queue = _
    rw [ha.1, ← hu]; rfl
  · show (abandonFeed _ u).buffers = _
    rw [ha.2.1, ← hu]; rfl
  · show (abandonFeed _ u).stage = _
    rw [ha.2.2.1, ← hu]; exact k.1
  · show (abandonFeed _ u).tables = _
    rw [ha.2.2.2.1, ← hu]; exact k.2

theorem faultStop_linked {s : State} (h : Linked s) : Linked (faultStop s) := by
  unfold faultStop
  split
  · exact h
  · dsimp only
    have hu : Linked (s.updRun fun c => { c with executor := .faultStop, reason := .none }) := updRun_linked h rfl
    split
    · exact discardActive_linked hu ‹_›
    · exact discardActive_linked hu ‹_›
    · exact discardActive_linked hu ‹_›
    · exact hu
    · rename_i h1 h2 h3 h4
      refine ⟨h.lines, ?_, h.stage⟩
      refine noActive_of_inHand h.lines h.inHand ?_
      intro y hy
      cases y with
      | lineDue a b => exact absurd hy (h1 a b)
      | linePass a b c => exact absurd hy (h2 a b c)
      | lineFeed a => exact absurd hy (h3 a)
      | _ => rfl

theorem carriageFault_linked {s : State} (h : Linked s) : Linked (carriageFault s) :=
  faultStop_linked (latch_linked (forgetLastFire_linked (discardSchedule_linked (updCarriage_linked h))))

theorem goSilent_linked {s : State} (h : Linked s) : Linked (goSilent s) := updFiring_linked h

theorem thirdDeadPin_linked {s : State} (h : Linked s) : Linked (thirdDeadPin s) :=
  faultStop_linked (forgetLastFire_linked (goSilent_linked h))

/-! ## The commands -/

theorem frameFault_linked {s : State} (h : Linked s) : Linked (frameFault s) := latch_linked (updIntake_linked h)

theorem joinLaneQ_linked {r : QRecord} {s : State} (h : Linked s) : Linked (joinLaneQ r s) :=
  finishEvent_linked (updIntake_linked h)

theorem sendQ_linked {r : QRecord} {s : State} (h : Linked s) : Linked (sendQ r s) := by
  unfold sendQ
  split
  · exact frameFault_linked h
  · exact joinLaneQ_linked h

theorem answer_linked {f : List Byte} {s : State} (h : Linked s) : Linked (answer f s) := by
  unfold answer
  split <;> exact updIntake_linked h

theorem length_writeStage (data : List Byte) (b : Binding) : (writeStage data b).bytes.length = b.bytes.length := by
  induction data generalizing b with
  | nil => rfl
  | cons d rest ih =>
    unfold writeStage
    split
    · rw [ih]; simp
    · rfl

theorem writeStage_sound {data : List Byte} {b : Binding} (h : b.sound) : (writeStage data b).sound := by
  induction data generalizing b with
  | nil => exact h
  | cons d rest ih =>
    unfold writeStage
    split
    · refine ih ⟨h.1, h.2.1, by simpa using h.2.2.1, ?_⟩
      show b.cursor + 1 ≤ b.table.pageSize
      omega
    · exact h

/-- The stage BOUND to a sound page: with the stage not HELD before, no commit marker is in the queue. -/
theorem stageBound_linked {b : Binding} {data : List Byte} {s : State} (h : Linked s) (hs : ∀ c, s.stage ≠ .held c)
    (hb : b.sound) : Linked (stageWritten b data s) := by
  refine latchIf_linked ⟨h.lines, h.inHand, ?_⟩
  refine StageSound.of_no_commit h.stage.tables ?_ nofun (h.stage.no_commit hs)
  intro c hc
  injection hc with hc
  subst hc
  exact writeStage_sound hb

theorem length_livePage {t : Tables} (h : TablesSound t) {id : TableId} {n : Nat} (hn : n < id.pages)
    (hs : stageable id n = true) : (livePage t id n).length = id.pageSize := by
  obtain ⟨h1, h2, h3, h4, h5, h6, h7⟩ := h
  cases id with
  | codeMap =>
    have hn' : n < t.codeMap.length := by rw [h1]; exact hn
    simp only [livePage, List.getD_eq_getElem?_getD, List.getElem?_eq_getElem hn', Option.getD_some]
    exact h2 _ (List.getElem_mem _)
  | glyphs =>
    have hs' : 384 ≤ n := by simpa [stageable] using hs
    have hn' : n - 384 < t.loadable.length := by
      rw [h3]
      have : n < 448 := hn
      omega
    simp only [livePage, glyphPage, if_neg (show ¬n < 384 by omega), List.getD_eq_getElem?_getD,
      List.getElem?_eq_getElem hn', Option.getD_some]
    exact h4 _ (List.getElem_mem _)
  | strike => exact h5
  | profile =>
    have hn' : n < t.profiles.length := by rw [h6]; exact hn
    simp only [livePage, List.getD_eq_getElem?_getD, List.getElem?_eq_getElem hn', Option.getD_some]
    exact h7 _ (List.getElem_mem _)

theorem seekStage_sound {o : Nat} {b : Binding} (h : b.sound) : (seekStage o b).sound :=
  ⟨h.1, h.2.1, h.2.2.1, Nat.min_le_right _ _⟩

theorem freshBinding_sound {t : Tables} {id : TableId} {n o : Nat} (h : TablesSound t) (hn : n < id.pages)
    (hs : stageable id n = true) : (freshBinding t id n o).sound :=
  seekStage_sound ⟨hn, hs, length_livePage h hn hs, Nat.zero_le _⟩

theorem pageNamed_lt {table page n : Nat} {id : TableId} (h : pageNamed table page = some (id, n)) : n < id.pages := by
  unfold pageNamed at h
  split at h
  · split at h
    · cases h; assumption
    · cases h
  · cases h

theorem takeStage_linked {table page offset : Nat} {clear : Bool} {data : List Byte} {s : State} (h : Linked s) :
    Linked (takeStage table page offset clear data s) := by
  unfold takeStage
  split
  · exact latch_linked h
  · rename_i id n hp
    split
    · rename_i hs
      have fresh := freshBinding_sound (o := offset) h.stage.tables (pageNamed_lt hp) hs
      split
      · exact latch_linked h
      · rename_i he
        split
        · exact h
        · exact stageBound_linked h (by rw [he]; exact nofun) fresh
      · rename_i b he
        have hb := h.stage.binding b (by rw [he]; rfl)
        have nh : ∀ c, s.stage ≠ .held c := by rw [he]; exact nofun
        split
        · split
          · exact ⟨h.lines, h.inHand, StageSound.of_no_commit h.stage.tables nofun nofun (h.stage.no_commit nh)⟩
          · exact stageBound_linked h nh fresh
        · split
          · exact stageBound_linked h nh (seekStage_sound hb)
          · exact latch_linked h
    · exact latch_linked h

theorem freeBuffersOf_get {es : List Entry} {b : Buffers} {n : BufId} (h : ∀ e ∈ es, e.buf ≠ some n) :
    (freeBuffersOf es b).get n = b.get n := by
  induction es generalizing b with
  | nil => rfl
  | cons e es ih =>
    show (freeBuffersOf es (freeBufferOf e b)).get n = _
    rw [ih fun d hd => h d (List.mem_cons_of_mem _ hd)]
    unfold freeBufferOf
    cases he : e.buf with
    | none => rfl
    | some m =>
      refine Buffers.get_set_of_ne _ _ ?_
      rintro rfl
      exact h e List.mem_cons_self he

theorem freeBuffersOf_free {es : List Entry} {b : Buffers} {n : BufId} (h : b.get n = .free) :
    (freeBuffersOf es b).get n = .free := by
  induction es generalizing b with
  | nil => exact h
  | cons e es ih =>
    refine ih (b := freeBufferOf e b) ?_
    unfold freeBufferOf
    cases he : e.buf with
    | none => exact h
    | some m =>
      dsimp only
      by_cases hm : m = n
      · subst hm; simp
      · rw [Buffers.get_set_of_ne _ _ hm]; exact h

theorem freeBuffersOf_mem {es : List Entry} {b : Buffers} {n : BufId} {e : Entry} (he : e ∈ es) (hb : e.buf = some n) :
    (freeBuffersOf es b).get n = .free := by
  induction es generalizing b with
  | nil => cases he
  | cons d es ih =>
    rcases List.mem_cons.mp he with rfl | he
    · refine freeBuffersOf_free (b := freeBufferOf e b) ?_
      simp [freeBufferOf, hb]
    · exact ih he

/-- DROP keeps the laws: only an ACTIVE line stays, with its buffer and in its hand (R36). -/
theorem dropEntries_linked {s : State} (h : Linked s)
    (hx : ∀ y, s.run.inHand = some y → y.isActive = true) : Linked (dropEntries s) := by
  have hk : ∀ e, e ∈ s.queue.entries.filter Entry.isActive ↔ e ∈ s.queue.entries ∧ e.isActive = true := by
    intro e; rw [List.mem_filter]
  -- at most one entry stays: the ACTIVE line at the front
  have len : (s.queue.entries.filter Entry.isActive).length ≤ 1 := by
    have hle : ∀ (p : Entry → Bool) (es : List Entry),
        (∀ (i j : Nat) (d e : Entry), es[i]? = some d → es[j]? = some e → p d = true → p e = true → i = j) →
        (es.filter p).length ≤ 1 := by
      intro p es
      induction es with
      | nil => intro _; simp
      | cons a es ih =>
        intro hu
        by_cases ha : p a = true
        · have : es.filter p = [] := by
            rw [List.filter_eq_nil_iff]
            intro d hd hpd
            obtain ⟨i, hi⟩ := mem_iff_getElem?.mp hd
            have := hu 0 (i + 1) a d rfl (by simpa using hi) ha hpd
            omega
          simp [ha, this]
        · rw [List.filter_cons_of_neg ha]
          refine ih fun i j d e hi hj hd he => ?_
          have := hu (i + 1) (j + 1) d e (by simpa using hi) (by simpa using hj) hd he
          omega
    refine hle _ _ fun i j d e hi hj hd he => ?_
    exact (IsFront.unique (h.lines.active_front hi hd) (h.lines.active_front hj he)).1
  have at0 : ∀ (i : Nat) (d : Entry), (s.queue.entries.filter Entry.isActive)[i]? = some d →
      i = 0 ∧ d ∈ s.queue.entries ∧ d.isActive = true := by
    intro i d hi
    have := lt_of_getElem? hi
    exact ⟨by omega, (hk d).mp (mem_iff_getElem?.mpr ⟨i, hi⟩)⟩
  -- the buffers
  have buf : ∀ e n, e ∈ s.queue.entries → e.isActive = true → e.buf = some n →
      (freeBuffersOf (s.queue.entries.filter fun e => !e.isActive) s.buffers).get n = s.buffers.get n := by
    intro e n he ha hb
    refine freeBuffersOf_get fun d hd hdb => ?_
    rw [List.mem_filter] at hd
    obtain ⟨i, hi⟩ := mem_iff_getElem?.mp he
    obtain ⟨j, hj⟩ := mem_iff_getElem?.mp hd.1
    have := h.lines.once i j e d n hi hj hb hdb
    subst this
    rw [hi] at hj
    injection hj with hj
    subst hj
    simp [ha] at hd
  have front : ∀ (q : Queue) (d : Entry), q.entries = s.queue.entries.filter Entry.isActive →
      d ∈ s.queue.entries.filter Entry.isActive → IsFront q 0 d := by
    intro q d hq hd
    obtain ⟨i, hi⟩ := mem_iff_getElem?.mp hd
    have h0 := at0 i d hi
    have := h0.1
    subst this
    obtain ⟨_, _, _, rfl⟩ := Entry.buf_of_active h0.2.2
    exact ⟨by rw [hq]; exact hi, rfl, fun j hj => absurd hj (Nat.not_lt_zero j)⟩
  have lines : LinesSound { entries := s.queue.entries.filter Entry.isActive,
                            cursor := (s.queue.entries.filter Entry.isActive).length }
      (freeBuffersOf (s.queue.entries.filter fun e => !e.isActive) s.buffers) :=
    { fits := fun e he => Entry.fits_of_get (h.lines.fits e ((hk e).mp he).1) fun n hn =>
        buf e n ((hk e).mp he).1 ((hk e).mp he).2 hn
      once := fun i j d e n hi hj _ _ => by rw [(at0 i d hi).1, (at0 j e hj).1]
      held := by
        intro n hn
        by_cases hs : s.buffers.get n = .free
        · exact absurd (freeBuffersOf_free hs) hn
        · obtain ⟨e, he, hb⟩ := h.lines.held n hs
          by_cases ha : e.isActive = true
          · exact ⟨e, (hk e).mpr ⟨he, ha⟩, hb⟩
          · exact absurd (freeBuffersOf_mem (List.mem_filter.mpr ⟨he, by simpa using ha⟩) hb) hn
      front := fun i e hi ha => by
        have h0 := at0 i e hi
        have := h0.1
        subst this
        exact (front _ e rfl (mem_iff_getElem?.mpr ⟨0, hi⟩)).frontIndex
      cursor := fun i hd ps n hi => by
        have h0 := (at0 i _ hi).2.2
        cases h0 }
  have inHand : InHandSound s.run.inHand { entries := s.queue.entries.filter Entry.isActive,
                                           cursor := (s.queue.entries.filter Entry.isActive).length }
      (freeBuffersOf (s.queue.entries.filter fun e => !e.isActive) s.buffers) := by
    have act : ∀ test, FrontActive s.queue s.buffers test → FrontActive
        { entries := s.queue.entries.filter Entry.isActive, cursor := (s.queue.entries.filter Entry.isActive).length }
        (freeBuffersOf (s.queue.entries.filter fun e => !e.isActive) s.buffers) test := by
      rintro test ⟨hd, ps, n, img, h1, h2, h3⟩
      obtain ⟨i, hi⟩ := frontEntry_eq_some.mp h1
      have hm := mem_iff_getElem?.mpr ⟨i, hi.1⟩
      refine ⟨hd, ps, n, img, (front _ _ rfl ((hk _).mpr ⟨hm, rfl⟩)).frontEntry, ?_, h3⟩
      rw [buf _ n hm rfl rfl]
      exact h2
    have k := h.inHand
    match hy : s.run.inHand, k with
    | none, k =>
      intro e he
      rw [k e ((hk e).mp he).1]
    | some .notBuilt, _ => exact absurd (hx _ hy) (by simp [InHand.isActive])
    | some .marker, _ => exact absurd (hx _ hy) (by simp [InHand.isActive])
    | some (.advance _), _ => exact absurd (hx _ hy) (by simp [InHand.isActive])
    | some (.lineDue _ _), k => exact act (· ≠ none) k
    | some (.linePass _ _ _), k => exact act (· ≠ none) k
    | some (.lineFeed _), k => exact act (· = none) k
  have noCommit : ∀ (id : TableId) (p : Nat), Entry.commit id p ∉ s.queue.entries.filter Entry.isActive :=
    fun id p hm => by cases ((hk _).mp hm).2
  unfold dropEntries
  dsimp only
  apply latchIf_linked
  split
  · refine ⟨lines, inHand, StageSound.of_no_commit h.stage.tables ?_ ?_ noCommit⟩
    · intro b hb
      refine h.stage.binding b ?_
      have hb : (releaseStage s.stage).binding = some b := hb
      cases hg : s.stage <;> rw [hg] at hb
      · exact hb
      · exact hb
      · exact hb
    · intro b hb
      have hb : releaseStage s.stage = .held b := hb
      cases hg : s.stage <;> rw [hg] at hb <;> cases hb
  · rename_i hh
    refine ⟨lines, inHand, StageSound.of_no_commit h.stage.tables h.stage.binding ?_ noCommit⟩
    intro b hb
    refine hh ?_
    have hb : s.stage = .held b := hb
    rw [List.any_eq_true]
    refine ⟨.commit b.table b.page, List.mem_filter.mpr ⟨h.stage.held b hb, rfl⟩, ?_⟩
    rw [hb]
    simp [Entry.holdsStage, Stage.binding]

theorem dropInHand_linked {s : State} (h : Linked s) :
    Linked (dropInHand s) ∧ ∀ y, (dropInHand s).run.inHand = some y → y.isActive = true := by
  unfold dropInHand
  split
  · rename_i hx
    exact ⟨h, fun y hy => by rw [hx] at hy; cases hy⟩
  · rename_i x hx
    split
    · rename_i ha
      refine ⟨h, fun y hy => ?_⟩
      rw [hx] at hy
      injection hy with hy
      rw [← hy]; exact ha
    · rename_i ha
      refine ⟨leaveEntry_linked (updForms_linked (abandonFeed_linked h)) ?_, nofun⟩
      show NoActive (abandonFeed _ s).queue
      rw [(abandonFeed_queue _ s).1]
      refine noActive_of_inHand h.lines h.inHand fun y hy => ?_
      rw [hx] at hy
      injection hy with hy
      rw [← hy]; simpa using ha

theorem takeDrop_linked {s : State} (h : Linked s) : Linked (takeDrop s) := by
  have := dropInHand_linked (s := clearIntake s) (updIntake_linked h)
  exact finishEvent_linked (dropEntries_linked this.1 this.2)

/-- With an empty queue, no buffer held, nothing in hand and the stage EMPTY. -/
theorem Linked.cleared {s t : State} (h : Linked s) {c : Nat} (h1 : t.queue = { entries := [], cursor := c })
    (h2 : t.buffers = { one := .free, two := .free }) (h3 : t.run.inHand = none) (h4 : t.stage = .empty)
    (h5 : t.tables = s.tables) : Linked t where
  lines := by rw [h1, h2]; exact LinesSound.empty c
  inHand := by rw [h1, h3]; exact fun e he => absurd he List.not_mem_nil
  stage := by
    rw [h1, h4, h5]
    exact StageSound.of_no_commit h.stage.tables nofun nofun fun _ _ => List.not_mem_nil

theorem resetForms_linked {s : State} : (resetForms s).queue = s.queue ∧ (resetForms s).buffers = s.buffers ∧
    (resetForms s).stage = s.stage ∧ (resetForms s).tables = s.tables := by
  have feed : ∀ p d n (u : State), (beginFeed p d n u).queue = u.queue ∧ (beginFeed p d n u).buffers = u.buffers ∧
      (beginFeed p d n u).stage = u.stage ∧ (beginFeed p d n u).tables = u.tables := by
    intro p d n u
    unfold beginFeed startStep
    split
    · split <;> exact ⟨rfl, rfl, rfl, rfl⟩
    · exact ⟨rfl, rfl, rfl, rfl⟩
  have paper : ∀ u : State, (resetPaper u).queue = u.queue ∧ (resetPaper u).buffers = u.buffers ∧
      (resetPaper u).stage = u.stage ∧ (resetPaper u).tables = u.tables := by
    intro u
    unfold resetPaper
    split
    case h_5 => exact feed _ _ _ _
    case h_6 => exact feed _ _ _ _
    all_goals exact ⟨rfl, rfl, rfl, rfl⟩
  unfold resetForms
  dsimp only
  split
  · split
    · exact paper _
    split
    · exact ⟨rfl, rfl, rfl, rfl⟩
    · exact ⟨rfl, rfl, rfl, rfl⟩
  · exact paper _

theorem takeReset_linked {s : State} (h : Linked s) : Linked (takeReset s) := by
  unfold takeReset
  dsimp only
  refine judgeTimers_linked (restartTearTimer_linked ?_)
  generalize hu : ((((((((resetIntake s).updQueue _).updBuffers _).updBuilder _).setStage .empty).updPlanner _).updFiring
    _).updHeat _).updCarriage _ = u
  have k := resetForms_linked (s := u)
  refine h.cleared (c := 0) ?_ ?_ rfl ?_ ?_
  · show (resetForms u).queue = _
    rw [k.1, ← hu]; rfl
  · show (resetForms u).buffers = _
    rw [k.2.1, ← hu]; rfl
  · show (resetForms u).stage = _
    rw [k.2.2.1, ← hu]; rfl
  · show (resetForms u).tables = _
    rw [k.2.2.2, ← hu]; rfl

theorem takeAck_linked {named : BitVec 16} {mask : Option (BitVec 16)} {s : State} (h : Linked s) :
    Linked (takeAck named mask s) := by
  have hc : Linked (ackClear named mask s) := by
    unfold ackClear
    dsimp only
    split
    · exact updFiring_linked (updRun_linked h rfl)
    · exact updRun_linked h rfl
  unfold takeAck
  dsimp only
  split
  · refine finishEvent_linked ?_
    unfold leaveFaultStop
    split
    · exact updCarriage_linked (updRun_linked hc rfl)
    · exact enterReady_linked hc
  · exact hc

theorem takeN_linked {r : NRecord} {s : State} (h : Linked s) : Linked (takeN r s) := by
  cases r with
  | query => exact answer_linked h
  | halt => exact judgeTimers_linked (updRun_linked h rfl)
  | go => exact finishEvent_linked (updRun_linked h rfl)
  | drop => exact takeDrop_linked h
  | reset => exact takeReset_linked h
  | ack named mask => exact takeAck_linked h
  | stage table page offset clear data => exact takeStage_linked h
  | read table page source => exact answer_linked h

end Sys2Proof.Machine
end

