-- ==== Sys2Proof/WellFormed.lean ====
section
/-! DEFINITION. Which commands name a record that a sound frame can carry. -/

namespace Sys2Proof

/-- A LINE payload is at most 1,024 bytes, 9 of them fixed, so a part carries at most 1,015 run bytes (R3, R171). -/
def runsFit (runs : List Byte) : Bool := decide (runs.length ≤ 1015)

/-- A STAGE carries from 0 to 1,000 data bytes (R3). -/
def stageDataFits (data : List Byte) : Bool := decide (data.length ≤ 1000)

/-- The well-formed commands. The other operands have the widths of their fields, so every value of them can be sent. -/
def Instr.wellFormed : Instr → Bool
  | .powerOnReset _ _ _ _ => true
  | .receiveByte _ _ => true
  | .interByteTimeout => true
  | .query => true
  | .read _ _ _ => true
  | .stage _ _ _ _ data => stageDataFits data
  | .halt => true
  | .go => true
  | .drop => true
  | .reset => true
  | .ack _ _ => true
  | .lineFirstPart _ _ runs => runsFit runs
  | .lineContinuation _ runs => runsFit runs
  | .advance _ _ => true
  | .commit _ _ => true
  | .set _ => true
  | .form _ _ => true
  | .geometry _ _ _ _ => true
  | .replySent => true
  | .buildEnd => true
  | .takeUpFrontEntry => true
  | .passStart => true
  | .positioningArrival _ => true
  | .passRunArrival _ => true
  | .stoppingArrival _ => true
  | .homingArrival _ => true
  | .pulseEnd _ _ => true
  | .coolingTick => true
  | .feedStepArrival => true
  | .tearTimerExpiry => true
  | .presenceTimerExpiry => true
  | .formsSensorNoForms => true
  | .formsSensorFormsPresent => true
  | .leverOpen => true
  | .leverClose => true
  | .settleTimeExpiry => true

end Sys2Proof
end

