-- ==== Sys2Proof/Laws/PerInstr.lean ====
section
/-! SUPPORT. A statement about every command as syntax: the record of a well-formed command has a payload length that its
kind allows (R3), so its frame passes the header judgement. -/

namespace Sys2Proof.Laws.FrameFits

open Sys2Proof Sys2Proof.Machine

/-- The record of command `i`, if it is a record command and well formed, has a payload length its kind allows. -/
def Statement (i : Instr) : Prop :=
  i.wellFormed = true →
    (∀ r, qRecordOfCommand i = some r → r.kind.allows r.payload.length = true) ∧
    ∀ r, nRecordOfCommand i = some r → r.kind.allows r.payload.length = true

theorem toBytes_length (v n : Nat) : (toBytes v n).length = n := by
  induction n with
  | zero => rfl
  | succ n ih => simp [toBytes, ih]

theorem fieldBytes_length_le {w : Nat} (n : Nat) (f : Option (BitVec w)) : (fieldBytes n f).length ≤ n := by
  cases f <;> simp [fieldBytes, toBytes_length]

/-- A command that is no record command. -/
theorem of_no_record {i : Instr} (hq : qRecordOfCommand i = none) (hn : nRecordOfCommand i = none) : Statement i :=
  fun _ => by simp [hq, hn]

theorem of_q {i : Instr} {r : QRecord} (hq : qRecordOfCommand i = some r) (hn : nRecordOfCommand i = none)
    (h : i.wellFormed = true → r.kind.allows r.payload.length = true) : Statement i :=
  fun w => ⟨fun r' h' => by
    rw [hq] at h'
    injection h' with h'
    exact h' ▸ h w, by simp [hn]⟩

theorem of_n {i : Instr} {r : NRecord} (hq : qRecordOfCommand i = none) (hn : nRecordOfCommand i = some r)
    (h : i.wellFormed = true → r.kind.allows r.payload.length = true) : Statement i :=
  fun w => ⟨by simp [hq], fun r' h' => by
    rw [hn] at h'
    injection h' with h'
    exact h' ▸ h w⟩

theorem powerOnReset : ∀ a b c d, Statement (.powerOnReset a b c d) :=
  fun _ _ _ _ => of_no_record rfl rfl

theorem receiveByte : ∀ a b, Statement (.receiveByte a b) :=
  fun _ _ => of_no_record rfl rfl

theorem interByteTimeout : Statement .interByteTimeout :=
  of_no_record rfl rfl

theorem query : Statement .query :=
  of_n rfl rfl fun _ => by simp [NRecord.kind, NRecord.payload, Kind.allows]

theorem read : ∀ a b c, Statement (.read a b c) :=
  fun _ _ _ => of_n rfl rfl fun _ => by simp [NRecord.kind, NRecord.payload, Kind.allows, toBytes_length]

theorem stage : ∀ a b c d e, Statement (.stage a b c d e) :=
  fun _ _ _ _ _ => of_n rfl rfl fun w => by
    simp only [Instr.wellFormed, stageDataFits, decide_eq_true_eq] at w
    simp [NRecord.kind, NRecord.payload, Kind.allows, toBytes_length]
    omega

theorem halt : Statement .halt :=
  of_n rfl rfl fun _ => by simp [NRecord.kind, NRecord.payload, Kind.allows]

theorem go : Statement .go :=
  of_n rfl rfl fun _ => by simp [NRecord.kind, NRecord.payload, Kind.allows]

theorem drop : Statement .drop :=
  of_n rfl rfl fun _ => by simp [NRecord.kind, NRecord.payload, Kind.allows]

theorem reset : Statement .reset :=
  of_n rfl rfl fun _ => by simp [NRecord.kind, NRecord.payload, Kind.allows]

theorem ack : ∀ a b, Statement (.ack a b) :=
  fun _ mask => of_n rfl rfl fun _ => by
    cases mask <;> simp [NRecord.kind, NRecord.payload, Kind.allows, toBytes_length, fieldBytes]

theorem lineFirstPart : ∀ a b c, Statement (.lineFirstPart a b c) :=
  fun _ _ _ => of_q rfl rfl fun w => by
    simp only [Instr.wellFormed, runsFit, decide_eq_true_eq] at w
    simp [QRecord.kind, QRecord.payload, Kind.allows, toBytes_length]
    omega

theorem lineContinuation : ∀ a b, Statement (.lineContinuation a b) :=
  fun _ _ => of_q rfl rfl fun w => by
    simp only [Instr.wellFormed, runsFit, decide_eq_true_eq] at w
    simp [QRecord.kind, QRecord.payload, Kind.allows]
    omega

theorem advance : ∀ a b, Statement (.advance a b) :=
  fun _ _ => of_q rfl rfl fun _ => by simp [QRecord.kind, QRecord.payload, Kind.allows, toBytes_length]

theorem commit : ∀ a b, Statement (.commit a b) :=
  fun _ _ => of_q rfl rfl fun _ => by simp [QRecord.kind, QRecord.payload, Kind.allows, toBytes_length]

theorem set : ∀ a, Statement (.set a) :=
  fun f => of_q rfl rfl fun _ => by
    have h := fieldBytes_length_le 2 f.tRec
    have h1 := fieldBytes_length_le 1 f.qualityFloor
    have h2 := fieldBytes_length_le 2 f.substSlot
    have h3 := fieldBytes_length_le 1 f.formsClass
    have h4 := fieldBytes_length_le 1 f.bidirectional
    have h5 := fieldBytes_length_le 1 f.alignment
    have h6 := fieldBytes_length_le 2 f.flightTime
    have h7 := fieldBytes_length_le 3 f.hWarm
    have h8 := fieldBytes_length_le 3 f.hHot
    have h9 := fieldBytes_length_le 3 f.hLimit
    have h10 := fieldBytes_length_le 1 f.tearDelay
    simp only [QRecord.kind, QRecord.payload, Kind.allows, setPayload, List.length_append, toBytes_length,
      decide_eq_true_eq]
    omega

theorem form : ∀ a b, Statement (.form a b) :=
  fun _ _ => of_q rfl rfl fun _ => by simp [QRecord.kind, QRecord.payload, Kind.allows, toBytes_length]

theorem geometry : ∀ a b c d, Statement (.geometry a b c d) :=
  fun _ _ _ _ => of_q rfl rfl fun _ => by simp [QRecord.kind, QRecord.payload, Kind.allows, toBytes_length]

theorem replySent : Statement .replySent :=
  of_no_record rfl rfl

theorem buildEnd : Statement .buildEnd :=
  of_no_record rfl rfl

theorem takeUpFrontEntry : Statement .takeUpFrontEntry :=
  of_no_record rfl rfl

theorem passStart : Statement .passStart :=
  of_no_record rfl rfl

theorem positioningArrival : ∀ a, Statement (.positioningArrival a) :=
  fun _ => of_no_record rfl rfl

theorem passRunArrival : ∀ a, Statement (.passRunArrival a) :=
  fun _ => of_no_record rfl rfl

theorem stoppingArrival : ∀ a, Statement (.stoppingArrival a) :=
  fun _ => of_no_record rfl rfl

theorem homingArrival : ∀ a, Statement (.homingArrival a) :=
  fun _ => of_no_record rfl rfl

theorem pulseEnd : ∀ a b, Statement (.pulseEnd a b) :=
  fun _ _ => of_no_record rfl rfl

theorem coolingTick : Statement .coolingTick :=
  of_no_record rfl rfl

theorem feedStepArrival : Statement .feedStepArrival :=
  of_no_record rfl rfl

theorem tearTimerExpiry : Statement .tearTimerExpiry :=
  of_no_record rfl rfl

theorem presenceTimerExpiry : Statement .presenceTimerExpiry :=
  of_no_record rfl rfl

theorem formsSensorNoForms : Statement .formsSensorNoForms :=
  of_no_record rfl rfl

theorem formsSensorFormsPresent : Statement .formsSensorFormsPresent :=
  of_no_record rfl rfl

theorem leverOpen : Statement .leverOpen :=
  of_no_record rfl rfl

theorem leverClose : Statement .leverClose :=
  of_no_record rfl rfl

theorem settleTimeExpiry : Statement .settleTimeExpiry :=
  of_no_record rfl rfl

end Sys2Proof.Laws.FrameFits
end

