-- ==== Sys2Proof/Laws/Quiet.lean ====
section
/-! SUPPORT. When nothing, or one thing, follows an event: the lemmas that a statement about a whole next state cites. -/

namespace Sys2Proof.Machine

/-! ## One step of what follows -/

theorem followTo_one {hold : Bool} {s t : State} (h : followStep hold s = some t) : followTo hold 1 s = some t :=
  followTo_succ h rfl

theorem followStep_of_feed {hold : Bool} {s t : State} (h : feedEnds s = some t) : followStep hold s = some t := by
  simp [followStep, h]

theorem followStep_of_builder {hold : Bool} {s t : State} (h0 : feedEnds s = none) (h : builderStep s = some t) :
    followStep hold s = some t := by simp [followStep, h0, h]

theorem followStep_of_run {s t : State} (h0 : feedEnds s = none) (h1 : builderStep s = none)
    (h : runStep s = some t) : followStep false s = some t := by simp [followStep, h0, h1, h]

theorem followStep_of_offer {hold : Bool} {s t : State} (h0 : feedEnds s = none) (h1 : builderStep s = none)
    (h2 : runStep s = none) (h : offerStep s = some t) : followStep hold s = some t := by
  simp [followStep, h0, h1, h2, h]

theorem followStep_of_request {hold : Bool} {s t : State} (h0 : feedEnds s = none) (h1 : builderStep s = none)
    (h2 : runStep s = none) (h3 : offerStep s = none) (h : requestStep s = some t) : followStep hold s = some t := by
  simp [followStep, h0, h1, h2, h3, h]

/-- A pass start that is ready and held: nothing of Run Control follows. -/
theorem followStep_held {s : State} (h : passStartReady s = true) (h0 : feedEnds s = none)
    (h1 : builderStep s = none) (h2 : offerStep s = none) (h3 : requestStep s = none) : followStep true s = none := by
  simp [followStep, h, h0, h1, h2, h3]

/-! ## A block that does nothing -/

theorem feedEnds_none {s : State} : feedEnds s = none ↔ ∀ f, s.forms.feed = some f → f.remaining ≠ 0 := by
  unfold feedEnds
  cases h : s.forms.feed with
  | none => simp
  | some f => by_cases h0 : f.remaining = 0 <;> simp [h0]

theorem noFeed_of {s t : State} (h : NoFeedEnds s) (e : t.forms.feed = s.forms.feed) : feedEnds t = none := by
  rw [feedEnds_none, e, ← feedEnds_none]
  exact h

theorem builderStep_end {s : State} (h : s.queue.entries[s.queue.cursor]? = none) : builderStep s = none := by
  simp [builderStep, h]

theorem offerStep_nil {s : State} (h : s.intake.laneQ = []) : offerStep s = none := by simp [offerStep, h]

theorem discardOpenTail_none {s : State} (h : openTail s.queue = none) : discardOpenTail s = s := by
  simp [discardOpenTail, h]

theorem needsPaper_none {s : State} (h : s.run.inHand = none) : needsPaper s = false := by simp [needsPaper, h]

theorem requestStep_none {s : State} (h1 : needsPaper s = false) (h2 : s.forms.paperRequest = false) :
    requestStep s = none := by
  simp [requestStep, h1, h2]

theorem runStep_none_of_rest {s : State} (h1 : s.run.inHand = none)
    (h2 : s.run.executor = .homing ∨ s.run.executor = .halted ∨ s.run.executor = .faultStop) : runStep s = none := by
  rcases h2 with h | h | h <;> simp [runStep, h1, takeUpStep, h]

theorem rest_quiet {s : State} (h : RunAtRest s) : runStep s = none ∧ requestStep s = none :=
  ⟨runStep_none_of_rest h.1 h.2.2, requestStep_none (needsPaper_none h.1) h.2.1⟩

theorem rest_of {s t : State} (h : RunAtRest s) (e1 : t.run.inHand = s.run.inHand)
    (e2 : t.run.executor = s.run.executor) (e3 : t.forms.paperRequest = s.forms.paperRequest) : RunAtRest t :=
  ⟨e1.trans h.1, e3.trans h.2.1, by rw [e2]; exact h.2.2⟩

/-! ## Settled states -/

theorem settled_of {s : State} (h0 : feedEnds s = none) (h1 : builderStep s = none) (h2 : offerStep s = none)
    (h3 : runStep s = none) (h4 : requestStep s = none) : Settled s := by
  simp [Settled, followStep, h0, h1, h2, h3, h4]

/-- Run Control at rest, no feed at its end, the builder stopped and no frame waiting: nothing follows. -/
theorem settled_rest {s t : State} (h : RunAtRest s) (hf : NoFeedEnds s) (e0 : t.forms.feed = s.forms.feed)
    (e1 : t.run.inHand = s.run.inHand) (e2 : t.run.executor = s.run.executor)
    (e3 : t.forms.paperRequest = s.forms.paperRequest) (hb : builderStep t = none) (hl : t.intake.laneQ = []) :
    Settled t :=
  settled_of (noFeed_of hf e0) hb (offerStep_nil hl) (rest_quiet (rest_of h e1 e2 e3)).1
    (rest_quiet (rest_of h e1 e2 e3)).2

/-- With an empty queue, nothing in hand, no frame waiting and no paper request, only a feed at its end could follow. -/
theorem settled_noWork {t : State} (h1 : t.queue.entries = []) (h2 : t.intake.laneQ = []) (h3 : t.run.inHand = none)
    (h4 : t.forms.paperRequest = false) (h5 : feedEnds t = none) : Settled t := by
  refine settled_of h5 (builderStep_end (by simp [h1])) (offerStep_nil h2) ?_ (requestStep_none (needsPaper_none h3) h4)
  have hf : frontIndex t.queue = none := by simp [frontIndex, h1]
  simp [runStep, h3, takeUpStep, hf]

/-- An entry in hand that does not go on by itself and needs no paper: nothing follows when no frame waits, the builder has
stopped and no feed is at its end. -/
theorem settled_inHand {t : State} {x : InHand} (h1 : t.run.inHand = some x) (h2 : carryOut x t = none)
    (h3 : needsPaper t = false) (h4 : t.forms.paperRequest = false ∨ t.forms.paper ≠ .atTear) (h5 : feedEnds t = none)
    (h6 : builderStep t = none) (h7 : t.intake.laneQ = []) : Settled t := by
  refine settled_of h5 h6 (offerStep_nil h7) ?_ ?_
  · simp [runStep, h1, h2]
  · rcases h4 with h | h <;> simp [requestStep, h3, h]

/-! ## Commands that join the lane Q order -/

theorem sendQ_join {r : QRecord} {s : State} (h1 : r.payloadSize ≤ 1024) (h2 : r.frameSize ≤ s.intake.freeSpace) :
    sendQ r s = joinLaneQ r s := by
  unfold sendQ
  rw [if_neg]
  omega

theorem dropInHand_none {s : State} (h : s.run.inHand = none) : dropInHand s = s := by simp [dropInHand, h]

theorem dropInHand_active {s : State} {x : InHand} (h : s.run.inHand = some x) (hx : x.isActive = true) :
    dropInHand s = s := by
  simp [dropInHand, h, hx]

end Sys2Proof.Machine
end

