-- ==== Sys2Proof/Tests/Slice0.lean ====
section
/-! SUPPORT. Tests: ill-formed commands refused, the manual's worked figures, and a state that meets the hypotheses of each
statement. Expected values come from the chapter named above each test. -/

-- One test is elaborated at a time: together, those that wait for the lemmas before them take more threads than the check allows.
set_option Elab.async false

namespace Sys2Proof.Tests

open Sys2Proof Sys2Proof.Machine

/-! ## States for the tests -/

/-- The carriage at rest at the park position, the executor in state `e`, nothing queued. -/
def idle (e : Executor) : State :=
  { State.reset with
    carriage := { position := some 48, drive := .stopped }
    run := { State.reset.run with executor := e } }

/-- `idle` with these entries, the build cursor at the end. -/
def queued (e : Executor) (es : List Entry) : State :=
  { idle e with queue := { entries := es, cursor := es.length } }

/-- `queued` with an entry in hand. -/
def inHand (e : Executor) (es : List Entry) (h : InHand) : State :=
  { queued e es with run := { (queued e es).run with inHand := some h } }

def withForms (f : Forms → Forms) (s : State) : State := { s with forms := f s.forms }
def withHeat (f : Heat → Heat) (s : State) : State := { s with heat := f s.heat }
def withFrame (st : FrameState) (frame : List Byte) (s : State) : State :=
  { s with intake := { s.intake with frameState := st, frame := frame, timer := true } }

def header : LineHeader :=
  { offset := 480, step := 2, classReq := 0, dirReq := 0, twoPass := 0, feedAfter := 24 }

/-- A one-dot image. -/
def dot : Image := { cols := [1], step := 2, offset := 480, extent := some (0, 0), cls := 0, tRec := 400 }

def plan : PlanInputs :=
  { image := dot, stagger := 40, flightTime := 300, alignment := 3,
    profile := { cruise := 125, ramp := List.replicate 64 125 } }

/-- The state that a command leaves. -/
def after (c : Instr) (s : State) : State :=
  match exec c s with
  | .next t => t
  | _ => s

/-- The states that commands leave one after another. -/
def run (cs : List Instr) (s : State) : State := cs.foldl (fun s c => after c s) s

/-! ## Well-formedness -/

/-- 1,016 run bytes would make a payload of 1,025 (R3). -/
theorem test_long_first_part_refused :
    (Instr.lineFirstPart header false (List.replicate 1016 0)).wellFormed = false := by decide +kernel
theorem test_long_continuation_refused :
    (Instr.lineContinuation false (List.replicate 1016 0)).wellFormed = false := by decide +kernel
/-- A STAGE carries at most 1,000 data bytes (R3). -/
theorem test_long_stage_refused :
    (Instr.stage 0 0 0 false (List.replicate 1001 0)).wellFormed = false := by decide +kernel

/-! ## The link (01, 11) -/

/-- 11.2: a QUERY is the kind byte 0xA0 with a length of 0 and the check byte 0x60. -/
theorem test_query_frame : NRecord.query.frame = [0xC3, 0xA0, 0x00, 0x00, 0x60] := by decide

/-- 11.2, "An encoded SET": t_rec 500 and forms class 3. -/
def setExample : SetFields :=
  { tRec := some 500, qualityFloor := none, substSlot := none, formsClass := some 3, bidirectional := none,
    alignment := none, flightTime := none, hWarm := none, hHot := none, hLimit := none, tearDelay := none }

theorem test_set_frame :
    (QRecord.set setExample).frame = [0xC3, 0x13, 0x00, 0x05, 0x00, 0x09, 0x01, 0xF4, 0x03, 0xE7] := by decide

theorem test_set_payload_read : qRecordOf .set [0x00, 0x09, 0x01, 0xF4, 0x03] = some (.set setExample) := by decide

/-- 1.6: 1,029 bytes held leave 1,275 free with RDY asserted; the 176th byte of B takes RDY away. -/
theorem test_ready_threshold :
    ({ State.reset with intake := { State.reset.intake with frame := List.replicate 1204 0 } }).rdy = true ∧
    ({ State.reset with intake := { State.reset.intake with frame := List.replicate 1205 0 } }).rdy = false := by
  decide +kernel

/-- 1.6, "A frame cut short": 44 bytes held in BODY are discarded, FR latched, the counter raised. -/
theorem test_frame_cut_short :
    let t := after .interByteTimeout (withFrame .body (List.replicate 44 0) State.reset)
    t.intake.frameState = .hunt ∧ t.intake.held = 0 ∧ isPending .FR t = true ∧ t.intake.frameFaults = 1 := by
  decide +kernel

/-- R172: a STATUS frame is 51 bytes long. -/
theorem test_status_length : (frameOf 0xC0 (statusPayload State.reset)).length = 51 := by decide +kernel

/-! ## Tables (03) -/

/-- R45: forms class 3, band 1 holds 64; class 7, band 3 holds 88. -/
theorem test_strike_defaults :
    strikeEntry strikeDefault 3 1 = 64 ∧ strikeEntry strikeDefault 7 3 = 88 := by decide

/-- R48: the first ramp entries of the four classes. -/
theorem test_ramp_defaults :
    (List.range 4).map (fun c => (liveProfile tablesDefault c).ramp.head?) =
      [some 1970, some 1961, some 1945, some 1906] := by decide +kernel

/-- R41: code 156 of code set 2 maps to slot 156. -/
theorem test_code_map_identity : codeMapEntry codeMapDefault 2 156 = 156 := by decide +kernel

/-! ## Building (04) -/

/-- 4.9: glyph 402 is advance 6, width 4, columns {5, 7}, {6}, {5, 7}, {6}. -/
def glyph402 : Page :=
  [6, 4, 0, 0, 0x50, 0, 0, 0x20, 0, 0, 0x50, 0, 0, 0x20] ++ List.replicate 24 0

/-- Line L20 of 4.9, with code 156 of set 2 mapped to slot 402. -/
def l20 (offset : BitVec 16) (tRec : Nat) : BuildInputs :=
  { header := { header with offset := offset }
    parts := [[1, 2, 2, 1, 0, 2, 156, 156, 3, 0, 3, 2, 0, 3, 0, 3, 0, 0, 0, 0, 0, 3, 0]]
    tRec := tRec, floor := 0, subst := 63
    codeMap := codeMapDefault.set 10 ((codeMapDefault.getD 10 []).set 56 0x01 |>.set 57 0x92)
    loadable := (List.replicate 64 blankGlyph).set 18 glyph402
    cruises := [125, 167, 250, 500] }

/-- 4.9: K 20, extent 0 to 19, class 2, nothing clipped or suppressed. -/
theorem test_l20 :
    let r := buildResult (l20 480 400)
    r.image.cols.length = 20 ∧ r.image.extent = some (0, 19) ∧ r.image.cls = 2 ∧ r.clipped = 0 ∧
      r.suppressed = 0 := by decide +kernel

/-- 4.9 near the right edge: K 14, six clipped, the last dark column 11. -/
theorem test_l20_clipped :
    let r := buildResult (l20 6500 400)
    r.image.cols.length = 14 ∧ r.clipped = 6 ∧ r.image.extent = some (0, 11) := by decide +kernel

/-- 4.9 with t_rec 1,200: class 3 and twelve dots removed; at the edge the last dark column is 10. -/
theorem test_l20_suppressed :
    (buildResult (l20 480 1200)).image.cls = 3 ∧ (buildResult (l20 480 1200)).suppressed = 12 ∧
      (buildResult (l20 6500 1200)).image.extent = some (0, 10) := by decide +kernel

/-! ## Planning (05) -/

/-- The block bar of 5.9.1, cut to its first and last column. -/
def bar : PlanInputs :=
  { image := { cols := [0x3FFFF] ++ List.replicate 118 0 ++ [0x3FFFF], step := 4, offset := 480,
               extent := some (0, 119), cls := 0, tRec := 400 }
    stagger := 40, flightTime := 300, alignment := 3, profile := { cruise := 125, ramp := List.replicate 64 125 } }

theorem test_bar_runs :
    passStartPos bar .rightward = 709 ∧ passEndPos bar .rightward = 1354 ∧
      passStartPos bar .leftward = 1362 ∧ passEndPos bar .leftward = 717 := by decide +kernel

theorem test_bar_direction :
    firstDirection bar .auto 1 1354 = .leftward ∧ firstDirection bar .auto 1 48 = .rightward := by decide +kernel

/-- R89: the flight distances of the four classes at 300 µs. -/
theorem test_flight_distances : [125, 167, 250, 500].map (flightDistance 300) = [2, 2, 1, 1] := by decide

/-! ## Carriage (06) -/

/-- 6.9: the positioning move of 8 steps. -/
theorem test_triangular_move :
    (List.range 8).map (fun j =>
      ({ side := .rightward, len := 8, idx := j, profile := liveProfile tablesDefault 0 } : Move).interval) =
      [1970, 1941, 1912, 1882, 1882, 1912, 1941, 1970] := by decide +kernel

/-- 6.9: a RESET at step 600 of the bar's run leaves 44 deceleration steps, at step 300 it leaves 64. -/
theorem test_reset_decelerations :
    [10, 300, 600].map (fun j =>
      (decelOf { side := .rightward, len := 645, idx := j, profile := liveProfile tablesDefault 0 }).left) =
      [10, 64, 44] := by decide +kernel

/-! ## Firing and heat (07, 08) -/

/-- R119's table. -/
theorem test_widths :
    effectiveWidth strikeDefault 0 0 400 = 180 ∧ effectiveWidth strikeDefault 7 0 400 = 350 ∧
      effectiveWidth strikeDefault 5 2 250 = 200 ∧ effectiveWidth strikeDefault 2 0 100 = 50 := by decide

/-- 8.4: a fire of 9 pins at 240 µs, then a tick. -/
theorem test_fire_and_tick :
    let h := addHeat 9 240 { level := 300000, warm := 262144, hot := 524288, limit := 786432, hold := false }
    h.level = 300540 ∧ (coolHeat h).level = 299366 := by decide

/-- 8.4, "Crossing a threshold": a fire that crosses H_warm is struck at the width of band 0, the next at band 1's. -/
theorem test_threshold_crossed :
    let s := withHeat (fun h => { h with level := 261900 }) (idle .running)
    let t := fireEntry 0x3FFFF 400 s
    let u := fireEntry 0x3FFFF 400 { t with firing := { t.firing with pulses := [] } }
    t.heat.level = 262710 ∧ t.firing.pulses.map (·.width) = [180] ∧ u.heat.level = 263484 ∧
      u.firing.pulses.map (·.width) = [172] := by decide +kernel

/-! ## Forms (09) -/

/-- R148: L 3,168, p 1,000 and the default tear gap make a tear advance of 2,888. -/
theorem test_tear_advance : tearAdvanceOf { formsDefault true false with position := 1000 } 720 = 2888 := by decide

/-- R147, R148: the tear timer's expiry begins that tear advance. -/
theorem test_tear_off :
    let s := withForms (fun f => { f with position := 1000, tearTimer := some 5 }) (idle .ready)
    let t := after .tearTimerExpiry s
    t.forms.paper = .tearing ∧ t.forms.feed.map (·.remaining) = some 2888 := by decide +kernel

/-- R155: with the lever not CLOSED the loading stands suspended. -/
theorem test_loading_suspended :
    let s := withForms (fun f => { f with paper := .noForms, presenceTimer := true, lever := .settling }) (idle .ready)
    (after .presenceTimerExpiry s).forms.feed.map (·.suspended) = some true := by decide +kernel

/-! ## Run Control (10) -/

/-- R162: HALT with nothing in hand, then GO. -/
theorem test_halt_go :
    (after .halt (idle .ready)).run.executor = .halted ∧
      (run [.halt, .go] (idle .ready)).run.executor = .ready := by decide +kernel

/-- R166: LO is the fourth cause; R168: it raises ATTN. -/
theorem test_lever_opens :
    let t := after .leverOpen (idle .ready)
    firstCause t.run.causes = 4 ∧ t.attn = true ∧ t.forms.lever = .opened := by decide +kernel

/-- R144, R159: an ADVANCE of 12 steps is taken up at once and its feed begins. -/
theorem test_advance_begins :
    let t := after (.advance 0 12) (idle .ready)
    t.run.executor = .running ∧ t.forms.feed.map (·.remaining) = some 12 := by decide +kernel

/-- R144: an ADVANCE of 0 steps is finished in the event that began it, and DR is latched. -/
theorem test_advance_of_nothing :
    let t := after (.advance 0 0) (idle .ready)
    t.run.executor = .ready ∧ t.queue.entries = [] ∧ isPending .DR t = true := by decide +kernel

/-- R33, R34: GO removes eight pass-only settings in one event, DR is latched as the queue is left empty, and then the
waiting LINE is offered and admitted. -/
def eightSets : State :=
  { queued .halted (List.replicate 8 (.settings none (passPartOf setExample))) with
    intake := { State.reset.intake with laneQ := [.lineFirst header true [3, 0, 1]] } }

theorem test_go_drains_then_offers :
    let t := after .go eightSets
    t.queue.entries = [.line header [[3, 0, 1]] .opened] ∧ isPending .DR t = true ∧ t.intake.laneQ = [] := by
  decide +kernel

/-- A two-step move leftward with one ramp interval. -/
def twoSteps : Move := { side := .leftward, len := 2, idx := 0, profile := { cruise := 50, ramp := [50] } }

/-- Pass 1 of a two-pass line one arrival before its end at 99. -/
def lastStep : State :=
  { queued .running [.line { header with twoPass := 1 } [[]] (.active .one)] with
    buffers := { one := .inUse dot, two := .free }
    carriage := { position := some 100, drive := .passRun { twoSteps with idx := 1 } }
    planner := { schedule := some { fires := [⟨104, 1⟩], mark := 1 }, keptDir := some .leftward }
    run := { State.reset.run with executor := .running, inHand := some (.linePass false false true) } }

/-- R113: a RESET taken with the last arrival of a pass run finds or leaves the carriage at p_end in either order; with no
RESET the pass start is still made. -/
theorem test_reset_with_last_arrival :
    (after (.passRunArrival false) lastStep).carriage = { position := some 99, drive := .stopped } ∧
      (run [.passRunArrival false, .reset] lastStep).carriage = { position := some 99, drive := .stopped } ∧
      (run [.reset, .stoppingArrival false] lastStep).carriage = { position := some 99, drive := .stopped } ∧
      (run [.passRunArrival false, .passStart] lastStep).carriage.drive ≠ .stopped := by decide +kernel

/-! ## Witnesses: a state and operands that meet the hypotheses of each statement, clause by clause, at a boundary -/

theorem test_meets_step_runs :
    ({ State.reset with pending := [.halt, .go] }).pending = [.halt, .go] ∧ State.reset.pending = [] := by decide

def fullQueue : State := queued .halted (List.replicate 8 (.advance 0 1))

theorem test_meets_queue_law :
    QueueSound fullQueue.queue ∧ step { fullQueue with pending := [.halt] } = .next (after .halt fullQueue) := by
  refine ⟨by unfold QueueSound; decide, rfl⟩

/-- At the greatest values of the ranges: p at L − 1, z at L − 144, the count at 65,535, r at S_e, acc at 15. -/
def extremes : State :=
  withForms (fun f =>
    { f with position := 6911, length := 6912, skip := 6768, count := 65535, acc := 15, tracking := some 4032 })
    { idle .ready with geometry := { stagger := 63, tearGap := 2880, sensorDist := 4032, ratio := 24 } }

theorem test_meets_ranges :
    HeatSound extremes.heat ∧ SettingsSound extremes.settings ∧ GeometrySound extremes.geometry ∧
      FormSound extremes.forms ∧ FormRanges extremes.forms extremes.geometry ∧ AccSound extremes.forms ∧
      RepliesSound extremes.intake ∧ CountersSound extremes ∧
      step { extremes with pending := [.halt] } = .next (after .halt extremes) := by
  refine ⟨?_, ?_, ?_, ?_, ⟨by decide, by decide, by decide, by decide, ?_⟩, ?_, ?_, ?_, rfl⟩
  case refine_5 => intro r h; injection h with h; rw [← h]; decide
  all_goals simp only [HeatSound, SettingsSound, GeometrySound, FormSound, AccSound, RepliesSound, CountersSound]
  all_goals decide

theorem test_tables_sound : TablesSound tablesDefault := by
  refine ⟨?_, ?_, ?_, ?_, ?_, ?_, ?_⟩ <;> decide +kernel

theorem test_profiles_sound : ProfilesSound tablesDefault := by unfold ProfilesSound; decide +kernel

theorem test_empty_lines : LinesSound { entries := [], cursor := 0 } { one := .free, two := .free } where
  fits := fun _ he => nomatch he
  once := fun i _ _ _ _ hi => by cases i <;> cases hi
  held := fun n hn => by cases n <;> exact absurd rfl hn
  front := fun i _ hi => by cases i <;> cases hi
  cursor := fun i _ _ _ hi => by cases i <;> cases hi

theorem test_empty_stage : StageSound { entries := [], cursor := 0 } .empty tablesDefault where
  tables := test_tables_sound
  binding := fun _ h => nomatch h
  holds := fun _ _ h => nomatch h
  once := fun i _ _ _ _ _ hi => by cases i <;> cases hi
  held := fun _ h => nomatch h

/-- The laws hold together, with nothing queued. -/
theorem test_meets_sound : Sound (idle .halted) where
  heat := by unfold HeatSound; decide
  acc := by unfold AccSound; decide
  replies := by unfold RepliesSound; decide
  counters := by unfold CountersSound; decide
  form := by unfold FormSound; decide
  ranges := ⟨by decide, by decide, by decide, by decide, fun _ h => nomatch h⟩
  timers := ⟨by decide, by decide⟩
  executor := by unfold ExecutorSound; decide
  intake := by unfold IntakeSound; decide
  queue := by unfold QueueSound; decide
  lines := test_empty_lines
  inHand := fun _ he => nomatch he
  stage := test_empty_stage
  settings := by unfold SettingsSound; decide
  geometry := by unfold GeometrySound; decide
  profiles := test_profiles_sound
  buffers := by intro i; cases i <;> trivial
  carriage := ⟨48, rfl, by decide, by decide⟩

theorem test_meets_sound_step : step { idle .halted with pending := [.go] } = .next (after .go (idle .halted)) := rfl

/-- The positions of R105 at their ends: a pass run whose next step is its last, from 42 to 41, and a deceleration. -/
theorem test_meets_carriage_law :
    CarriageSound { position := some 42, drive := .passRun { twoSteps with idx := 1 } } ∧
      CarriageSound { position := some 7114, drive := .stopping ⟨.rightward, 50, 0, twoSteps.profile⟩ } ∧
      CarriageSound { position := some 7115, drive := .stopped } ∧
      CarriageSound { position := some 47, drive := .homing ⟨.three, 23, false⟩ } :=
  ⟨⟨42, rfl, ⟨by decide, by decide⟩, by decide, ⟨by decide, by decide⟩⟩,
    ⟨7114, rfl, ⟨by decide, by decide⟩, ⟨by decide, by decide⟩⟩, ⟨7115, rfl, by decide, by decide⟩, rfl, by decide⟩

/-- A full intake buffer, RDY at its threshold and one byte below it. -/
theorem test_meets_intake_law :
    IntakeSound (withFrame .body ([0xC3, 0x10, 4, 0] ++ List.replicate 1024 0) (idle .ready)).intake ∧
      ({ idle .ready with intake := { (idle .ready).intake with frame := List.replicate 1204 0 } }).intake.freeSpace =
        1100 ∧
      ({ idle .ready with intake := { (idle .ready).intake with frame := List.replicate 1205 0 } }).intake.freeSpace =
        1099 := by
  refine ⟨⟨by decide +kernel, nofun, nofun, fun _ => by decide +kernel⟩, by decide +kernel, by decide +kernel⟩

/-- An ACTIVE line in hand, alone in the queue, meets the laws of the lines and of the entry in hand. -/
theorem test_meets_lines :
    let s : State := { queued .running [.line header [[]] (.active .one)] with
      buffers := { one := .inUse dot, two := .free } }
    LinesSound s.queue s.buffers ∧ InHandSound (some (.linePass true false false)) s.queue s.buffers := by
  have one : ∀ (i : Nat) (e : Entry), [Entry.line header [[]] (.active .one)][i]? = some e →
      i = 0 ∧ e = .line header [[]] (.active .one) := by
    intro i e hi
    cases i with
    | zero => exact ⟨rfl, by simpa using hi.symm⟩
    | succ i => simp at hi
  refine ⟨⟨?_, ?_, ?_, ?_, ?_⟩, ⟨header, [[]], .one, dot, rfl, rfl, by decide⟩⟩
  · intro e he
    rw [List.mem_singleton.mp he]
    exact ⟨dot, rfl⟩
  · intro i j d e n hi hj _ _
    rw [(one i d hi).1, (one j e hj).1]
  · intro n hn
    cases n with
    | one => exact ⟨_, List.mem_singleton.mpr rfl, rfl⟩
    | two => exact absurd rfl hn
  · intro i e hi _
    rw [(one i e hi).1]
    rfl
  · intro i hd ps n hi
    injection (one i _ hi).2 with _ _ h
    cases h

/-- HALTING with a wait reason kept, and an advance that a fault stop has left in hand. -/
theorem test_meets_executor_law :
    ExecutorSound { State.reset.run with executor := .halting, reason := .heat, inHand := some (.lineDue true .heat) } ∧
      ExecutorSound { State.reset.run with executor := .faultStop, inHand := some (.advance true) } := by
  unfold ExecutorSound
  decide

/-- Four equal profiles with the least cruise and the shortest ramp (R49). -/
def leastTables : Tables := { tablesDefault with profiles := List.replicate 4 [0, 50, 1, 0, 50] }

theorem test_meets_profile_law :
    ProfilesSound leastTables ∧
      step { idle .ready with pending := [.halt], tables := leastTables } =
        .next (after .halt { idle .ready with tables := leastTables }) := by
  refine ⟨by unfold ProfilesSound; decide, rfl⟩

def locked : State := { idle .ready with run := { (idle .ready).run with locked := true } }

theorem test_meets_locked_geometry : locked.run.locked = true ∧ exec .halt locked = .next (after .halt locked) :=
  ⟨rfl, rfl⟩

theorem test_meets_sticky :
    exec .drop { idle .faultStop with run := { (idle .faultStop).run with causes := stickyCauses } } =
      .next (after .drop { idle .faultStop with run := { (idle .faultStop).run with causes := stickyCauses } }) := rfl

/-! ### The link -/

theorem test_meets_bytes_received :
    State.reset.intake.frameState = .hunt ∧ State.reset.intake.freeSpace ≠ 0 ∧
    (withFrame .header [0xC3, 0x10] State.reset).intake.freeSpace ≠ 0 ∧
    (let s := withFrame .body [0xC3, 0xA5, 0, 2] State.reset
     s.intake.frameState = .body ∧ s.intake.frame.length + 1 < 5 + frameLength (s.intake.frame ++ [0])) ∧
    (let s := withFrame .header [0xC3, 0x10, 4] State.reset
     s.intake.frame.length = 3 ∧ headerSound (s.intake.frame ++ [0]) = true ∧ s.intake.freeSpace ≠ 0) := by
  decide +kernel

/-- The intake buffer full with the waiting frames. -/
def noSpace (s : State) : State :=
  { s with intake := { s.intake with laneQ := List.replicate 288 (.advance 0 0) } }

theorem test_meets_frames_discarded :
    (withFrame .body [0xC3] State.reset).intake.frameState ≠ .hunt ∧
    (noSpace State.reset).intake.freeSpace = 0 ∧ (noSpace State.reset).intake.frameState = .hunt ∧
    (let s := withFrame .header [0xC3, 0xA0, 0] State.reset
     s.intake.frame.length = 3 ∧ headerSound (s.intake.frame ++ [1]) = false ∧ s.intake.timer = true) ∧
    (let s := withFrame .body [0xC3, 0xA0, 0, 0] State.reset
     s.intake.frame.length + 1 = 5 + frameLength (s.intake.frame ++ [0x61]) ∧
       frameSum (s.intake.frame ++ [0x61]) ≠ 0) ∧
    (let s := withFrame .body [0xC3, 0x20, 0, 0] State.reset
     s.intake.frame.length + 1 = 5 + frameLength (s.intake.frame ++ [0xE0]) ∧
       frameSum (s.intake.frame ++ [0xE0]) = 0 ∧ frameKind (s.intake.frame ++ [0xE0]) = some .query ∧
       Kind.query.laneN ≠ frameLaneN (s.intake.frame ++ [0xE0])) ∧
    (let s := withFrame .body [0xC3, 0x13, 0, 2, 0x00, 0x01] State.reset
     let frame := s.intake.frame ++ [0xEA]
     s.intake.freeSpace ≠ 0 ∧ frame.length = 5 + frameLength frame ∧ frameSum frame = 0 ∧
       frameKind frame = some .set ∧ frameLaneN frame = false ∧
       ((frame.drop 4).take (frameLength frame)).length ≠ 2 + 2 ∧ (fieldAt (frame.drop 4) 0 2).testBit 0 = true) := by
  decide +kernel

theorem test_meets_frame_bytes :
    State.reset.intake.frameState = .hunt ∧ State.reset.intake.frame = [] ∧ State.reset.intake.timer = false ∧
    (QRecord.lineCont false (List.replicate 1015 0)).payloadSize = 1024 ∧
    (QRecord.lineCont false (List.replicate 1015 0)).frameSize ≤ State.reset.intake.freeSpace ∧
    (NRecord.stage 2 0 0 false (List.replicate 1000 0)).payload.length = 1006 ∧
    (NRecord.stage 2 0 0 false (List.replicate 1000 0)).frame.length ≤ State.reset.intake.freeSpace := by
  decide +kernel

theorem test_meets_record_waits :
    qRecordOfCommand (.advance 0 1) = some (.advance 0 1) ∧ Settled fullQueue ∧ fullQueue.intake.laneQ = [] ∧
      fullQueue.queue.entries.length = 8 ∧ openTail fullQueue.queue = none ∧
      (QRecord.advance 0 1).closesOpen = true ∧ (QRecord.advance 0 1).payloadSize ≤ 1024 ∧
      (QRecord.advance 0 1).frameSize ≤ fullQueue.intake.freeSpace :=
  ⟨rfl, rfl, rfl, rfl, rfl, rfl, by decide, by decide +kernel⟩

/-- A SET that names no field, beside a full queue. -/
theorem test_meets_empty_set :
    let f : SetFields := { setExample with tRec := none, formsClass := none }
    buildPartOf f = none ∧ passPartOf f = none ∧ Settled fullQueue ∧ fullQueue.intake.laneQ = [] ∧
      openTail fullQueue.queue = none ∧ 7 ≤ fullQueue.intake.freeSpace :=
  ⟨rfl, rfl, rfl, rfl, rfl, by decide +kernel⟩

def replying (n : Nat) : State :=
  { State.reset with intake := { State.reset.intake with replies := List.replicate n [0xC3] } }

theorem test_meets_replies :
    ([] : List Byte).length < 65536 ∧ (replying 4).intake.replies = [0xC3] :: List.replicate 3 [0xC3] := by decide

/-- The stage BOUND to the strike page, and BOUND to a loadable glyph slot. -/
def strikeBinding : Binding := { table := .strike, page := 0, cursor := 32, bytes := strikeDefault }
def glyphBinding : Binding := { table := .glyphs, page := 447, cursor := 0, bytes := blankGlyph }
def profileBinding : Binding := { table := .profile, page := 3, cursor := 403, bytes := profilePage 500 16 }

theorem test_meets_requests :
    (replying 3).intake.replies.length < 4 ∧ 4 ≤ (replying 4).intake.replies.length ∧
      pageNamed 2 1 = none ∧ pageNamed 4 0 = none ∧ pageNamed 2 0 = some (.strike, 0) ∧
      stagedPage (.bound strikeBinding) .strike 0 = some strikeDefault ∧ stagedPage .empty .strike 0 = none := by
  decide +kernel

theorem test_meets_status :
    let s : State := { idle .ready with
      stage := .bound profileBinding, carriage := { position := some (7199 : Nat), drive := .stopped },
      forms := { (idle .ready).forms with tracking := some 4032 } }
    s.stage.binding = some profileBinding ∧ profileBinding.page < 448 ∧ profileBinding.cursor ≤ 403 ∧
      s.carriage.position = some ((7199 : Nat) : Int) ∧ s.forms.tracking = some 4032 ∧ s.heat.level ≤ 1048575 ∧
      s.forms.position < 65536 ∧ s.forms.length < 65536 ∧ s.forms.count < 65536 ∧ s.queue.entries.length ≤ 8 ∧
      State.reset.stage = .empty ∧ State.reset.carriage.position = none ∧ State.reset.forms.tracking = none := by
  decide +kernel

theorem test_meets_status_counters : CountersSound State.reset := by unfold CountersSound; decide

/-! ### The stage -/

theorem test_meets_stage_refused :
    ([] : List Byte).length ≤ 1000 ∧ pageNamed 1 448 = none ∧ pageNamed 1 383 = some (.glyphs, 383) ∧
      stageable .glyphs 383 = false ∧ pageNamed 1 384 = some (.glyphs, 384) ∧ stageable .glyphs 384 = true ∧
      ({ State.reset with stage := .held glyphBinding }).stage = .held glyphBinding ∧
      ¬(glyphBinding.table = .glyphs ∧ glyphBinding.page = 384) := by decide

theorem test_meets_stage_cleared : ∀ b, State.reset.stage ≠ .held b := nofun

theorem test_meets_stage_writes :
    (livePage State.reset.tables .strike 0).length = TableId.strike.pageSize ∧ stageable .strike 0 = true ∧
      State.reset.stage = .empty ∧ strikeBinding.bytes.length = TableId.strike.pageSize ∧
      ¬(true = true ∧ ([7] : List Byte) = []) := by decide +kernel

theorem test_meets_live_pages :
    (profilePage 500 16).length = 403 ∧ byteAt (profilePage 500 16) 2 ≤ 200 ∧
      profileValid tablesDefault 3 (profilePage 500 16) = true ∧
      profileValid tablesDefault 3 (profilePage 249 16) = false := by decide +kernel

/-! ### Control records -/

/-- A line that waits to be built, HALTING. -/
def haltingLine : State := inHand .halting [.line header [[]] .opened] .notBuilt

theorem test_meets_go :
    Settled (idle .ready) ∧ Settled { haltingLine with
      queue := { haltingLine.queue with cursor := 0 }
      run := { haltingLine.run with executor := .waiting, reason := .notBuilt } } := ⟨rfl, rfl⟩

theorem test_meets_go_drained :
    eightSets.run.executor = .halted ∧ eightSets.run.inHand = none ∧ eightSets.carriage.drive.moving = false ∧
      eightSets.forms.paperRequest = false ∧ NoFeedEnds eightSets ∧
      eightSets.queue = { entries := (List.replicate 8 ((passPartOf setExample).getD ⟨none, none, none, none, none, none,
          none, none⟩)).map fun p => .settings none (some p), cursor := 8 } ∧
      eightSets.intake.laneQ = [.lineFirst header true [3, 0, 1]] ∧ ([3, 0, 1] : List Byte).length ≤ 1015 :=
  ⟨rfl, rfl, rfl, rfl, rfl, rfl, rfl, by decide⟩

theorem test_meets_drop :
    (∀ e ∈ fullQueue.queue.entries, e.isActive = false) ∧ fullQueue.run.inHand = none ∧ NoFeedEnds fullQueue ∧
      fullQueue.forms.paperRequest = false := ⟨by decide, rfl, rfl, rfl⟩

def feeding (purpose : Purpose) (dir : FeedDir) (n : Nat) (suspended : Bool) : Feed :=
  { purpose := purpose, dir := dir, total := n, remaining := n, suspended := suspended, ending := .goOn }

/-- An advance whose feed goes on, in hand. -/
def advancing : State :=
  withForms (fun f => { f with feed := some (feeding .advance .forward 3 false) })
    (inHand .halting [.advance 0 3] (.advance true))

theorem test_meets_drop_in_hand :
    (∀ e ∈ advancing.queue.entries, e.isActive = false) ∧ NoFeedEnds advancing ∧
      advancing.run.inHand = some (.advance true) := ⟨by decide, rfl, rfl⟩

/-- A pass of the line at the front in progress. -/
def passing (last rs fd : Bool) : State :=
  { inHand .running [.line header [[]] (.active .one)] (.linePass last rs fd) with
    buffers := { one := .inUse dot, two := .free } }

theorem test_meets_drop_active :
    (passing true false false).queue.entries = .line header [[]] (.active .one) :: [] ∧
      (passing true false false).run.inHand = some (.linePass true false false) ∧ NoFeedEnds (passing true false false) ∧
      (passing true false false).forms.paperRequest = false := ⟨rfl, rfl, rfl, rfl⟩

/-- A line whose pass start waits for the lever, and one with no pass whose feed goes on. -/
theorem test_meets_drop_due :
    let due : State := withForms (fun f => { f with lever := .opened })
      { passing true false false with
        run := { State.reset.run with executor := .waiting, reason := .lever, inHand := some (.lineDue true .lever) } }
    let fed : State := withForms (fun f => { f with feed := some (feeding .afterLine .forward 9 false) })
      { passing true false false with run := { State.reset.run with executor := .running, inHand := some (.lineFeed true) } }
    due.queue.entries = .line header [[]] (.active .one) :: [] ∧ due.run.inHand = some (.lineDue true .lever) ∧
      Settled due ∧ fed.run.inHand = some (.lineFeed true) ∧ Settled fed ∧
      InHand.isActive (.lineDue true .lever) = true ∧ InHand.isActive (.lineFeed true) = true :=
  ⟨rfl, rfl, rfl, rfl, rfl, rfl, rfl⟩

/-- The forms in this paper state, with this feed. -/
def fedIn (paper : Paper) (f : Feed) (s : State) : State :=
  withForms (fun g => { g with paper := paper, feed := some f }) s

theorem test_meets_reset_forms :
    (∀ f, (fedIn .loading (feeding .loading .forward 9 true) (idle .ready)).forms.feed = some f → f.suspended = true) ∧
      (idle .ready).geometry.sensorDist ≠ 0 ∧ (feeding .ejection .forward 9 true).total ≠ 0 ∧
      (feeding .tearAdvance .forward 9 false).suspended = false ∧
      (feeding .tearAdvance .forward 9 false).ending ≠ .cutShort := by
  refine ⟨fun f h => ?_, by decide, by decide, rfl, by decide⟩
  injection h with h
  rw [← h]
  rfl

theorem test_meets_reset_arrival :
    let f : Feed := { feeding .ejection .forward 9 false with remaining := 1, ending := .reset }
    let s := fedIn .ejecting f (idle .ready)
    s.forms.feed = some f ∧ f.suspended = false ∧ f.remaining ≠ 0 ∧ f.ending = .reset ∧ s.forms.tracking = none ∧
      NoWork s ∧ f.purpose = .ejection ∧ f.dir = .forward ∧ f.total ≠ 0 :=
  ⟨rfl, rfl, by decide, rfl, rfl, ⟨rfl, rfl, rfl, rfl, rfl⟩, rfl, rfl, by decide⟩

/-- FAULT STOP with these causes pending and the carriage here. -/
def faulted (causes : CauseSet) (c : Carriage) : State :=
  { idle .faultStop with carriage := c, run := { (idle .faultStop).run with causes := causes } }

theorem test_meets_acks :
    let homing := faulted stickyCauses { position := none, drive := .unhomed }
    let known := faulted stickyCauses { position := some 48, drive := .stopped }
    (idle .ready).run.executor ≠ .faultStop ∧ homing.run.executor = .faultStop ∧
      homing.run.causes &&& stickyCauses &&& ~~~((1#16).setWidth 15) ≠ 0 ∧
      homing.run.causes &&& stickyCauses &&& ~~~((3#16).setWidth 15) = 0 ∧ homing.carriage.drive = .unhomed ∧
      known.run.causes &&& stickyCauses &&& ~~~((3#16).setWidth 15) = 0 ∧ known.carriage.drive ≠ .unhomed ∧
      NoWork known :=
  ⟨by decide, rfl, by decide, by decide, rfl, by decide, by decide, ⟨rfl, rfl, rfl, rfl, rfl⟩⟩

theorem test_meets_first_cause : (State.powerOn [] 0 false false true).run.causes ≠ 0 := by decide

/-! ### Admission -/

/-- Seven entries, so that one is free. -/
def seven : State := queued .halted (List.replicate 7 (.advance 0 1))

theorem test_meets_offers :
    OffersAtOnce seven ∧ seven.queue.entries.length < 8 ∧ openTail seven.queue = none ∧ 27 ≤ seven.intake.freeSpace :=
  ⟨⟨rfl, rfl, rfl, by decide⟩, by decide, rfl, by decide⟩

/-- Run Control has an entry in hand that waits; READY, the carriage still moves; READY, the queue is empty. -/
theorem test_meets_offers_busy :
    OffersAtOnce { inHand .running [.advance 0 3] (.advance true) with
        forms := { (idle .ready).forms with feed := some (feeding .advance .forward 3 false) } } ∧
      OffersAtOnce { queued .ready [.advance 0 1] with
        carriage := { position := some 7114, drive := .stopping ⟨.rightward, 50, 0, ⟨50, [50]⟩⟩ } } ∧
      TakesUpAtOnce (idle .ready) ∧ 27 ≤ (idle .ready).intake.freeSpace :=
  ⟨⟨rfl, rfl, rfl, by decide⟩, ⟨rfl, rfl, rfl, by decide⟩,
    ⟨rfl, rfl, rfl, rfl, rfl, rfl, rfl⟩, by decide⟩

theorem test_meets_set :
    passPartOf setExample ≠ none ∧ buildPartOf setExample ≠ none ∧
      passPartOf { setExample with formsClass := none } = none ∧
      buildPartOf { setExample with tRec := none } = none := by decide

theorem test_meets_commit :
    OffersAtOnce { seven with stage := .bound strikeBinding } ∧
      OffersAtOnce { seven with stage := .bound glyphBinding } ∧ strikeBinding.table.code = 2 ∧
      glyphBinding.table.code = 1 ∧ glyphBinding.page = (447#16).toNat ∧
      ∀ b, seven.stage = .bound b → ¬(b.table.code = 2 ∧ b.page = 0) :=
  ⟨⟨rfl, rfl, rfl, by decide⟩,
    ⟨rfl, rfl, rfl, by decide⟩, rfl, rfl, rfl, nofun⟩

theorem test_meets_first_part :
    (List.replicate 1015 (0 : Byte)).length ≤ seven.queue.arenaFree ∧
      (List.replicate 1015 (0 : Byte)).length + 14 ≤ seven.intake.freeSpace ∧
      seven.buffers.firstFree = some .one ∧
      ({ one := .ready dot, two := .ready dot } : Buffers).firstFree = none := by decide +kernel

/-- An OPEN line at the tail, under the cursor, that holds 12,280 bytes. -/
def openLine : State :=
  { queued .halted [.line header [List.replicate 12280 0] .opened] with
    queue := { entries := [.line header [List.replicate 12280 0] .opened], cursor := 0 }
    buffers := { one := .ready dot, two := .ready dot } }

theorem test_meets_continuation :
    Settled seven ∧ openTail seven.queue = none ∧ seven.intake.laneQ = [] ∧ Settled openLine ∧
      openTail openLine.queue = some (header, [List.replicate 12280 0]) ∧ openLine.buffers.firstFree = none ∧
      RunAtRest openLine ∧ NoFeedEnds openLine :=
  ⟨rfl, rfl, rfl, rfl, rfl, rfl, ⟨rfl, rfl, .inr (.inl rfl)⟩, rfl⟩

theorem test_meets_continuation_room :
    (([List.replicate 12280 (0 : Byte)].map List.length).sum + (List.replicate 8 (0 : Byte)).length ≤ 12288) ∧
      12288 < ([List.replicate 12280 (0 : Byte)].map List.length).sum + (List.replicate 9 (0 : Byte)).length ∧
      (List.replicate 8 (0 : Byte)).length ≤ openLine.queue.arenaFree ∧ 1029 ≤ openLine.intake.freeSpace := by
  decide +kernel

/-- An OPEN line with the last bytes of the arena under it, behind a line that is built: a part of a byte finds no room. -/
def arenaFull : State :=
  { openLine with
    queue := { entries := [.line header [List.replicate 12288 0] .complete, .line header [List.replicate 12288 0] .opened],
               cursor := 0 } }

theorem test_meets_continuation_waits :
    arenaFull.queue.arenaFree = 0 ∧ Settled arenaFull ∧ arenaFull.intake.laneQ = [] ∧
      { openLine with buffers := { one := .ready dot, two := .free } }.buffers.firstFree = some .two ∧
      openLine.queue.cursor + 1 = openLine.queue.entries.length :=
  ⟨by decide +kernel, rfl, rfl, rfl, rfl⟩

theorem test_meets_open_discarded :
    openLine.queue.entries = [] ++ [.line header [List.replicate 12280 0] .opened] ∧ openLine.queue.cursor = 0 ∧
      openTail { entries := [], cursor := 0 } = none ∧
      qRecordOfCommand (.set setExample) = some (.set setExample) ∧ (QRecord.set setExample).payloadSize ≤ 1024 :=
  ⟨rfl, rfl, rfl, rfl, by decide⟩

/-- The same line at the front, in hand, HALTING. -/
theorem test_meets_open_given_up :
    let s : State := { openLine with
      run := { openLine.run with executor := .halting, reason := .notBuilt, inHand := some .notBuilt } }
    s.run.inHand = some .notBuilt ∧ NoFeedEnds s ∧ s.intake.laneQ = [] ∧ s.forms.paperRequest = false ∧
      s.queue = { entries := [.line header [List.replicate 12280 0] .opened], cursor := 0 } := ⟨rfl, rfl, rfl, rfl, rfl⟩

/-! ### The builder and the front -/

/-- A build of an empty line in progress at the end of the queue. -/
def building : State :=
  { queued .halted [] with
    queue := { entries := [.line header [[]] (.building .one)], cursor := 0 }
    buffers := { one := .filling (l20 480 400), two := .free } }

theorem test_meets_build_end :
    buildInProgress building = some (header, [[]], .one, l20 480 400) ∧ RunAtRest building ∧ NoFeedEnds building ∧
      building.intake.laneQ = [] ∧
      builderStep { building with queue := { building.queue with cursor := 1 } } = none :=
  ⟨rfl, ⟨rfl, rfl, .inr (.inl rfl)⟩, rfl, rfl, rfl⟩

/-- Entries behind the line that is built: a marker, and a line that is COMPLETE with a column buffer FREE. -/
theorem test_meets_build_behind :
    let marker : State := { building with queue := { entries := building.queue.entries ++ [.form 0 0], cursor := 0 } }
    let line : State := { building with
      queue := { entries := building.queue.entries ++ [.line header [[]] .complete], cursor := 0 } }
    marker.queue.entries[0 + 1]? = some (.form 0 0) ∧ marker.queue.cursor + 2 = marker.queue.entries.length ∧
      line.queue.entries[0 + 1]? = some (.line header [[]] .complete) ∧
      (line.buffers.set .one (.ready dot)).firstFree = some .two := ⟨rfl, rfl, rfl, rfl⟩

/-- The line that is built is waited for at the front; its image has a dark extent, and none where it has no runs. -/
theorem test_meets_build_awaited :
    let s : State := { building with
      run := { building.run with executor := .waiting, reason := .notBuilt, inHand := some .notBuilt } }
    s.queue = { entries := [.line header [[]] (.building .one)], cursor := 0 } ∧ s.run.inHand = some .notBuilt ∧
      s.forms.paper = .atPrint ∧ s.forms.feed = none ∧ s.forms.lever = .closed ∧
      s.carriage = { position := some 48, drive := .stopped } ∧ skipDue s.forms = false ∧ s.forms.tracking = none ∧
      s.heat.band ≠ 3 ∧ (buildResult (l20 480 400)).image.extent ≠ none ∧
      (buildResult { l20 480 400 with parts := [[]] }).image.extent = none := by
  refine ⟨rfl, rfl, rfl, rfl, rfl, rfl, rfl, rfl, by decide, by decide +kernel, by decide +kernel⟩

/-- Codes that make up a TEXT run, and one short of it; masks likewise. -/
theorem test_meets_runs :
    ([156, 156] : List Byte).length = 256 * (0#8).toNat + (2#8).toNat ∧
      ([156, 156] : List Byte).length < 256 * (1#8).toNat + (0#8).toNat ∧
      ([0, 0, 7] : List Byte).length = 3 * (256 * (0#8).toNat + (1#8).toNat) ∧
      ([0, 0, 7, 9] : List Byte).length < 3 * (256 * (0#8).toNat + (2#8).toNat) := by decide

theorem test_meets_recovery :
    (∀ i < 4, ∀ j < 4, i ≤ j → (l20 480 1200).cruises.getD i 0 ≤ (l20 480 1200).cruises.getD j 0) ∧
      0 < (l20 480 1200).cruises.getD 3 0 ∧ (l20 480 1200).floor ≤ 3 := by decide

def passPart : PassPart := (passPartOf setExample).getD ⟨none, none, none, none, none, none, none, none⟩

theorem test_meets_no_needs :
    let s := queued .ready [.settings none (some passPart)]
    s.run.executor = .ready ∧ s.run.inHand = none ∧ s.carriage.drive.moving = false ∧
      s.queue.entries = [.settings none (some passPart)] ∧ s.intake.laneQ = [] ∧ s.forms.paperRequest = false ∧
      NoFeedEnds s := ⟨rfl, rfl, rfl, rfl, rfl, rfl, rfl⟩

theorem test_meets_barrier :
    ({ queued .ready [.commit .strike 0] with stage := .held strikeBinding }).queue.entries =
        [.commit strikeBinding.table strikeBinding.page] ∧
      profileValid tablesDefault 3 profileBinding.bytes = true ∧
      profileValid tablesDefault 3 (profilePage 49 16) = false := by decide +kernel

theorem test_meets_markers_taken_up :
    let s := queued .ready [.geometry 63 0 0 255]
    s.run.executor = .ready ∧ s.run.inHand = none ∧ s.carriage.drive.moving = false ∧ s.forms.paper = .atPrint ∧
      s.intake.laneQ = [] ∧ s.forms.paperRequest = false ∧ NoFeedEnds s ∧ s.queue.cursor = 1 ∧ s.run.locked = false ∧
      (queued .ready [.form 0 0]).queue.cursor = 1 := ⟨rfl, rfl, rfl, rfl, rfl, rfl, rfl, rfl, rfl, rfl⟩

theorem test_meets_advance_taken_up :
    let s := queued .ready [.advance 0 4095]
    s.run.executor = .ready ∧ s.run.inHand = none ∧ s.carriage.drive.moving = false ∧
      s.queue = { entries := [.advance 0 4095], cursor := 1 } ∧ s.intake.laneQ = [] ∧ s.forms.paperRequest = false ∧
      s.forms.feed = none ∧ s.forms.paper = .atPrint ∧ (0#8) ≠ 2 ∧ min 4095 (4095#16).toNat ≠ 0 ∧
      (withForms (fun f => { f with paper := .atTear, tearAdvance := some 720 }) s).forms.tearAdvance = some 720 :=
  ⟨rfl, rfl, rfl, rfl, rfl, rfl, rfl, rfl, by decide, by decide, rfl⟩

/-- The other paper states, each with its feed: a tear-off, also one that a RESET has stopped, a loading, a return. -/
theorem test_meets_advance_waits :
    let s := queued .ready [.advance 2 0]
    let tear := fedIn .tearing (feeding .tearAdvance .forward 9 false) s
    NoFeedEnds tear ∧ tear.forms.feed = some (feeding .tearAdvance .forward 9 false) ∧
      NoFeedEnds (fedIn .tearing { feeding .tearAdvance .forward 9 false with ending := .reset } s) ∧
      NoFeedEnds (fedIn .loading (feeding .loading .forward 1 true) s) ∧
      NoFeedEnds (fedIn .returning (feeding .return .reverse 1 false) s) ∧
      NoFeedEnds (fedIn .atPrint { feeding .advance .forward 9 false with ending := .abandon } s) :=
  ⟨rfl, rfl, rfl, rfl, rfl, rfl⟩

theorem test_meets_built_line :
    let s : State := withForms (fun f => { f with lever := .opened })
      { queued .ready [.line header [[]] (.built .two)] with buffers := { one := .free, two := .ready dot } }
    s.run.executor = .ready ∧ s.run.inHand = none ∧ s.carriage.drive.moving = false ∧
      s.queue = { entries := [.line header [[]] (.built .two)], cursor := 1 } ∧ s.buffers.get .two = .ready dot ∧
      dot.extent ≠ none ∧ s.forms.lever ≠ .closed ∧ s.forms.feed = none ∧ header.feedAfter ≠ 0 ∧
      { dot with cols := [0], extent := none }.extent = none := by
  refine ⟨rfl, rfl, rfl, rfl, rfl, by decide, by decide, rfl, by decide, rfl⟩

/-! ### Pass starts -/

/-- The first pass start of the line at the front, held by heat until now. -/
def due : State :=
  { inHand .waiting [.line header [[]] (.active .one)] (.lineDue true .heat) with
    buffers := { one := .inUse dot, two := .free } }

theorem test_meets_pass_due :
    PassStartDue true due ∧ due.carriage.position = some 48 ∧ due.forms.tracking = none ∧ due.heat.band ≠ 3 ∧
      skipDue due.forms = false ∧ frontHeader due.queue = some header ∧ activeImage due = some dot ∧
      (withHeat (fun h => { h with level := 786432 }) due).heat.band = 3 :=
  ⟨⟨⟨.heat, rfl, rfl⟩, rfl, rfl, rfl, rfl, rfl, rfl, rfl⟩, rfl, rfl, by decide, by decide, rfl, rfl, by decide⟩

theorem test_meets_skip :
    let s := withForms (fun f => { f with skip := 168, position := 3000 }) due
    PassStartDue true s ∧ FormSound s.forms ∧ s.forms.length - s.forms.skip ≤ s.forms.position :=
  ⟨⟨⟨.heat, rfl, rfl⟩, rfl, rfl, rfl, rfl, rfl, rfl, rfl⟩, by unfold FormSound; decide, by decide⟩

theorem test_meets_paper_out :
    let s := withForms (fun f => { f with tracking := some 143 }) due
    let u : State := { s with run := { s.run with reason := .heat } }
    PassStartDue true u ∧ ExecutorSound u.run ∧ u.carriage.position = some 48 ∧ skipDue u.forms = false ∧
      u.forms.tracking = some 143 ∧ u.geometry.tearGap ≠ 0 :=
  ⟨⟨⟨.heat, rfl, rfl⟩, rfl, rfl, rfl, rfl, rfl, rfl, rfl⟩, by unfold ExecutorSound; decide, rfl, by decide, rfl, by decide⟩

/-! ### The plan and the carriage -/

theorem test_meets_plan_bounds :
    (∀ k < plan.image.cols.length, plan.image.offset + k * plan.image.step ≤ 6527) ∧ plan.stagger ≤ 63 ∧
      plan.flightTime ≤ 1000 ∧ 50 ≤ plan.profile.cruise ∧ -32 ≤ plan.alignment ∧ plan.alignment ≤ 31 ∧
      1 ≤ plan.profile.ramp.length ∧ plan.profile.ramp.length ≤ 200 ∧ fireSchedule plan .rightward ≠ [] ∧
      fireSchedule plan .leftward ≠ [] ∧
      ({ pos := 814, mask := 1 } : Fire) ∈ fireSchedule plan .rightward := by decide +kernel

theorem test_meets_step_intervals :
    twoSteps.idx < twoSteps.len ∧ min twoSteps.idx (twoSteps.len - 1 - twoSteps.idx) < twoSteps.profile.ramp.length ∧
      ({ twoSteps with len := 3, idx := 1 } : Move).profile.ramp.length ≤ min 1 (3 - 1 - 1) := by decide

theorem test_meets_moves :
    let s : State := { idle .running with
      carriage := { position := some 25, drive := .positioning twoSteps ⟨.rightward, 60, 70, twoSteps.profile⟩ } }
    s.carriage.position = some 25 ∧ (true = true ↔ (24 : Int) ≤ 24) ∧
      NoWork { idle .ready with
        carriage := { position := some 100, drive := .stopping ⟨.leftward, 50, 0, twoSteps.profile⟩ } } :=
  ⟨rfl, by decide, ⟨rfl, rfl, rfl, rfl, rfl⟩⟩

/-- The pass run of a line's last pass at 100, with this mark on this schedule. -/
def running (idx mark : Nat) : State :=
  { passing true false false with
    carriage := { position := some 100, drive := .passRun { twoSteps with idx := idx } }
    planner := { schedule := some { fires := [⟨99, 1⟩, ⟨98, 2⟩], mark := mark }, keptDir := none }
    firing := { (passing true false false).firing with state := .armed 400 } }

theorem test_meets_pass_run :
    (running 0 0).carriage.drive = .passRun twoSteps ∧ (running 0 0).carriage.position = some 100 ∧
      (false = true ↔ (99 : Int) ≤ 24) ∧ twoSteps.idx + 1 < twoSteps.len ∧
      ([⟨99, 1⟩, ⟨98, 2⟩] : List Fire)[0]? = some ⟨99, 1⟩ ∧ (running 0 0).firing.lastPending = false ∧
      (running 0 0).firing.state = .armed 400 := ⟨rfl, rfl, by decide, by decide, rfl, rfl, rfl⟩

/-- The marked entry is the last of the schedule; with its pin dead it energizes none. -/
theorem test_meets_last_entry :
    let s : State := { running 0 1 with
      planner := { schedule := some { fires := [⟨110, 1⟩, ⟨99, 2⟩], mark := 1 }, keptDir := none }
      firing := { (running 0 1).firing with dead := 2 } }
    ([⟨110, 1⟩, ⟨99, 2⟩] : List Fire)[1]? = some ⟨99, 2⟩ ∧ 1 + 1 = ([⟨110, 1⟩, ⟨99, 2⟩] : List Fire).length ∧
      (2#18) &&& ~~~s.firing.dead = 0 ∧ s.firing.pulses = [] ∧ NoneWaits s ∧
      s.run.inHand = some (.linePass true false false) ∧ frontHeader s.queue = some header ∧ header.feedAfter ≠ 0 :=
  ⟨rfl, rfl, by decide, rfl, ⟨rfl, rfl⟩, rfl, rfl, by decide⟩

/-- The same with an on-timer that still runs, and the run-out after it. -/
theorem test_meets_run_out :
    dropPins 0 [⟨1, 180⟩] ++ (if (0 : PinMask) = 0 then [] else [⟨0, 180⟩]) ≠ [] ∧
      (running 0 2).carriage.drive = .passRun twoSteps ∧
      (running 0 2).planner.schedule = some { fires := [⟨99, 1⟩, ⟨98, 2⟩], mark := 2 } ∧
      ([⟨99, 1⟩, ⟨98, 2⟩] : List Fire).length ≤ 2 ∧ lastFireDue (running 0 2) = false := by decide

theorem test_meets_pass_run_stops :
    (running 1 2).carriage.drive = .passRun { twoSteps with idx := 1 } ∧
      ¬(({ twoSteps with idx := 1 } : Move).idx + 1 < twoSteps.len) ∧ lastFireDue (running 1 2) = false ∧
      (running 1 2).run.inHand = some (.linePass true false false) ∧ NoneWaits (running 1 2) ∧
      NoFeedEnds (running 1 2) ∧ (running 1 2).forms.paperRequest = false :=
  ⟨rfl, by decide, rfl, rfl, ⟨rfl, rfl⟩, rfl, rfl⟩

theorem test_meets_line_done :
    let s : State := { running 1 2 with run := { (running 1 2).run with inHand := some (.linePass true false true) } }
    s.queue = { entries := [.line header [[]] (.active .one)], cursor := 1 } ∧ s.intake.laneQ = [] ∧
      s.run.executor.executing = true ∧ s.run.inHand = some (.linePass true false true) := ⟨rfl, rfl, rfl, rfl⟩

theorem test_meets_pass_one_stops :
    lastStep.run.inHand = some (.linePass false false true) ∧ NoneWaits lastStep ∧
      lastStep.run.executor.executing = true ∧ lastStep.forms.paper = .atPrint ∧ lastStep.forms.feed = none ∧
      lastStep.forms.lever = .closed ∧ lastStep.forms.tracking = none ∧ lastStep.heat.band ≠ 3 ∧
      activeImage lastStep = some dot ∧ (false = true ↔ (99 : Int) ≤ 24) :=
  ⟨rfl, ⟨rfl, rfl⟩, rfl, rfl, rfl, rfl, rfl, by decide, rfl, by decide⟩

theorem test_meets_homing :
    State.reset.carriage = { position := none, drive := .homing { phase := .two, steps := 0, restart := false } } ∧
      NoWork State.reset ∧ State.reset.run.executor = .homing := ⟨rfl, ⟨rfl, rfl, rfl, rfl, rfl⟩, rfl⟩

/-- The carriage in a homing phase, at power-on otherwise. -/
def homingAt (phase : HomingPhase) (steps : Nat) (restart : Bool) (p : Option Int) : State :=
  { State.reset with
    carriage := { position := p, drive := .homing { phase := phase, steps := steps, restart := restart } } }

/-- Each phase at the last step within its limit, the arrival at 48, and a restart asked for in each phase. -/
theorem test_meets_homing_phases :
    (homingAt .one 238 false none).carriage = { position := none, drive := .homing ⟨.one, 238, false⟩ } ∧
      238 + 1 < 240 ∧
      (homingAt .two 7398 false none).carriage = { position := none, drive := .homing ⟨.two, 7398, false⟩ } ∧
      7398 + 1 < 7400 ∧
      (homingAt .three 22 false (some 46)).carriage =
        { position := some (24 + (22 : Nat)), drive := .homing ⟨.three, 22, false⟩ } ∧ 22 + 1 < 24 ∧
      (homingAt .three 23 false (some 47)).carriage =
        { position := some 47, drive := .homing ⟨.three, 23, false⟩ } ∧
      NoWork (homingAt .three 23 false (some 47)) :=
  ⟨rfl, by decide, rfl, by decide, rfl, by decide, rfl, ⟨rfl, rfl, rfl, rfl, rfl⟩⟩

theorem test_meets_homing_restart :
    ¬arrivalFaults true (homingAt .one 0 true none) (.homingArrival true) ∧
      ¬arrivalFaults true (homingAt .two 7399 true none) (.homingArrival true) ∧
      ¬arrivalFaults false (homingAt .three 23 true (some 47)) (.homingArrival false) := by
  refine ⟨?_, ?_, ?_⟩ <;> rintro ⟨-, g, hg, h⟩ <;> cases hg
  · rcases h with h | h | h
    · exact absurd h.2.2 (by decide)
    · exact absurd h.1 (by decide)
    · exact absurd h.1 (by decide)
  · rcases h with h | h | h
    · exact absurd h.1 (by decide)
    · exact absurd h.2.1 (by decide)
    · exact absurd h.1 (by decide)
  · rcases h with h | h | ⟨-, p, hp, h⟩
    · exact absurd h.1 (by decide)
    · exact absurd h.1 (by decide)
    · cases hp
      exact h (by decide)

theorem test_meets_faults :
    arrivalFaults true (running 0 0) (.passRunArrival true) ∧
      arrivalFaults true { State.reset with carriage := { position := none, drive := .homing ⟨.one, 239, false⟩ } }
        (.homingArrival true) ∧
      arrivalFaults false { State.reset with carriage := { position := none, drive := .homing ⟨.two, 7399, false⟩ } }
        (.homingArrival false) := by
  refine ⟨⟨rfl, _, _, rfl, rfl, by decide⟩, ⟨rfl, _, rfl, .inl ⟨rfl, rfl, by decide⟩⟩,
    ⟨rfl, _, rfl, .inr (.inl ⟨rfl, rfl, by decide⟩)⟩⟩

theorem test_meets_active_discarded :
    (running 0 0).queue = { entries := .line header [[]] (.active .one) :: [], cursor := 0 + 1 } ∧
      (running 0 0).intake.laneQ = [] ∧ NoFeedEnds (running 0 0) ∧ (running 0 0).run.executor ≠ .faultStop ∧
      InHand.isActive (.linePass true false false) = true ∧ NoneWaits advancing ∧
      advancing.run.inHand = some (.advance true) ∧ advancing.forms.paperRequest = false :=
  ⟨rfl, rfl, rfl, by decide, rfl, ⟨rfl, rfl⟩, rfl, rfl⟩

/-! ### Firing and heat -/

/-- One fire's pulses run, the last of the line's last pass. -/
def lastPulse : State :=
  withForms (fun f => { f with lever := .settling }) { passing true true false with
    firing := { state := .idle, pulses := [⟨7, 180⟩], dead := 0, deadDots := 0, lastPending := true } }

theorem test_meets_pulse_end :
    lastPulse.firing.pulses[0]? = some ⟨7, 180⟩ ∧ lastPulse.firing.pulses = [⟨7, 180⟩] ∧
      ¬(pinCount 0 < 3 ∧ 3 ≤ pinCount (0 ||| (7 &&& 3 &&& ~~~0))) ∧
      (pinCount 0 < 3 ∧ 3 ≤ pinCount (0 ||| (7 &&& 7))) ∧ lastPulse.firing.lastPending = true ∧
      lastPulse.run.inHand = some (.linePass true true false) ∧ frontHeader lastPulse.queue = some header ∧
      header.feedAfter ≠ 0 ∧ lastPulse.forms.lever ≠ .closed ∧ NoneWaits lastPulse :=
  ⟨rfl, rfl, by decide, by decide, rfl, rfl, rfl, by decide, by decide, ⟨rfl, rfl⟩⟩

theorem test_meets_cooling :
    let s := withForms (fun f => { f with lever := .opened }) (withHeat (fun h => { h with hold := true }) due)
    s.heat.hold = true ∧ s.heat.level - (s.heat.level + 255) / 256 < s.heat.warm ∧
      s.run.inHand = some (.lineDue true .heat) ∧ s.run.executor = .waiting ∧ frontHeader s.queue = some header ∧
      s.forms.paper = .atPrint ∧ s.forms.feed = none ∧ s.forms.lever ≠ .closed ∧ NoneWaits s ∧
      due.forms.lever = .closed ∧ due.carriage = { position := some 48, drive := .stopped } :=
  ⟨rfl, by decide, rfl, rfl, rfl, rfl, rfl, by decide, ⟨rfl, rfl⟩, rfl, rfl⟩

theorem test_meets_bands : HeatSound { level := 1048575, warm := 1, hot := 1, limit := 1048575, hold := false } := by
  unfold HeatSound; decide

/-! ### Forms -/

theorem test_meets_feed_step :
    let f := feeding .afterLine .forward 2 false
    f.suspended = false ∧ 2 ≤ f.remaining ∧ f.ending = .goOn ∧ f.purpose ≠ .loading ∧
      (feeding .return .reverse 2 false).dir = .reverse ∧ (idle .ready).forms.tracking ≠ some 1 := by decide

theorem test_meets_paper_runs_out :
    let f := feeding .afterLine .forward 9 false
    let s := withForms (fun g => { g with tracking := some 1, feed := some f }) (passing true false false)
    s.forms.feed = some f ∧ f.suspended = false ∧ f.remaining ≠ 0 ∧ f.dir = .forward ∧ s.forms.tracking = some 1 ∧
      s.geometry.tearGap ≠ 0 ∧ s.run.inHand = some (.linePass true false false) ∧ NoneWaits s :=
  ⟨rfl, rfl, by decide, rfl, rfl, by decide, rfl, ⟨rfl, rfl⟩⟩

/-- The last step of a feed, with these entries and this one in hand. -/
def lastFeedStep (purpose : Purpose) (dir : FeedDir) (es : List Entry) (x : InHand) : State :=
  withForms (fun f => { f with feed := some (feeding purpose dir 1 false), tearAdvance := some 720 })
    (inHand .running es x)

theorem test_meets_feeds_end :
    let s := lastFeedStep .advance .forward [.advance 0 1] (.advance true)
    let u := lastFeedStep .afterLine .forward [.line header [[]] (.active .one)] (.lineFeed true)
    s.forms.feed = some (feeding .advance .forward 1 false) ∧ s.forms.tracking = none ∧
      s.queue = { entries := [.advance 0 1], cursor := 1 } ∧ s.run.inHand = some (.advance true) ∧
      s.run.executor.executing = true ∧ s.forms.paperRequest = false ∧
      u.queue = { entries := [.line header [[]] (.active .one)], cursor := 1 } ∧
      u.run.inHand = some (.lineFeed true) := ⟨rfl, rfl, rfl, rfl, rfl, rfl, rfl, rfl⟩

theorem test_meets_return_asked :
    let s : State := { lastFeedStep .tearAdvance .forward [.form 0 0] .marker with
      run := { (lastFeedStep .tearAdvance .forward [.form 0 0] .marker).run with reason := .paperReturning } }
    let u := lastFeedStep .return .reverse [.advance 0 1] (.advance false)
    builderStep s = none ∧ s.forms.tearAdvance = some 720 ∧ s.run.inHand = some .marker ∧
      s.run.executor.executing = true ∧ s.run.reason = .paperReturning ∧
      u.queue = { entries := [.advance 0 1], cursor := 1 } ∧ u.run.inHand = some (.advance false) :=
  ⟨rfl, rfl, rfl, rfl, rfl, rfl, rfl⟩

theorem test_meets_loading_ends :
    let f : Feed := { feeding .loading .forward 7 false with ending := .cutShort }
    NoWork (fedIn .loading f (idle .ready)) ∧ f.remaining ≠ 0 ∧ (idle .ready).forms.tracking = none ∧
      NoWork (fedIn .ejecting (feeding .ejection .forward 1 false) (idle .ready)) ∧
      (fedIn .loading f (idle .ready)).pins.formsPresent = true :=
  ⟨⟨rfl, rfl, rfl, rfl, rfl⟩, by decide, rfl, ⟨rfl, rfl, rfl, rfl, rfl⟩, rfl⟩

/-- The pass start that a skip feed has held, at the feed's last step. -/
theorem test_meets_skip_ends :
    let s : State := { withForms (fun f => { f with position := 3167, skip := 168, feed := some (feeding .skip .forward 1 false) })
      due with run := { due.run with executor := .running, inHand := some (.lineDue true .skipFeed) } }
    s.forms.feed = some (feeding .skip .forward 1 false) ∧ s.run.inHand = some (.lineDue true .skipFeed) ∧
      s.run.executor.executing = true ∧ builderStep s = none ∧ s.forms.paper = .atPrint ∧ s.forms.tracking = none ∧
      skipDue { s.forms with position := 0 } = false ∧ s.heat.band ≠ 3 ∧ frontHeader s.queue = some header ∧
      activeImage s = some dot := ⟨rfl, rfl, rfl, rfl, rfl, rfl, rfl, by decide, rfl, rfl⟩

/-- The entries that a return answers at its last step: a form marker, a geometry marker, a line with no pass, a pass start
with r one below its least value before the step. -/
theorem test_meets_return_answers :
    let back (es : List Entry) (x : InHand) : State :=
      { lastFeedStep .return .reverse es x with run := { State.reset.run with
          executor := .waiting, reason := .paperReturning, inHand := some x } }
    let fed := back [.line { header with feedAfter := 0 } [[]] (.active .one)] (.lineFeed false)
    let line : State := { back [.line header [[]] (.active .one)] (.lineDue true .paper) with
      buffers := { one := .inUse dot, two := .free } }
    (back [.form 0 0] .marker).queue = { entries := [.form 0 0], cursor := 1 } ∧
      (back [.geometry 0 0 0 0] .marker).run.locked = false ∧ (back [.form 0 0] .marker).run.executor = .waiting ∧
      fed.run.inHand = some (.lineFeed false) ∧ builderStep fed = none ∧
      fed.queue = { entries := [.line { header with feedAfter := 0 } [[]] (.active .one)], cursor := 1 } ∧
      line.run.inHand = some (.lineDue true .paper) ∧ builderStep line = none ∧ line.forms.lever = .closed ∧
      line.carriage = { position := some 48, drive := .stopped } ∧ line.heat.band ≠ 3 ∧
      frontHeader line.queue = some header ∧ header.feedAfter ≠ 0 ∧ activeImage line = some dot ∧
      min line.geometry.sensorDist (143 + 1) = 144 :=
  ⟨rfl, rfl, rfl, rfl, rfl, rfl, rfl, rfl, rfl, rfl, by decide, rfl, by decide, rfl, rfl⟩

/-- A pass start that waits for paper while the last step of a loading is to arrive. -/
theorem test_meets_loading_answers :
    let s := fedIn .loading (feeding .loading .forward 1 false)
      { due with run := { due.run with inHand := some (.lineDue true .paper), reason := .paper } }
    s.forms.feed = some (feeding .loading .forward 1 false) ∧ s.run.inHand = some (.lineDue true .paper) ∧
      s.run.executor = .waiting ∧ builderStep s = none ∧ s.forms.lever = .closed ∧
      s.carriage = { position := some 48, drive := .stopped } ∧ skipDue s.forms = false ∧ s.heat.band ≠ 3 ∧
      frontHeader s.queue = some header ∧ activeImage s = some dot ∧ s.forms.tracking = none ∧
      s.pins.formsPresent = true :=
  ⟨rfl, rfl, rfl, rfl, rfl, rfl, rfl, by decide, rfl, rfl, rfl, rfl⟩

theorem test_meets_reverse_feed :
    (idle .ready).forms.acc ≤ 15 ∧ (idle .ready).forms.position < (idle .ready).forms.length ∧
      (idle .ready).forms.count < 65536 := by decide

theorem test_meets_forms_timers :
    NoWork (withForms (fun f => { f with tearTimer := some 5 }) (idle .ready)) ∧
      (idle .ready).forms.paper = .atPrint ∧ (idle .ready).settings.tearDelay ≠ 0 ∧
      NoWork (withForms (fun f => { f with paper := .noForms, presenceTimer := true }) (idle .ready)) ∧
      (idle .ready).pins.formsPresent = true ∧ (idle .ready).forms.lever ≠ .opened :=
  ⟨⟨rfl, rfl, rfl, rfl, rfl⟩, rfl, by decide, ⟨rfl, rfl, rfl, rfl, rfl⟩, rfl, by decide⟩

theorem test_meets_lever :
    let s := withForms (fun f => { f with lever := .settling, feed := some (feeding .ejection .forward 1 true) })
      (idle .ready)
    s.forms.lever = .settling ∧ NoWork s ∧ s.forms.feed = some (feeding .ejection .forward 1 true) ∧
      NoWork (withForms (fun f => { f with lever := .settling }) (idle .ready)) ∧
      (idle .ready).pins.formsPresent = true :=
  ⟨rfl, ⟨rfl, rfl, rfl, rfl, rfl⟩, rfl, ⟨rfl, rfl, rfl, rfl, rfl⟩, rfl⟩

/-- A return suspended by the lever, and a pass start that waits for it. -/
theorem test_meets_settled_lever :
    let back := withForms (fun f => { f with lever := .settling, feed := some (feeding .return .reverse 1 true) })
      (idle .ready)
    let s := withForms (fun f => { f with lever := .settling })
      { due with run := { due.run with inHand := some (.lineDue true .lever), reason := .lever } }
    NoWork back ∧ back.forms.feed = some (feeding .return .reverse 1 true) ∧ s.forms.lever = .settling ∧
      s.run.inHand = some (.lineDue true .lever) ∧ s.run.executor = .waiting ∧ NoneWaits s ∧
      s.forms.paper = .atPrint ∧ s.forms.feed = none ∧ s.carriage = { position := some 48, drive := .stopped } ∧
      skipDue s.forms = false ∧ s.forms.tracking = none ∧ s.heat.band ≠ 3 ∧ frontHeader s.queue = some header ∧
      activeImage s = some dot :=
  ⟨⟨rfl, rfl, rfl, rfl, rfl⟩, rfl, rfl, rfl, rfl, ⟨rfl, rfl⟩, rfl, rfl, rfl, rfl, rfl, by decide, rfl, rfl⟩

end Sys2Proof.Tests
end

