-- ==== Sys2Proof/Proofs/PassPlan.lean ====
section
/-! PROOFS. The plan of a pass: the fire positions, their order, and the pass run (05_pass_planning_and_fire_positions.md). -/

namespace Sys2Proof.Machine

/-! ## Where a fire stands (R89 to R91) -/

/-- Every fire of the columns from index `k` on stands at the fire position of one of these columns, for one of the two
groups. -/
theorem pos_eq_firePosition_of_mem_firesFrom {inp : PlanInputs} {side : Side} {f : Fire} (k : Nat) (cols : List PinMask)
    (hf : f ∈ firesFrom inp side k cols) :
    ∃ i < cols.length, ∃ sg ≤ 1, f.pos = firePosition inp side sg (k + i) := by
  have of_mem_group {sg k : Nat} {mask : PinMask} (h : f ∈ groupFire inp side sg k mask) :
      f.pos = firePosition inp side sg k := by
    unfold groupFire at h
    split at h
    · cases h
    · rw [List.mem_singleton.mp h]
  induction cols generalizing k with
  | nil => cases hf
  | cons c rest ih =>
    simp only [firesFrom, List.mem_append] at hf
    obtain (hB | hA) | hrest := hf
    · exact ⟨0, by simp, 1, le_rfl, of_mem_group hB⟩
    · exact ⟨0, by simp, 0, by simp, of_mem_group hA⟩
    · obtain ⟨i, hi, sg, hsg, hpos⟩ := ih (k + 1) hrest
      exact ⟨i + 1, by simpa using hi, sg, hsg, by rw [hpos, Nat.add_right_comm, Nat.add_assoc]⟩

/-- The flight distance in the ranges of the flight time and the cruise interval. -/
theorem flightDistance_le {tf t : Nat} (htf : tf ≤ 1000) (ht : 50 ≤ t) : flightDistance tf t ≤ 20 := by
  unfold flightDistance
  have : (2 * tf + t) / (2 * t) < 21 := (Nat.div_lt_iff_lt_mul (by omega)).mpr (by omega)
  omega

/-! ## The order of the entries (R92) -/

/-- Merging keeps positions: a position of the list after `insertFire` is that of the new fire or one it held before. -/
theorem pos_of_mem_insertFire {f g : Fire} {l : List Fire} (h : g ∈ insertFire f l) :
    g.pos = f.pos ∨ ∃ e ∈ l, g.pos = e.pos := by
  induction l with
  | nil => exact .inl (by rw [List.mem_singleton.mp h])
  | cons e rest ih =>
    unfold insertFire at h
    split at h
    · obtain rfl | hl := List.mem_cons.mp h
      · exact .inl rfl
      · exact .inr ⟨g, hl, rfl⟩
    · split at h
      · obtain rfl | hrest := List.mem_cons.mp h
        · exact .inr ⟨e, List.mem_cons_self, rfl⟩
        · exact .inr ⟨g, List.mem_cons_of_mem _ hrest, rfl⟩
      · obtain rfl | hins := List.mem_cons.mp h
        · exact .inr ⟨g, List.mem_cons_self, rfl⟩
        · exact (ih hins).imp_right fun ⟨x, hx, hpos⟩ => ⟨x, List.mem_cons_of_mem _ hx, hpos⟩

theorem insertFire_rises {f : Fire} {l : List Fire} (h : l.Pairwise (·.pos < ·.pos)) :
    (insertFire f l).Pairwise (·.pos < ·.pos) := by
  induction l with
  | nil => exact List.pairwise_singleton _ f
  | cons g rest ih =>
    obtain ⟨hg, hrest⟩ := List.pairwise_cons.mp h
    unfold insertFire
    split
    next hlt =>
      refine List.pairwise_cons.mpr ⟨fun x hx => ?_, h⟩
      obtain rfl | hx := List.mem_cons.mp hx
      · exact hlt
      · exact hlt.trans (hg x hx)
    next hge =>
      split
      next => exact List.pairwise_cons.mpr ⟨hg, hrest⟩
      next hne =>
        refine List.pairwise_cons.mpr ⟨fun x hx => ?_, ih hrest⟩
        obtain hpos | ⟨e, he, hpos⟩ := pos_of_mem_insertFire hx
        · omega
        · exact hpos ▸ hg e he

theorem risingFires_rises (inp : PlanInputs) (side : Side) :
    (risingFires inp side).Pairwise (·.pos < ·.pos) := by
  unfold risingFires
  induction firesFrom inp side 0 inp.image.cols with
  | nil => exact .nil
  | cons f l ih => exact insertFire_rises ih

theorem exists_pos_eq_of_mem_foldr_insertFire {f : Fire} {l : List Fire} (h : f ∈ l.foldr insertFire []) :
    ∃ g ∈ l, f.pos = g.pos := by
  induction l generalizing f with
  | nil => cases h
  | cons e rest ih =>
    obtain hpos | ⟨x, hx, hpos⟩ := pos_of_mem_insertFire h
    · exact ⟨e, List.mem_cons_self, hpos⟩
    · obtain ⟨g, hg, hxg⟩ := ih hx
      exact ⟨g, List.mem_cons_of_mem _ hg, hpos.trans hxg⟩

/-! ## The schedule and its ends (R93) -/

/-- The direction of travel orders the entries of a pass and changes none. -/
@[simp] theorem mem_fireSchedule {inp : PlanInputs} {side : Side} {f : Fire} :
    f ∈ fireSchedule inp side ↔ f ∈ risingFires inp side := by
  cases side
  · exact Iff.rfl
  · exact List.mem_reverse

theorem exists_firePosition_of_mem_fireSchedule {inp : PlanInputs} {side : Side} {f : Fire}
    (hf : f ∈ fireSchedule inp side) :
    ∃ k < inp.image.cols.length, ∃ sg ≤ 1, f.pos = firePosition inp side sg k := by
  obtain ⟨g, hg, hfg⟩ := exists_pos_eq_of_mem_foldr_insertFire (mem_fireSchedule.mp hf)
  obtain ⟨k, hk, sg, hsg, hpos⟩ := pos_eq_firePosition_of_mem_firesFrom 0 _ hg
  exact ⟨k, hk, sg, hsg, by rw [hfg, hpos, Nat.zero_add]⟩

/-- F_lo is the position of an entry and bounds every entry from below. -/
theorem fireLo_least {inp : PlanInputs} {side : Side} (hne : fireSchedule inp side ≠ []) :
    (∃ g ∈ fireSchedule inp side, g.pos = fireLo inp side) ∧ ∀ f ∈ fireSchedule inp side, fireLo inp side ≤ f.pos := by
  obtain ⟨f₀, hf₀⟩ := List.exists_mem_of_ne_nil _ hne
  have hrise := risingFires_rises inp side
  simp only [mem_fireSchedule, fireLo] at hf₀ ⊢
  cases hl : risingFires inp side with
  | nil => simp [hl] at hf₀
  | cons g rest =>
    rw [hl] at hrise
    refine ⟨⟨g, List.mem_cons_self, rfl⟩, fun f hf => ?_⟩
    obtain rfl | hf := List.mem_cons.mp hf
    · exact le_rfl
    · exact (List.rel_of_pairwise_cons hrise hf).le

/-- F_hi is the position of an entry and bounds every entry from above. -/
theorem fireHi_greatest {inp : PlanInputs} {side : Side} (hne : fireSchedule inp side ≠ []) :
    (∃ g ∈ fireSchedule inp side, g.pos = fireHi inp side) ∧ ∀ f ∈ fireSchedule inp side, f.pos ≤ fireHi inp side := by
  obtain ⟨f₀, hf₀⟩ := List.exists_mem_of_ne_nil _ hne
  have hrise := risingFires_rises inp side
  simp only [mem_fireSchedule, fireHi] at hf₀ ⊢
  obtain hl | ⟨init, g, hl⟩ := List.eq_nil_or_concat (risingFires inp side)
  · simp [hl] at hf₀
  · rw [hl, List.concat_eq_append] at hrise ⊢
    obtain ⟨-, -, hinit⟩ := List.pairwise_append.mp hrise
    refine ⟨⟨g, by simp, by simp⟩, fun f hf => ?_⟩
    obtain hf | hf := List.mem_append.mp hf
    · simpa using (hinit f hf g (by simp)).le
    · simp [List.mem_singleton.mp hf]

/-! ## The pass run (R94, R101) -/

/-- The length d of a pass run. -/
theorem runMove_passRunOf_len {inp : PlanInputs} {side : Side} (h : fireLo inp side ≤ fireHi inp side) :
    ((runMove (passRunOf inp side)).len : Int) =
      fireHi inp side - fireLo inp side + 2 * inp.profile.ramp.length + 1 := by
  cases side <;> simp only [runMove, passRunOf, passStartPos, passEndPos] <;> omega

/-- A step with a whole ramp behind it and a whole ramp before it takes the cruise interval. -/
theorem Move.interval_eq_cruise {m : Move} (hlo : m.profile.ramp.length ≤ m.idx)
    (hhi : m.idx + m.profile.ramp.length + 1 ≤ m.len) : m.interval = m.profile.cruise := by
  have : m.profile.ramp.length ≤ m.rampIndex := le_min hlo (by omega)
  rw [Move.interval, List.getD_eq_getElem?_getD, List.getElem?_eq_none this, Option.getD_none]

/-- The step `n` steps behind the first ramp, no farther on than F_hi is from F_lo, has the last ramp still before it and
takes the cruise interval. -/
theorem passRun_cruises (inp : PlanInputs) (side : Side) {n : Nat} (hn : n ≤ fireHi inp side - fireLo inp side) :
    let m := runMove (passRunOf inp side)
    let j := n + inp.profile.ramp.length
    inp.profile.ramp.length ≤ j ∧ j + inp.profile.ramp.length + 1 ≤ m.len ∧
      ({ m with idx := j } : Move).interval = inp.profile.cruise := by
  intro m j
  have hlen : (m.len : Int) = _ := runMove_passRunOf_len (by omega)
  have hj : inp.profile.ramp.length ≤ j := Nat.le_add_left _ _
  have hend : j + inp.profile.ramp.length + 1 ≤ m.len := by omega
  exact ⟨hj, hend, Move.interval_eq_cruise hj hend⟩

/-- Settles O47: the ordered entries put every fire between F_lo and F_hi, where the run is on cruise. The step that meets
a fire is one ramp on from as many steps as the fire is away from the first one met: F_lo or F_hi by the side. -/
theorem firesOnCruise : Obligations.FiresOnCruise := by
  intro inp side f hf run m r
  have hne := List.ne_nil_of_mem hf
  obtain ⟨hlo, hleast⟩ := fireLo_least hne
  obtain ⟨hhi, hgreatest⟩ := fireHi_greatest hne
  have hflo := hleast f hf
  have hfhi := hgreatest f hf
  have hlen : (m.len : Int) = _ := runMove_passRunOf_len (hflo.trans hfhi)
  refine ⟨by cases side <;> exact ⟨rfl, rfl⟩, hlen, by omega, hlo, hhi, hflo, hfhi, ?_⟩
  cases side with
  | rightward =>
    obtain ⟨hj, hend, hcruise⟩ := passRun_cruises inp .rightward (n := (f.pos - fireLo inp .rightward).toNat) (by omega)
    refine ⟨_, hj, hend, ?_, hcruise⟩
    simp only [run, passRunOf, passStartPos]
    omega
  | leftward =>
    obtain ⟨hj, hend, hcruise⟩ := passRun_cruises inp .leftward (n := (fireHi inp .leftward - f.pos).toNat) (by omega)
    refine ⟨_, hj, hend, ?_, hcruise⟩
    simp only [run, passRunOf, passStartPos]
    omega

/-! ## The bounds of the positions (R95) -/

/-- The fire positions of R90 for the ranges of their terms. -/
theorem firePosition_bounds {inp : PlanInputs} {sg k : Nat} (hx : inp.image.offset + k * inp.image.step ≤ 6527)
    (hsg : sg ≤ 1) (hst : inp.stagger ≤ 63) (htf : inp.flightTime ≤ 1000) (ht : 50 ≤ inp.profile.cruise)
    (halo : -32 ≤ inp.alignment) (hahi : inp.alignment ≤ 31) :
    (253 ≤ firePosition inp .rightward sg k ∧ firePosition inp .rightward sg k ≤ 6863) ∧
      241 ≤ firePosition inp .leftward sg k ∧ firePosition inp .leftward sg k ≤ 6914 := by
  have hdf := flightDistance_le htf ht
  have hgroup : sg * inp.stagger ≤ 63 := by simpa using Nat.mul_le_mul hsg hst
  simp only [firePosition, xLo, ← Nat.cast_mul]
  generalize k * inp.image.step = col at hx ⊢
  generalize sg * inp.stagger = group at hgroup ⊢
  omega

/-- What bounds every fire of a pass bounds F_lo and F_hi, which are positions of fires. -/
theorem fireLo_fireHi_bounds {inp : PlanInputs} {side : Side} {lo hi : Int} (hne : fireSchedule inp side ≠ [])
    (h : ∀ f ∈ fireSchedule inp side, lo ≤ f.pos ∧ f.pos ≤ hi) :
    (lo ≤ fireLo inp side ∧ fireLo inp side ≤ hi) ∧ lo ≤ fireHi inp side ∧ fireHi inp side ≤ hi := by
  obtain ⟨⟨f, hf, hlo⟩, -⟩ := fireLo_least hne
  obtain ⟨⟨g, hg, hhi⟩, -⟩ := fireHi_greatest hne
  exact ⟨hlo ▸ h f hf, hhi ▸ h g hg⟩

/-- Settles O48: the bounds of the fire positions bound F_lo and F_hi, and the run begins a ramp and a step before
one of these and ends a ramp behind the other. -/
theorem passPositionsBounded : Obligations.PassPositionsBounded := by
  intro inp side hx hst htf ht halo hahi hr1 hr2 hne
  have at_fire {f : Fire} (hf : f ∈ fireSchedule inp side) :
      ∃ sg k, f.pos = firePosition inp side sg k ∧
        (253 ≤ firePosition inp .rightward sg k ∧ firePosition inp .rightward sg k ≤ 6863) ∧
        241 ≤ firePosition inp .leftward sg k ∧ firePosition inp .leftward sg k ≤ 6914 := by
    obtain ⟨k, hk, sg, hsg, hpos⟩ := exists_firePosition_of_mem_fireSchedule hf
    exact ⟨sg, k, hpos, firePosition_bounds (hx k hk) hsg hst htf ht halo hahi⟩
  cases side with
  | rightward =>
    have hfires : ∀ f ∈ fireSchedule inp .rightward, 253 ≤ f.pos ∧ f.pos ≤ 6863 := fun f hf => by
      obtain ⟨sg, k, hpos, hright, -⟩ := at_fire hf
      exact hpos ▸ hright
    have hends := fireLo_fireHi_bounds hne hfires
    refine ⟨hfires, ?_⟩
    simp only [passStartPos, passEndPos]
    omega
  | leftward =>
    have hfires : ∀ f ∈ fireSchedule inp .leftward, 241 ≤ f.pos ∧ f.pos ≤ 6914 := fun f hf => by
      obtain ⟨sg, k, hpos, -, hleft⟩ := at_fire hf
      exact hpos ▸ hleft
    have hends := fireLo_fireHi_bounds hne hfires
    refine ⟨hfires, ?_⟩
    simp only [passStartPos, passEndPos]
    omega

end Sys2Proof.Machine
end

