-- ==== Sys2Proof/Proofs/Effects.lean ====
section
/-! PROOFS. What a command can do: one inversion of `exec` for the laws that every step keeps. -/

namespace Sys2Proof.Machine

/-! ## The next states of the commands -/

/-- What command `c` other than a power-on reset can make of state `s`, event by event. Each law of the machine is shown
along these cases. -/
inductive Effect (c : Instr) (s : State) : State → Prop
  | unchanged : Effect c s s
  | frameFault : Effect c s (frameFault s)
  | frameStarts (b : Byte) (hf : s.intake.frameState = .hunt) (hr : s.intake.freeSpace ≠ 0) :
      Effect c s (s.updIntake fun i => { i with frame := [b], frameState := .header, timer := true })
  | headerStored (b : Byte) (hf : s.intake.frameState = .header) (hr : s.intake.freeSpace ≠ 0)
      (hl : s.intake.frame.length < 3) : Effect c s (storeByte b .header s)
  | headerEnds (b : Byte) (hf : s.intake.frameState = .header) (hr : s.intake.freeSpace ≠ 0)
      (hl : 3 ≤ s.intake.frame.length) (hs : headerSound (s.intake.frame ++ [b]) = true) :
      Effect c s (storeByte b .body s)
  | bodyStored (b : Byte) (hf : s.intake.frameState = .body) (hr : s.intake.freeSpace ≠ 0)
      (hl : (s.intake.frame ++ [b]).length < 5 + frameLength (s.intake.frame ++ [b])) :
      Effect c s (storeByte b .body s)
  | wrongLane : Effect c s (latch .LN (releaseFrame s))
  | laneNReceived (r : NRecord) (hc : ∃ b g, c = .receiveByte b g) : Effect c s (takeN r (releaseFrame s))
  | laneQReceived (b : Byte) (k : Kind) (r : QRecord) (hf : s.intake.frameState = .body) (hr : s.intake.freeSpace ≠ 0)
      (hl : 5 + frameLength (s.intake.frame ++ [b]) ≤ (s.intake.frame ++ [b]).length)
      (hk : frameKind (s.intake.frame ++ [b]) = some k)
      (hq : qRecordOf k (((s.intake.frame ++ [b]).drop 4).take (frameLength (s.intake.frame ++ [b]))) = some r) :
      Effect c s (joinLaneQ r (releaseFrame s))
  | laneNSent (r : NRecord) (hc : nRecordOfCommand c = some r) : Effect c s (takeN r s)
  | laneQSent (r : QRecord) (hr : r.frameSize ≤ s.intake.freeSpace) : Effect c s (joinLaneQ r s)
  | replySent : Effect c s (s.updIntake fun i => { i with replies := i.replies.drop 1 })
  | buildEnds (h : LineHeader) (parts : List (List Byte)) (b : BufId) (inp : BuildInputs)
      (hb : buildInProgress s = some (h, parts, b, inp)) :
      Effect c s (finishEvent (endBuild h parts b (buildResult inp) s))
  | takenUp (u : State) (hx : s.run.inHand = none) (hu : takeUpStep s = some u) : Effect c s (finishEvent u)
  | passChecked (first : Bool) (n : Need) (hx : s.run.inHand = some (.lineDue first n))
      (he : s.run.executor.executing = true) : Effect c s (finishEvent (runChecks first s))
  | carriageFaults (side : Side) (home : Bool) : Effect c s (finishEvent (carriageFault (arriveCarriage side home s)))
  | positions (m : Move) (run : PassRun) (home : Bool) (hd : s.carriage.drive = .positioning m run)
      (hj : m.idx + 1 < m.len) :
      Effect c s (setDrive (.positioning { m with idx := m.idx + 1 } run) (arriveCarriage m.side home s))
  | positioned (m : Move) (run : PassRun) (home : Bool) (hd : s.carriage.drive = .positioning m run)
      (hj : ¬m.idx + 1 < m.len) : Effect c s (setDrive (.passRun (runMove run)) (arriveCarriage m.side home s))
  | runs (m : Move) (home : Bool) (hd : s.carriage.drive = .passRun m) (hj : m.idx + 1 < m.len) :
      Effect c s (finishLastFire (setDrive (.passRun { m with idx := m.idx + 1 })
        (offerArrival (arriveCarriage m.side home s))))
  | runEnds (m : Move) (home : Bool) (hd : s.carriage.drive = .passRun m) (hj : ¬m.idx + 1 < m.len) :
      Effect c s (finishRunStop (runStopped (discardSchedule (setDrive .stopped
        (reportLastFire (offerArrival (arriveCarriage m.side home s)))))))
  | decelerates (d : Decel) (home : Bool) (hd : s.carriage.drive = .stopping d) (hl : d.left ≠ 0) :
      Effect c s (setDrive (.stopping
        { d with interval := d.profile.ramp.getD (d.left - 1) d.profile.cruise, left := d.left - 1 })
          (arriveCarriage d.side home s))
  | decelerated (d : Decel) (home : Bool) (hd : s.carriage.drive = .stopping d) (hl : d.left = 0) :
      Effect c s (finishEvent (setDrive .stopped (arriveCarriage d.side home s)))
  | homes (h h' : Homing) (home : Bool) (hd : s.carriage.drive = .homing h)
      (hr : homingResult h (arriveCarriage h.phase.side home s).carriage.position home = .goesOn h') :
      Effect c s (setDrive (.homing h') (arriveCarriage h.phase.side home s))
  | homesAnew (side : Side) (home : Bool) : Effect c s (beginHoming (arriveCarriage side home s))
  | edgeFound (side : Side) (home : Bool) :
      Effect c s ((arriveCarriage side home s).updCarriage fun _ =>
        { position := some 24, drive := .homing { phase := .three, steps := 0, restart := false } })
  | homed (h : Homing) (home : Bool) (hd : s.carriage.drive = .homing h)
      (hr : homingResult h (arriveCarriage h.phase.side home s).carriage.position home = .complete) :
      Effect c s (finishEvent (homingComplete (setDrive .stopped (arriveCarriage h.phase.side home s))))
  | thirdDead (i : Nat) (p : Pulse) (faults : PinMask) : Effect c s (finishEvent (thirdDeadPin (endPulse i p faults s)))
  | pulseEnds (i : Nat) (p : Pulse) (faults : PinMask) : Effect c s (finishLastFire (endPulse i p faults s))
  | cools : Effect c s (s.updHeat coolHeat)
  | holdReleased : Effect c s (finishEvent ((s.updHeat coolHeat).updHeat fun h => { h with hold := false }))
  | tailReached (f : Feed) (hf : s.forms.feed = some f) :
      Effect c s (finishEvent (tailReached f (s.updForms (arriveStep s.geometry.sensorDist f))))
  | feedAbandoned (f : Feed) (hf : s.forms.feed = some f) :
      Effect c s (finishEvent (clearFeed (s.updForms (arriveStep s.geometry.sensorDist f))))
  | feedReset (f : Feed) (hf : s.forms.feed = some f) :
      Effect c s (finishEvent (resetPaper (s.updForms (arriveStep s.geometry.sensorDist f))))
  | loadingCut (f : Feed) (hf : s.forms.feed = some f) :
      Effect c s (finishEvent (enterNoForms (s.updForms (arriveStep s.geometry.sensorDist f))))
  | feedAtEnd (f : Feed) (hf : s.forms.feed = some f) :
      Effect c s (finishEvent (s.updForms (arriveStep s.geometry.sensorDist f)))
  | feedGoesOn (f : Feed) (hf : s.forms.feed = some f) :
      Effect c s (startStep (s.updForms (arriveStep s.geometry.sensorDist f)))
  | tearOff : Effect c s (finishEvent (beginTearOff s))
  | loads : Effect c s (finishEvent (beginLoading s))
  | tracks : Effect c s (judgeTimers ((s.updPins fun p => { p with formsPresent := false }).updForms fun g =>
      { g with tracking := some s.geometry.sensorDist }))
  | seesNoForms : Effect c s (finishEvent (cutLoading (s.updPins fun p => { p with formsPresent := false })))
  | formsGone : Effect c s (judgeTimers (s.updPins fun p => { p with formsPresent := false }))
  | formsPresent : Effect c s (judgeTimers ((s.updPins fun p => { p with formsPresent := true }).updForms fun g =>
      { g with tracking := none }))
  | leverOpens : Effect c s (judgeTimers (latch .LO ((s.updPins fun p => { p with leverOpen := true }).updForms fun g =>
      { g with lever := .opened })))
  | leverSettles : Effect c s (judgeTimers ((s.updPins fun p => { p with leverOpen := false }).updForms fun g =>
      { g with lever := .settling }))
  | leverRests : Effect c s (s.updPins fun p => { p with leverOpen := false })
  | settled : Effect c s (finishEvent (startStep (s.updForms fun g => { g with lever := .closed })))

/-- An answered effect of a command. -/
def Answers (c : Instr) (s : State) : Prop := ∃ t, exec c s = .next t ∧ Effect c s t

theorem Answers.of {c : Instr} {s t : State} (h : exec c s = .next t) (k : Effect c s t) : Answers c s := ⟨t, h, k⟩

/-! ## The link -/

theorem completeFrame_effect {b : Byte} {g : Bool} {s : State} (hf : s.intake.frameState = .body)
    (hr : s.intake.freeSpace ≠ 0)
    (hl : 5 + frameLength (s.intake.frame ++ [b]) ≤ (s.intake.frame ++ [b]).length) :
    Effect (.receiveByte b g) s (completeFrame (s.intake.frame ++ [b]) s) := by
  unfold completeFrame
  split
  · exact .frameFault
  · rename_i k hk
    dsimp only
    split
    · exact .wrongLane
    split
    · split
      · exact .laneNReceived _ ⟨b, g, rfl⟩
      · exact .frameFault
    · split
      · rename_i hq
        exact .laneQReceived b k _ hf hr hl hk hq
      · exact .frameFault

theorem receiveByte_answers (b : Byte) (g : Bool) (s : State) : Answers (.receiveByte b g) s := by
  cases hf : s.intake.frameState with
  | hunt =>
    by_cases h1 : g = false ∨ b ≠ syncByte
    · exact .of (by simp [exec, execReceiveByte, hf, h1]) .unchanged
    by_cases h2 : s.intake.freeSpace = 0
    · exact .of (by simp [exec, execReceiveByte, hf, h1, h2]) .frameFault
    · exact .of (by simp only [exec, execReceiveByte, hf, h1, h2, if_false]) (.frameStarts b hf h2)
  | header =>
    by_cases h1 : g = false ∨ s.intake.freeSpace = 0
    · exact .of (by simp [exec, execReceiveByte, hf, h1]) .frameFault
    refine .of (t := headerByte b s) (by simp only [exec, execReceiveByte, hf, h1, if_false]) ?_
    have hr : s.intake.freeSpace ≠ 0 := fun h => h1 (.inr h)
    unfold headerByte
    dsimp only
    split
    · rename_i hl
      exact .headerStored b hf hr (by simp only [List.length_append, List.length_singleton] at hl; omega)
    · rename_i hl
      split
      · exact .headerEnds b hf hr (by simp only [List.length_append, List.length_singleton] at hl; omega) ‹_›
      · exact .frameFault
  | body =>
    by_cases h1 : g = false ∨ s.intake.freeSpace = 0
    · exact .of (by simp [exec, execReceiveByte, hf, h1]) .frameFault
    refine .of (t := bodyByte b s) (by simp only [exec, execReceiveByte, hf, h1, if_false]) ?_
    have hr : s.intake.freeSpace ≠ 0 := fun h => h1 (.inr h)
    unfold bodyByte
    dsimp only
    split
    · exact .bodyStored b hf hr ‹_›
    · rename_i hl
      split
      · exact completeFrame_effect hf hr (by omega)
      · exact .frameFault

/-- A lane Q record sent whole joins its order, or is a frame fault. -/
theorem sendQ_effect (c : Instr) (r : QRecord) (s : State) : Effect c s (sendQ r s) := by
  unfold sendQ
  split
  · exact .frameFault
  · exact .laneQSent r (by omega)

/-! ## The carriage -/

theorem positioningArrival_answers (home : Bool) (s : State) : Answers (.positioningArrival home) s := by
  cases hd : s.carriage.drive with
  | positioning m run =>
    by_cases hc : homeCheck (arriveCarriage m.side home s).carriage.position home = true
    · by_cases hj : m.idx + 1 < m.len
      · exact .of (by simp only [exec, execPositioningArrival, hd, hc, hj, if_true]) (.positions m run home hd hj)
      · exact .of (by simp only [exec, execPositioningArrival, hd, hc, hj, if_true, if_false])
          (.positioned m run home hd hj)
    · exact .of (by simp only [exec, execPositioningArrival, hd, hc]; rfl) (.carriageFaults m.side home)
  | unhomed | homing | stopped | passRun | stopping =>
    exact .of (by simp only [exec, execPositioningArrival, hd]) .unchanged

theorem passRunArrival_answers (home : Bool) (s : State) : Answers (.passRunArrival home) s := by
  cases hd : s.carriage.drive with
  | passRun m =>
    by_cases hc : homeCheck (arriveCarriage m.side home s).carriage.position home = true
    · by_cases hj : m.idx + 1 < m.len
      · exact .of (by simp only [exec, execPassRunArrival, hd, hc, hj, if_true]) (.runs m home hd hj)
      · exact .of (by simp only [exec, execPassRunArrival, hd, hc, hj, if_true, if_false]) (.runEnds m home hd hj)
    · exact .of (by simp only [exec, execPassRunArrival, hd, hc]; rfl) (.carriageFaults m.side home)
  | unhomed | homing | stopped | positioning | stopping =>
    exact .of (by simp only [exec, execPassRunArrival, hd]) .unchanged

theorem stoppingArrival_answers (home : Bool) (s : State) : Answers (.stoppingArrival home) s := by
  cases hd : s.carriage.drive with
  | stopping d =>
    by_cases hc : homeCheck (arriveCarriage d.side home s).carriage.position home = true
    · by_cases hl : d.left = 0
      · exact .of (by simp only [exec, execStoppingArrival, hd, hc, hl, if_true]) (.decelerated d home hd hl)
      · exact .of (by simp only [exec, execStoppingArrival, hd, hc, hl, if_true, if_false])
          (.decelerates d home hd hl)
    · exact .of (by simp only [exec, execStoppingArrival, hd, hc]; rfl) (.carriageFaults d.side home)
  | unhomed | homing | stopped | positioning | passRun =>
    exact .of (by simp only [exec, execStoppingArrival, hd]) .unchanged

theorem homingArrival_answers (home : Bool) (s : State) : Answers (.homingArrival home) s := by
  cases hd : s.carriage.drive with
  | homing h =>
    cases hr : homingResult h (arriveCarriage h.phase.side home s).carriage.position home with
    | failed => exact .of (by simp only [exec, execHomingArrival, hd, hr]) (.carriageFaults h.phase.side home)
    | goesOn h' =>
      cases ha : h.restart
      · exact .of (by simp only [exec, execHomingArrival, hd, hr, ha]; rfl) (.homes h h' home hd hr)
      · exact .of (by simp only [exec, execHomingArrival, hd, hr, ha, if_true]) (.homesAnew h.phase.side home)
    | edgeFound =>
      cases ha : h.restart
      · exact .of (by simp only [exec, execHomingArrival, hd, hr, ha]; rfl) (.edgeFound h.phase.side home)
      · exact .of (by simp only [exec, execHomingArrival, hd, hr, ha, if_true]) (.homesAnew h.phase.side home)
    | complete =>
      cases ha : h.restart
      · exact .of (by simp only [exec, execHomingArrival, hd, hr, ha]; rfl) (.homed h home hd hr)
      · exact .of (by simp only [exec, execHomingArrival, hd, hr, ha, if_true]) (.homesAnew h.phase.side home)
  | unhomed | stopped | positioning | passRun | stopping =>
    exact .of (by simp only [exec, execHomingArrival, hd]) .unchanged

/-! ## Printing -/

theorem buildEnd_answers (s : State) : Answers .buildEnd s := by
  cases hb : buildInProgress s with
  | none => exact .of (by simp only [exec, execBuildEnd, hb]) .unchanged
  | some x =>
    obtain ⟨h, parts, b, inp⟩ := x
    exact .of (by simp only [exec, execBuildEnd, hb]) (.buildEnds h parts b inp hb)

theorem takeUpFrontEntry_answers (s : State) : Answers .takeUpFrontEntry s := by
  change ∃ t, execTakeUpFrontEntry s = .next t ∧ Effect _ s t
  unfold execTakeUpFrontEntry
  split
  · exact ⟨_, rfl, .takenUp _ ‹_› ‹_›⟩
  · exact ⟨_, rfl, .unchanged⟩

theorem passStart_answers (s : State) : Answers .passStart s := by
  change ∃ t, execPassStart s = .next t ∧ Effect _ s t
  unfold execPassStart
  split
  · rename_i first n hx
    split
    · rename_i he
      exact ⟨_, rfl, .passChecked first n hx (Bool.and_eq_true _ _ |>.mp he).1⟩
    · exact ⟨_, rfl, .unchanged⟩
  · exact ⟨_, rfl, .unchanged⟩

theorem pulseEnd_answers (i : Nat) (faults : PinMask) (s : State) : Answers (.pulseEnd i faults) s := by
  change ∃ t, execPulseEnd i faults s = .next t ∧ Effect _ s t
  unfold execPulseEnd
  split
  · rename_i p _
    dsimp only
    split
    · exact ⟨_, rfl, .thirdDead i p faults⟩
    · exact ⟨_, rfl, .pulseEnds i p faults⟩
  · exact ⟨_, rfl, .unchanged⟩

theorem coolingTick_answers (s : State) : Answers .coolingTick s := by
  change ∃ t, execCoolingTick s = .next t ∧ Effect _ s t
  unfold execCoolingTick
  dsimp only
  split
  · exact ⟨_, rfl, .holdReleased⟩
  · exact ⟨_, rfl, .cools⟩

/-! ## Paper -/

theorem feedStepArrival_answers (s : State) : Answers .feedStepArrival s := by
  change ∃ t, execFeedStepArrival s = .next t ∧ Effect _ s t
  unfold execFeedStepArrival
  split
  · exact ⟨_, rfl, .unchanged⟩
  rename_i f hf
  split
  · exact ⟨_, rfl, .unchanged⟩
  dsimp only
  split
  · exact ⟨_, rfl, .tailReached f hf⟩
  split
  · exact ⟨_, rfl, .feedAbandoned f hf⟩
  · exact ⟨_, rfl, .feedReset f hf⟩
  · exact ⟨_, rfl, .loadingCut f hf⟩
  · split
    · exact ⟨_, rfl, .feedAtEnd f hf⟩
    · exact ⟨_, rfl, .feedGoesOn f hf⟩

theorem formsSensorNoForms_answers (s : State) : Answers .formsSensorNoForms s := by
  change ∃ t, execFormsSensorNoForms s = .next t ∧ Effect _ s t
  unfold execFormsSensorNoForms
  split
  · dsimp only
    split
    · exact ⟨_, rfl, .tracks⟩
    split
    · exact ⟨_, rfl, .seesNoForms⟩
    · exact ⟨_, rfl, .formsGone⟩
  · exact ⟨_, rfl, .unchanged⟩

/-- A command that does one thing under a condition, and else nothing. -/
theorem Answers.of_ite {c : Instr} {p : Prop} [Decidable p] {s t u : State}
    (h : exec c s = if p then .next t else .next u) (ht : Effect c s t) (hu : Effect c s u) : Answers c s := by
  by_cases hp : p
  · exact .of (by rw [h, if_pos hp]) ht
  · exact .of (by rw [h, if_neg hp]) hu

/-! ## Every command -/

/-- Every command but a power-on reset answers one of the effects. -/
theorem exec_answers {c : Instr} (hc : ∀ a b d e, c ≠ .powerOnReset a b d e) (s : State) : Answers c s := by
  cases c with
  | powerOnReset a b d e => exact absurd rfl (hc a b d e)
  | receiveByte b g => exact receiveByte_answers b g s
  | interByteTimeout => exact .of_ite rfl .unchanged .frameFault
  | query => exact .of rfl (.laneNSent .query rfl)
  | read table page source => exact .of rfl (.laneNSent (.read table page source) rfl)
  | stage table page offset clear data =>
    exact .of_ite rfl .frameFault (.laneNSent (.stage table page offset clear data) rfl)
  | halt => exact .of rfl (.laneNSent .halt rfl)
  | go => exact .of rfl (.laneNSent .go rfl)
  | drop => exact .of rfl (.laneNSent .drop rfl)
  | reset => exact .of rfl (.laneNSent .reset rfl)
  | ack causes mask => exact .of rfl (.laneNSent (.ack causes mask) rfl)
  | lineFirstPart h more runs => exact .of rfl (sendQ_effect _ (.lineFirst h more runs) s)
  | lineContinuation more runs => exact .of rfl (sendQ_effect _ (.lineCont more runs) s)
  | advance mode count => exact .of rfl (sendQ_effect _ (.advance mode count) s)
  | commit table page => exact .of rfl (sendQ_effect _ (.commit table page) s)
  | set f => exact .of rfl (sendQ_effect _ (.set f) s)
  | form l z => exact .of rfl (sendQ_effect _ (.form l z) s)
  | geometry d g e r => exact .of rfl (sendQ_effect _ (.geometry d g e r) s)
  | replySent => exact .of rfl .replySent
  | buildEnd => exact buildEnd_answers s
  | takeUpFrontEntry => exact takeUpFrontEntry_answers s
  | passStart => exact passStart_answers s
  | positioningArrival home => exact positioningArrival_answers home s
  | passRunArrival home => exact passRunArrival_answers home s
  | stoppingArrival home => exact stoppingArrival_answers home s
  | homingArrival home => exact homingArrival_answers home s
  | pulseEnd i faults => exact pulseEnd_answers i faults s
  | coolingTick => exact coolingTick_answers s
  | feedStepArrival => exact feedStepArrival_answers s
  | tearTimerExpiry => exact .of_ite rfl .tearOff .unchanged
  | presenceTimerExpiry => exact .of_ite rfl .loads .unchanged
  | formsSensorNoForms => exact formsSensorNoForms_answers s
  | formsSensorFormsPresent => exact .of rfl .formsPresent
  | leverOpen => exact .of rfl .leverOpens
  | leverClose => exact .of_ite rfl .leverSettles .leverRests
  | settleTimeExpiry => exact .of_ite rfl .settled .unchanged

/-- What a command that is no power-on reset answers is one of the effects. -/
theorem exec_effect {c : Instr} {s t : State} (hc : ∀ a b d e, c ≠ .powerOnReset a b d e) (h : exec c s = .next t) :
    Effect c s t := by
  obtain ⟨u, hu, he⟩ := exec_answers hc s
  rw [h] at hu
  cases hu
  exact he

/-! ## From the effects to a law -/

/-- A law that every power-on state has and every effect keeps, every step keeps. -/
theorem step_keeps {P : State → Prop} (hon : ∀ p a b d e, P (State.powerOn p a b d e))
    (hidle : ∀ (s : State) (rest : List Instr), P s → P { s with pending := rest })
    (heff : ∀ (c : Instr) (s t : State), Effect c s t → P s → P t) {s t : State} (hs : P s) (h : step s = .next t) :
    P t := by
  unfold step at h
  split at h
  · cases h
    exact hs
  · rename_i c rest _
    by_cases hc : ∀ a b d e, c ≠ .powerOnReset a b d e
    · exact heff c _ _ (exec_effect hc h) (hidle s rest hs)
    · push Not at hc
      obtain ⟨a, b, d, e, rfl⟩ := hc
      cases h
      exact hon _ _ _ _ _

/-- Settles O1. -/
theorem stepRunsFrontCommand : Obligations.StepRunsFrontCommand := by
  refine ⟨fun c rest s h => ?_, fun s h => ?_⟩ <;> simp [step, h]

end Sys2Proof.Machine
end

