-- ==== Sys2Proof/Proofs/Lawful.lean ====
section
/-! PROOFS. The laws that one block alone answers for, through every command: the waiting commands, the geometry lock, the
ranges of heat, settings and geometry, the profiles, the sticky causes and the dead pins. -/

namespace Sys2Proof.Machine

/-- CF and PF stay pending and dead pins stay dead from `s` to `t` (R127, R166). -/
def Sticky (s t : State) : Prop :=
  s.run.causes &&& stickyCauses &&& ~~~t.run.causes = 0 ∧ s.firing.dead &&& ~~~t.firing.dead = 0

/-- What every command but a power-on reset keeps from `s` to `t`; the sticky causes and the dead pins where no ACK is
taken. -/
structure Lawful (acked : Prop) (s t : State) : Prop where
  pending  : t.pending = s.pending
  locked   : s.run.locked = true → t.run.locked = true ∧ t.geometry = s.geometry
  heat     : HeatSound s.heat → HeatSound t.heat
  settings : SettingsSound s.settings → SettingsSound t.settings
  geometry : GeometrySound s.geometry → GeometrySound t.geometry
  form     : FormSound s.forms → FormSound t.forms
  acc      : AccSound s.forms → AccSound t.forms
  profiles : ProfilesSound s.tables → ProfilesSound t.tables
  sticky   : ¬acked → Sticky s t

/-- A set less another is empty exactly when it is a part of the other. -/
theorem and_not_eq_zero_iff {w : Nat} {a b : BitVec w} :
    a &&& ~~~b = 0 ↔ ∀ i, a.getLsbD i = true → b.getLsbD i = true := by
  constructor
  · intro h i ha
    have hi := BitVec.lt_of_getLsbD ha
    simpa [ha, hi] using congrArg (fun v : BitVec w => v.getLsbD i) h
  · intro h
    apply BitVec.eq_of_getLsbD_eq
    intro i hi
    simpa [BitVec.getLsbD_eq_getElem, hi] using h i

theorem Sticky.of_grown {s t : State} (hc : ∃ d, t.run.causes = s.run.causes ||| d)
    (hd : ∃ d, t.firing.dead = s.firing.dead ||| d) : Sticky s t := by
  obtain ⟨d, hd⟩ := hd
  obtain ⟨e, he⟩ := hc
  unfold Sticky
  rw [and_not_eq_zero_iff, and_not_eq_zero_iff, he, hd]
  constructor <;> intro i h <;> simp_all

theorem Sticky.trans {s t u : State} (h : Sticky s t) (k : Sticky t u) : Sticky s u := by
  unfold Sticky at *
  rw [and_not_eq_zero_iff, and_not_eq_zero_iff] at *
  refine ⟨fun i hi => k.1 i ?_, fun i hi => k.2 i (h.2 i hi)⟩
  have hs : stickyCauses.getLsbD i = true := by simp_all
  simp [h.1 i hi, hs]

variable {acked : Prop}

theorem Lawful.trans {s t u : State} (h : Lawful acked s t) (k : Lawful acked t u) : Lawful acked s u where
  pending := k.pending.trans h.pending
  locked := fun hl =>
    have a := h.locked hl
    have b := k.locked a.1
    ⟨b.1, b.2.trans a.2⟩
  heat := k.heat ∘ h.heat
  settings := k.settings ∘ h.settings
  geometry := k.geometry ∘ h.geometry
  form := k.form ∘ h.form
  acc := k.acc ∘ h.acc
  profiles := k.profiles ∘ h.profiles
  sticky := fun n => (h.sticky n).trans (k.sticky n)

theorem Kept.lawful {s t : State} (h : Kept s t) : Lawful acked s t where
  pending := h.pending
  locked := h.locked
  heat := h.heat
  settings := h.settings
  geometry := h.geometry
  form := h.form
  acc := h.acc
  profiles := h.profiles
  sticky := fun _ => .of_grown h.causes ⟨0, by simp [h.dead]⟩

theorem Lawful.refl (s : State) : Lawful acked s s := (Kept.refl s).lawful

/-- What follows an event is lawful. -/
theorem Lawful.finish {s t : State} (h : Lawful acked s t) : Lawful acked s (finishEvent t) :=
  h.trans (finishEvent_kept t).lawful

/-- A change of the blocks that the laws say nothing about, and of the laws' blocks within the laws. -/
theorem Lawful.of_blocks {s t : State} (hp : t.pending = s.pending) (hr : t.run = s.run)
    (hg : t.geometry = s.geometry) (hs : t.settings = s.settings) (ht : t.tables = s.tables)
    (hd : ∃ d, t.firing.dead = s.firing.dead ||| d) (hh : HeatSound s.heat → HeatSound t.heat)
    (hf : FormSound s.forms → FormSound t.forms) (ha : AccSound s.forms → AccSound t.forms) : Lawful acked s t where
  pending := hp
  locked := fun h => ⟨by rw [hr]; exact h, hg⟩
  heat := hh
  settings := by rw [hs]; exact id
  geometry := by rw [hg]; exact id
  form := hf
  acc := ha
  profiles := by rw [ht]; exact id
  sticky := fun _ => .of_grown ⟨0, by simp [hr]⟩ hd

/-! ## The updates of one block -/

theorem updIntake_lawful (f : Intake → Intake) (s : State) : Lawful acked s (s.updIntake f) :=
  .of_blocks rfl rfl rfl rfl rfl ⟨0, by simp⟩ id id id

theorem updPins_lawful (f : Pins → Pins) (s : State) : Lawful acked s (s.updPins f) :=
  .of_blocks rfl rfl rfl rfl rfl ⟨0, by simp⟩ id id id

theorem updCarriage_lawful (f : Carriage → Carriage) (s : State) : Lawful acked s (s.updCarriage f) :=
  .of_blocks rfl rfl rfl rfl rfl ⟨0, by simp⟩ id id id

theorem updPlanner_lawful (f : Planner → Planner) (s : State) : Lawful acked s (s.updPlanner f) :=
  .of_blocks rfl rfl rfl rfl rfl ⟨0, by simp⟩ id id id

theorem updBuilder_lawful (f : BuilderCounters → BuilderCounters) (s : State) : Lawful acked s (s.updBuilder f) :=
  .of_blocks rfl rfl rfl rfl rfl ⟨0, by simp⟩ id id id

theorem updFiring_lawful {f : Firing → Firing} {s : State} (h : ∃ d, (f s.firing).dead = s.firing.dead ||| d) :
    Lawful acked s (s.updFiring f) := .of_blocks rfl rfl rfl rfl rfl h id id id

theorem updHeat_lawful {f : Heat → Heat} {s : State} (h : HeatSound s.heat → HeatSound (f s.heat)) :
    Lawful acked s (s.updHeat f) := .of_blocks rfl rfl rfl rfl rfl ⟨0, by simp⟩ h id id

theorem updForms_lawful {f : Forms → Forms} {s : State} (h : FormSound s.forms → FormSound (f s.forms))
    (k : AccSound s.forms → AccSound (f s.forms)) : Lawful acked s (s.updForms f) :=
  .of_blocks rfl rfl rfl rfl rfl ⟨0, by simp⟩ id h k

theorem latch_lawful (c : Cause) (s : State) : Lawful acked s (latch c s) := (latch_kept c s).lawful

theorem latchIf_lawful (b : Bool) (c : Cause) (s : State) : Lawful acked s (latchIf b c s) := (latchIf_kept b c s).lawful

theorem setStage_lawful (g : Stage) (s : State) : Lawful acked s (s.setStage g) := (setStage_kept g s).lawful

/-! ## The link -/

theorem frameFault_lawful (s : State) : Lawful acked s (frameFault s) :=
  (updIntake_lawful _ s).trans (latch_lawful _ _)

theorem releaseFrame_lawful (s : State) : Lawful acked s (releaseFrame s) := updIntake_lawful _ s

theorem joinLaneQ_lawful (r : QRecord) (s : State) : Lawful acked s (joinLaneQ r s) := (updIntake_lawful _ s).finish

/-! ## Control records -/

theorem answer_lawful (f : List Byte) (s : State) : Lawful acked s (answer f s) := by
  unfold answer
  split
  · exact updIntake_lawful _ s
  · exact updIntake_lawful _ s

theorem stageWritten_lawful (b : Binding) (data : List Byte) (s : State) : Lawful acked s (stageWritten b data s) :=
  (setStage_lawful _ s).trans (latchIf_lawful _ _ _)

theorem takeStage_lawful (table page offset : Nat) (clear : Bool) (data : List Byte) (s : State) :
    Lawful acked s (takeStage table page offset clear data s) := by
  unfold takeStage
  split
  · exact latch_lawful _ s
  split
  · split
    · exact latch_lawful _ s
    · split
      · exact .refl s
      · exact stageWritten_lawful _ _ s
    · split
      · split
        · exact setStage_lawful _ s
        · exact stageWritten_lawful _ _ s
      · split
        · exact stageWritten_lawful _ _ s
        · exact latch_lawful _ s
  · exact latch_lawful _ s

/-- A change of Run Control that keeps the mask, the causes and the lock. -/
theorem updRun_lawful (f : RunControl → RunControl) (s : State) (hc : (f s.run).causes = s.run.causes)
    (hl : (f s.run).locked = s.run.locked) : Lawful acked s (s.updRun f) where
  pending := rfl
  locked := fun h => ⟨by simp [hl, h], rfl⟩
  heat := id
  settings := id
  geometry := id
  form := id
  acc := id
  profiles := id
  sticky := fun _ => .of_grown ⟨0, by simp [hc]⟩ ⟨0, by simp⟩

theorem takeHalt_lawful (s : State) : Lawful acked s (takeHalt s) :=
  (updRun_lawful _ s rfl rfl).trans (judgeTimers_kept _).lawful

theorem takeGo_lawful (s : State) : Lawful acked s (takeGo s) := (updRun_lawful _ s rfl rfl).finish

theorem dropInHand_lawful (s : State) : Lawful acked s (dropInHand s) := by
  unfold dropInHand
  split
  · exact .refl s
  · split
    · exact .refl s
    · exact ((abandonFeed_kept _ s).trans ((updForms_kept _ _ ⟨rfl, rfl, rfl⟩).trans (leaveEntry_kept _))).lawful

theorem dropEntries_lawful (s : State) : Lawful acked s (dropEntries s) := by
  unfold dropEntries
  dsimp only
  refine .trans ?_ (latchIf_lawful _ _ _)
  split
  · exact (((updBuffers_kept _ s).trans (updQueue_kept _ _)).trans (setStage_kept _ _)).lawful
  · exact ((updBuffers_kept _ s).trans (updQueue_kept _ _)).lawful

theorem takeDrop_lawful (s : State) : Lawful acked s (takeDrop s) :=
  (((updIntake_lawful _ s).trans (dropInHand_lawful _)).trans (dropEntries_lawful _)).finish

/-- RESET keeps the sticky causes (R169). -/
theorem resetCauses_lawful (s : State) : Lawful acked s (resetCauses s) where
  pending := rfl
  locked := fun h => ⟨h, rfl⟩
  heat := id
  settings := id
  geometry := id
  form := id
  acc := id
  profiles := id
  sticky := fun _ => by
    refine ⟨and_not_eq_zero_iff.mpr fun i hi => ?_, by simp [resetCauses]⟩
    simp_all [resetCauses]

theorem takeReset_lawful (s : State) : Lawful acked s (takeReset s) := by
  unfold takeReset
  refine .trans ?_ (((resetCauses_lawful _).trans (restartTearTimer_kept _).lawful).trans (judgeTimers_kept _).lawful)
  refine .trans ?_ (updRun_lawful _ _ rfl rfl)
  refine .trans ?_ (resetForms_kept _).lawful
  refine .trans ?_ (updCarriage_lawful _ _)
  refine .trans ?_ (setHold_kept false _).lawful
  refine .trans ?_ (updFiring_lawful ⟨0, by simp⟩)
  refine .trans ?_ (updPlanner_lawful _ _)
  refine .trans ?_ (setStage_lawful _ _)
  refine .trans ?_ (updBuilder_lawful _ _)
  refine .trans ?_ (updBuffers_kept _ _).lawful
  refine .trans ?_ (updQueue_kept _ _).lawful
  exact (updIntake_lawful _ s).trans (updIntake_lawful _ _)

/-- An ACK keeps all but what it clears. -/
theorem ackClear_lawful (named : BitVec 16) (mask : Option (BitVec 16)) (s : State) :
    Lawful True s (ackClear named mask s) := by
  unfold ackClear
  dsimp only
  split <;> exact
    { pending := rfl, locked := fun h => ⟨h, rfl⟩, heat := id, settings := id, geometry := id, form := id, acc := id,
      profiles := id, sticky := fun h => absurd trivial h }

theorem leaveFaultStop_lawful (s : State) : Lawful acked s (leaveFaultStop s) := by
  unfold leaveFaultStop
  split
  · exact (updRun_lawful _ s rfl rfl).trans (updCarriage_lawful _ _)
  · exact (enterReady_kept s).lawful

theorem takeAck_lawful (named : BitVec 16) (mask : Option (BitVec 16)) (s : State) :
    Lawful True s (takeAck named mask s) := by
  unfold takeAck
  dsimp only
  split
  · exact ((ackClear_lawful named mask s).trans (leaveFaultStop_lawful _)).finish
  · exact ackClear_lawful named mask s

/-- The laws where every command is one without an ACK hold where there may be one. -/
theorem Lawful.weaken {p q : Prop} {s t : State} (h : Lawful p s t) (k : p → q) : Lawful q s t :=
  { h with sticky := fun n => h.sticky fun a => n (k a) }

theorem takeN_lawful (r : NRecord) (s : State) : Lawful (∃ a b, r = .ack a b) s (takeN r s) := by
  cases r with
  | query => exact answer_lawful _ s
  | halt => exact takeHalt_lawful s
  | go => exact takeGo_lawful s
  | drop => exact takeDrop_lawful s
  | reset => exact takeReset_lawful s
  | ack causes mask => exact (takeAck_lawful causes mask s).weaken fun _ => ⟨_, _, rfl⟩
  | stage table page offset clear data => exact takeStage_lawful _ _ _ _ _ s
  | read table page source => exact answer_lawful _ s

/-! ## Printing -/

theorem endBuild_lawful (h : LineHeader) (parts : List (List Byte)) (b : BufId) (r : BuildResult) (s : State) :
    Lawful acked s (endBuild h parts b r s) := by
  unfold endBuild
  dsimp only
  refine .trans ?_ ((setEntry_kept _ _ _).trans (moveCursor_kept _)).lawful
  refine .trans ?_ (latchIf_lawful _ _ _)
  refine .trans ?_ (latchIf_lawful _ _ _)
  exact ((updBuffers_kept _ s).lawful).trans (updBuilder_lawful _ _)

theorem arriveCarriage_lawful (side : Side) (home : Bool) (s : State) : Lawful acked s (arriveCarriage side home s) :=
  (updPins_lawful _ s).trans (updCarriage_lawful _ _)

theorem fireEntry_lawful (mask : PinMask) (tRec : Nat) (s : State) : Lawful acked s (fireEntry mask tRec s) := by
  unfold fireEntry
  dsimp only
  refine ((updFiring_lawful ⟨0, by simp⟩).trans (latchIf_lawful _ _ _)).trans (updHeat_lawful fun h => ?_)
  obtain ⟨-, h⟩ := h
  exact ⟨Nat.min_le_left _ _, h⟩

theorem handEntry_lawful (sc : Schedule) (f : Fire) (s : State) : Lawful acked s (handEntry sc f s) := by
  unfold handEntry
  dsimp only
  split
  · split
    · exact ((updPlanner_lawful _ s).trans (fireEntry_lawful _ _ _)).trans (updFiring_lawful ⟨0, by simp⟩)
    · exact (updPlanner_lawful _ s).trans (fireEntry_lawful _ _ _)
  · exact updPlanner_lawful _ s

theorem offerArrival_lawful (s : State) : Lawful acked s (offerArrival s) := by
  unfold offerArrival
  split
  · split
    · split
      · exact handEntry_lawful _ _ s
      · exact .refl s
    · exact .refl s
  · exact .refl s

theorem forgetLastFire_lawful (s : State) : Lawful acked s (forgetLastFire s) := updFiring_lawful ⟨0, by simp⟩

theorem discardSchedule_lawful (s : State) : Lawful acked s (discardSchedule s) :=
  (updPlanner_lawful _ s).trans (updFiring_lawful ⟨0, by simp⟩)

theorem lastFireDone_kept (s : State) : Kept s (lastFireDone s) := by
  unfold lastFireDone
  split
  · exact beginFeed_kept _ _ _ s
  · exact .refl s

theorem reportLastFire_lawful (s : State) : Lawful acked s (reportLastFire s) := by
  unfold reportLastFire
  split
  · exact (forgetLastFire_lawful s).trans (lastFireDone_kept _).lawful
  · exact .refl s

theorem finishLastFire_lawful (s : State) : Lawful acked s (finishLastFire s) := by
  unfold finishLastFire
  split
  · exact (reportLastFire_lawful s).finish
  · exact .refl s

theorem runStopped_kept (s : State) : Kept s (runStopped s) := by
  unfold runStopped
  split
  · exact setInHand_kept _ s
  · exact finishEntry_kept s
  · exact setInHand_kept _ s
  · exact .refl s

theorem homingComplete_kept (s : State) : Kept s (homingComplete s) := by
  unfold homingComplete
  split
  · exact enterReady_kept s
  · exact .refl s

theorem carriageFault_lawful (s : State) : Lawful acked s (carriageFault s) :=
  ((((updCarriage_lawful _ s).trans (discardSchedule_lawful _)).trans (forgetLastFire_lawful _)).trans
    (latch_lawful _ _)).trans (faultStop_kept _).lawful

theorem endPulse_lawful (i : Nat) (p : Pulse) (faults : PinMask) (s : State) : Lawful acked s (endPulse i p faults s) :=
  (updFiring_lawful ⟨_, rfl⟩).trans (latchIf_lawful _ _ _)

theorem thirdDeadPin_lawful (s : State) : Lawful acked s (thirdDeadPin s) :=
  ((updFiring_lawful ⟨0, by simp⟩).trans (forgetLastFire_lawful _)).trans (faultStop_kept _).lawful

theorem coolHeat_sound {h : Heat} (k : HeatSound h) : HeatSound (coolHeat h) := by
  obtain ⟨k1, k⟩ := k
  exact ⟨le_trans (Nat.sub_le _ _) k1, k⟩

/-! ## Paper -/

@[simp] theorem trackStep_position (e : Nat) (d : FeedDir) (f : Forms) : (trackStep e d f).position = f.position := by
  unfold trackStep
  split <;> rfl

@[simp] theorem trackStep_length (e : Nat) (d : FeedDir) (f : Forms) : (trackStep e d f).length = f.length := by
  unfold trackStep
  split <;> rfl

@[simp] theorem trackStep_acc (e : Nat) (d : FeedDir) (f : Forms) : (trackStep e d f).acc = f.acc := by
  unfold trackStep
  split <;> rfl

theorem countForward_sound {f : Forms} (h : FormSound f) : FormSound (countForward f) := by
  unfold FormSound countForward at *
  split <;> simp only <;> omega

theorem countReverse_sound {f : Forms} (h : FormSound f) : FormSound (countReverse f) := by
  unfold FormSound countReverse at *
  split <;> simp only <;> omega

@[simp] theorem countForward_acc (f : Forms) : (countForward f).acc = f.acc := by
  unfold countForward
  split <;> rfl

@[simp] theorem countReverse_acc (f : Forms) : (countReverse f).acc = f.acc := by
  unfold countReverse
  split <;> rfl

/-- The counts at an arrival keep p within 0 and L − 1 (R142). -/
theorem arriveStep_form (e : Nat) (f : Feed) {g : Forms} (h : FormSound g) : FormSound (arriveStep e f g) := by
  simp only [FormSound, arriveStep, trackStep_position, trackStep_length]
  split
  · exact h
  · split
    · exact countForward_sound h
    · exact countReverse_sound h

theorem arriveStep_acc (e : Nat) (f : Feed) (g : Forms) : (arriveStep e f g).acc = g.acc := by
  simp only [arriveStep, trackStep_acc]
  split
  · rfl
  · split <;> simp

theorem updArriveStep_lawful (e : Nat) (f : Feed) (s : State) : Lawful acked s (s.updForms (arriveStep e f)) :=
  updForms_lawful (arriveStep_form e f) (by rw [AccSound, AccSound, arriveStep_acc]; exact id)

theorem tailReached_kept (f : Feed) (s : State) : Kept s (tailReached f s) := by
  unfold tailReached
  dsimp only
  refine (eject_kept 0 s).trans ?_
  split
  · split
    · exact tearEnded_kept _
    · exact feedComplete_kept _ _
  · exact .refl _

theorem cutLoading_kept (s : State) : Kept s (cutLoading s) := by
  unfold cutLoading
  split
  · split
    · exact enterNoForms_kept s
    · exact updForms_kept _ s ⟨rfl, rfl, rfl⟩
  · exact enterNoForms_kept s

/-! ## Every command -/

/-- The command may take an ACK: an ACK, or a byte that completes one. -/
def Instr.mayAck (c : Instr) : Prop := (∃ a b, c = .ack a b) ∨ ∃ a b, c = .receiveByte a b

theorem ack_of_nRecord {c : Instr} {r : NRecord} (h : nRecordOfCommand c = some r) (k : ∃ a b, r = .ack a b) :
    Instr.mayAck c := by
  obtain ⟨a, b, rfl⟩ := k
  cases c <;> cases h
  exact .inl ⟨_, _, rfl⟩

theorem Effect.lawful {c : Instr} {s t : State} (h : Effect c s t) : Lawful (Instr.mayAck c) s t := by
  cases h with
  | unchanged => exact .refl s
  | frameFault => exact frameFault_lawful s
  | frameStarts | headerStored | headerEnds | bodyStored | replySent => exact updIntake_lawful _ s
  | wrongLane => exact (releaseFrame_lawful s).trans (latch_lawful _ _)
  | laneNReceived r hc => exact (releaseFrame_lawful s).trans ((takeN_lawful r _).weaken fun _ => .inr hc)
  | laneQReceived b k r => exact (releaseFrame_lawful s).trans (joinLaneQ_lawful r _)
  | laneNSent r hc => exact (takeN_lawful r s).weaken (ack_of_nRecord hc)
  | laneQSent r => exact joinLaneQ_lawful r s
  | buildEnds h parts b inp => exact (endBuild_lawful _ _ _ _ s).finish
  | takenUp u hx hu => exact (takeUpStep_kept hu).lawful.finish
  | passChecked first => exact (runChecks_kept first s).lawful.finish
  | carriageFaults side home => exact ((arriveCarriage_lawful side home s).trans (carriageFault_lawful _)).finish
  | positions | positioned | decelerates | homes | homesAnew | edgeFound =>
    exact (arriveCarriage_lawful _ _ s).trans (updCarriage_lawful _ _)
  | runs m home =>
    exact (((arriveCarriage_lawful _ _ s).trans (offerArrival_lawful _)).trans (updCarriage_lawful _ _)).trans
      (finishLastFire_lawful _)
  | runEnds m home =>
    exact ((((((arriveCarriage_lawful _ _ s).trans (offerArrival_lawful _)).trans (reportLastFire_lawful _)).trans
      (updCarriage_lawful _ _)).trans (discardSchedule_lawful _)).trans (runStopped_kept _).lawful).trans
      (finishRunStop_kept _).lawful
  | decelerated => exact ((arriveCarriage_lawful _ _ s).trans (updCarriage_lawful _ _)).finish
  | homed =>
    exact (((arriveCarriage_lawful _ _ s).trans (updCarriage_lawful _ _)).trans (homingComplete_kept _).lawful).finish
  | thirdDead i p faults => exact ((endPulse_lawful i p faults s).trans (thirdDeadPin_lawful _)).finish
  | pulseEnds i p faults => exact (endPulse_lawful i p faults s).trans (finishLastFire_lawful _)
  | cools => exact updHeat_lawful coolHeat_sound
  | holdReleased => exact ((updHeat_lawful coolHeat_sound).trans (setHold_kept false _).lawful).finish
  | tailReached f => exact ((updArriveStep_lawful _ f s).trans (tailReached_kept f _).lawful).finish
  | feedAbandoned f => exact ((updArriveStep_lawful _ f s).trans (clearFeed_kept _).lawful).finish
  | feedReset f => exact ((updArriveStep_lawful _ f s).trans (resetPaper_kept _).lawful).finish
  | loadingCut f => exact ((updArriveStep_lawful _ f s).trans (enterNoForms_kept _).lawful).finish
  | feedAtEnd f => exact (updArriveStep_lawful _ f s).finish
  | feedGoesOn f => exact (updArriveStep_lawful _ f s).trans (startStep_kept _).lawful
  | tearOff => exact (beginTearOff_kept s).lawful.finish
  | loads => exact (beginLoading_kept s).lawful.finish
  | seesNoForms => exact ((updPins_lawful _ s).trans (cutLoading_kept _).lawful).finish
  | formsGone => exact (updPins_lawful _ s).trans (judgeTimers_kept _).lawful
  | tracks | formsPresent | leverSettles =>
    exact ((updPins_lawful _ s).trans (updForms_lawful id id)).trans (judgeTimers_kept _).lawful
  | leverOpens =>
    exact (((updPins_lawful _ s).trans (updForms_lawful id id)).trans (latch_lawful _ _)).trans
      (judgeTimers_kept _).lawful
  | leverRests => exact updPins_lawful _ s
  | settled => exact ((updForms_kept _ s ⟨rfl, rfl, rfl⟩).trans (startStep_kept _)).lawful.finish

theorem exec_lawful {c : Instr} {s t : State} (hc : ∀ a b d e, c ≠ .powerOnReset a b d e) (h : exec c s = .next t) :
    Lawful (Instr.mayAck c) s t := (exec_effect hc h).lawful

/-! ## The statements -/

/-- Settles O2: every arm of `exec` answers a next state, and each effect keeps the waiting commands. -/
theorem commandsCompleteAndKeepPending : Obligations.CommandsCompleteAndKeepPending := by
  intro c s
  by_cases hc : ∀ a b d e, c ≠ .powerOnReset a b d e
  · obtain ⟨t, ht, -⟩ := exec_answers hc s
    exact ⟨t, ht, (exec_lawful hc ht).pending⟩
  · push Not at hc
    obtain ⟨a, b, d, e, rfl⟩ := hc
    exact ⟨_, rfl, rfl⟩

/-- Settles O11. -/
theorem lockedGeometryStays : Obligations.LockedGeometryStays := fun _ _ _ hc hl h => (exec_lawful hc h).locked hl

/-- Settles O12: what a command without an ACK does to the causes and to the dead pins only adds to them. -/
theorem stickyCausesStay : Obligations.StickyCausesStay := by
  intro c s t hon hack hbyte h
  refine (exec_lawful hon h).sticky ?_
  rintro (⟨a, b, rfl⟩ | ⟨a, b, rfl⟩)
  · exact hack a b rfl
  · exact hbyte a b rfl

/-- The ramps of R48 meet R49. -/
theorem profilesSound_default : ProfilesSound tablesDefault := by
  unfold ProfilesSound
  decide +kernel

/-- Settles O7; at power-on the profiles are those of R48. -/
theorem stepKeepsProfileLaw : Obligations.StepKeepsProfileLaw := fun _ _ hs h =>
  step_keeps (P := fun s => ProfilesSound s.tables) (fun _ _ _ _ _ => profilesSound_default) (fun _ _ => id)
    (fun _ _ _ he => he.lawful.profiles) hs h

end Sys2Proof.Machine
end

