-- ==== Sys2Proof/Proofs/QueueSide.lean ====
section
/-! PROOFS. The laws about the Line Queue, what is linked with it, and the executor: every step keeps them (R20, R26, R56,
R158). -/

namespace Sys2Proof.Machine

/-! ## What leaves the queue's side alone -/

/-- The executor, the wait reason and the entry in hand are the same. -/
structure SameHand (s t : State) : Prop where
  executor : t.run.executor = s.run.executor
  reason   : t.run.reason = s.run.reason
  inHand   : t.run.inHand = s.run.inHand

theorem SameHand.refl (s : State) : SameHand s s := ⟨rfl, rfl, rfl⟩

theorem SameHand.trans {s t u : State} (h : SameHand s t) (k : SameHand t u) : SameHand s u :=
  ⟨k.executor.trans h.executor, k.reason.trans h.reason, k.inHand.trans h.inHand⟩

/-- The queue, the column buffers, the stage, the tables and what Run Control has in hand are the same. -/
structure Apart (s t : State) : Prop extends SameHand s t where
  queue   : t.queue = s.queue
  buffers : t.buffers = s.buffers
  stage   : t.stage = s.stage
  tables  : t.tables = s.tables

theorem Apart.refl (s : State) : Apart s s := ⟨.refl s, rfl, rfl, rfl, rfl⟩

theorem Apart.trans {s t u : State} (h : Apart s t) (k : Apart t u) : Apart s u :=
  ⟨h.toSameHand.trans k.toSameHand, k.queue.trans h.queue, k.buffers.trans h.buffers, k.stage.trans h.stage,
    k.tables.trans h.tables⟩

theorem Apart.queueSound {s t : State} (h : Apart s t) (k : QueueSound s.queue) : QueueSound t.queue :=
  queueSound_of_eq k h.queue

theorem Apart.linked {s t : State} (h : Apart s t) (k : Linked s) : Linked t :=
  k.of_eq h.queue h.buffers h.inHand h.stage h.tables

theorem SameHand.executorSound {s t : State} (h : SameHand s t) (k : ExecutorSound s.run) : ExecutorSound t.run := by
  unfold ExecutorSound
  rw [h.executor, h.reason, h.inHand]
  exact k

/-! ### One update -/

theorem updPins_apart (f : Pins → Pins) (s : State) : Apart s (s.updPins f) := ⟨⟨rfl, rfl, rfl⟩, rfl, rfl, rfl, rfl⟩
theorem updIntake_apart (f : Intake → Intake) (s : State) : Apart s (s.updIntake f) :=
  ⟨⟨rfl, rfl, rfl⟩, rfl, rfl, rfl, rfl⟩
theorem updBuilder_apart (f : BuilderCounters → BuilderCounters) (s : State) : Apart s (s.updBuilder f) :=
  ⟨⟨rfl, rfl, rfl⟩, rfl, rfl, rfl, rfl⟩
theorem updPlanner_apart (f : Planner → Planner) (s : State) : Apart s (s.updPlanner f) :=
  ⟨⟨rfl, rfl, rfl⟩, rfl, rfl, rfl, rfl⟩
theorem updCarriage_apart (f : Carriage → Carriage) (s : State) : Apart s (s.updCarriage f) :=
  ⟨⟨rfl, rfl, rfl⟩, rfl, rfl, rfl, rfl⟩
theorem updFiring_apart (f : Firing → Firing) (s : State) : Apart s (s.updFiring f) :=
  ⟨⟨rfl, rfl, rfl⟩, rfl, rfl, rfl, rfl⟩
theorem updHeat_apart (f : Heat → Heat) (s : State) : Apart s (s.updHeat f) := ⟨⟨rfl, rfl, rfl⟩, rfl, rfl, rfl, rfl⟩
theorem updForms_apart (f : Forms → Forms) (s : State) : Apart s (s.updForms f) := ⟨⟨rfl, rfl, rfl⟩, rfl, rfl, rfl, rfl⟩
theorem latch_apart (c : Cause) (s : State) : Apart s (latch c s) := ⟨⟨rfl, rfl, rfl⟩, rfl, rfl, rfl, rfl⟩

theorem latchIf_apart (b : Bool) (c : Cause) (s : State) : Apart s (latchIf b c s) := by
  unfold latchIf
  split
  · exact latch_apart c s
  · exact .refl s

/-! ### The Forms Drive -/

theorem startStep_apart (s : State) : Apart s (startStep s) := by
  unfold startStep
  split
  · split
    · exact updForms_apart _ s
    · exact .refl s
  · exact .refl s

theorem beginFeed_apart (p : Purpose) (d : FeedDir) (n : Nat) (s : State) : Apart s (beginFeed p d n s) :=
  (updForms_apart _ s).trans (startStep_apart _)

theorem eject_apart (r : Nat) (s : State) : Apart s (eject r s) :=
  ((updForms_apart _ s).trans (latch_apart _ _)).trans (beginFeed_apart _ _ _ _)

theorem beginTearOff_apart (s : State) : Apart s (beginTearOff s) :=
  (updForms_apart _ s).trans (beginFeed_apart _ _ _ _)

theorem beginReturn_apart (s : State) : Apart s (beginReturn s) :=
  (updForms_apart _ s).trans (beginFeed_apart _ _ _ _)

theorem beginLoading_apart (s : State) : Apart s (beginLoading s) :=
  (updForms_apart _ s).trans (beginFeed_apart _ _ _ _)

theorem enterNoForms_apart (s : State) : Apart s (enterNoForms s) := (updForms_apart _ s).trans (latch_apart _ _)

theorem resetPaper_apart (s : State) : Apart s (resetPaper s) := by
  unfold resetPaper
  split
  · exact updForms_apart _ s
  · exact updForms_apart _ s
  · exact updForms_apart _ s
  · exact updForms_apart _ s
  · exact beginLoading_apart s
  · exact beginFeed_apart _ _ _ s
  · exact .refl s

theorem resetForms_apart (s : State) : Apart s (resetForms s) := by
  unfold resetForms
  refine (updForms_apart (fun g => { g with paperRequest := false }) s).trans ?_
  dsimp only
  split
  · split
    · exact resetPaper_apart _
    · split
      · exact .refl _
      · exact updForms_apart _ _
  · exact resetPaper_apart _

theorem abandonFeed_apart (test : Purpose → Bool) (s : State) : Apart s (abandonFeed test s) := by
  unfold abandonFeed
  split
  · split
    · split
      · exact updForms_apart _ s
      · exact updForms_apart _ s
    · exact .refl s
  · exact .refl s

theorem cutLoading_apart (s : State) : Apart s (cutLoading s) := by
  unfold cutLoading
  split
  · split
    · exact enterNoForms_apart s
    · exact updForms_apart _ s
  · exact enterNoForms_apart s

theorem judgeTimers_apart (s : State) : Apart s (judgeTimers s) := updForms_apart _ s

/-! ### Carriage, firing, link -/

theorem frameFault_apart (s : State) : Apart s (frameFault s) := (updIntake_apart _ s).trans (latch_apart _ _)

theorem arriveCarriage_apart (side : Side) (home : Bool) (s : State) : Apart s (arriveCarriage side home s) :=
  (updPins_apart _ s).trans (updCarriage_apart _ _)

theorem fireEntry_apart (mask : PinMask) (tRec : Nat) (s : State) : Apart s (fireEntry mask tRec s) :=
  ((updFiring_apart _ s).trans (latchIf_apart _ _ _)).trans (updHeat_apart _ _)

theorem handEntry_apart (sc : Schedule) (f : Fire) (s : State) : Apart s (handEntry sc f s) := by
  unfold handEntry
  dsimp only
  split
  · split
    · exact ((updPlanner_apart _ s).trans (fireEntry_apart _ _ _)).trans (updFiring_apart _ _)
    · exact (updPlanner_apart _ s).trans (fireEntry_apart _ _ _)
  · exact updPlanner_apart _ s

theorem offerArrival_apart (s : State) : Apart s (offerArrival s) := by
  unfold offerArrival
  split
  · split
    · split
      · exact handEntry_apart _ _ s
      · exact .refl s
    · exact .refl s
  · exact .refl s

theorem discardSchedule_apart (s : State) : Apart s (discardSchedule s) :=
  (updPlanner_apart _ s).trans (updFiring_apart _ _)

theorem lastFireDone_apart (s : State) : Apart s (lastFireDone s) := by
  unfold lastFireDone
  split
  · exact beginFeed_apart _ _ _ s
  · exact .refl s

theorem reportLastFire_apart (s : State) : Apart s (reportLastFire s) := by
  unfold reportLastFire
  split
  · exact (updFiring_apart _ s).trans (lastFireDone_apart _)
  · exact .refl s

theorem endPulse_apart (i : Nat) (p : Pulse) (faults : PinMask) (s : State) : Apart s (endPulse i p faults s) :=
  (updFiring_apart _ s).trans (latchIf_apart _ _ _)

theorem answer_apart (f : List Byte) (s : State) : Apart s (answer f s) := by
  unfold answer
  split
  · exact updIntake_apart _ s
  · exact updIntake_apart _ s

/-- A carriage fault up to the fault stop itself (R110). -/
theorem faultedCarriage_apart (s : State) :
    Apart s (latch .CF (forgetLastFire (discardSchedule (s.updCarriage fun _ => { position := none, drive := .unhomed })))) :=
  (((updCarriage_apart _ s).trans (discardSchedule_apart _)).trans (updFiring_apart _ _)).trans (latch_apart _ _)

/-! ## The law of the Line Queue (R20) -/

theorem tailReached_queueSound {f : Feed} {s : State} (h : QueueSound s.queue) :
    QueueSound (tailReached f s).queue := by
  have he := (eject_apart 0 s).queueSound h
  unfold tailReached
  dsimp only
  split
  · split
    · exact tearEnded_queueSound he
    · exact feedComplete_queueSound he
  · exact he

theorem discardActive_queue (s : State) : (discardActive s).queue = (removeFront s).queue :=
  (abandonFeed_apart _ ((forgetDirection (removeFront s)).updHeat _)).queue

theorem faultStop_queueSound {s : State} (h : QueueSound s.queue) : QueueSound (faultStop s).queue := by
  have hd : ∀ u : State, QueueSound u.queue → QueueSound (discardActive u).queue := fun u hu =>
    queueSound_of_eq (removeFront_queueSound hu) (discardActive_queue u)
  unfold faultStop
  split
  · exact h
  · dsimp only
    split
    · exact hd _ h
    · exact hd _ h
    · exact hd _ h
    · exact h
    · exact h

theorem runStopped_queueSound {s : State} (h : QueueSound s.queue) : QueueSound (runStopped s).queue := by
  unfold runStopped
  split
  · exact h
  · exact finishEntry_queueSound h
  · exact h
  · exact h

theorem takeStage_queue (table page offset : Nat) (clear : Bool) (data : List Byte) (s : State) :
    (takeStage table page offset clear data s).queue = s.queue := by
  have hw : ∀ b : Binding, (stageWritten b data s).queue = s.queue := fun b => latchIf_queue _ _ _
  unfold takeStage
  split
  · rfl
  split
  · split
    · rfl
    · split
      · rfl
      · exact hw _
    · split
      · split
        · rfl
        · exact hw _
      · split
        · exact hw _
        · rfl
  · rfl

theorem takeReset_queue (s : State) : (takeReset s).queue = { entries := [], cursor := 0 } := by
  simp only [takeReset, judgeTimers, restartTearTimer, resetCauses, State.updForms_queue, State.updRun_queue]
  rw [(resetForms_apart _).queue]
  simp

theorem dropInHand_queue (s : State) : (dropInHand s).queue = s.queue := by
  unfold dropInHand
  split
  · rfl
  · split
    · rfl
    · exact (abandonFeed_apart _ s).queue

theorem takeAck_queueSound {named : BitVec 16} {mask : Option (BitVec 16)} {s : State} (h : QueueSound s.queue) :
    QueueSound (takeAck named mask s).queue := by
  have ha : QueueSound (ackClear named mask s).queue := by
    unfold ackClear
    dsimp only
    split <;> exact h
  unfold takeAck
  dsimp only
  split
  · refine finishEvent_queueSound ?_
    unfold leaveFaultStop
    split <;> exact ha
  · exact ha

theorem takeN_queueSound {r : NRecord} {s : State} (h : QueueSound s.queue) : QueueSound (takeN r s).queue := by
  cases r with
  | query => exact (answer_apart _ s).queueSound h
  | halt => exact h
  | go => exact finishEvent_queueSound (s := s.updRun _) h
  | drop =>
    exact finishEvent_queueSound (dropEntries_queueSound (by rw [dropInHand_queue]; exact h))
  | reset =>
    rw [takeN, takeReset_queue]
    exact ⟨Nat.zero_le _, Nat.zero_le _, Nat.le_refl _⟩
  | ack causes mask => exact takeAck_queueSound h
  | stage table page offset clear data => exact queueSound_of_eq h (takeStage_queue _ _ _ _ _ s)
  | read table page source => exact (answer_apart _ s).queueSound h

theorem finishLastFire_queueSound {s : State} (h : QueueSound s.queue) : QueueSound (finishLastFire s).queue := by
  unfold finishLastFire
  split
  · exact finishEvent_queueSound ((reportLastFire_apart s).queueSound h)
  · exact h

theorem Effect.queueSound {c : Instr} {s t : State} (k : Effect c s t) (h : QueueSound s.queue) :
    QueueSound t.queue := by
  cases k with
  | unchanged | frameFault | frameStarts | headerStored | headerEnds | bodyStored | wrongLane | replySent | cools
  | leverRests | tracks | formsGone | formsPresent | leverOpens | leverSettles | positions | positioned | decelerates
  | homes | homesAnew | edgeFound => exact h
  | laneNReceived r => exact takeN_queueSound (s := releaseFrame s) h
  | laneNSent r => exact takeN_queueSound h
  | laneQReceived b k r => exact finishEvent_queueSound (s := (releaseFrame s).updIntake _) h
  | laneQSent r => exact finishEvent_queueSound (s := s.updIntake _) h
  | buildEnds hd parts b inp hb => exact finishEvent_queueSound (endBuild_queueSound h hb)
  | takenUp u _ hu => exact finishEvent_queueSound (takeUpStep_queueSound hu h)
  | passChecked first => exact finishEvent_queueSound (queueSound_of_eq h (runChecks_queue first s))
  | carriageFaults side home =>
    exact finishEvent_queueSound (faultStop_queueSound ((faultedCarriage_apart _).queueSound (s := arriveCarriage _ _ s) h))
  | runs m home =>
    exact finishLastFire_queueSound (s := setDrive _ _)
      (((arriveCarriage_apart _ _ s).trans (offerArrival_apart _)).queueSound h)
  | runEnds m home =>
    exact finishRunStop_queueSound (runStopped_queueSound (s := discardSchedule (setDrive _ _))
      ((((arriveCarriage_apart _ _ s).trans (offerArrival_apart _)).trans (reportLastFire_apart _)).queueSound h))
  | decelerated d home => exact finishEvent_queueSound (s := setDrive _ _) h
  | homed g home =>
    refine finishEvent_queueSound ?_
    unfold homingComplete
    split <;> exact h
  | thirdDead i p faults =>
    exact finishEvent_queueSound (faultStop_queueSound (s := forgetLastFire (goSilent _))
      ((endPulse_apart i p faults s).queueSound h))
  | pulseEnds i p faults => exact finishLastFire_queueSound ((endPulse_apart i p faults s).queueSound h)
  | holdReleased => exact finishEvent_queueSound (s := (s.updHeat _).updHeat _) h
  | tailReached f => exact finishEvent_queueSound (tailReached_queueSound (s := s.updForms _) h)
  | feedAbandoned f => exact finishEvent_queueSound (s := clearFeed _) h
  | feedReset f => exact finishEvent_queueSound ((resetPaper_apart _).queueSound (s := s.updForms _) h)
  | loadingCut f => exact finishEvent_queueSound (s := enterNoForms _) h
  | feedAtEnd f => exact finishEvent_queueSound (s := s.updForms _) h
  | feedGoesOn f => exact (startStep_apart _).queueSound (s := s.updForms _) h
  | tearOff => exact finishEvent_queueSound ((beginTearOff_apart s).queueSound h)
  | loads => exact finishEvent_queueSound ((beginLoading_apart s).queueSound h)
  | seesNoForms => exact finishEvent_queueSound ((cutLoading_apart _).queueSound (s := s.updPins _) h)
  | settled => exact finishEvent_queueSound ((startStep_apart _).queueSound (s := s.updForms _) h)

/-- Settles O3. -/
theorem stepKeepsQueueLaw : Obligations.StepKeepsQueueLaw := fun _ _ hs h =>
  step_keeps (P := fun s => QueueSound s.queue) (fun _ _ _ _ _ => ⟨Nat.zero_le _, Nat.zero_le _, Nat.le_refl _⟩)
    (fun _ _ => id) (fun _ _ _ he => he.queueSound) hs h

/-! ## Lines, entry in hand and stage (R26, R56, R158) -/

theorem runStopped_linked {s : State} (h : Linked s) : Linked (runStopped s) := by
  unfold runStopped
  split
  · rename_i hx
    exact sameKind_linked h hx rfl fun _ _ k => k
  · rename_i hx
    exact finishEntry_linked h hx
  · rename_i hx
    exact sameKind_linked h hx rfl fun _ _ k => k
  · exact h

theorem homingComplete_linked {s : State} (h : Linked s) : Linked (homingComplete s) := by
  unfold homingComplete
  split
  · exact enterReady_linked h
  · exact h

theorem tailReached_linked {f : Feed} {s : State} (h : Linked s) : Linked (tailReached f s) := by
  unfold tailReached
  dsimp only
  split
  · split
    · exact tearEnded_linked (eject_linked h)
    · exact feedComplete_linked (eject_linked h)
  · exact eject_linked h

theorem finishLastFire_linked {s : State} (h : Linked s) : Linked (finishLastFire s) := by
  unfold finishLastFire
  split
  · exact finishEvent_linked ((reportLastFire_apart s).linked h)
  · exact h

theorem Effect.linked {c : Instr} {s t : State} (k : Effect c s t) (h : Linked s) : Linked t := by
  cases k with
  | unchanged => exact h
  | frameFault => exact frameFault_linked h
  | frameStarts | headerStored | headerEnds | bodyStored | replySent => exact updIntake_linked h
  | wrongLane => exact latch_linked (updIntake_linked h)
  | laneNReceived r => exact takeN_linked (updIntake_linked h)
  | laneNSent r => exact takeN_linked h
  | laneQReceived b k r => exact joinLaneQ_linked (updIntake_linked h)
  | laneQSent r => exact joinLaneQ_linked h
  | buildEnds hd parts b inp hb => exact finishEvent_linked (endBuild_linked h hb)
  | takenUp u hx hu => exact finishEvent_linked (takeUpStep_linked h hx hu)
  | passChecked first n hx => exact finishEvent_linked (runChecks_linked h hx)
  | carriageFaults side home =>
    exact finishEvent_linked (carriageFault_linked ((arriveCarriage_apart _ _ s).linked h))
  | positions | positioned | decelerates | homes | homesAnew | edgeFound =>
    exact updCarriage_linked ((arriveCarriage_apart _ _ s).linked h)
  | runs m home =>
    exact finishLastFire_linked (setDrive_linked
      (((arriveCarriage_apart _ _ s).trans (offerArrival_apart _)).linked h))
  | runEnds m home =>
    exact finishRunStop_linked (runStopped_linked (discardSchedule_linked (setDrive_linked
      ((((arriveCarriage_apart _ _ s).trans (offerArrival_apart _)).trans (reportLastFire_apart _)).linked h))))
  | decelerated d home => exact finishEvent_linked (setDrive_linked ((arriveCarriage_apart _ _ s).linked h))
  | homed g home =>
    exact finishEvent_linked (homingComplete_linked (setDrive_linked ((arriveCarriage_apart _ _ s).linked h)))
  | thirdDead i p faults => exact finishEvent_linked (thirdDeadPin_linked ((endPulse_apart i p faults s).linked h))
  | pulseEnds i p faults => exact finishLastFire_linked ((endPulse_apart i p faults s).linked h)
  | cools => exact updHeat_linked h
  | holdReleased => exact finishEvent_linked (updHeat_linked (updHeat_linked h))
  | tailReached f => exact finishEvent_linked (tailReached_linked (updForms_linked h))
  | feedAbandoned f => exact finishEvent_linked (updForms_linked (updForms_linked h))
  | feedReset f => exact finishEvent_linked ((resetPaper_apart _).linked (updForms_linked h))
  | loadingCut f => exact finishEvent_linked (enterNoForms_linked (updForms_linked h))
  | feedAtEnd f => exact finishEvent_linked (updForms_linked h)
  | feedGoesOn f => exact startStep_linked (updForms_linked h)
  | tearOff => exact finishEvent_linked (beginTearOff_linked h)
  | loads => exact finishEvent_linked ((beginLoading_apart s).linked h)
  | tracks | formsPresent | leverSettles => exact judgeTimers_linked (updForms_linked (updPins_linked h))
  | seesNoForms => exact finishEvent_linked ((cutLoading_apart _).linked (updPins_linked h))
  | formsGone => exact judgeTimers_linked (updPins_linked h)
  | leverOpens => exact judgeTimers_linked (latch_linked (updForms_linked (updPins_linked h)))
  | leverRests => exact updPins_linked h
  | settled => exact finishEvent_linked (startStep_linked (updForms_linked h))

/-- Every default page has its table's size. -/
theorem tablesSound_default : TablesSound tablesDefault :=
  ⟨rfl, by decide +kernel, rfl, by decide +kernel, rfl, rfl, by decide +kernel⟩

/-- Nothing is queued, in hand or staged after a power-on reset. -/
theorem powerOn_linked (p : List Instr) (a : BitVec 2) (b d e : Bool) : Linked (State.powerOn p a b d e) where
  lines := .empty 0
  inHand := by intro x hx; cases hx
  stage := by
    refine .of_no_commit tablesSound_default ?_ ?_ ?_
    · intro x hx; cases hx
    · intro x hx; cases hx
    · intro id n hx; cases hx

/-- Settles O4. -/
theorem stepKeepsLinesAndStage : Obligations.StepKeepsLinesAndStage := by
  intro s t hl hx hg h
  have k : Linked t := step_keeps (P := Linked) powerOn_linked (fun _ _ k => ⟨k.lines, k.inHand, k.stage⟩)
    (fun _ _ _ he => he.linked) ⟨hl, hx, hg⟩ h
  exact ⟨k.lines, k.inHand, k.stage⟩

/-! ## The executor (R158) -/

/-- An entry in hand that is not a started advance is in hand of an executing executor. -/
theorem ExecutorSound.executing_of {r : RunControl} (h : ExecutorSound r) {x : InHand} (hx : r.inHand = some x)
    (ha : x ≠ .advance true) : r.executor.executing = true := by
  rcases h.2.2.2 (by simp [hx]) with k | ⟨-, k⟩
  · exact k
  · rw [hx] at k
    injection k with k
    exact absurd k ha

theorem ExecutorSound.reason_none {r : RunControl} (h : ExecutorSound r) (hw : r.executor ≠ .waiting)
    (hh : r.executor ≠ .halting) : r.reason = .none := by
  by_contra k
  rcases h.1 k with a | a
  · exact hw a
  · exact hh a

theorem setWait_executorSound {r : WaitReason} {s : State} (h : ExecutorSound s.run) :
    ExecutorSound (setWait r s).run := by
  have hi := setWait_inHand r s
  revert h hi
  unfold ExecutorSound setWait
  simp only [State.updRun_run]
  cases he : s.run.executor <;> by_cases hr : r = .none <;> simp [hr, Executor.executing] <;> intros <;> simp_all

theorem setInHand_executorSound {x : InHand} {s : State} (h : ExecutorSound s.run)
    (he : s.run.executor.executing = true) : ExecutorSound (setInHand (some x) s).run :=
  ⟨h.1, h.2.1, fun _ => by simp [setInHand], fun _ => .inl he⟩

theorem started_executorSound {r : WaitReason} {x : InHand} {s u : State} (h : ExecutorSound s.run) (k : SameHand s u)
    (he : s.run.executor.executing = true) : ExecutorSound (setWait r (setInHand (some x) u)).run :=
  setWait_executorSound (setInHand_executorSound (k.executorSound h) (by rw [k.executor]; exact he))

/-- When Run Control leaves an entry, nothing is in hand and the executor does not execute. -/
theorem leaveEntry_executorSound (s : State) : ExecutorSound (leaveEntry s).run := by
  have h : ∀ e : Executor, e.leaveEntry ≠ .waiting ∧ e.leaveEntry.executing = false := by
    intro e
    cases e <;> decide
  simp [ExecutorSound, leaveEntry, h]

theorem finishEntry_executorSound (s : State) : ExecutorSound (finishEntry s).run := leaveEntry_executorSound _

theorem enterReady_executorSound (s : State) : ExecutorSound (enterReady s).run := by
  unfold ExecutorSound enterReady
  by_cases h : s.run.inHand = none <;> simp [h, Executor.executing]

/-! ### What does not touch Run Control -/

theorem updQueue_sameHand (f : Queue → Queue) (s : State) : SameHand s (s.updQueue f) := ⟨rfl, rfl, rfl⟩
theorem updBuffers_sameHand (f : Buffers → Buffers) (s : State) : SameHand s (s.updBuffers f) := ⟨rfl, rfl, rfl⟩
theorem updSettings_sameHand (f : Settings → Settings) (s : State) : SameHand s (s.updSettings f) := ⟨rfl, rfl, rfl⟩
theorem setStage_sameHand (g : Stage) (s : State) : SameHand s (s.setStage g) := ⟨rfl, rfl, rfl⟩

theorem latchIf_sameHand (b : Bool) (c : Cause) (s : State) : SameHand s (latchIf b c s) := (latchIf_apart b c s).toSameHand

theorem latchDrained_sameHand (s : State) : SameHand s (latchDrained s) := latchIf_sameHand _ _ s

theorem removeAt_sameHand (i : Nat) (s : State) : SameHand s (removeAt i s) := by
  unfold removeAt
  split
  · exact ⟨rfl, rfl, rfl⟩
  · exact .refl s

theorem removed_sameHand (i : Nat) (s : State) : SameHand s (latchDrained (removeAt i s)) :=
  (removeAt_sameHand i s).trans (latchDrained_sameHand _)

theorem removeFront_sameHand (s : State) : SameHand s (removeFront s) := by
  unfold removeFront
  split
  · exact removed_sameHand _ s
  · exact .refl s

theorem applyCommit_sameHand (id : TableId) (page : Nat) (s : State) : SameHand s (applyCommit id page s) := by
  have h : ∀ p, SameHand s (makeLive id page p s) := fun p => by
    unfold makeLive
    split
    · exact ⟨rfl, rfl, rfl⟩
    · exact ⟨rfl, rfl, rfl⟩
    · exact ⟨rfl, rfl, rfl⟩
    · split <;> exact ⟨rfl, rfl, rfl⟩
  exact (h _).trans ⟨rfl, rfl, rfl⟩

theorem applyGeometry_sameHand (d : Byte) (g e : BitVec 16) (r : Byte) (s : State) :
    SameHand s (applyGeometry d g e r s) := by
  unfold applyGeometry
  split <;> exact ⟨rfl, rfl, rfl⟩

theorem builderStep_sameHand {s t : State} (h : builderStep s = some t) : SameHand s t := by
  unfold builderStep at h
  dsimp only at h
  split at h
  case h_1 | h_5 | h_13 | h_14 => cases h
  case h_2 | h_3 => cases h; exact (applyCommit_sameHand _ _ s).trans (removed_sameHand _ _)
  case h_6 => cases h; exact (updSettings_sameHand _ s).trans (removed_sameHand _ _)
  case h_12 =>
    rw [Option.map_eq_some_iff] at h
    obtain ⟨b, -, rfl⟩ := h
    exact ⟨rfl, rfl, rfl⟩
  all_goals
    cases h
    exact ⟨rfl, rfl, rfl⟩

/-! ### What follows an event -/

theorem feedComplete_executorSound {p : Purpose} {s : State} (h : ExecutorSound s.run) :
    ExecutorSound (feedComplete p s).run := by
  unfold feedComplete
  split
  · exact finishEntry_executorSound s
  · rename_i hx
    exact setInHand_executorSound h (h.executing_of hx (by simp))
  · exact finishEntry_executorSound s
  · exact finishEntry_executorSound s
  · rename_i hx
    exact setInHand_executorSound h (h.executing_of hx (by simp))
  · exact h

theorem tearEnded_executorSound {s : State} (h : ExecutorSound s.run) : ExecutorSound (tearEnded s).run := by
  unfold tearEnded
  split
  · exact finishEntry_executorSound s
  · exact h

theorem feedEnds_executorSound {s t : State} (ht : feedEnds s = some t) (h : ExecutorSound s.run) :
    ExecutorSound t.run := by
  unfold feedEnds at ht
  split at ht
  · split at ht
    · cases ht
      unfold endFeed
      split
      · exact tearEnded_executorSound (s := s.updForms _) h
      · exact h
      · split <;> exact h
      · exact h
      · exact feedComplete_executorSound (s := clearFeed s) h
    · cases ht
  · cases ht

theorem discardOpen_executorSound {s : State} (h : ExecutorSound s.run) : ExecutorSound (discardOpen s).run := by
  unfold discardOpen
  dsimp only
  split
  · exact leaveEntry_executorSound _
  · exact ((removeAt_sameHand _ s).trans (latch_apart _ _).toSameHand).executorSound h

theorem discardOpenTail_executorSound {s : State} (h : ExecutorSound s.run) : ExecutorSound (discardOpenTail s).run := by
  unfold discardOpenTail
  split
  · exact discardOpen_executorSound h
  · exact h

theorem offerRecord_executorSound {r : QRecord} {s : State} (h : ExecutorSound s.run) :
    ExecutorSound (offerRecord r s).state.run := by
  have hd := discardOpenTail_executorSound h
  have entry : ∀ (e : Entry) (u : State), ExecutorSound u.run → ExecutorSound (offerEntry e u).state.run := by
    intro e u hu
    unfold offerEntry
    split <;> exact hu
  unfold offerRecord
  split
  · unfold offerContinuation
    split
    · exact h
    · split
      · exact discardOpen_executorSound h
      · split <;> exact h
  · unfold offerFirst
    split <;> exact hd
  · exact entry _ _ hd
  · unfold offerCommit
    split
    · split <;> exact hd
    · exact hd
  · unfold offerSet
    split
    · exact hd
    · exact entry _ _ hd
  · exact entry _ _ hd
  · exact entry _ _ hd

theorem offerStep_executorSound {s t : State} (ht : offerStep s = some t) (h : ExecutorSound s.run) :
    ExecutorSound t.run := by
  unfold offerStep at ht
  split at ht
  · cases ht
  · rename_i r _ _
    have ho := offerRecord_executorSound (r := r) h
    split at ht
    · rename_i he
      rw [he] at ho
      cases ht
      exact ho
    · rename_i he
      rw [he] at ho
      split at ht
      · cases ht
        exact ho
      · cases ht

theorem startPass_executorSound {first : Bool} {hd : LineHeader} {img : Image} {p : Int} {s : State}
    (h : ExecutorSound s.run) (he : s.run.executor.executing = true) :
    ExecutorSound (startPass first hd img p s).run := by
  unfold startPass
  exact started_executorSound h (by exact ⟨rfl, rfl, rfl⟩) he

theorem runChecks_executorSound {first : Bool} {s : State} (h : ExecutorSound s.run)
    (he : s.run.executor.executing = true) : ExecutorSound (runChecks first s).run := by
  unfold runChecks
  dsimp only
  split
  · exact setInHand_executorSound h he
  split
  · exact started_executorSound h (.refl s) he
  split
  · exact started_executorSound h (.refl s) he
  split
  · split
    · exact started_executorSound h (beginFeed_apart _ _ _ s).toSameHand he
    split
    · rename_i r _
      have ha := (eject_apart r s).toSameHand
      exact setInHand_executorSound (ha.executorSound h) (by rw [ha.executor]; exact he)
    split
    · exact started_executorSound h (by exact ⟨rfl, rfl, rfl⟩) he
    split
    · exact startPass_executorSound h he
    · exact setInHand_executorSound h he
  · exact started_executorSound h (.refl s) he

theorem takeUp_executorSound {i : Nat} {e : Entry} {s : State} (h : ExecutorSound s.run)
    (he : s.run.executor = .ready) : ExecutorSound (takeUp i e s).run := by
  have hr : s.run.reason = .none := h.reason_none (by simp [he]) (by simp [he])
  have running : ∀ x : InHand,
      ExecutorSound (s.updRun fun c => { c with executor := .running, inHand := some x }).run := fun x => by
    simp [ExecutorSound, hr, Executor.executing]
  unfold takeUp
  dsimp only
  split
  · exact ((applyCommit_sameHand _ _ s).trans (removed_sameHand _ _)).executorSound h
  · split
    · exact (removed_sameHand _ ((s.updSettings _).updHeat _)).executorSound h
    · exact h
  · exact h
  · exact running _
  · exact running _
  · exact running _
  · exact running _
  · exact running _
  · exact setWait_executorSound (running _)

theorem takeUpStep_executorSound {s t : State} (ht : takeUpStep s = some t) (h : ExecutorSound s.run) :
    ExecutorSound t.run := by
  unfold takeUpStep at ht
  split at ht
  · rename_i hc
    split at ht
    · cases ht
      exact takeUp_executorSound h hc.1
    · cases ht
  · cases ht

theorem advanceStep_executorSound {m : AdvanceMode} {c : BitVec 16} {s t : State} (ht : advanceStep m c s = some t)
    (h : ExecutorSound s.run) (he : s.run.executor.executing = true) : ExecutorSound t.run := by
  unfold advanceStep at ht
  dsimp only at ht
  split at ht
  · split at ht
    · cases ht
      exact started_executorSound h (beginTearOff_apart s).toSameHand he
    split at ht
    · cases ht
      exact finishEntry_executorSound s
    split at ht
    · cases ht
      exact started_executorSound h (.refl s) he
    · cases ht
  · split at ht
    · cases ht
      exact started_executorSound h (beginFeed_apart _ _ _ s).toSameHand he
    · cases ht

theorem carryOut_executorSound {x : InHand} {s t : State} (ht : carryOut x s = some t) (h : ExecutorSound s.run)
    (he : s.run.executor.executing = true) : ExecutorSound t.run := by
  unfold carryOut at ht
  split at ht
  · rw [Option.map_eq_some_iff] at ht
    obtain ⟨i, -, rfl⟩ := ht
    unfold activateLine
    split
    · exact started_executorSound h (by exact ⟨rfl, rfl, rfl⟩) he
    · exact h
  · split at ht
    · cases ht
      exact finishEntry_executorSound _
    · cases ht
  · split at ht
    · cases ht
      exact finishEntry_executorSound _
    · cases ht
  · exact advanceStep_executorSound ht h he
  · split at ht
    · cases ht
      exact started_executorSound h (beginFeed_apart _ _ _ s).toSameHand he
    · cases ht
  · split at ht
    · cases ht
      exact runChecks_executorSound h he
    · cases ht
  · cases ht

theorem runStep_executorSound {s t : State} (ht : runStep s = some t) (h : ExecutorSound s.run) :
    ExecutorSound t.run := by
  unfold runStep at ht
  split at ht
  · split at ht
    · exact carryOut_executorSound ht h ‹_›
    · cases ht
  · exact takeUpStep_executorSound ht h

theorem requestStep_executorSound {s t : State} (ht : requestStep s = some t) (h : ExecutorSound s.run) :
    ExecutorSound t.run := by
  unfold requestStep at ht
  split at ht
  · cases ht
    exact setWait_executorSound (s := s.updForms _) h
  · split at ht
    · cases ht
      exact (beginReturn_apart s).toSameHand.executorSound h
    · cases ht

theorem followStep_executorSound {hold : Bool} {s t : State} (ht : followStep hold s = some t)
    (h : ExecutorSound s.run) : ExecutorSound t.run := by
  rcases followStep_cases ht with k | k | k | k | k
  · exact feedEnds_executorSound k h
  · exact (builderStep_sameHand k).executorSound h
  · exact offerStep_executorSound k h
  · exact runStep_executorSound k h
  · exact requestStep_executorSound k h

theorem finishEvent_executorSound {s : State} (h : ExecutorSound s.run) : ExecutorSound (finishEvent s).run :=
  follow_keeps (P := fun u => ExecutorSound u.run) (fun _ _ => followStep_executorSound) (followFuel s) s h

theorem finishRunStop_executorSound {s : State} (h : ExecutorSound s.run) : ExecutorSound (finishRunStop s).run :=
  follow_keeps (P := fun u => ExecutorSound u.run) (fun _ _ => followStep_executorSound) (followFuel s) s h

/-! ### The commands -/

/-- In FAULT STOP nothing is in hand but an advance that goes on. -/
theorem faultStop_executorSound {s : State} (h : ExecutorSound s.run) : ExecutorSound (faultStop s).run := by
  have out : ∀ u : State, u.run.executor = .faultStop → u.run.reason = .none →
      ExecutorSound (setInHand none u).run := fun u h1 h2 => by
    simp [ExecutorSound, setInHand, h1, h2, Executor.executing]
  have active : ∀ u : State, u.run.executor = .faultStop → u.run.reason = .none →
      ExecutorSound (discardActive u).run := fun u h1 h2 => by
    have k : SameHand u ((abandonFeed (fun p => p = .afterLine ∨ p = .skip)
        ((forgetDirection (removeFront u)).updHeat fun h => { h with hold := false })).updForms
          fun g => { g with paperRequest := false }) :=
      (removeFront_sameHand u).trans (SameHand.trans (t := (forgetDirection (removeFront u)).updHeat _)
        ⟨rfl, rfl, rfl⟩ ((abandonFeed_apart _ _).trans (updForms_apart _ _)).toSameHand)
    exact out _ (k.executor.trans h1) (k.reason.trans h2)
  unfold faultStop
  split
  · exact h
  · dsimp only
    split
    · exact active _ rfl rfl
    · exact active _ rfl rfl
    · exact active _ rfl rfl
    · rename_i hx
      simp only [State.updRun_run] at hx
      simp [ExecutorSound, Executor.executing, hx]
    · exact out _ rfl rfl

theorem runStopped_executorSound {s : State} (h : ExecutorSound s.run) : ExecutorSound (runStopped s).run := by
  unfold runStopped
  split
  · rename_i hx
    exact setInHand_executorSound h (h.executing_of hx (by simp))
  · exact finishEntry_executorSound s
  · rename_i hx
    exact setInHand_executorSound h (h.executing_of hx (by simp))
  · exact h

theorem homingComplete_executorSound {s : State} (h : ExecutorSound s.run) : ExecutorSound (homingComplete s).run := by
  unfold homingComplete
  split
  · exact enterReady_executorSound s
  · exact h

theorem tailReached_executorSound {f : Feed} {s : State} (h : ExecutorSound s.run) :
    ExecutorSound (tailReached f s).run := by
  have he := (eject_apart 0 s).toSameHand.executorSound h
  unfold tailReached
  dsimp only
  split
  · split
    · exact tearEnded_executorSound he
    · exact feedComplete_executorSound he
  · exact he

theorem finishLastFire_executorSound {s : State} (h : ExecutorSound s.run) : ExecutorSound (finishLastFire s).run := by
  unfold finishLastFire
  split
  · exact finishEvent_executorSound ((reportLastFire_apart s).toSameHand.executorSound h)
  · exact h

theorem takeHalt_executorSound {s : State} (h : ExecutorSound s.run) : ExecutorSound (takeHalt s).run := by
  show ExecutorSound { s.run with executor := haltState s.run.executor }
  revert h
  unfold ExecutorSound
  cases he : s.run.executor <;> simp [haltState, Executor.executing]

theorem goState_executorSound {s : State} (h : ExecutorSound s.run) :
    ExecutorSound { s.run with executor := goState s.run.executor s.run.reason } := by
  revert h
  unfold ExecutorSound
  cases he : s.run.executor <;> by_cases hr : s.run.reason = .none <;>
    simp [goState, Executor.executing, hr]

theorem takeDrop_executorSound {s : State} (h : ExecutorSound s.run) : ExecutorSound (takeDrop s).run := by
  have hand : ∀ u : State, ExecutorSound u.run → ExecutorSound (dropInHand u).run := fun u hu => by
    unfold dropInHand
    split
    · exact hu
    · split
      · exact hu
      · exact leaveEntry_executorSound _
  have entries : ∀ u : State, SameHand u (dropEntries u) := fun u => by
    unfold dropEntries
    dsimp only
    refine .trans ?_ (latchIf_sameHand _ _ _)
    split
    · exact ((updBuffers_sameHand _ u).trans (updQueue_sameHand _ _)).trans (setStage_sameHand _ _)
    · exact (updBuffers_sameHand _ u).trans (updQueue_sameHand _ _)
  exact finishEvent_executorSound ((entries _).executorSound (hand (clearIntake s) h))

theorem takeReset_executorSound (s : State) : ExecutorSound (takeReset s).run := by
  have out : ∀ u : State, ExecutorSound
      (u.updRun fun c => { c with executor := resetExecutor c.executor, reason := .none, inHand := none }).run :=
    fun u => by
      cases he : u.run.executor <;> simp [ExecutorSound, he, resetExecutor, Executor.executing]
  unfold takeReset
  exact out _

theorem takeAck_executorSound {named : BitVec 16} {mask : Option (BitVec 16)} {s : State} (h : ExecutorSound s.run) :
    ExecutorSound (takeAck named mask s).run := by
  have ha : ExecutorSound (ackClear named mask s).run := by
    unfold ackClear
    dsimp only
    split <;> exact h
  unfold takeAck
  dsimp only
  split
  · rename_i hf
    refine finishEvent_executorSound ?_
    unfold leaveFaultStop
    split
    · have hr := ha.reason_none (by simp [hf.1]) (by simp [hf.1])
      have hi := ha.2.2.2
      show ExecutorSound { (ackClear named mask s).run with executor := .homing }
      simp only [ExecutorSound, hr, Executor.executing, hf.1] at hi ⊢
      simp_all
    · exact enterReady_executorSound _
  · exact ha

theorem takeStage_sameHand (table page offset : Nat) (clear : Bool) (data : List Byte) (s : State) :
    SameHand s (takeStage table page offset clear data s) := by
  have hw : ∀ b : Binding, SameHand s (stageWritten b data s) := fun b =>
    (setStage_sameHand _ s).trans (latchIf_sameHand _ _ _)
  unfold takeStage
  split
  · exact ⟨rfl, rfl, rfl⟩
  split
  · split
    · exact ⟨rfl, rfl, rfl⟩
    · split
      · exact .refl s
      · exact hw _
    · split
      · split
        · exact ⟨rfl, rfl, rfl⟩
        · exact hw _
      · split
        · exact hw _
        · exact ⟨rfl, rfl, rfl⟩
  · exact ⟨rfl, rfl, rfl⟩

theorem takeN_executorSound {r : NRecord} {s : State} (h : ExecutorSound s.run) : ExecutorSound (takeN r s).run := by
  cases r with
  | query => exact (answer_apart _ s).executorSound h
  | halt => exact takeHalt_executorSound h
  | go => exact finishEvent_executorSound (s := s.updRun _) (goState_executorSound h)
  | drop => exact takeDrop_executorSound h
  | reset => exact takeReset_executorSound s
  | ack causes mask => exact takeAck_executorSound h
  | stage table page offset clear data => exact (takeStage_sameHand _ _ _ _ _ s).executorSound h
  | read table page source => exact (answer_apart _ s).executorSound h

theorem endBuild_sameHand (hd : LineHeader) (parts : List (List Byte)) (b : BufId) (r : BuildResult) (s : State) :
    SameHand s (endBuild hd parts b r s) := by
  unfold endBuild
  dsimp only
  refine .trans ?_ ((updQueue_sameHand _ _).trans (updQueue_sameHand _ _))
  exact (((updBuffers_sameHand _ s).trans (updBuilder_apart _ _).toSameHand).trans (latchIf_sameHand _ _ _)).trans
    (latchIf_sameHand _ _ _)

theorem Effect.executorSound {c : Instr} {s t : State} (k : Effect c s t) (h : ExecutorSound s.run) :
    ExecutorSound t.run := by
  cases k with
  | unchanged | frameFault | frameStarts | headerStored | headerEnds | bodyStored | wrongLane | replySent | cools
  | leverRests | tracks | formsGone | formsPresent | leverOpens | leverSettles | positions | positioned | decelerates
  | homes | homesAnew | edgeFound => exact h
  | laneNReceived r => exact takeN_executorSound (s := releaseFrame s) h
  | laneNSent r => exact takeN_executorSound h
  | laneQReceived b k r => exact finishEvent_executorSound (s := (releaseFrame s).updIntake _) h
  | laneQSent r => exact finishEvent_executorSound (s := s.updIntake _) h
  | buildEnds hd parts b inp => exact finishEvent_executorSound ((endBuild_sameHand _ _ _ _ s).executorSound h)
  | takenUp u _ hu => exact finishEvent_executorSound (takeUpStep_executorSound hu h)
  | passChecked first n _ he => exact finishEvent_executorSound (runChecks_executorSound h he)
  | carriageFaults side home =>
    exact finishEvent_executorSound (faultStop_executorSound ((faultedCarriage_apart _).executorSound
      (s := arriveCarriage _ _ s) h))
  | runs m home =>
    exact finishLastFire_executorSound (s := setDrive _ _)
      (((arriveCarriage_apart _ _ s).trans (offerArrival_apart _)).executorSound h)
  | runEnds m home =>
    exact finishRunStop_executorSound (runStopped_executorSound (s := discardSchedule (setDrive _ _))
      ((((arriveCarriage_apart _ _ s).trans (offerArrival_apart _)).trans (reportLastFire_apart _)).executorSound h))
  | decelerated d home => exact finishEvent_executorSound (s := setDrive _ _) h
  | homed g home => exact finishEvent_executorSound (homingComplete_executorSound (s := setDrive _ _) h)
  | thirdDead i p faults =>
    exact finishEvent_executorSound (faultStop_executorSound (s := forgetLastFire (goSilent _))
      ((endPulse_apart i p faults s).executorSound h))
  | pulseEnds i p faults => exact finishLastFire_executorSound ((endPulse_apart i p faults s).executorSound h)
  | holdReleased => exact finishEvent_executorSound (s := (s.updHeat _).updHeat _) h
  | tailReached f => exact finishEvent_executorSound (tailReached_executorSound (s := s.updForms _) h)
  | feedAbandoned f => exact finishEvent_executorSound (s := clearFeed _) h
  | feedReset f => exact finishEvent_executorSound ((resetPaper_apart _).executorSound (s := s.updForms _) h)
  | loadingCut f => exact finishEvent_executorSound (s := enterNoForms _) h
  | feedAtEnd f => exact finishEvent_executorSound (s := s.updForms _) h
  | feedGoesOn f => exact (startStep_apart _).executorSound (s := s.updForms _) h
  | tearOff => exact finishEvent_executorSound ((beginTearOff_apart s).executorSound h)
  | loads => exact finishEvent_executorSound ((beginLoading_apart s).executorSound h)
  | seesNoForms => exact finishEvent_executorSound ((cutLoading_apart _).executorSound (s := s.updPins _) h)
  | settled => exact finishEvent_executorSound ((startStep_apart _).executorSound (s := s.updForms _) h)

/-- Settles O6. -/
theorem stepKeepsExecutorLaw : Obligations.StepKeepsExecutorLaw := fun _ _ hs h =>
  step_keeps (P := fun s => ExecutorSound s.run)
    (fun _ _ _ _ _ => by simp [State.powerOn, runDefault, ExecutorSound, Executor.executing]) (fun _ _ => id)
    (fun _ _ _ he => he.executorSound) hs h

end Sys2Proof.Machine
end

