-- ==== Sys2Proof/Proofs/Ranges.lean ====
section
/-! PROOFS. The ranges of the form values, the replies and the counters through every step (R15, R16, R79, R116, R139, R142,
R143, R152), and the law of the two forms timers (R147, R150). -/

namespace Sys2Proof.Machine

/-! ## What follows an event: the form values keep their ranges, the lane Q order gets no longer -/

/-- L, z, the form count and r keep their ranges, and the lane Q order loses frames at its head only. -/
structure Trimmed (s t : State) : Prop where
  ranges : FormRanges s.forms s.geometry → FormRanges t.forms t.geometry
  laneQ  : t.intake.laneQ <:+ s.intake.laneQ

theorem Trimmed.refl (s : State) : Trimmed s s := ⟨id, List.suffix_refl _⟩

theorem Trimmed.trans {s t u : State} (h : Trimmed s t) (k : Trimmed t u) : Trimmed s u :=
  ⟨k.ranges ∘ h.ranges, k.laneQ.trans h.laneQ⟩

/-- A change outside the Forms Drive, the geometry and the lane Q order. -/
theorem Trimmed.of_eq {s t : State} (hf : t.forms = s.forms) (hg : t.geometry = s.geometry)
    (hl : t.intake.laneQ = s.intake.laneQ) : Trimmed s t :=
  ⟨by rw [hf, hg]; exact id, by rw [hl]⟩

/-- A change of the Forms Drive that keeps the ranges. -/
theorem updForms_trimmed {f : Forms → Forms} {s : State}
    (h : FormRanges s.forms s.geometry → FormRanges (f s.forms) s.geometry) : Trimmed s (s.updForms f) :=
  ⟨h, List.suffix_refl _⟩

theorem latch_trimmed (c : Cause) (s : State) : Trimmed s (latch c s) := .of_eq rfl rfl rfl

theorem latchIf_trimmed (b : Bool) (c : Cause) (s : State) : Trimmed s (latchIf b c s) := by
  unfold latchIf
  split
  · exact latch_trimmed c s
  · exact .refl s

theorem updRun_trimmed (f : RunControl → RunControl) (s : State) : Trimmed s (s.updRun f) := .of_eq rfl rfl rfl

theorem setWait_trimmed (r : WaitReason) (s : State) : Trimmed s (setWait r s) := .of_eq rfl rfl rfl

theorem setInHand_trimmed (x : Option InHand) (s : State) : Trimmed s (setInHand x s) := .of_eq rfl rfl rfl

theorem updQueue_trimmed (f : Queue → Queue) (s : State) : Trimmed s (s.updQueue f) := .of_eq rfl rfl rfl
theorem updSettings_trimmed (f : Settings → Settings) (s : State) : Trimmed s (s.updSettings f) := .of_eq rfl rfl rfl
theorem updHeat_trimmed (f : Heat → Heat) (s : State) : Trimmed s (s.updHeat f) := .of_eq rfl rfl rfl
theorem setStage_trimmed (g : Stage) (s : State) : Trimmed s (s.setStage g) := .of_eq rfl rfl rfl
theorem restartTearTimer_trimmed (s : State) : Trimmed s (restartTearTimer s) := updForms_trimmed id

/-! ### Queue and tables -/

theorem removeAt_trimmed (i : Nat) (s : State) : Trimmed s (removeAt i s) := by
  unfold removeAt
  split
  · exact .of_eq rfl rfl rfl
  · exact .refl s

theorem removed_trimmed (i : Nat) (s : State) : Trimmed s (latchDrained (removeAt i s)) :=
  (removeAt_trimmed i s).trans (latchIf_trimmed _ _ _)

theorem removeFront_trimmed (s : State) : Trimmed s (removeFront s) := by
  unfold removeFront
  split
  · exact removed_trimmed _ s
  · exact .refl s

theorem finishEntry_trimmed (s : State) : Trimmed s (finishEntry s) :=
  (removeFront_trimmed s).trans (.of_eq rfl rfl rfl)

theorem applyCommit_trimmed (id : TableId) (page : Nat) (s : State) : Trimmed s (applyCommit id page s) := by
  have h : ∀ p, Trimmed s (makeLive id page p s) := fun p => by
    unfold makeLive
    split
    · exact .of_eq rfl rfl rfl
    · exact .of_eq rfl rfl rfl
    · exact .of_eq rfl rfl rfl
    · split
      · exact .of_eq rfl rfl rfl
      · exact latch_trimmed _ s
  exact (h _).trans (.of_eq rfl rfl rfl)

theorem builderStep_trimmed {s t : State} (h : builderStep s = some t) : Trimmed s t := by
  unfold builderStep at h
  dsimp only at h
  split at h
  case h_1 | h_5 | h_13 | h_14 => cases h
  case h_2 | h_3 => cases h; exact (applyCommit_trimmed _ _ s).trans (removed_trimmed _ _)
  case h_6 => cases h; exact (updSettings_trimmed _ s).trans (removed_trimmed _ _)
  case h_12 =>
    rw [Option.map_eq_some_iff] at h
    obtain ⟨b, -, rfl⟩ := h
    exact .of_eq rfl rfl rfl
  all_goals
    cases h
    exact .of_eq rfl rfl rfl

theorem discardOpen_trimmed (s : State) : Trimmed s (discardOpen s) := by
  have h : Trimmed s (latch .SQ (removeAt (s.queue.entries.length - 1) s)) :=
    (removeAt_trimmed _ s).trans (latch_trimmed _ _)
  unfold discardOpen
  dsimp only
  split
  · exact h.trans (updRun_trimmed _ _)
  · exact h

theorem discardOpenTail_trimmed (s : State) : Trimmed s (discardOpenTail s) := by
  unfold discardOpenTail
  split
  · exact discardOpen_trimmed s
  · exact .refl s

theorem admitEntry_trimmed (e : Entry) (s : State) : Trimmed s (admitEntry e s) :=
  (updQueue_trimmed _ s).trans (restartTearTimer_trimmed _)

theorem offerEntry_trimmed (e : Entry) (s : State) : Trimmed s (offerEntry e s).state := by
  unfold offerEntry
  split
  · exact admitEntry_trimmed e s
  · exact .refl s

theorem offerRecord_trimmed (r : QRecord) (s : State) : Trimmed s (offerRecord r s).state := by
  have hd := discardOpenTail_trimmed s
  unfold offerRecord
  split
  · unfold offerContinuation
    split
    · exact latch_trimmed _ s
    · split
      · exact discardOpen_trimmed s
      · split
        · exact .refl s
        · exact (updQueue_trimmed _ s).trans (restartTearTimer_trimmed _)
  · unfold offerFirst
    split
    · exact hd.trans (admitEntry_trimmed _ _)
    · exact hd
  · exact hd.trans (offerEntry_trimmed _ _)
  · unfold offerCommit
    split
    · split
      · exact (hd.trans (setStage_trimmed _ _)).trans (admitEntry_trimmed _ _)
      · exact hd.trans (latch_trimmed _ _)
    · exact hd
  · unfold offerSet
    split
    · exact hd.trans (restartTearTimer_trimmed _)
    · exact hd.trans (offerEntry_trimmed _ _)
  · exact hd.trans (offerEntry_trimmed _ _)
  · exact hd.trans (offerEntry_trimmed _ _)

theorem offerStep_trimmed {s t : State} (h : offerStep s = some t) : Trimmed s t := by
  unfold offerStep at h
  split at h
  · cases h
  · rename_i r rest hl
    have ho := offerRecord_trimmed r s
    split at h
    · rename_i he
      rw [he] at ho
      cases h
      exact ⟨ho.ranges, by rw [hl]; exact List.suffix_cons r rest⟩
    · rename_i he
      rw [he] at ho
      split at h
      · cases h
        exact ho
      · cases h

/-! ### The Forms Drive -/

theorem startStep_trimmed (s : State) : Trimmed s (startStep s) := by
  unfold startStep
  split
  · rename_i f _
    split
    · exact updForms_trimmed (by cases f.dir <;> exact id)
    · exact .refl s
  · exact .refl s

theorem beginFeed_trimmed (p : Purpose) (d : FeedDir) (n : Nat) (s : State) : Trimmed s (beginFeed p d n s) :=
  (updForms_trimmed id).trans (startStep_trimmed _)

/-- Ending the tracking keeps the ranges. -/
theorem FormRanges.untracked {f f' : Forms} {g : Geometry} (h : FormRanges f g) (hl : f'.length = f.length)
    (hz : f'.skip = f.skip) (hc : f'.count = f.count) (ht : f'.tracking = none) : FormRanges f' g := by
  obtain ⟨h1, h2, h3, h4, -⟩ := h
  refine ⟨by omega, by omega, by omega, by omega, fun r hr => ?_⟩
  rw [ht] at hr
  cases hr

theorem eject_trimmed (r : Nat) (s : State) : Trimmed s (eject r s) :=
  ((updForms_trimmed fun h => h.untracked rfl rfl rfl rfl).trans (latch_trimmed _ _)).trans (beginFeed_trimmed _ _ _ _)

theorem enterNoForms_trimmed (s : State) : Trimmed s (enterNoForms s) :=
  (updForms_trimmed id).trans (latch_trimmed _ _)

theorem beginTearOff_trimmed (s : State) : Trimmed s (beginTearOff s) :=
  (updForms_trimmed id).trans (beginFeed_trimmed _ _ _ _)

theorem beginReturn_trimmed (s : State) : Trimmed s (beginReturn s) :=
  (updForms_trimmed id).trans (beginFeed_trimmed _ _ _ _)

theorem beginLoading_trimmed (s : State) : Trimmed s (beginLoading s) :=
  (updForms_trimmed id).trans (beginFeed_trimmed _ _ _ _)

theorem resetPaper_trimmed (s : State) : Trimmed s (resetPaper s) := by
  unfold resetPaper
  split
  · exact updForms_trimmed id
  · exact updForms_trimmed id
  · exact updForms_trimmed id
  · exact updForms_trimmed id
  · exact beginLoading_trimmed s
  · exact beginFeed_trimmed _ _ _ s
  · exact .refl s

theorem resetForms_trimmed (s : State) : Trimmed s (resetForms s) := by
  unfold resetForms
  refine Trimmed.trans (t := s.updForms fun g => { g with paperRequest := false }) (updForms_trimmed id) ?_
  dsimp only
  split
  · split
    · exact resetPaper_trimmed _
    · split
      · exact .refl _
      · exact updForms_trimmed id
  · exact resetPaper_trimmed _

theorem abandonFeed_trimmed (test : Purpose → Bool) (s : State) : Trimmed s (abandonFeed test s) := by
  unfold abandonFeed
  split
  · split
    · split
      · exact updForms_trimmed id
      · exact updForms_trimmed id
    · exact .refl s
  · exact .refl s

theorem cutLoading_trimmed (s : State) : Trimmed s (cutLoading s) := by
  unfold cutLoading
  split
  · split
    · exact enterNoForms_trimmed s
    · exact updForms_trimmed id
  · exact enterNoForms_trimmed s

/-- A form marker brings L and z into their ranges (R143). -/
theorem applyForm_trimmed (l z : BitVec 16) (s : State) : Trimmed s (applyForm l z s) := by
  unfold applyForm
  refine updForms_trimmed fun h => ?_
  obtain ⟨-, -, -, h4, h5⟩ := h
  refine ⟨?_, ?_, ?_, h4, h5⟩ <;> simp only [clamp] <;> omega

/-- A geometry marker lowers r to the new S_e (R152). -/
theorem applyGeometry_trimmed (d : Byte) (g e : BitVec 16) (r : Byte) (s : State) :
    Trimmed s (applyGeometry d g e r s) := by
  unfold applyGeometry
  split
  · exact latch_trimmed _ s
  · refine ⟨fun ⟨h1, h2, h3, h4, _⟩ => ⟨h1, h2, h3, h4, fun k hk => ?_⟩, List.suffix_refl _⟩
    simp only [State.updRun_forms, State.updForms_forms, State.updGeometry_forms, Option.map_eq_some_iff] at hk
    obtain ⟨k', -, rfl⟩ := hk
    exact Nat.min_le_left _ _

theorem feedComplete_trimmed (p : Purpose) (s : State) : Trimmed s (feedComplete p s) := by
  unfold feedComplete
  split
  · exact finishEntry_trimmed s
  · exact setInHand_trimmed _ s
  · exact finishEntry_trimmed s
  · exact finishEntry_trimmed s
  · exact setInHand_trimmed _ s
  · exact setInHand_trimmed s.run.inHand s

theorem tearEnded_trimmed (s : State) : Trimmed s (tearEnded s) := by
  unfold tearEnded
  split
  · exact finishEntry_trimmed s
  · exact .refl s

theorem feedEnds_trimmed {s t : State} (h : feedEnds s = some t) : Trimmed s t := by
  unfold feedEnds at h
  split at h
  · split at h
    · cases h
      unfold endFeed
      split
      · exact (updForms_trimmed id).trans (tearEnded_trimmed _)
      · exact updForms_trimmed id
      · split
        · exact Trimmed.trans (t := arriveAtPrint s) (updForms_trimmed id) (updForms_trimmed id)
        · exact enterNoForms_trimmed s
      · exact enterNoForms_trimmed s
      · exact Trimmed.trans (t := clearFeed s) (updForms_trimmed id) (feedComplete_trimmed _ _)
    · cases h
  · cases h

theorem tailReached_trimmed (f : Feed) (s : State) : Trimmed s (tailReached f s) := by
  unfold tailReached
  dsimp only
  refine (eject_trimmed 0 s).trans ?_
  split
  · split
    · exact tearEnded_trimmed _
    · exact feedComplete_trimmed _ _
  · exact .refl _

/-! ### Run Control -/

theorem startPass_trimmed (first : Bool) (h : LineHeader) (img : Image) (p : Int) (s : State) :
    Trimmed s (startPass first h img p s) := by
  unfold startPass
  dsimp only
  refine .trans ?_ ((setInHand_trimmed _ _).trans (setWait_trimmed _ _))
  exact .of_eq rfl rfl rfl

theorem runChecks_trimmed (first : Bool) (s : State) : Trimmed s (runChecks first s) := by
  unfold runChecks
  dsimp only
  split
  · exact setInHand_trimmed _ s
  split
  · exact (setInHand_trimmed _ s).trans (setWait_trimmed _ _)
  split
  · exact (setInHand_trimmed _ s).trans (setWait_trimmed _ _)
  split
  · split
    · exact ((beginFeed_trimmed _ _ _ s).trans (setInHand_trimmed _ _)).trans (setWait_trimmed _ _)
    split
    · exact (eject_trimmed _ s).trans (setInHand_trimmed _ _)
    split
    · exact (((updHeat_trimmed _ s).trans (latch_trimmed _ _)).trans (setInHand_trimmed _ _)).trans (setWait_trimmed _ _)
    split
    · exact startPass_trimmed _ _ _ _ s
    · exact setInHand_trimmed _ s
  · exact (setInHand_trimmed _ s).trans (setWait_trimmed _ _)

theorem takeUp_trimmed (i : Nat) (e : Entry) (s : State) : Trimmed s (takeUp i e s) := by
  unfold takeUp
  dsimp only
  split
  · exact (applyCommit_trimmed _ _ s).trans (removed_trimmed _ _)
  · split
    · exact ((updSettings_trimmed _ s).trans (updHeat_trimmed _ _)).trans (removed_trimmed _ _)
    · exact .of_eq rfl rfl rfl
  all_goals exact .of_eq rfl rfl rfl

theorem takeUpStep_trimmed {s t : State} (h : takeUpStep s = some t) : Trimmed s t := by
  unfold takeUpStep at h
  split at h
  · split at h
    · cases h
      exact takeUp_trimmed _ _ s
    · cases h
  · cases h

theorem started_trimmed {s u : State} (h : Trimmed s u) (x : Option InHand) :
    Trimmed s (setWait .none (setInHand x u)) := (h.trans (setInHand_trimmed _ _)).trans (setWait_trimmed _ _)

theorem advanceStep_trimmed {m : AdvanceMode} {c : BitVec 16} {s t : State} (h : advanceStep m c s = some t) :
    Trimmed s t := by
  unfold advanceStep at h
  dsimp only at h
  split at h
  · split at h
    · cases h
      exact started_trimmed (beginTearOff_trimmed s) _
    split at h
    · cases h
      exact finishEntry_trimmed s
    split at h
    · cases h
      exact started_trimmed (.refl s) _
    · cases h
  · split at h
    · cases h
      exact started_trimmed (beginFeed_trimmed _ _ _ s) _
    · cases h

theorem carryOut_trimmed {x : InHand} {s t : State} (h : carryOut x s = some t) : Trimmed s t := by
  unfold carryOut at h
  split at h
  · rw [Option.map_eq_some_iff] at h
    obtain ⟨i, -, rfl⟩ := h
    unfold activateLine
    split
    · exact .of_eq rfl rfl rfl
    · exact .refl s
  · split at h
    · cases h
      exact (applyForm_trimmed _ _ s).trans (finishEntry_trimmed _)
    · cases h
  · split at h
    · cases h
      exact (applyGeometry_trimmed _ _ _ _ s).trans (finishEntry_trimmed _)
    · cases h
  · exact advanceStep_trimmed h
  · split at h
    · cases h
      exact started_trimmed (beginFeed_trimmed _ _ _ s) _
    · cases h
  · split at h
    · cases h
      exact runChecks_trimmed _ s
    · cases h
  · cases h

theorem runStep_trimmed {s t : State} (h : runStep s = some t) : Trimmed s t := by
  unfold runStep at h
  split at h
  · split at h
    · exact carryOut_trimmed h
    · cases h
  · exact takeUpStep_trimmed h

theorem requestStep_trimmed {s t : State} (h : requestStep s = some t) : Trimmed s t := by
  unfold requestStep at h
  split at h
  · cases h
    exact Trimmed.trans (t := s.updForms _) (updForms_trimmed id) (setWait_trimmed _ _)
  · split at h
    · cases h
      exact beginReturn_trimmed s
    · cases h

theorem followStep_trimmed {hold : Bool} {s t : State} (h : followStep hold s = some t) : Trimmed s t := by
  rcases followStep_cases h with h | h | h | h | h
  · exact feedEnds_trimmed h
  · exact builderStep_trimmed h
  · exact offerStep_trimmed h
  · exact runStep_trimmed h
  · exact requestStep_trimmed h

theorem follow_trimmed (hold : Bool) (n : Nat) (s : State) : Trimmed s (follow hold n s) :=
  follow_keeps (P := fun t => Trimmed s t) (fun _ _ h k => k.trans (followStep_trimmed h)) n s (.refl s)

theorem judgeTimers_trimmed (s : State) : Trimmed s (judgeTimers s) := updForms_trimmed id

theorem finishEvent_trimmed (s : State) : Trimmed s (finishEvent s) := (follow_trimmed _ _ s).trans (judgeTimers_trimmed _)

theorem finishRunStop_trimmed (s : State) : Trimmed s (finishRunStop s) :=
  (follow_trimmed _ _ s).trans (judgeTimers_trimmed _)

theorem discardActive_trimmed (s : State) : Trimmed s (discardActive s) := by
  unfold discardActive
  dsimp only
  refine .trans ?_ (setInHand_trimmed _ _)
  refine .trans ?_ (updForms_trimmed id)
  refine .trans ?_ (abandonFeed_trimmed _ _)
  refine .trans ?_ (updHeat_trimmed _ _)
  exact (removeFront_trimmed s).trans (.of_eq rfl rfl rfl)

theorem faultStop_trimmed (s : State) : Trimmed s (faultStop s) := by
  unfold faultStop
  split
  · exact .refl s
  · refine (updRun_trimmed (fun c => { c with executor := .faultStop, reason := .none }) s).trans ?_
    dsimp only
    split
    · exact discardActive_trimmed _
    · exact discardActive_trimmed _
    · exact discardActive_trimmed _
    · exact .refl _
    · exact Trimmed.trans (updForms_trimmed id) (setInHand_trimmed _ (State.updForms _ _))

/-! ## The ranges through every command -/

/-- L, z, the form count and r, the reply queue and the counters keep their ranges. -/
structure Ranged (s t : State) : Prop where
  ranges   : FormRanges s.forms s.geometry → FormRanges t.forms t.geometry
  replies  : RepliesSound s.intake → RepliesSound t.intake
  counters : CountersSound s → CountersSound t

theorem Ranged.refl (s : State) : Ranged s s := ⟨id, id, id⟩

theorem Ranged.trans {s t u : State} (h : Ranged s t) (k : Ranged t u) : Ranged s u :=
  ⟨k.ranges ∘ h.ranges, k.replies ∘ h.replies, k.counters ∘ h.counters⟩

/-- What is kept as after an event, and trimmed, is in its ranges. -/
theorem Kept.ranged {s t : State} (h : Kept s t) (k : Trimmed s t) : Ranged s t where
  ranges := k.ranges
  replies := by rw [RepliesSound, RepliesSound, h.intake]; exact id
  counters := by
    unfold CountersSound
    rw [h.intake, h.builder, h.deadDots]
    exact id

theorem Ranged.finish {s t : State} (h : Ranged s t) : Ranged s (finishEvent t) :=
  h.trans ((finishEvent_kept t).ranged (finishEvent_trimmed t))

/-- A change of the blocks without a range of this kind. -/
theorem Ranged.of_blocks {s t : State} (hf : t.forms = s.forms) (hg : t.geometry = s.geometry)
    (hi : t.intake = s.intake) (hb : t.builder = s.builder) (hd : t.firing.deadDots = s.firing.deadDots) :
    Ranged s t where
  ranges := by rw [hf, hg]; exact id
  replies := by rw [hi]; exact id
  counters := by unfold CountersSound; rw [hi, hb, hd]; exact id

/-- A change of the Intake that keeps its counters and lengthens no reply queue. -/
theorem updIntake_ranged {f : Intake → Intake} {s : State}
    (hr : RepliesSound s.intake → RepliesSound (f s.intake))
    (hf : s.intake.frameFaults ≤ 255 → (f s.intake).frameFaults ≤ 255)
    (hu : s.intake.unanswered ≤ 255 → (f s.intake).unanswered ≤ 255) : Ranged s (s.updIntake f) :=
  ⟨id, hr, fun ⟨a, b, c⟩ => ⟨hf a, hu b, c⟩⟩

theorem updQueue_ranged (f : Queue → Queue) (s : State) : Ranged s (s.updQueue f) := .of_blocks rfl rfl rfl rfl rfl
theorem updPins_ranged (f : Pins → Pins) (s : State) : Ranged s (s.updPins f) := .of_blocks rfl rfl rfl rfl rfl
theorem updCarriage_ranged (f : Carriage → Carriage) (s : State) : Ranged s (s.updCarriage f) :=
  .of_blocks rfl rfl rfl rfl rfl
theorem updRun_ranged (f : RunControl → RunControl) (s : State) : Ranged s (s.updRun f) := .of_blocks rfl rfl rfl rfl rfl
theorem updHeat_ranged (f : Heat → Heat) (s : State) : Ranged s (s.updHeat f) := .of_blocks rfl rfl rfl rfl rfl
theorem updPlanner_ranged (f : Planner → Planner) (s : State) : Ranged s (s.updPlanner f) :=
  .of_blocks rfl rfl rfl rfl rfl
theorem setStage_ranged (g : Stage) (s : State) : Ranged s (s.setStage g) := .of_blocks rfl rfl rfl rfl rfl
theorem latch_ranged (c : Cause) (s : State) : Ranged s (latch c s) := updRun_ranged _ s
theorem latchIf_ranged (b : Bool) (c : Cause) (s : State) : Ranged s (latchIf b c s) :=
  (latchIf_kept b c s).ranged (latchIf_trimmed b c s)

theorem updForms_ranged {f : Forms → Forms} {s : State}
    (h : FormRanges s.forms s.geometry → FormRanges (f s.forms) s.geometry) : Ranged s (s.updForms f) :=
  ⟨h, id, id⟩

theorem updFiring_ranged {f : Firing → Firing} {s : State}
    (h : s.firing.deadDots ≤ 65535 → (f s.firing).deadDots ≤ 65535) : Ranged s (s.updFiring f) :=
  ⟨id, id, fun ⟨a, b, c, d, e⟩ => ⟨a, b, c, d, h e⟩⟩

theorem judgeTimers_ranged (s : State) : Ranged s (judgeTimers s) := updForms_ranged id

theorem satAdd_le (top n k : Nat) : satAdd top n k ≤ top := Nat.min_le_left _ _

/-! ### The link and the control records -/

theorem frameFault_ranged (s : State) : Ranged s (frameFault s) :=
  (updIntake_ranged id (fun _ => satAdd_le _ _ _) id).trans (latch_ranged _ _)

theorem joinLaneQ_ranged (r : QRecord) (s : State) : Ranged s (joinLaneQ r s) := (updIntake_ranged id id id).finish

theorem answer_ranged (f : List Byte) (s : State) : Ranged s (answer f s) := by
  unfold answer
  split
  · rename_i hl
    exact updIntake_ranged (fun _ => by simp only [RepliesSound, List.length_append, List.length_singleton]; omega) id id
  · exact updIntake_ranged id id (fun _ => satAdd_le _ _ _)

theorem takeStage_ranged (table page offset : Nat) (clear : Bool) (data : List Byte) (s : State) :
    Ranged s (takeStage table page offset clear data s) := by
  have hw : ∀ b : Binding, Ranged s (stageWritten b data s) := fun b =>
    (setStage_ranged _ s).trans (latchIf_ranged _ _ _)
  unfold takeStage
  split
  · exact latch_ranged _ s
  split
  · split
    · exact latch_ranged _ s
    · split
      · exact .refl s
      · exact hw _
    · split
      · split
        · exact setStage_ranged _ s
        · exact hw _
      · split
        · exact hw _
        · exact latch_ranged _ s
  · exact latch_ranged _ s

theorem takeDrop_ranged (s : State) : Ranged s (takeDrop s) := by
  have hand : ∀ u : State, Ranged u (dropInHand u) := fun u => by
    unfold dropInHand
    split
    · exact .refl u
    · split
      · exact .refl u
      · exact (((abandonFeed_kept _ u).ranged (abandonFeed_trimmed _ u)).trans (updForms_ranged id)).trans
          (updRun_ranged _ _)
  have entries : ∀ u : State, Ranged u (dropEntries u) := fun u => by
    unfold dropEntries
    dsimp only
    refine .trans ?_ (latchIf_ranged _ _ _)
    split
    · exact .of_blocks rfl rfl rfl rfl rfl
    · exact .of_blocks rfl rfl rfl rfl rfl
  exact (((updIntake_ranged id id id).trans (hand _)).trans (entries _)).finish

/-- RESET shortens the reply queue to the reply being sent and clears the counters (R14, R128). -/
theorem takeReset_ranged (s : State) : Ranged s (takeReset s) := by
  unfold takeReset
  refine .trans ?_ (((updRun_ranged _ _).trans (updForms_ranged id)).trans (judgeTimers_ranged _))
  refine .trans ?_ (updRun_ranged _ _)
  refine .trans ?_ ((resetForms_kept _).ranged (resetForms_trimmed _))
  refine .trans ?_ (updCarriage_ranged _ _)
  refine ⟨id, fun _ => ?_, fun _ => ⟨Nat.zero_le _, Nat.zero_le _, Nat.zero_le _, Nat.zero_le _, Nat.zero_le _⟩⟩
  show (s.intake.replies.take 1).length ≤ 4
  rw [List.length_take]
  omega

theorem takeAck_ranged (named : BitVec 16) (mask : Option (BitVec 16)) (s : State) : Ranged s (takeAck named mask s) := by
  have ha : Ranged s (ackClear named mask s) := by
    unfold ackClear
    dsimp only
    split
    · exact (updRun_ranged _ s).trans (updFiring_ranged id)
    · exact updRun_ranged _ s
  unfold takeAck
  dsimp only
  split
  · refine Ranged.finish (ha.trans ?_)
    unfold leaveFaultStop
    split
    · exact (updRun_ranged _ _).trans (updCarriage_ranged _ _)
    · exact updRun_ranged _ _
  · exact ha

theorem takeN_ranged (r : NRecord) (s : State) : Ranged s (takeN r s) := by
  cases r with
  | query => exact answer_ranged _ s
  | halt => exact (updRun_ranged _ s).trans (judgeTimers_ranged _)
  | go => exact (updRun_ranged _ s).finish
  | drop => exact takeDrop_ranged s
  | reset => exact takeReset_ranged s
  | ack causes mask => exact takeAck_ranged causes mask s
  | stage table page offset clear data => exact takeStage_ranged _ _ _ _ _ s
  | read table page source => exact answer_ranged _ s

/-! ### Printing and paper -/

theorem endBuild_ranged (h : LineHeader) (parts : List (List Byte)) (b : BufId) (r : BuildResult) (s : State) :
    Ranged s (endBuild h parts b r s) := by
  unfold endBuild
  dsimp only
  refine .trans ?_ ((updQueue_ranged _ _).trans (updQueue_ranged _ _))
  refine .trans ?_ (latchIf_ranged _ _ _)
  refine .trans ?_ (latchIf_ranged _ _ _)
  exact ⟨id, id, fun ⟨a, b, _, _, e⟩ => ⟨a, b, satAdd_le _ _ _, satAdd_le _ _ _, e⟩⟩

theorem arriveCarriage_ranged (side : Side) (home : Bool) (s : State) : Ranged s (arriveCarriage side home s) :=
  (updPins_ranged _ s).trans (updCarriage_ranged _ _)

theorem offerArrival_ranged (s : State) : Ranged s (offerArrival s) := by
  have fire : ∀ (mask : PinMask) (tRec : Nat) (u : State), Ranged u (fireEntry mask tRec u) := fun mask tRec u =>
    ((updFiring_ranged fun _ => satAdd_le _ _ _).trans (latchIf_ranged _ _ _)).trans (updHeat_ranged _ _)
  have hand : ∀ (sc : Schedule) (f : Fire), Ranged s (handEntry sc f s) := fun sc f => by
    unfold handEntry
    dsimp only
    split
    · split
      · exact ((updPlanner_ranged _ s).trans (fire _ _ _)).trans (updFiring_ranged id)
      · exact (updPlanner_ranged _ s).trans (fire _ _ _)
    · exact updPlanner_ranged _ s
  unfold offerArrival
  split
  · split
    · split
      · exact hand _ _
      · exact .refl s
    · exact .refl s
  · exact .refl s

theorem discardSchedule_ranged (s : State) : Ranged s (discardSchedule s) :=
  (updPlanner_ranged _ s).trans (updFiring_ranged id)

theorem reportLastFire_ranged (s : State) : Ranged s (reportLastFire s) := by
  unfold reportLastFire
  split
  · refine Ranged.trans (t := forgetLastFire s) (updFiring_ranged id) ((lastFireDone_kept _).ranged ?_)
    unfold lastFireDone
    split
    · exact beginFeed_trimmed _ _ _ _
    · exact .refl _
  · exact .refl s

theorem finishLastFire_ranged (s : State) : Ranged s (finishLastFire s) := by
  unfold finishLastFire
  split
  · exact (reportLastFire_ranged s).finish
  · exact .refl s

theorem runStopped_ranged (s : State) : Ranged s (runStopped s) := by
  unfold runStopped
  split
  · exact updRun_ranged _ s
  · exact (finishEntry_kept s).ranged (finishEntry_trimmed s)
  · exact updRun_ranged _ s
  · exact .refl s

theorem homingComplete_ranged (s : State) : Ranged s (homingComplete s) := by
  unfold homingComplete
  split
  · exact updRun_ranged _ s
  · exact .refl s

theorem carriageFault_ranged (s : State) : Ranged s (carriageFault s) :=
  ((((updCarriage_ranged _ s).trans (discardSchedule_ranged _)).trans (updFiring_ranged id)).trans
    (latch_ranged _ _)).trans ((faultStop_kept _).ranged (faultStop_trimmed _))

theorem endPulse_ranged (i : Nat) (p : Pulse) (faults : PinMask) (s : State) : Ranged s (endPulse i p faults s) :=
  (updFiring_ranged id).trans (latchIf_ranged _ _ _)

theorem thirdDeadPin_ranged (s : State) : Ranged s (thirdDeadPin s) :=
  Ranged.trans (t := forgetLastFire (goSilent s)) (.of_blocks rfl rfl rfl rfl rfl)
    ((faultStop_kept _).ranged (faultStop_trimmed _))

/-- Both counts of a feed step keep L and z, and the form count within its 16 bits. -/
theorem FormRanges.counted {f f' : Forms} {g : Geometry} (h : FormRanges f g)
    (k : f' = countForward f ∨ f' = countReverse f) : FormRanges f' g := by
  obtain ⟨h1, h2, h3, h4, h5⟩ := h
  rcases k with rfl | rfl
  · unfold countForward
    split
    · exact ⟨h1, h2, h3, by simp only; omega, h5⟩
    · exact ⟨h1, h2, h3, h4, h5⟩
  · unfold countReverse
    split
    · exact ⟨h1, h2, h3, by simp only; omega, h5⟩
    · exact ⟨h1, h2, h3, h4, h5⟩

theorem FormRanges.tracked {f : Forms} {g : Geometry} (h : FormRanges f g) (d : FeedDir) :
    FormRanges (trackStep g.sensorDist d f) g := by
  obtain ⟨h1, h2, h3, h4, h5⟩ := h
  unfold trackStep
  split
  · rename_i r hr
    refine ⟨h1, h2, h3, h4, fun k hk => ?_⟩
    injection hk with hk
    have := h5 r hr
    omega
  · refine ⟨h1, h2, h3, h4, fun k hk => ?_⟩
    injection hk with hk
    omega
  · exact ⟨h1, h2, h3, h4, h5⟩

theorem updArriveStep_ranged (f : Feed) (s : State) : Ranged s (s.updForms (arriveStep s.geometry.sensorDist f)) := by
  refine updForms_ranged fun h => ?_
  unfold arriveStep
  dsimp only
  split
  · exact h.tracked _
  · split
    · exact FormRanges.tracked (h.counted (.inl rfl)) _
    · exact FormRanges.tracked (h.counted (.inr rfl)) _

theorem Effect.ranged {c : Instr} {s t : State} (k : Effect c s t) : Ranged s t := by
  cases k with
  | unchanged => exact .refl s
  | frameFault => exact frameFault_ranged s
  | frameStarts | headerStored | headerEnds | bodyStored => exact updIntake_ranged id id id
  | replySent => exact updIntake_ranged (fun h => le_trans (by simp) h) id id
  | wrongLane => exact Ranged.trans (t := releaseFrame s) (updIntake_ranged id id id) (latch_ranged _ _)
  | laneNReceived r => exact Ranged.trans (t := releaseFrame s) (updIntake_ranged id id id) (takeN_ranged r _)
  | laneNSent r => exact takeN_ranged r s
  | laneQReceived b k r => exact Ranged.trans (t := releaseFrame s) (updIntake_ranged id id id) (joinLaneQ_ranged r _)
  | laneQSent r => exact joinLaneQ_ranged r s
  | buildEnds hd parts b inp => exact (endBuild_ranged _ _ _ _ s).finish
  | takenUp u _ hu => exact ((takeUpStep_kept hu).ranged (takeUpStep_trimmed hu)).finish
  | passChecked first => exact ((runChecks_kept _ s).ranged (runChecks_trimmed _ s)).finish
  | carriageFaults side home => exact ((arriveCarriage_ranged _ _ s).trans (carriageFault_ranged _)).finish
  | positions | positioned | decelerates | homes | homesAnew | edgeFound =>
    exact (arriveCarriage_ranged _ _ s).trans (updCarriage_ranged _ _)
  | runs m home =>
    exact (((arriveCarriage_ranged _ _ s).trans (offerArrival_ranged _)).trans (updCarriage_ranged _ _)).trans
      (finishLastFire_ranged _)
  | runEnds m home =>
    exact ((((((arriveCarriage_ranged _ _ s).trans (offerArrival_ranged _)).trans (reportLastFire_ranged _)).trans
      (updCarriage_ranged _ _)).trans (discardSchedule_ranged _)).trans (runStopped_ranged _)).trans
      ((finishRunStop_kept _).ranged (finishRunStop_trimmed _))
  | decelerated d home => exact ((arriveCarriage_ranged _ _ s).trans (updCarriage_ranged _ _)).finish
  | homed g home =>
    exact (((arriveCarriage_ranged _ _ s).trans (updCarriage_ranged _ _)).trans (homingComplete_ranged _)).finish
  | thirdDead i p faults => exact ((endPulse_ranged i p faults s).trans (thirdDeadPin_ranged _)).finish
  | pulseEnds i p faults => exact (endPulse_ranged i p faults s).trans (finishLastFire_ranged _)
  | cools => exact updHeat_ranged _ s
  | holdReleased => exact ((updHeat_ranged _ s).trans (updHeat_ranged _ _)).finish
  | tailReached f =>
    exact ((updArriveStep_ranged f s).trans ((tailReached_kept f _).ranged (tailReached_trimmed f _))).finish
  | feedAbandoned f => exact ((updArriveStep_ranged f s).trans (updForms_ranged id)).finish
  | feedReset f => exact ((updArriveStep_ranged f s).trans ((resetPaper_kept _).ranged (resetPaper_trimmed _))).finish
  | loadingCut f =>
    exact ((updArriveStep_ranged f s).trans ((enterNoForms_kept _).ranged (enterNoForms_trimmed _))).finish
  | feedAtEnd f => exact (updArriveStep_ranged f s).finish
  | feedGoesOn f => exact (updArriveStep_ranged f s).trans ((startStep_kept _).ranged (startStep_trimmed _))
  | tearOff => exact ((beginTearOff_kept s).ranged (beginTearOff_trimmed s)).finish
  | loads => exact ((beginLoading_kept s).ranged (beginLoading_trimmed s)).finish
  | tracks =>
    refine ((updPins_ranged _ s).trans (updForms_ranged fun h => ?_)).trans (judgeTimers_ranged _)
    obtain ⟨h1, h2, h3, h4, -⟩ := h
    exact ⟨h1, h2, h3, h4, fun r hr => by cases hr; exact Nat.le_refl _⟩
  | seesNoForms => exact ((updPins_ranged _ s).trans ((cutLoading_kept _).ranged (cutLoading_trimmed _))).finish
  | formsGone => exact (updPins_ranged _ s).trans (judgeTimers_ranged _)
  | formsPresent =>
    exact ((updPins_ranged _ s).trans (updForms_ranged fun h => h.untracked rfl rfl rfl rfl)).trans
      (judgeTimers_ranged _)
  | leverOpens =>
    exact (((updPins_ranged _ s).trans (updForms_ranged id)).trans (latch_ranged _ _)).trans (judgeTimers_ranged _)
  | leverSettles => exact ((updPins_ranged _ s).trans (updForms_ranged id)).trans (judgeTimers_ranged _)
  | leverRests => exact updPins_ranged _ s
  | settled =>
    exact Ranged.finish (Ranged.trans (t := s.updForms _) (updForms_ranged id)
      ((startStep_kept _).ranged (startStep_trimmed _)))

/-- Settles O5: the ranges of heat, settings and geometry are kept one block at a time, the others likewise but that r is
bounded by S_e. -/
theorem stepKeepsRanges : Obligations.StepKeepsRanges := by
  constructor
  · intro s t hs h
    refine step_keeps (P := fun s => HeatSound s.heat ∧ SettingsSound s.settings ∧ GeometrySound s.geometry) ?_
      (fun _ _ => id) (fun c s t he ⟨h1, h2, h3⟩ => ?_) hs h
    · intro p a b d e
      exact ⟨by simp [State.powerOn, HeatSound, heatDefault, heatMax],
        by simp [State.powerOn, SettingsSound, settingsDefault],
        by simp [State.powerOn, GeometrySound, geometryDefault]⟩
    · exact ⟨he.lawful.heat h1, he.lawful.settings h2, he.lawful.geometry h3⟩
  · intro s t hs h
    refine step_keeps (P := fun s => FormSound s.forms ∧ FormRanges s.forms s.geometry ∧ AccSound s.forms ∧
      RepliesSound s.intake ∧ CountersSound s) ?_ (fun _ _ => id) (fun c s t he ⟨h1, h2, h3, h4, h5⟩ => ?_) hs h
    · intro p a b d e
      simp [State.powerOn, FormSound, FormRanges, AccSound, RepliesSound, CountersSound, formsDefault, intakeDefault,
        firingDefault]
    · exact ⟨he.lawful.form h1, he.ranged.ranges h2, he.lawful.acc h3, he.ranged.replies h4, he.ranged.counters h5⟩

/-! ## The forms timers (R147, R150) -/

/-- Judging the timers makes their law hold. -/
theorem judgeTimers_timersSound (s : State) : TimersSound (judgeTimers s) := by
  constructor
  · show (if tearTimerDue s then some _ else none) ≠ none ↔ _
    simp [judgeTimers, tearTimerDue, and_assoc]
  · show presenceDue s = true ↔ _
    simp [judgeTimers, presenceDue, and_assoc]

/-- Nothing that the timers' law reads changes. -/
structure SameTimers (s t : State) : Prop where
  forms    : t.forms.tearTimer = s.forms.tearTimer ∧ t.forms.presenceTimer = s.forms.presenceTimer ∧
    t.forms.paper = s.forms.paper ∧ t.forms.lever = s.forms.lever
  executor : t.run.executor = s.run.executor
  queue    : t.queue = s.queue
  delay    : t.settings.tearDelay = s.settings.tearDelay
  pin      : t.pins.formsPresent = s.pins.formsPresent

theorem SameTimers.refl (s : State) : SameTimers s s := ⟨⟨rfl, rfl, rfl, rfl⟩, rfl, rfl, rfl, rfl⟩

theorem SameTimers.trans {s t u : State} (h : SameTimers s t) (k : SameTimers t u) : SameTimers s u where
  forms := by
    obtain ⟨h1, h2, h3, h4⟩ := h.forms
    obtain ⟨k1, k2, k3, k4⟩ := k.forms
    exact ⟨k1.trans h1, k2.trans h2, k3.trans h3, k4.trans h4⟩
  executor := k.executor.trans h.executor
  queue := k.queue.trans h.queue
  delay := k.delay.trans h.delay
  pin := k.pin.trans h.pin

theorem SameTimers.sound {s t : State} (h : SameTimers s t) (k : TimersSound s) : TimersSound t := by
  obtain ⟨h1, h2, h3, h4⟩ := h.forms
  unfold TimersSound
  rw [h1, h2, h3, h4, h.executor, h.queue, h.delay, h.pin]
  exact k

/-- A change of other blocks. -/
theorem SameTimers.of_eq {s t : State} (hf : t.forms = s.forms) (hr : t.run.executor = s.run.executor)
    (hq : t.queue = s.queue) (hs : t.settings = s.settings) (hp : t.pins.formsPresent = s.pins.formsPresent) :
    SameTimers s t := ⟨by simp [hf], hr, hq, by rw [hs], hp⟩

theorem latchIf_sameTimers (b : Bool) (c : Cause) (s : State) : SameTimers s (latchIf b c s) := by
  unfold latchIf
  split
  · exact .of_eq rfl rfl rfl rfl rfl
  · exact .refl s

theorem setStage_sameTimers (g : Stage) (s : State) : SameTimers s (s.setStage g) := .of_eq rfl rfl rfl rfl rfl

theorem finishEvent_timersSound (s : State) : TimersSound (finishEvent s) := judgeTimers_timersSound _

theorem takeN_timersSound {r : NRecord} {s : State} (h : TimersSound s) : TimersSound (takeN r s) := by
  have answered : ∀ f, SameTimers s (answer f s) := fun f => by
    unfold answer
    split <;> exact .of_eq rfl rfl rfl rfl rfl
  have written : ∀ (b : Binding) (data : List Byte), SameTimers s (stageWritten b data s) := fun b data =>
    (setStage_sameTimers _ s).trans (latchIf_sameTimers _ _ _)
  cases r with
  | query => exact (answered _).sound h
  | halt => exact judgeTimers_timersSound _
  | go => exact finishEvent_timersSound _
  | drop => exact finishEvent_timersSound _
  | reset => exact judgeTimers_timersSound _
  | ack causes mask =>
    show TimersSound (takeAck causes mask s)
    unfold takeAck
    dsimp only
    split
    · exact finishEvent_timersSound _
    · unfold ackClear
      dsimp only
      split <;> exact h
  | stage table page offset clear data =>
    show TimersSound (takeStage _ _ _ clear data s)
    unfold takeStage
    split
    · exact h
    split
    · split
      · exact h
      · split
        · exact h
        · exact (written _ _).sound h
      · split
        · split
          · exact h
          · exact (written _ _).sound h
        · split
          · exact (written _ _).sound h
          · exact h
    · exact h
  | read table page source => exact (answered _).sound h

theorem updPlanner_sameTimers (f : Planner → Planner) (s : State) : SameTimers s (s.updPlanner f) :=
  .of_eq rfl rfl rfl rfl rfl
theorem updFiring_sameTimers (f : Firing → Firing) (s : State) : SameTimers s (s.updFiring f) :=
  .of_eq rfl rfl rfl rfl rfl
theorem updHeat_sameTimers (f : Heat → Heat) (s : State) : SameTimers s (s.updHeat f) := .of_eq rfl rfl rfl rfl rfl

theorem fireEntry_sameTimers (mask : PinMask) (tRec : Nat) (s : State) : SameTimers s (fireEntry mask tRec s) :=
  ((updFiring_sameTimers _ s).trans (latchIf_sameTimers _ _ _)).trans (updHeat_sameTimers _ _)

theorem handEntry_sameTimers (sc : Schedule) (f : Fire) (s : State) : SameTimers s (handEntry sc f s) := by
  unfold handEntry
  dsimp only
  split
  · split
    · exact ((updPlanner_sameTimers _ s).trans (fireEntry_sameTimers _ _ _)).trans (updFiring_sameTimers _ _)
    · exact (updPlanner_sameTimers _ s).trans (fireEntry_sameTimers _ _ _)
  · exact updPlanner_sameTimers _ s

theorem offerArrival_sameTimers (s : State) : SameTimers s (offerArrival s) := by
  unfold offerArrival
  split
  · split
    · split
      · exact handEntry_sameTimers _ _ s
      · exact .refl s
    · exact .refl s
  · exact .refl s

theorem finishLastFire_timersSound {s : State} (h : TimersSound s) : TimersSound (finishLastFire s) := by
  unfold finishLastFire
  split
  · exact finishEvent_timersSound _
  · exact h

/-- The next step of a feed begins at an arrival without a change of what the timers read. -/
theorem startStep_sameTimers (s : State) : SameTimers s (startStep s) := by
  unfold startStep
  split
  · rename_i f _
    split
    · exact ⟨by cases f.dir <;> exact ⟨rfl, rfl, rfl, rfl⟩, rfl, rfl, rfl, rfl⟩
    · exact .refl s
  · exact .refl s

theorem updArriveStep_sameTimers (e : Nat) (f : Feed) (s : State) : SameTimers s (s.updForms (arriveStep e f)) := by
  refine ⟨?_, rfl, rfl, rfl, rfl⟩
  simp only [State.updForms_forms, arriveStep, trackStep, countForward, countReverse]
  repeat' split
  all_goals exact ⟨rfl, rfl, rfl, rfl⟩

theorem Effect.timersSound {c : Instr} {s t : State} (k : Effect c s t) (h : TimersSound s) : TimersSound t := by
  cases k with
  | unchanged | frameFault | frameStarts | headerStored | headerEnds | bodyStored | wrongLane | replySent | cools
  | leverRests | positions | positioned | decelerates | homes | homesAnew | edgeFound => exact h
  | laneNReceived r => exact takeN_timersSound (s := releaseFrame s) h
  | laneNSent r => exact takeN_timersSound h
  | runs m home =>
    exact finishLastFire_timersSound (s := setDrive _ _)
      ((offerArrival_sameTimers _).sound (s := arriveCarriage m.side home s) h)
  | pulseEnds i p faults =>
    exact finishLastFire_timersSound ((latchIf_sameTimers _ _ _).sound (s := s.updFiring _) h)
  | feedGoesOn f =>
    exact ((updArriveStep_sameTimers _ f s).trans (startStep_sameTimers _)).sound h
  | _ => exact judgeTimers_timersSound _

/-- The timers' law holds after a power-on reset: HOMING, and the presence timer stopped in a NO FORMS without forms or with
the lever open. -/
theorem powerOn_timersSound (p : List Instr) (a : BitVec 2) (b d e : Bool) : TimersSound (State.powerOn p a b d e) := by
  cases d <;> cases e <;> simp [TimersSound, State.powerOn, formsDefault, runDefault]

/-- Every step keeps the law of the forms timers. -/
theorem step_keeps_timers {s t : State} (hs : TimersSound s) (h : step s = .next t) : TimersSound t :=
  step_keeps powerOn_timersSound (fun _ _ k => k) (fun _ _ _ he => he.timersSound) hs h

end Sys2Proof.Machine
end

