-- ==== Sys2Proof/Proofs/Intake.lean ====
section
/-! PROOFS. The Intake through every step: the bytes held and the frame under reception (R1, R2, R4, R8, R10). -/

namespace Sys2Proof.Machine

/-! ## Lengths of payloads and frames -/

theorem length_fieldBytes {w : Nat} (n : Nat) (f : Option (BitVec w)) :
    (fieldBytes n f).length = if f.isSome then n else 0 := by
  cases f <;> simp [fieldBytes, length_toBytes]

/-- The payload laid out for a lane Q record has the size counted for it. -/
theorem length_payload (r : QRecord) : r.payload.length = r.payloadSize := by
  cases r with
  | set f =>
    simp only [QRecord.payload, QRecord.payloadSize, setPayload, setSize, List.length_append, length_toBytes,
      length_fieldBytes]
  | lineFirst | lineCont | advance | commit | form | geometry =>
    simp [QRecord.payload, QRecord.payloadSize, length_toBytes] <;> omega

theorem length_frameOf (kind : Byte) (payload : List Byte) : (frameOf kind payload).length = payload.length + 5 := by
  simp [frameOf, length_toBytes]
  omega

theorem length_frame (r : QRecord) : r.frame.length = r.frameSize := by
  rw [QRecord.frame, length_frameOf, length_payload, QRecord.frameSize]
  omega

/-- A SET read from a payload has the size of the fields that its presence set names. -/
theorem setSize_setFieldsOf (p : List Byte) : setSize (setFieldsOf p) = 2 + (presentSizes (fieldAt p 0 2)).sum := by
  simp only [setSize, setFieldsOf, setField, Option.isSome_map, presentSizes, setSizes,
    List.range_succ, List.range_zero, List.map_append, List.map_cons, List.map_nil, List.sum_append, List.sum_cons,
    List.sum_nil, List.nil_append]
  simp only [apply_ite Option.isSome, Option.isSome_some, Option.isSome_none]
  simp [Nat.add_assoc]

/-- A lane Q record read from a payload of an allowed length has that length for its size (R5, R171). -/
theorem payloadSize_of_qRecordOf {k : Kind} {p : List Byte} {r : QRecord} (h : qRecordOf k p = some r)
    (ha : k.allows p.length = true) : r.payloadSize = p.length := by
  cases k with
  | line =>
    simp only [Kind.allows, decide_eq_true_eq] at ha
    simp only [qRecordOf] at h
    split at h <;> cases h <;> simp only [QRecord.payloadSize, List.length_drop] <;> omega
  | set =>
    simp only [qRecordOf] at h
    split at h
    · rename_i hc
      cases h
      simp only [setConsistent, decide_eq_true_eq] at hc
      rw [QRecord.payloadSize, setSize_setFieldsOf, hc]
    · cases h
  | advance | commit | form | geometry =>
    simp only [Kind.allows, beq_iff_eq] at ha
    cases h
    exact ha.symm
  | query | halt | go | drop | reset | ack | stage | read => cases h

/-! ## The header of a frame stands in its first four bytes -/

theorem byteAt_append {f : List Byte} (b : Byte) {i : Nat} (h : i < f.length) : byteAt (f ++ [b]) i = byteAt f i := by
  simp [byteAt, List.getD_eq_getElem?_getD, List.getElem?_append_left h]

theorem frameLength_append {f : List Byte} (b : Byte) (h : 4 ≤ f.length) : frameLength (f ++ [b]) = frameLength f := by
  simp only [frameLength, fieldAt]
  rw [byteAt_append b (by omega), byteAt_append b (by omega)]

theorem frameKind_append {f : List Byte} (b : Byte) (h : 2 ≤ f.length) : frameKind (f ++ [b]) = frameKind f := by
  simp [frameKind, List.getD_eq_getElem?_getD, List.getElem?_append_left (l₁ := f) (i := 1) (by omega)]

theorem headerSound_append {f : List Byte} (b : Byte) (h : 4 ≤ f.length) : headerSound (f ++ [b]) = headerSound f := by
  rw [headerSound, headerSound, frameLength_append b h, frameKind_append b (by omega)]

/-! ## The law of the Intake -/

theorem held_le_of_free {i : Intake} {n : Nat} (h : n ≤ i.freeSpace) (hn : n ≠ 0) : i.held + n ≤ 2304 := by
  simp only [Intake.freeSpace, intakeSize] at h
  omega

/-- With no frame under reception the law is that of the frames that wait. -/
theorem IntakeSound.hunting {i : Intake} (hf : i.frameState = .hunt) (he : i.frame = [])
    (hh : (i.laneQ.map QRecord.frameSize).sum ≤ 2304) : IntakeSound i :=
  ⟨by simpa [Intake.held, he] using hh, fun _ => he, fun h => (by rw [hf] at h; cases h),
    fun h => (by rw [hf] at h; cases h)⟩

theorem sum_frameSize_le {l l' : List QRecord} (h : l' <:+ l) :
    (l'.map QRecord.frameSize).sum ≤ (l.map QRecord.frameSize).sum := by
  obtain ⟨a, rfl⟩ := h
  simp

/-- Fewer frames waiting, and other replies and counters. -/
theorem IntakeSound.trim {i j : Intake} (h : IntakeSound i) (hf : j.frameState = i.frameState) (he : j.frame = i.frame)
    (hl : j.laneQ <:+ i.laneQ) : IntakeSound j := by
  obtain ⟨h1, h2⟩ := h
  have := sum_frameSize_le hl
  refine ⟨?_, by rw [hf, he]; exact h2⟩
  simp only [Intake.held, he] at h1 ⊢
  omega

theorem IntakeSound.waiting {i : Intake} (h : IntakeSound i) : (i.laneQ.map QRecord.frameSize).sum ≤ 2304 := by
  have := h.1
  simp only [Intake.held] at this
  omega

/-- What follows an event keeps the law. -/
theorem intakeSound_of_kept {s t : State} (k : Kept s t) (l : Trimmed s t) (h : IntakeSound s.intake) :
    IntakeSound t.intake :=
  h.trim (by rw [k.intake]) (by rw [k.intake]) l.laneQ

theorem finishEvent_intakeSound {s : State} (h : IntakeSound s.intake) : IntakeSound (finishEvent s).intake :=
  intakeSound_of_kept (finishEvent_kept s) (finishEvent_trimmed s) h

theorem frameFault_intakeSound {s : State} (h : IntakeSound s.intake) : IntakeSound (frameFault s).intake :=
  .hunting rfl rfl h.waiting

theorem releaseFrame_intakeSound {s : State} (h : IntakeSound s.intake) : IntakeSound (releaseFrame s).intake :=
  .hunting rfl rfl h.waiting

/-- A frame that fits joins the lane Q order. -/
theorem joinLaneQ_intakeSound {r : QRecord} {s : State} (h : IntakeSound s.intake)
    (hr : s.intake.held + r.frameSize ≤ 2304) : IntakeSound (joinLaneQ r s).intake := by
  refine finishEvent_intakeSound (s := s.updIntake _) ⟨?_, h.2⟩
  simp only [Intake.held, State.updIntake_intake, List.map_append, List.sum_append, List.map_cons, List.map_nil,
    List.sum_cons, List.sum_nil] at hr ⊢
  omega

/-! ### Bytes of a frame -/

theorem frameStarts_intakeSound {i : Intake} (h : IntakeSound i) (b : Byte) (hf : i.frameState = .hunt)
    (hr : i.freeSpace ≠ 0) :
    IntakeSound { i with frame := [b], frameState := .header, timer := true } := by
  have := held_le_of_free (i := i) (n := 1) (by omega) (by omega)
  have he := h.2.1 hf
  refine ⟨?_, by simp, by simp, by simp⟩
  simp only [Intake.held, he, List.length_nil, List.length_singleton] at this ⊢
  omega

theorem headerStored_intakeSound {s : State} (b : Byte) (hr : s.intake.freeSpace ≠ 0)
    (hl : s.intake.frame.length < 3) : IntakeSound (storeByte b .header s).intake := by
  have := held_le_of_free (i := s.intake) (n := 1) (by omega) (by omega)
  refine ⟨?_, by simp [storeByte], fun _ => ?_, by simp [storeByte]⟩
  · simp only [storeByte, State.updIntake_intake, Intake.held, List.length_append, List.length_singleton] at this ⊢
    omega
  · simp only [storeByte, State.updIntake_intake, List.length_append, List.length_singleton]
    omega

theorem bodyByte_intakeSound {s : State} (b : Byte) (hr : s.intake.freeSpace ≠ 0)
    (hn : 4 ≤ (s.intake.frame ++ [b]).length)
    (hl : (s.intake.frame ++ [b]).length < 5 + frameLength (s.intake.frame ++ [b]))
    (hs : headerSound (s.intake.frame ++ [b]) = true) : IntakeSound (storeByte b .body s).intake := by
  have := held_le_of_free (i := s.intake) (n := 1) (by omega) (by omega)
  refine ⟨?_, by simp [storeByte], by simp [storeByte], fun _ => ⟨hn, hl, hs⟩⟩
  simp only [storeByte, State.updIntake_intake, Intake.held, List.length_append, List.length_singleton] at this ⊢
  omega

/-- The header of a frame in BODY names its kind and a payload length that the kind allows. -/
theorem allows_of_headerSound {f : List Byte} {k : Kind} (h : headerSound f = true) (hk : frameKind f = some k) :
    k.allows (frameLength f) = true := by
  simp only [headerSound, hk, Bool.and_eq_true, Option.any_some] at h
  exact h.2

/-- A complete lane Q frame joins the order with the bytes it has held (R8, R12). -/
theorem laneQReceived_intakeSound {s : State} (h : IntakeSound s.intake) {b : Byte} {k : Kind} {r : QRecord}
    (hf : s.intake.frameState = .body) (hr : s.intake.freeSpace ≠ 0)
    (hl : 5 + frameLength (s.intake.frame ++ [b]) ≤ (s.intake.frame ++ [b]).length)
    (hk : frameKind (s.intake.frame ++ [b]) = some k)
    (hq : qRecordOf k (((s.intake.frame ++ [b]).drop 4).take (frameLength (s.intake.frame ++ [b]))) = some r) :
    IntakeSound (joinLaneQ r (releaseFrame s)).intake := by
  obtain ⟨h4, hlt, hs⟩ := h.2.2.2 hf
  rw [← headerSound_append b h4] at hs
  rw [← frameLength_append b h4] at hlt
  have hsize := payloadSize_of_qRecordOf hq (by
    rw [List.length_take, List.length_drop, Nat.min_eq_left (by omega)]
    exact allows_of_headerSound hs hk)
  rw [List.length_take, List.length_drop, Nat.min_eq_left (by omega)] at hsize
  have hheld := held_le_of_free (i := s.intake) (n := 1) (by omega) (by omega)
  refine joinLaneQ_intakeSound (releaseFrame_intakeSound h) ?_
  rw [List.length_append, List.length_singleton] at hl
  simp only [releaseFrame, State.updIntake_intake, Intake.held, List.length_nil, QRecord.frameSize, hsize] at hheld ⊢
  omega

/-! ### Every command -/

theorem takeStage_intake (table page offset : Nat) (clear : Bool) (data : List Byte) (s : State) :
    (takeStage table page offset clear data s).intake = s.intake := by
  have hw : ∀ b : Binding, (stageWritten b data s).intake = s.intake := fun b => by
    unfold stageWritten latchIf
    split <;> rfl
  unfold takeStage
  split
  · rfl
  split
  · split
    · rfl
    · split
      · rfl
      · exact hw _
    · split
      · split
        · rfl
        · exact hw _
      · split
        · exact hw _
        · rfl
  · rfl

/-- A change that `Kept` and `Trimmed` cover, after one that leaves the Intake alone. -/
theorem intakeSound_after {s u t : State} (h : IntakeSound s.intake) (hu : u.intake = s.intake) (k : Kept u t)
    (l : Trimmed u t) : IntakeSound t.intake := intakeSound_of_kept k l (by rw [hu]; exact h)

theorem takeN_intakeSound {r : NRecord} {s : State} (h : IntakeSound s.intake) : IntakeSound (takeN r s).intake := by
  have answered : ∀ f, IntakeSound (answer f s).intake := fun f => by
    unfold answer
    split <;> exact h.trim rfl rfl (List.suffix_refl _)
  cases r with
  | query => exact answered _
  | halt => exact h
  | go => exact finishEvent_intakeSound (s := s.updRun _) h
  | drop =>
    refine finishEvent_intakeSound ?_
    have hc : IntakeSound (clearIntake s).intake := .hunting rfl rfl (Nat.zero_le _)
    have hand : IntakeSound (dropInHand (clearIntake s)).intake := by
      unfold dropInHand
      split
      · exact hc
      · split
        · exact hc
        · exact intakeSound_of_kept (t := abandonFeed _ _) (abandonFeed_kept _ _) (abandonFeed_trimmed _ _) hc
    have entries : ∀ u : State, (dropEntries u).intake = u.intake := fun u => by
      unfold dropEntries latchIf
      dsimp only
      split <;> split <;> rfl
    rw [entries]
    exact hand
  | reset =>
    show IntakeSound (takeReset s).intake
    simp only [takeReset, judgeTimers, restartTearTimer, resetCauses, State.updForms_intake, State.updRun_intake]
    refine intakeSound_after (.hunting (i := (resetIntake s).intake) rfl rfl (Nat.zero_le _)) ?_ (resetForms_kept _)
      (resetForms_trimmed _)
    simp
  | ack causes mask =>
    have ha : (ackClear causes mask s).intake = s.intake := by
      unfold ackClear
      dsimp only
      split <;> rfl
    show IntakeSound (takeAck causes mask s).intake
    unfold takeAck
    dsimp only
    split
    · refine finishEvent_intakeSound ?_
      unfold leaveFaultStop
      split <;> exact (by rw [← ha] at h; exact h)
    · rw [ha]
      exact h
  | stage table page offset clear data =>
    show IntakeSound (takeStage _ _ _ clear data s).intake
    rw [takeStage_intake]
    exact h
  | read table page source => exact answered _

theorem offerArrival_intake (s : State) : (offerArrival s).intake = s.intake := by
  have fire : ∀ (mask : PinMask) (tRec : Nat) (u : State), (fireEntry mask tRec u).intake = u.intake :=
    fun mask tRec u => by
      unfold fireEntry latchIf
      dsimp only
      split <;> rfl
  unfold offerArrival handEntry
  dsimp only
  split
  · split
    · split
      · split
        · split
          · exact fire _ _ _
          · exact fire _ _ _
        · rfl
      · rfl
    · rfl
  · rfl

theorem runStopped_intakeSound {s : State} (h : IntakeSound s.intake) : IntakeSound (runStopped s).intake := by
  unfold runStopped
  split
  · exact h
  · exact intakeSound_of_kept (finishEntry_kept s) (finishEntry_trimmed s) h
  · exact h
  · exact h

/-- The events of the carriage, the Firing Unit, the Forms Drive and Run Control reach the Intake by what follows them
only. -/
theorem Effect.intakeSound {c : Instr} {s t : State} (k : Effect c s t) (h : IntakeSound s.intake) :
    IntakeSound t.intake := by
  have report : ∀ u : State, u.intake = s.intake → IntakeSound (reportLastFire u).intake := fun u hu => by
    unfold reportLastFire
    split
    · refine intakeSound_after h (u := forgetLastFire u) hu (lastFireDone_kept _) ?_
      unfold lastFireDone
      split
      · exact beginFeed_trimmed _ _ _ _
      · exact .refl _
    · rw [hu]
      exact h
  have lastFire : ∀ u : State, u.intake = s.intake → IntakeSound (finishLastFire u).intake := fun u hu => by
    unfold finishLastFire
    split
    · exact finishEvent_intakeSound (report u hu)
    · rw [hu]
      exact h
  have pulse : ∀ i p faults, (endPulse i p faults s).intake = s.intake := fun i p faults => by
    unfold endPulse latchIf
    dsimp only
    split <;> rfl
  cases k with
  | unchanged | cools | leverRests | tracks | formsGone | formsPresent | leverOpens | leverSettles | positions
  | positioned | decelerates | homes | homesAnew | edgeFound => exact h
  | frameFault => exact frameFault_intakeSound h
  | frameStarts b hf hr => exact frameStarts_intakeSound h b hf hr
  | headerStored b hf hr hl => exact headerStored_intakeSound b hr hl
  | headerEnds b hf hr hl hs =>
    have h3 := h.2.2.1 hf
    have h4 : (s.intake.frame ++ [b]).length = 4 := by simp only [List.length_append, List.length_singleton]; omega
    exact bodyByte_intakeSound b hr (by omega) (by omega) hs
  | bodyStored b hf hr hl =>
    obtain ⟨h4, -, hs⟩ := h.2.2.2 hf
    exact bodyByte_intakeSound b hr (by simp only [List.length_append, List.length_singleton]; omega) hl
      (by rw [headerSound_append b h4]; exact hs)
  | wrongLane => exact releaseFrame_intakeSound h
  | laneNReceived r => exact takeN_intakeSound (releaseFrame_intakeSound h)
  | laneNSent r => exact takeN_intakeSound h
  | laneQReceived b k r hf hr hl hk hq => exact laneQReceived_intakeSound h hf hr hl hk hq
  | laneQSent r hr =>
    exact joinLaneQ_intakeSound h (held_le_of_free hr (by simp only [QRecord.frameSize]; omega))
  | replySent => exact h.trim rfl rfl (List.suffix_refl _)
  | buildEnds hd parts b inp =>
    refine finishEvent_intakeSound ?_
    have : (endBuild hd parts b (buildResult inp) s).intake = s.intake := by
      unfold endBuild latchIf
      dsimp only
      split <;> split <;> rfl
    rw [this]
    exact h
  | takenUp u _ hu =>
    exact finishEvent_intakeSound (intakeSound_of_kept (takeUpStep_kept hu) (takeUpStep_trimmed hu) h)
  | passChecked first =>
    exact finishEvent_intakeSound (intakeSound_of_kept (runChecks_kept _ s) (runChecks_trimmed _ s) h)
  | carriageFaults side home =>
    exact finishEvent_intakeSound (intakeSound_after h (by rfl) (faultStop_kept _) (faultStop_trimmed _))
  | runs m home => exact lastFire _ (offerArrival_intake _)
  | runEnds m home =>
    have hr := report _ (offerArrival_intake (arriveCarriage m.side home s))
    exact intakeSound_of_kept (finishRunStop_kept _) (finishRunStop_trimmed _)
      (runStopped_intakeSound (s := discardSchedule (setDrive .stopped _)) hr)
  | decelerated d home => exact finishEvent_intakeSound (s := setDrive _ _) h
  | homed g home =>
    refine finishEvent_intakeSound ?_
    unfold homingComplete
    split <;> exact h
  | thirdDead i p faults =>
    exact finishEvent_intakeSound (intakeSound_after h
      (u := forgetLastFire (goSilent (endPulse i p faults s))) (pulse _ _ _) (faultStop_kept _) (faultStop_trimmed _))
  | pulseEnds i p faults => exact lastFire _ (pulse _ _ _)
  | holdReleased => exact finishEvent_intakeSound (s := (s.updHeat _).updHeat _) h
  | tailReached f =>
    exact finishEvent_intakeSound (intakeSound_after h (u := s.updForms _) rfl (tailReached_kept f _)
      (tailReached_trimmed f _))
  | feedAbandoned f => exact finishEvent_intakeSound (s := clearFeed _) h
  | feedReset f =>
    exact finishEvent_intakeSound (intakeSound_after h (u := s.updForms _) rfl (resetPaper_kept _)
      (resetPaper_trimmed _))
  | loadingCut f => exact finishEvent_intakeSound (s := enterNoForms _) h
  | feedAtEnd f => exact finishEvent_intakeSound (s := s.updForms _) h
  | feedGoesOn f => exact intakeSound_after h (u := s.updForms _) rfl (startStep_kept _) (startStep_trimmed _)
  | tearOff => exact finishEvent_intakeSound (intakeSound_of_kept (beginTearOff_kept s) (beginTearOff_trimmed s) h)
  | loads => exact finishEvent_intakeSound (intakeSound_of_kept (beginLoading_kept s) (beginLoading_trimmed s) h)
  | seesNoForms =>
    exact finishEvent_intakeSound (intakeSound_after h (u := s.updPins _) rfl (cutLoading_kept _) (cutLoading_trimmed _))
  | settled =>
    exact finishEvent_intakeSound (intakeSound_after h (u := s.updForms _) rfl (startStep_kept _) (startStep_trimmed _))

/-- Settles O8. -/
theorem stepKeepsIntakeLaw : Obligations.StepKeepsIntakeLaw := by
  refine ⟨fun s t hs h => step_keeps (P := fun s => IntakeSound s.intake)
    (fun _ _ _ _ _ => .hunting rfl rfl (Nat.zero_le _)) (fun _ _ => id) (fun _ _ _ he => he.intakeSound) hs h, ?_⟩
  intro s
  have hf : (s.intake.laneQ.map fun r => r.frame.length) = s.intake.laneQ.map QRecord.frameSize :=
    List.map_congr_left fun r _ => length_frame r
  refine ⟨by rw [Intake.held, hf], rfl, ?_, fun h => ?_, fun h => ?_⟩
  · exact decide_eq_true_iff
  · simp [State.rdy, readyThreshold, h]
  · simp [State.rdy, readyThreshold, h]

end Sys2Proof.Machine
end

