-- ==== Sys2Proof/Proofs/Schedule.lean ====
section
/-! PROOFS. What a fire schedule holds, and the formulas of the plan (05_pass_planning_and_fire_positions.md). -/

namespace Sys2Proof.Machine

/-! ## The dots of a schedule (R91, R92) -/

/-- Some entry of a list fires a pin at a position. -/
def Fires (l : List Fire) (x : Int) (pin : Nat) : Prop := ∃ f ∈ l, f.pos = x ∧ f.mask.getLsbD pin = true

theorem fires_cons {f : Fire} {l : List Fire} {x : Int} {pin : Nat} :
    Fires (f :: l) x pin ↔ f.pos = x ∧ f.mask.getLsbD pin = true ∨ Fires l x pin := by
  simp [Fires]

theorem fires_append {l m : List Fire} {x : Int} {pin : Nat} :
    Fires (l ++ m) x pin ↔ Fires l x pin ∨ Fires m x pin := by
  simp [Fires, or_and_right, exists_or]

/-- Merging keeps every dot and adds those of the new fire. -/
theorem fires_insertFire {f : Fire} {l : List Fire} {x : Int} {pin : Nat} :
    Fires (insertFire f l) x pin ↔ Fires (f :: l) x pin := by
  induction l with
  | nil => rfl
  | cons g rest ih =>
    unfold insertFire
    split
    · rfl
    · split
      · rename_i hpos
        simp only [fires_cons, hpos, BitVec.getLsbD_or, Bool.or_eq_true]
        tauto
      · rw [fires_cons, ih, fires_cons, fires_cons, fires_cons]
        tauto

theorem fires_foldr_insertFire {l : List Fire} {x : Int} {pin : Nat} :
    Fires (l.foldr insertFire []) x pin ↔ Fires l x pin := by
  induction l with
  | nil => rfl
  | cons f rest ih => rw [List.foldr_cons, fires_insertFire, fires_cons, fires_cons, ih]

theorem groupA_getLsbD : ∀ pin < 18, groupA.getLsbD pin = decide (pin % 2 = 0) := by decide

theorem groupB_getLsbD : ∀ pin < 18, groupB.getLsbD pin = decide (pin % 2 = 1) := by decide

theorem fires_groupFire {inp : PlanInputs} {side : Side} {sg k pin : Nat} {mask : PinMask} {x : Int} :
    Fires (groupFire inp side sg k mask) x pin ↔ mask.getLsbD pin = true ∧ firePosition inp side sg k = x := by
  unfold groupFire
  split
  · rename_i h
    simp [Fires, h]
  · simp [Fires, and_comm]

/-- The two groups of a column fire the dots of the column, each pin at its group's fire position. -/
theorem fires_column {inp : PlanInputs} {side : Side} {k pin : Nat} {c : PinMask} {x : Int} (hp : pin < 18) :
    Fires (groupFire inp side 1 k (c &&& groupB) ++ groupFire inp side 0 k (c &&& groupA)) x pin ↔
      c.getLsbD pin = true ∧ firePosition inp side (pin % 2) k = x := by
  rw [fires_append, fires_groupFire, fires_groupFire, BitVec.getLsbD_and, BitVec.getLsbD_and, groupA_getLsbD pin hp,
    groupB_getLsbD pin hp]
  obtain h | h := Nat.mod_two_eq_zero_or_one pin <;> simp [h]

theorem fires_firesFrom {inp : PlanInputs} {side : Side} {pin : Nat} {x : Int} (hp : pin < 18) (k : Nat)
    (cols : List PinMask) : Fires (firesFrom inp side k cols) x pin ↔
      ∃ i < cols.length, (cols.getD i 0).getLsbD pin = true ∧ firePosition inp side (pin % 2) (k + i) = x := by
  induction cols generalizing k with
  | nil => simp [firesFrom, Fires]
  | cons c rest ih =>
    rw [firesFrom, fires_append, fires_column hp, ih]
    constructor
    · rintro (h | ⟨i, hi, hd, hx⟩)
      · exact ⟨0, by simp, h⟩
      · exact ⟨i + 1, by simpa using hi, hd, by rw [← hx, Nat.add_right_comm, Nat.add_assoc]⟩
    · rintro ⟨i, hi, hd, hx⟩
      cases i with
      | zero => exact .inl ⟨hd, hx⟩
      | succ i => exact .inr ⟨i, by simpa using hi, hd, by rw [← hx, Nat.add_right_comm, Nat.add_assoc]⟩

/-- A schedule fires exactly the dots of the image. -/
theorem fires_fireSchedule {inp : PlanInputs} {side : Side} {pin : Nat} {x : Int} (hp : pin < 18) :
    Fires (fireSchedule inp side) x pin ↔ ∃ k < inp.image.cols.length,
      (inp.image.cols.getD k 0).getLsbD pin = true ∧ firePosition inp side (pin % 2) k = x := by
  have h : Fires (fireSchedule inp side) x pin ↔ Fires (risingFires inp side) x pin := by simp [Fires]
  rw [h, risingFires, fires_foldr_insertFire, fires_firesFrom hp]
  simp

/-! ## No empty entries, and how many -/

theorem mask_ne_zero_of_mem_insertFire {f g : Fire} {l : List Fire} (hf : f.mask ≠ 0) (hl : ∀ e ∈ l, e.mask ≠ 0)
    (h : g ∈ insertFire f l) : g.mask ≠ 0 := by
  induction l with
  | nil => rwa [List.mem_singleton.mp h]
  | cons e rest ih =>
    have hrest : ∀ e ∈ rest, e.mask ≠ 0 := fun x hx => hl x (List.mem_cons_of_mem _ hx)
    unfold insertFire at h
    split at h
    · obtain rfl | h := List.mem_cons.mp h
      · exact hf
      · exact hl g h
    · split at h
      · obtain rfl | h := List.mem_cons.mp h
        · intro h0
          exact hf (BitVec.or_eq_zero_iff.mp h0).2
        · exact hrest g h
      · obtain rfl | h := List.mem_cons.mp h
        · exact hl g List.mem_cons_self
        · exact ih hrest h

theorem mask_ne_zero_of_mem_firesFrom {inp : PlanInputs} {side : Side} {f : Fire} (k : Nat) (cols : List PinMask)
    (h : f ∈ firesFrom inp side k cols) : f.mask ≠ 0 := by
  have group {sg k : Nat} {mask : PinMask} (h : f ∈ groupFire inp side sg k mask) : f.mask ≠ 0 := by
    unfold groupFire at h
    split at h
    · cases h
    · rwa [List.mem_singleton.mp h]
  induction cols generalizing k with
  | nil => cases h
  | cons c rest ih =>
    simp only [firesFrom, List.mem_append] at h
    obtain (h | h) | h := h
    · exact group h
    · exact group h
    · exact ih (k + 1) h

theorem mask_ne_zero_of_mem_fireSchedule {inp : PlanInputs} {side : Side} {f : Fire} (h : f ∈ fireSchedule inp side) :
    f.mask ≠ 0 := by
  have fold : ∀ l : List Fire, (∀ e ∈ l, e.mask ≠ 0) → ∀ g ∈ l.foldr insertFire [], g.mask ≠ 0 := by
    intro l
    induction l with
    | nil => simp
    | cons e rest ih =>
      intro hl g hg
      exact mask_ne_zero_of_mem_insertFire (hl e List.mem_cons_self)
        (ih fun x hx => hl x (List.mem_cons_of_mem _ hx)) hg
  exact fold _ (fun _ => mask_ne_zero_of_mem_firesFrom 0 _) f (mem_fireSchedule.mp h)

theorem length_insertFire_le (f : Fire) (l : List Fire) : (insertFire f l).length ≤ l.length + 1 := by
  induction l with
  | nil => simp [insertFire]
  | cons g rest ih =>
    unfold insertFire
    split
    · simp
    · split <;> simp only [List.length_cons] <;> omega

theorem length_firesFrom_le (inp : PlanInputs) (side : Side) (k : Nat) (cols : List PinMask) :
    (firesFrom inp side k cols).length ≤ 2 * cols.length := by
  have group (sg k : Nat) (mask : PinMask) : (groupFire inp side sg k mask).length ≤ 1 := by
    unfold groupFire
    split <;> simp
  induction cols generalizing k with
  | nil => simp [firesFrom]
  | cons c rest ih =>
    have h1 := group 1 k (c &&& groupB)
    have h0 := group 0 k (c &&& groupA)
    have hr := ih (k + 1)
    simp only [firesFrom, List.length_append, List.length_cons]
    omega

theorem length_fireSchedule_le (inp : PlanInputs) (side : Side) :
    (fireSchedule inp side).length ≤ 2 * inp.image.cols.length := by
  have fold : ∀ l : List Fire, (l.foldr insertFire []).length ≤ l.length := by
    intro l
    induction l with
    | nil => simp
    | cons e rest ih => exact (length_insertFire_le _ _).trans (Nat.succ_le_succ ih)
  have hs : (fireSchedule inp side).length = (risingFires inp side).length := by cases side <;> simp [fireSchedule]
  rw [hs]
  exact (fold _).trans (length_firesFrom_le inp side 0 _)

/-- Settles O46. -/
theorem scheduleExact : Obligations.ScheduleExact := by
  intro inp side
  refine ⟨?_, fun f hf => mask_ne_zero_of_mem_fireSchedule hf, length_fireSchedule_le inp side, fun pin x hp => ?_⟩
  · cases side with
    | rightward => exact List.pairwise_map.mpr (risingFires_rises inp .rightward)
    | leftward => exact List.pairwise_map.mpr (List.pairwise_reverse.mpr (risingFires_rises inp .leftward))
  · exact fires_fireSchedule hp

/-- An image with a dot has something to fire in every pass. -/
theorem fireSchedule_ne_nil {inp : PlanInputs} {side : Side} {c : PinMask} (hc : c ∈ inp.image.cols) (h : c ≠ 0) :
    fireSchedule inp side ≠ [] := by
  obtain ⟨k, hk, rfl⟩ := List.mem_iff_getElem.mp hc
  obtain ⟨pin, hp, hd⟩ : ∃ pin < 18, (inp.image.cols[k]).getLsbD pin = true := by
    by_contra hn
    push Not at hn
    exact h (BitVec.eq_of_getLsbD_eq fun i hi => by simpa using hn i hi)
  obtain ⟨f, hf, -⟩ := (fires_fireSchedule (side := side) hp).mpr ⟨k, hk, by simpa [hk] using hd, rfl⟩
  exact List.ne_nil_of_mem hf

/-! ## The formulas (R85 to R87, R89, R90) -/

/-- Settles O45. -/
theorem planFormulas : Obligations.PlanFormulas := by
  intro inp sg k bidi p kept x t df
  refine ⟨rfl, rfl, fun htf ht => ?_, rfl, rfl, rfl, fun hb => ?_, rfl, fun hb => ?_⟩
  · exact Int.ofNat_le.mpr (flightDistance_le htf ht)
  · simp only [firstDirection, hb, if_false, seekDirection]
    rw [Int.abs_eq_natAbs, Int.abs_eq_natAbs]
    split <;> simp only [true_iff, false_iff, reduceCtorEq] <;> omega
  · simp only [secondDirection, hb, if_false]
    cases kept <;> simp [Side.opposite]

end Sys2Proof.Machine
end

