-- ==== Sys2Proof/Proofs/BuiltImage.lean ====
section
/-! PROOFS. The finished image of a line: clipping, the dark extent, the build class and the dots kept
(04_building_the_column_image.md, 4.4 to 4.6). -/

namespace Sys2Proof.Machine

/-! ## Indices of columns -/

theorem mem_indicesOf {test : PinMask → Bool} {cols : List PinMask} {k i : Nat} :
    i ∈ indicesOf test k cols ↔ ∃ j, ∃ h : j < cols.length, i = k + j ∧ test cols[j] = true := by
  induction cols generalizing k with
  | nil => simp [indicesOf]
  | cons c rest ih =>
    have hrest : i ∈ indicesOf test (k + 1) rest ↔
        ∃ j, ∃ h : j + 1 < (c :: rest).length, i = k + (j + 1) ∧ test (c :: rest)[j + 1] = true := by
      rw [ih]
      simp [Nat.add_assoc, Nat.add_comm 1]
    have hsplit : (∃ j, ∃ h : j < (c :: rest).length, i = k + j ∧ test (c :: rest)[j] = true) ↔
        (i = k ∧ test c = true) ∨ i ∈ indicesOf test (k + 1) rest := by
      rw [hrest]
      constructor
      · rintro ⟨j, h, hi, ht⟩
        cases j with
        | zero => exact .inl ⟨hi, ht⟩
        | succ j => exact .inr ⟨j, h, hi, ht⟩
      · rintro (⟨hi, ht⟩ | ⟨j, h, hi, ht⟩)
        · exact ⟨0, by simp, hi, ht⟩
        · exact ⟨j + 1, h, hi, ht⟩
    rw [hsplit, indicesOf]
    split
    · rename_i ht
      simp [ht]
    · rename_i ht
      simp [ht]

theorem indicesOf_rises (test : PinMask → Bool) (k : Nat) (cols : List PinMask) :
    (indicesOf test k cols).Pairwise (· < ·) := by
  induction cols generalizing k with
  | nil => exact .nil
  | cons c rest ih =>
    unfold indicesOf
    split
    · refine List.pairwise_cons.mpr ⟨fun i hi => ?_, ih (k + 1)⟩
      obtain ⟨j, -, hj, -⟩ := mem_indicesOf.mp hi
      omega
    · exact ih (k + 1)

/-! ## The dark extent (R73) -/

/-- The last of a rising list bounds it. -/
theorem le_getLastD_of_rises {l : List Nat} {k : Nat} (h : (k :: l).Pairwise (· < ·)) :
    ∀ i ∈ k :: l, i ≤ l.getLastD k := by
  induction l generalizing k with
  | nil => simp
  | cons a rest ih =>
    obtain ⟨hk, hrest⟩ := List.pairwise_cons.mp h
    have := ih hrest
    intro i hi
    rw [List.getLastD_cons]
    obtain rfl | hi := List.mem_cons.mp hi
    · exact (hk a List.mem_cons_self).le.trans (this a List.mem_cons_self)
    · exact this i hi

theorem darkExtent_eq_none {cols : List PinMask} : darkExtent cols = none ↔ ∀ c ∈ cols, c = 0 := by
  unfold darkExtent
  cases hl : indicesOf (· != 0) 0 cols with
  | nil =>
    refine ⟨fun _ c hc => ?_, fun _ => rfl⟩
    obtain ⟨j, hj, rfl⟩ := List.mem_iff_getElem.mp hc
    by_contra h0
    have : 0 + j ∈ indicesOf (· != 0) 0 cols := mem_indicesOf.mpr ⟨j, hj, rfl, by simpa using h0⟩
    rw [hl] at this
    cases this
  | cons k rest =>
    refine ⟨fun h => by simp at h, fun h => ?_⟩
    have hk : k ∈ indicesOf (· != 0) 0 cols := by rw [hl]; exact List.mem_cons_self
    obtain ⟨j, hj, -, ht⟩ := mem_indicesOf.mp hk
    simp [h _ (List.getElem_mem hj)] at ht

theorem darkExtent_eq_some {cols : List PinMask} {a b : Nat} (h : darkExtent cols = some (a, b)) :
    a ≤ b ∧ b < cols.length ∧ cols.getD a 0 ≠ 0 ∧ cols.getD b 0 ≠ 0 ∧
      ∀ k, cols.getD k 0 ≠ 0 → a ≤ k ∧ k ≤ b := by
  have dark : ∀ {i : Nat}, i ∈ indicesOf (· != 0) 0 cols ↔ i < cols.length ∧ cols.getD i 0 ≠ 0 := by
    intro i
    rw [mem_indicesOf]
    constructor
    · rintro ⟨j, hj, hi, ht⟩
      rw [Nat.zero_add] at hi
      subst hi
      exact ⟨hj, by simpa [hj] using ht⟩
    · rintro ⟨hi, ht⟩
      exact ⟨i, hi, by simp, by simpa [hi] using ht⟩
  unfold darkExtent at h
  cases hl : indicesOf (· != 0) 0 cols with
  | nil => rw [hl] at h; cases h
  | cons k rest =>
    rw [hl] at h dark
    simp only [Option.some.injEq, Prod.mk.injEq] at h
    obtain ⟨rfl, rfl⟩ := h
    have hrise := indicesOf_rises (· != 0) 0 cols
    rw [hl] at hrise
    have hlast : rest.getLastD k ∈ k :: rest := List.getLastD_mem_cons
    have hbound := le_getLastD_of_rises hrise
    refine ⟨hbound k List.mem_cons_self, (dark.mp hlast).1, (dark.mp List.mem_cons_self).2, (dark.mp hlast).2,
      fun i hi => ?_⟩
    have hlt : i < cols.length := by
      by_contra hn
      exact hi (by simp [List.getD_eq_getElem?_getD, List.getElem?_eq_none (Nat.le_of_not_lt hn)])
    have hmem := dark.mpr ⟨hlt, hi⟩
    refine ⟨?_, hbound i hmem⟩
    obtain rfl | hmem := List.mem_cons.mp hmem
    · exact le_rfl
    · exact (List.rel_of_pairwise_cons hrise hmem).le

/-! ## The walk of a pin (R76) -/

theorem length_walkPin (pin m : Nat) (last : Option Nat) (k : Nat) (cols : List PinMask) :
    (walkPin pin m last k cols).1.length = cols.length := by
  induction cols generalizing last k with
  | nil => rfl
  | cons c rest ih =>
    unfold walkPin
    split
    · split
      · simp [ih]
      · simp [ih]
    · simp [ih]

/-- The bits of a column without one pin. -/
theorem getLsbD_clear {c : PinMask} {pin q : Nat} (hp : pin < 18) :
    (c &&& ~~~(1#18 <<< pin)).getLsbD q = (c.getLsbD q && decide (q ≠ pin)) := by
  by_cases hq : q < 18
  · by_cases h : q = pin
    · subst h
      simp [hq]
    · simp only [BitVec.getLsbD_and, BitVec.getLsbD_not, hq, BitVec.getLsbD_shiftLeft, BitVec.getLsbD_one]
      have : ¬(q - pin = 0 ∧ ¬q < pin) := by omega
      simp [h]
      intro _
      omega
  · simp [BitVec.getLsbD_of_ge _ _ (Nat.le_of_not_lt hq)]

/-- A pin's walk leaves the other pins alone. -/
theorem walkPin_other {pin q m : Nat} (hp : pin < 18) (hq : q ≠ pin) (last : Option Nat) (k : Nat) (cols : List PinMask)
    (i : Nat) : ((walkPin pin m last k cols).1.getD i 0).getLsbD q = (cols.getD i 0).getLsbD q := by
  induction cols generalizing last k i with
  | nil => rfl
  | cons c rest ih =>
    unfold walkPin
    split
    · split
      · cases i with
        | zero => simp only [List.getD_cons_zero, getLsbD_clear hp, hq, ne_eq, not_false_eq_true, decide_true,
            Bool.and_true]
        | succ i => simpa only [List.getD_cons_succ] using ih _ _ i
      · cases i with
        | zero => rfl
        | succ i => simpa only [List.getD_cons_succ] using ih _ _ i
    · cases i with
      | zero => rfl
      | succ i => simpa only [List.getD_cons_succ] using ih _ _ i

/-- A dot of the pin is kept exactly when it lies `m` columns or more right of every dot kept before it, and of the last
one kept before the walk. -/
theorem walkPin_kept {pin m : Nat} (hp : pin < 18) (last : Option Nat) (k : Nat) (cols : List PinMask) (i : Nat) :
    ((walkPin pin m last k cols).1.getD i 0).getLsbD pin = true ↔
      (cols.getD i 0).getLsbD pin = true ∧ (∀ l, last = some l → l + m ≤ k + i) ∧
        ∀ j < i, ((walkPin pin m last k cols).1.getD j 0).getLsbD pin = true → j + m ≤ i := by
  induction cols generalizing last k i with
  | nil => simp [walkPin]
  | cons c rest ih =>
    by_cases hc : c.getLsbD pin = true
    · by_cases hl : last.any (fun j => decide (k < j + m)) = true
      · -- the dot in this column is too near the last one kept
        have hw : (walkPin pin m last k (c :: rest)).1 =
            (c &&& ~~~(1#18 <<< pin)) :: (walkPin pin m last (k + 1) rest).1 := by
          simp only [walkPin, hc, hl, if_true]
        obtain ⟨l, rfl⟩ : ∃ l, last = some l := by
          cases last with
          | none => cases hl
          | some l => exact ⟨l, rfl⟩
        have hl : k < l + m := by simpa using hl
        rw [hw]
        cases i with
        | zero =>
          simp only [List.getD_cons_zero, getLsbD_clear hp]
          simp
          intro _
          exact hl
        | succ i =>
          rw [List.getD_cons_succ, List.getD_cons_succ, ih]
          constructor
          · rintro ⟨h1, h2, h3⟩
            refine ⟨h1, fun x hx => by have := h2 x hx; omega, fun j hj hb => ?_⟩
            cases j with
            | zero => simp [getLsbD_clear hp] at hb
            | succ j => have := h3 j (by omega) (by simpa using hb); omega
          · rintro ⟨h1, h2, h3⟩
            refine ⟨h1, fun x hx => by have := h2 x hx; omega, fun j hj hb => ?_⟩
            have := h3 (j + 1) (by omega) (by simpa using hb)
            omega
      · -- the dot is kept and is the last one from here on
        have hw : (walkPin pin m last k (c :: rest)).1 = c :: (walkPin pin m (some k) (k + 1) rest).1 := by
          simp only [walkPin, hc, hl, if_true, if_false, Bool.false_eq_true]
        have hfar : ∀ l, last = some l → l + m ≤ k := by
          rintro l rfl
          simpa using hl
        rw [hw]
        cases i with
        | zero =>
          simp only [List.getD_cons_zero, hc, true_and, true_iff]
          exact ⟨fun l h => hfar l h, fun j hj => by omega⟩
        | succ i =>
          rw [List.getD_cons_succ, List.getD_cons_succ, ih]
          constructor
          · rintro ⟨h1, h2, h3⟩
            have hk := h2 k rfl
            refine ⟨h1, fun x hx => by have := hfar x hx; omega, fun j hj hb => ?_⟩
            cases j with
            | zero => omega
            | succ j => have := h3 j (by omega) (by simpa using hb); omega
          · rintro ⟨h1, h2, h3⟩
            have h0 := h3 0 (by omega) (by simpa using hc)
            refine ⟨h1, fun x hx => by cases hx; omega, fun j hj hb => ?_⟩
            have := h3 (j + 1) (by omega) (by simpa using hb)
            omega
    · -- no dot of the pin here
      have hw : (walkPin pin m last k (c :: rest)).1 = c :: (walkPin pin m last (k + 1) rest).1 := by
        simp only [walkPin, hc, if_false, Bool.false_eq_true]
      rw [hw]
      cases i with
      | zero => simp [hc]
      | succ i =>
        rw [List.getD_cons_succ, List.getD_cons_succ, ih]
        constructor
        · rintro ⟨h1, h2, h3⟩
          refine ⟨h1, fun x hx => by have := h2 x hx; omega, fun j hj hb => ?_⟩
          cases j with
          | zero => exact absurd hb hc
          | succ j => have := h3 j (by omega) (by simpa using hb); omega
        · rintro ⟨h1, h2, h3⟩
          refine ⟨h1, fun x hx => by have := h2 x hx; omega, fun j hj hb => ?_⟩
          have := h3 (j + 1) (by omega) (by simpa using hb)
          omega

/-- A column without one of its dots has one dot fewer. -/
theorem pinCount_clear {c : PinMask} {pin : Nat} (hp : pin < 18) (hc : c.getLsbD pin = true) :
    pinCount (c &&& ~~~(1#18 <<< pin)) + 1 = pinCount c := by
  have hmem : pin ∈ List.range 18 := List.mem_range.mpr hp
  have key : ∀ l : List Nat, l.Nodup → pin ∈ l →
      l.countP (fun i => (c &&& ~~~(1#18 <<< pin)).getLsbD i) + 1 = l.countP fun i => c.getLsbD i := by
    intro l
    induction l with
    | nil => simp
    | cons a rest ih =>
      intro hn ha
      obtain ⟨hna, hn⟩ := List.nodup_cons.mp hn
      rw [List.countP_cons, List.countP_cons, getLsbD_clear hp]
      by_cases hpa : a = pin
      · subst hpa
        have hrest : rest.countP (fun i => (c &&& ~~~(1#18 <<< a)).getLsbD i) =
            rest.countP fun i => c.getLsbD i := by
          refine List.countP_congr fun x hx => ?_
          have : x ≠ a := fun h => hna (h ▸ hx)
          simp [getLsbD_clear hp, this]
        rw [hrest, hc]
        simp
      · have := ih hn (by simpa [Ne.symm hpa] using ha)
        simp only [hpa, ne_eq, not_false_eq_true, decide_true, Bool.and_true]
        omega
  exact key _ List.nodup_range hmem

/-- What a walk removes it counts. -/
theorem walkPin_count {pin m : Nat} (hp : pin < 18) (last : Option Nat) (k : Nat) (cols : List PinMask) :
    (walkPin pin m last k cols).2 + ((walkPin pin m last k cols).1.map pinCount).sum = (cols.map pinCount).sum := by
  induction cols generalizing last k with
  | nil => rfl
  | cons c rest ih =>
    unfold walkPin
    split
    · rename_i hc
      split
      · have := ih last (k + 1)
        have := pinCount_clear hp hc
        simp only [List.map_cons, List.sum_cons]
        omega
      · have := ih (some k) (k + 1)
        simp only [List.map_cons, List.sum_cons]
        omega
    · have := ih last (k + 1)
      simp only [List.map_cons, List.sum_cons]
      omega

/-! ## Suppression (R76) -/

/-- The walks of the pins below `n`. -/
def suppressBelow (m n : Nat) (cols : List PinMask) : List PinMask × Nat :=
  (List.range n).foldl (fun acc pin =>
    let r := walkPin pin m none 0 acc.1
    (r.1, acc.2 + r.2)) (cols, 0)

theorem suppress_eq (m : Nat) (cols : List PinMask) : suppress m cols = suppressBelow m 18 cols := rfl

theorem suppressBelow_succ (m n : Nat) (cols : List PinMask) :
    suppressBelow m (n + 1) cols =
      ((walkPin n m none 0 (suppressBelow m n cols).1).1,
        (suppressBelow m n cols).2 + (walkPin n m none 0 (suppressBelow m n cols).1).2) := by
  simp [suppressBelow, List.range_succ]

theorem length_suppressBelow (m n : Nat) (cols : List PinMask) : (suppressBelow m n cols).1.length = cols.length := by
  induction n with
  | zero => rfl
  | succ n ih => rw [suppressBelow_succ, length_walkPin, ih]

/-- Pins whose walk is still to come are as they were. -/
theorem suppressBelow_other {m n q : Nat} (hn : n ≤ 18) (hq : n ≤ q) (cols : List PinMask) (i : Nat) :
    ((suppressBelow m n cols).1.getD i 0).getLsbD q = (cols.getD i 0).getLsbD q := by
  induction n with
  | zero => rfl
  | succ n ih => rw [suppressBelow_succ, walkPin_other (by omega) (by omega), ih (by omega) (by omega)]

theorem suppressBelow_kept {m n pin : Nat} (hn : n ≤ 18) (hp : pin < n) (cols : List PinMask) (i : Nat) :
    ((suppressBelow m n cols).1.getD i 0).getLsbD pin = true ↔ (cols.getD i 0).getLsbD pin = true ∧
      ∀ j < i, ((suppressBelow m n cols).1.getD j 0).getLsbD pin = true → j + m ≤ i := by
  induction n with
  | zero => omega
  | succ n ih =>
    rw [suppressBelow_succ]
    by_cases h : pin = n
    · subst h
      rw [walkPin_kept (by omega), suppressBelow_other (by omega) (Nat.le_refl _)]
      simp
    · simp only [walkPin_other (show n < 18 by omega) h]
      exact ih (by omega) (by omega)

theorem suppressBelow_count {m n : Nat} (hn : n ≤ 18) (cols : List PinMask) :
    (suppressBelow m n cols).2 + ((suppressBelow m n cols).1.map pinCount).sum = (cols.map pinCount).sum := by
  induction n with
  | zero => simp [suppressBelow]
  | succ n ih =>
    have := ih (by omega)
    have := walkPin_count (m := m) (show n < 18 by omega) none 0 (suppressBelow m n cols).1
    rw [suppressBelow_succ]
    simp only
    omega

theorem length_suppress (m : Nat) (cols : List PinMask) : (suppress m cols).1.length = cols.length :=
  length_suppressBelow m 18 cols

/-! ## The figures of an image (R63, R72, R77) -/

/-- The columns stored of a line (R72). -/
def storedColumns (inp : BuildInputs) : List PinMask :=
  (lineColumns inp).take (columnsThatFit inp.header.offset.toNat (clampStep inp.header.step.toNat))

theorem two_le_clampStep (v : Nat) : 2 ≤ clampStep v := by
  unfold clampStep
  split <;> (try split) <;> (try split) <;> omega

theorem length_buildResult_cols (inp : BuildInputs) :
    (buildResult inp).image.cols.length = (storedColumns inp).length := by
  simp only [buildResult]
  split
  · rfl
  · exact length_suppress _ _

/-- At most 3,264 columns fit in the window (R72). -/
theorem columnsThatFit_le {o st : Nat} (h : 2 ≤ st) : columnsThatFit o st ≤ 3264 := by
  unfold columnsThatFit
  split
  · have : (6527 - o) / st ≤ 6527 / 2 := Nat.div_le_div (by omega) h (by omega)
    omega
  · omega

/-- Settles O37: the measures are those of the stored columns, and the dark columns are a rising list of indices. -/
theorem imageMeasured : Obligations.ImageMeasured := by
  refine ⟨fun inp => ?_, fun cols => ⟨darkExtent_eq_none, fun a b h => darkExtent_eq_some h⟩⟩
  have hlen := length_buildResult_cols inp
  simp only [storedColumns, List.length_take] at hlen
  refine ⟨?_, ?_, ?_, ?_, rfl, rfl, rfl⟩
  · rw [hlen]
    rw [columnsThatFit, show (buildResult inp).image.step = clampStep inp.header.step.toNat from rfl]
    split <;> omega
  · have := columnsThatFit_le (o := inp.header.offset.toNat) (two_le_clampStep inp.header.step.toNat)
    rw [hlen]
    omega
  · rw [length_buildResult_cols]
    rfl
  · show clampStep inp.header.step.toNat = _
    generalize inp.header.step.toNat = v
    match v with
    | 0 | 1 | 2 | 3 | 4 => rfl
    | v + 5 =>
      have h2 : ¬v + 5 ≤ 2 := by omega
      simp [clampStep, h2]

/-- A finished image lies in the printable window, with a class and its own dark extent (R72, R73, R75). -/
theorem buildResult_sound {inp : BuildInputs} (hf : inp.floor ≤ 3) : (buildResult inp).image.sound := by
  refine ⟨fun k hk => ?_, ?_, rfl⟩
  · rw [length_buildResult_cols, storedColumns, List.length_take] at hk
    have hst := two_le_clampStep inp.header.step.toNat
    show inp.header.offset.toNat + k * clampStep inp.header.step.toNat ≤ 6527
    generalize clampStep inp.header.step.toNat = st at hk hst ⊢
    have hk : k < columnsThatFit inp.header.offset.toNat st := by omega
    unfold columnsThatFit at hk
    split at hk
    · have := (Nat.le_div_iff_mul_le (by omega)).mp (Nat.le_of_lt_succ hk)
      omega
    · omega
  · simp only [buildResult]
    split
    · rename_i a ha
      have := List.mem_range.mp (List.mem_of_find?_eq_some ha)
      simp only [clampClass]
      omega
    · omega

/-! ## The spacing of the dots (R74, R75) -/

/-- A condition on distances holds of a spacing; of an infinite one always. -/
def Meets (ok : Nat → Prop) (g : Option Nat) : Prop := ∀ d, g = some d → ok d

section
variable {ok : Nat → Prop} (hup : ∀ d e, d ≤ e → ok d → ok e)
include hup

theorem meets_minSpacing {a b : Option Nat} : Meets ok (minSpacing a b) ↔ Meets ok a ∧ Meets ok b := by
  cases a with
  | none => simp [minSpacing, Meets]
  | some a =>
    cases b with
    | none => simp [minSpacing, Meets]
    | some b =>
      simp only [minSpacing, Meets, Option.some.injEq, forall_eq']
      refine ⟨fun h => ⟨hup _ _ (Nat.min_le_left _ _) h, hup _ _ (Nat.min_le_right _ _) h⟩, fun ⟨ha, hb⟩ => ?_⟩
      rcases Nat.le_total a b with h | h
      · rwa [Nat.min_eq_left h]
      · rwa [Nat.min_eq_right h]

/-- The least distance of neighbours in a rising list is the least distance of any two. -/
theorem meets_leastGap {l : List Nat} (hl : l.Pairwise (· < ·)) :
    Meets ok (leastGap l) ↔ l.Pairwise fun i j => ok (j - i) := by
  induction l with
  | nil => simp [leastGap, Meets]
  | cons a rest ih =>
    obtain ⟨ha, hrest⟩ := List.pairwise_cons.mp hl
    cases rest with
    | nil => simp [leastGap, Meets]
    | cons b rest =>
      rw [leastGap, meets_minSpacing hup, ih hrest, List.pairwise_cons (a := a)]
      simp only [Meets, Option.some.injEq, forall_eq']
      refine and_congr_left fun _ => ⟨fun h x hx => hup _ _ ?_ h, fun h => h b List.mem_cons_self⟩
      have hb : b ≤ x := by
        obtain rfl | hx := List.mem_cons.mp hx
        · exact le_rfl
        · exact (List.rel_of_pairwise_cons hrest hx).le
      omega

theorem meets_foldl_minSpacing {f : Nat → Option Nat} (l : List Nat) (g : Option Nat) :
    Meets ok (l.foldl (fun g i => minSpacing g (f i)) g) ↔ Meets ok g ∧ ∀ i ∈ l, Meets ok (f i) := by
  induction l generalizing g with
  | nil => simp
  | cons a rest ih =>
    rw [List.foldl_cons, ih, meets_minSpacing hup]
    simp [and_assoc]

/-- The same-pin spacing stands for every two dots of one pin (R74). -/
theorem meets_samePinSpacing {cols : List PinMask} : Meets ok (samePinSpacing cols) ↔
    ∀ pin < 18, ∀ i j, i < j → (cols.getD i 0).getLsbD pin = true → (cols.getD j 0).getLsbD pin = true →
      ok (j - i) := by
  have dot : ∀ pin i, i ∈ indicesOf (·.getLsbD pin) 0 cols ↔ (cols.getD i 0).getLsbD pin = true := by
    intro pin i
    rw [mem_indicesOf]
    constructor
    · rintro ⟨j, hj, hi, ht⟩
      rw [Nat.zero_add] at hi
      subst hi
      simpa [hj] using ht
    · intro ht
      have hi : i < cols.length := by
        by_contra hn
        simp [List.getD_eq_getElem?_getD, List.getElem?_eq_none (Nat.le_of_not_lt hn)] at ht
      exact ⟨i, hi, by simp, by simpa [hi] using ht⟩
  have pair : ∀ pin, Meets ok (leastGap (indicesOf (·.getLsbD pin) 0 cols)) ↔
      ∀ i j, i < j → (cols.getD i 0).getLsbD pin = true → (cols.getD j 0).getLsbD pin = true → ok (j - i) := by
    intro pin
    have hrise := indicesOf_rises (·.getLsbD pin) 0 cols
    rw [meets_leastGap hup hrise]
    constructor
    · intro h i j hij hi hj
      have hi := (dot pin i).mpr hi
      have hj := (dot pin j).mpr hj
      obtain ⟨x, hx, rfl⟩ := List.mem_iff_getElem.mp hi
      obtain ⟨y, hy, rfl⟩ := List.mem_iff_getElem.mp hj
      refine List.pairwise_iff_getElem.mp h x y hx hy ?_
      by_contra hn
      rcases Nat.lt_or_eq_of_le (Nat.le_of_not_lt hn) with hlt | rfl
      · exact absurd (List.pairwise_iff_getElem.mp hrise y x hy hx hlt) (by omega)
      · omega
    · intro h
      exact hrise.imp_of_mem fun hi hj hij => h _ _ hij ((dot pin _).mp hi) ((dot pin _).mp hj)
  have hnone : Meets ok none := fun d h => by cases h
  unfold samePinSpacing
  rw [meets_foldl_minSpacing hup]
  simp only [List.mem_range, pair, hnone, true_and]

end

/-- A class is fast enough for the columns exactly when their dots lie apart at it (R75). -/
theorem classMeets_iff {inp : BuildInputs} {cols : List PinMask} {c : Nat} :
    classMeets inp (samePinSpacing cols) c = true ↔
      DotsApart cols inp.tRec (clampStep inp.header.step.toNat) (inp.cruises.getD c 0) := by
  have hup : ∀ d e, d ≤ e →
      inp.tRec ≤ d * clampStep inp.header.step.toNat * inp.cruises.getD c 0 →
      inp.tRec ≤ e * clampStep inp.header.step.toNat * inp.cruises.getD c 0 := fun d e hde h =>
    h.trans (Nat.mul_le_mul_right _ (Nat.mul_le_mul_right _ hde))
  rw [DotsApart, ← meets_samePinSpacing hup]
  unfold classMeets Meets
  cases samePinSpacing cols <;> simp

/-! ## The build class and the dots kept (R75, R76) -/

/-- The columns of an image where some class is fast enough, and where none is. -/
theorem buildResult_of_adjacency {inp : BuildInputs} {a : Nat}
    (h : adjacencyClass inp (samePinSpacing (storedColumns inp)) = some a) :
    (buildResult inp).image.cols = storedColumns inp ∧ (buildResult inp).suppressed = 0 ∧
      (buildResult inp).image.cls = max (min 3 inp.header.classReq.toNat) (max inp.floor a) := by
  unfold storedColumns at h
  simp only [buildResult, h, storedColumns, clampClass, true_and]

theorem buildResult_of_none {inp : BuildInputs}
    (h : adjacencyClass inp (samePinSpacing (storedColumns inp)) = none) :
    let m := ceilDiv inp.tRec (clampStep inp.header.step.toNat * inp.cruises.getD 3 0)
    (buildResult inp).image.cols = (suppress m (storedColumns inp)).1 ∧
      (buildResult inp).suppressed = (suppress m (storedColumns inp)).2 ∧ (buildResult inp).image.cls = 3 := by
  unfold storedColumns at h
  simp only [buildResult, h, storedColumns, and_self]

/-- Dots that lie `m` columns apart lie t_rec apart in time at the slowest cruise (R76). -/
theorem tRec_le_of_columns {tRec st t d : Nat} (h : 0 < st * t) (hd : ceilDiv tRec (st * t) ≤ d) :
    tRec ≤ d * st * t := by
  rw [Nat.mul_assoc]
  refine le_trans ?_ (Nat.mul_le_mul_right _ hd)
  have := Nat.lt_div_mul_add (a := tRec + st * t - 1) h
  unfold ceilDiv
  omega

/-- Settles O38: the class is found by the spacing of the stored dots; where none is found, the walks leave each pin's
dots `m` columns apart. -/
theorem builtDotsRecover : Obligations.BuiltDotsRecover := by
  intro inp hmono hslow hfloor r img stored apart
  have hstored : stored = storedColumns inp := by
    show (lineColumns inp).take (buildResult inp).image.cols.length = storedColumns inp
    rw [length_buildResult_cols, storedColumns, List.length_take]
    exact (List.take_eq_take_min ..).symm
  have hmeets : ∀ c, apart c ↔ classMeets inp (samePinSpacing (storedColumns inp)) c = true := fun c => by
    rw [classMeets_iff]
    show DotsApart stored _ _ _ ↔ _
    rw [hstored]
    rfl
  refine ⟨(buildResult_sound hfloor).2.1, ?_⟩
  cases hadj : adjacencyClass inp (samePinSpacing (storedColumns inp)) with
  | some a =>
    obtain ⟨hcols, hsup, hcls⟩ := buildResult_of_adjacency hadj
    obtain ⟨ha, hleast⟩ : apart a ∧ ∀ d < a, ¬apart d := by
      simp only [adjacencyClass, List.find?_range_eq_some] at hadj
      exact ⟨(hmeets a).mpr hadj.1, fun d hd h => by simpa [(hmeets d).mp h] using hadj.2.2 d hd⟩
    have ha3 : a < 4 := List.mem_range.mp (List.mem_of_find?_eq_some hadj)
    refine ⟨fun c hc hc3 pin hp i j hij hi hj => ?_, fun c hc3 hc hnone => ?_, fun h => ?_⟩
    · have hac : a ≤ c := by
        change (buildResult inp).image.cls ≤ c at hc
        omega
      rw [show img.cols = stored from hcols.trans hstored.symm] at hi hj
      exact (ha pin hp i j hij hi hj).trans (Nat.mul_le_mul_left _ (hmono a c hac (by omega)))
    · have : c = a := by
        rcases Nat.lt_trichotomy c a with h | h | h
        · exact absurd hc (hleast c h)
        · exact h
        · exact absurd ha (hnone a h)
      subst this
      exact ⟨hcols.trans hstored.symm, hsup, hcls⟩
    · exact absurd ha (h a (by omega))
  | none =>
    obtain ⟨hcols, hsup, hcls⟩ := buildResult_of_none hadj
    have hpos : 0 < clampStep inp.header.step.toNat * inp.cruises.getD 3 0 :=
      Nat.mul_pos (by have := two_le_clampStep inp.header.step.toNat; omega) hslow
    have hno : ∀ c, c ≤ 3 → ¬apart c := fun c hc h => by
      have := List.find?_eq_none.mp hadj c (List.mem_range.mpr (by omega))
      exact this ((hmeets c).mp h)
    have hkept : ∀ pin < 18, ∀ i, (img.cols.getD i 0).getLsbD pin = true ↔ (stored.getD i 0).getLsbD pin = true ∧
        ∀ j < i, (img.cols.getD j 0).getLsbD pin = true →
          j + ceilDiv inp.tRec (clampStep inp.header.step.toNat * inp.cruises.getD 3 0) ≤ i := fun pin hp i => by
      rw [show img.cols = _ from hcols, hstored]
      exact suppressBelow_kept (le_refl 18) hp _ i
    refine ⟨fun c hc hc3 pin hp i j hij hi hj => ?_, fun c hc3 hc => absurd hc (hno c hc3), fun _ => ?_⟩
    · obtain rfl : c = 3 := by
        change (buildResult inp).image.cls ≤ c at hc
        omega
      have := ((hkept pin hp j).mp hj).2 i hij hi
      exact tRec_le_of_columns hpos (Nat.le_sub_of_add_le (by rwa [Nat.add_comm]))
    · refine ⟨hcls, ?_, hkept⟩
      rw [show r.suppressed = _ from hsup, show img.cols = _ from hcols, hstored]
      exact suppressBelow_count (le_refl 18) _

end Sys2Proof.Machine
end

