-- ==== Sys2Proof/Proofs/Runs.lean ====
section
/-! PROOFS. From runs to columns (04_building_the_column_image.md, 4.3). -/

namespace Sys2Proof.Machine

/-! ## The columns of a part -/

/-- The columns of a part do not hang on the fuel, once it covers the part's bytes. -/
theorem partColumns_fuel (inp : BuildInputs) {n m : Nat} {bytes : List Byte} (hn : bytes.length ≤ n)
    (hm : bytes.length ≤ m) : partColumns inp n bytes = partColumns inp m bytes := by
  induction n generalizing m bytes with
  | zero =>
    obtain rfl := List.eq_nil_of_length_eq_zero (Nat.le_zero.mp hn)
    cases m <;> rfl
  | succ n ih =>
    cases bytes with
    | nil => cases m <;> rfl
    | cons t rest =>
      obtain ⟨m, rfl⟩ : ∃ k, m = k + 1 := ⟨m - 1, by simp at hm; omega⟩
      simp only [List.length_cons, Nat.add_le_add_iff_right] at hn hm
      have tail : ∀ k (l : List Byte), l.length ≤ rest.length → partColumns inp n (l.drop k) = partColumns inp m (l.drop k) :=
        fun k l hl => ih (by simp; omega) (by simp; omega)
      unfold partColumns
      dsimp only
      split
      · split
        · rw [tail _ _ (by simp; omega)]
        · rfl
      · split
        · split
          · rw [tail _ _ (by simp; omega)]
          · rfl
        · split
          · split
            · rename_i more
              rw [show partColumns inp n more = partColumns inp m more from tail 0 more (by simp; omega)]
            · rfl
          · rfl

/-- The glyphs of a line do not hang on its parts, so the columns of one part do not hang on the others. -/
theorem partColumns_parts (inp : BuildInputs) (ps : List (List Byte)) (n : Nat) (bytes : List Byte) :
    partColumns { inp with parts := ps } n bytes = partColumns inp n bytes := by
  induction n generalizing bytes with
  | zero => rfl
  | succ n ih =>
    unfold partColumns
    simp only [ih]
    rfl

theorem lineColumns_parts (inp : BuildInputs) (ps : List (List Byte)) :
    lineColumns { inp with parts := ps } = ps.flatMap fun p => partColumns inp p.length p := by
  simp only [lineColumns, partColumns_parts]

/-! ## Characters (R66 to R68) -/

theorem plainColumns_eq (p : Page) : plainColumns p = (List.range (byteAt p 0)).map (advanceColumn p) := by
  refine List.map_congr_left fun i hi => ?_
  have hi := List.mem_range.mp hi
  simp only [glyphColumn, advanceColumn, hi, true_and]
  rfl

theorem doubleColumns_range (f : Nat → PinMask) (n : Nat) :
    doubleColumns ((List.range n).map f) = (List.range (2 * n)).map fun i => f (i / 2) := by
  induction n with
  | zero => rfl
  | succ n ih =>
    have h : doubleColumns ((List.range (n + 1)).map f) = doubleColumns ((List.range n).map f) ++ [f n, f n] := by
      simp [doubleColumns, List.range_succ]
    rw [h, ih, show 2 * (n + 1) = 2 * n + 1 + 1 by omega, List.range_succ, List.range_succ]
    simp [show (2 * n + 1) / 2 = n by omega]

theorem boldColumns_range (f : Nat → PinMask) (n : Nat) :
    boldColumns ((List.range n).map f) = (List.range n).map fun i => f i ||| if 0 < i then f (i - 1) else 0 := by
  cases n with
  | zero => rfl
  | succ n =>
    rw [List.range_succ_eq_map]
    simp only [List.map_cons, List.map_map, boldColumns]
    congr 1
    · simp
    · refine List.ext_getElem (by simp) fun i h1 h2 => ?_
      cases i with
      | zero => simp
      | succ i => simp

/-- The columns of a character are those of the spec, column by column. -/
theorem charColumns_eq (attr : Byte) (gap : Nat) (p : Page) :
    charColumns (attr.getLsbD 0) (attr.getLsbD 1) (attr.getLsbD 2) gap p = characterColumns attr gap p := by
  obtain ⟨n, base, hn, hd⟩ : ∃ n base,
      characterColumns attr gap p = (List.range (n + gap)).map (fun i =>
        (if i < n then base i ||| (if attr.getLsbD 1 = true ∧ 0 < i then base (i - 1) else 0) else 0) |||
          (if attr.getLsbD 0 then underlinePin else 0)) ∧
      (if attr.getLsbD 2 then doubleColumns (plainColumns p) else plainColumns p) = (List.range n).map base := by
    refine ⟨_, _, rfl, ?_⟩
    split
    · rw [plainColumns_eq, doubleColumns_range]
    · exact plainColumns_eq p
  have hb : (if attr.getLsbD 1 then boldColumns ((List.range n).map base) else (List.range n).map base) =
      (List.range n).map fun i => base i ||| if attr.getLsbD 1 = true ∧ 0 < i then base (i - 1) else 0 := by
    split
    · rename_i h
      simp only [boldColumns_range, h, true_and]
    · rename_i h
      simp only [h]
      exact List.map_congr_left fun i _ => (BitVec.or_zero).symm
  have hg : ∀ f : Nat → PinMask, (List.range n).map f ++ List.replicate gap 0 =
      (List.range (n + gap)).map fun i => if i < n then f i else 0 := by
    intro f
    refine List.ext_getElem (by simp) fun i h1 h2 => ?_
    rw [List.getElem_append]
    simp
  rw [hn]
  simp only [charColumns, hd, hb, hg]
  split <;> simp

/-! ## Masks (R69) -/

theorem byteAt_cons_succ (a : Byte) (p : List Byte) (i : Nat) : byteAt (a :: p) (i + 1) = byteAt p i := rfl

theorem fieldAt_cons_succ (a : Byte) (p : List Byte) (i n : Nat) : fieldAt (a :: p) (i + 1) n = fieldAt p i n := by
  induction n generalizing i with
  | zero => rfl
  | succ n ih => simp only [fieldAt, byteAt_cons_succ, ih]

theorem masksOf_eq (bytes : List Byte) :
    masksOf bytes = (List.range (bytes.length / 3)).map fun k => BitVec.ofNat 18 (fieldAt bytes (3 * k) 3) := by
  fun_induction masksOf bytes with
  | case1 a b c rest ih =>
    have hl : (a :: b :: c :: rest).length / 3 = rest.length / 3 + 1 := by
      simp only [List.length_cons]
      omega
    rw [hl, List.range_succ_eq_map, ih]
    simp only [List.map_cons, List.map_map]
    refine congrArg (_ :: ·) (List.map_congr_left fun k _ => ?_)
    show _ = BitVec.ofNat 18 (fieldAt _ (3 * (k + 1)) 3)
    rw [show 3 * (k + 1) = 3 * k + 1 + 1 + 1 by omega, fieldAt_cons_succ, fieldAt_cons_succ, fieldAt_cons_succ]
  | case2 bytes h =>
    have hl : bytes.length / 3 = 0 := by
      match bytes, h with
      | [], _ | [_], _ | [_, _], _ => simp
      | a :: b :: c :: rest, h => exact absurd rfl (h a b c rest)
    rw [hl]
    rfl

/-! ## The runs of a part (R64 to R71) -/

section
variable (inp : BuildInputs)

/-- The columns of a part whose fuel is its length. -/
def columnsOf (p : List Byte) : List PinMask := partColumns inp p.length p

theorem columnsOf_text (set attr gap n1 n0 : Byte) (codes : List Byte) :
    columnsOf inp (1 :: set :: attr :: gap :: n1 :: n0 :: codes) =
      ((codes.take (n1.toNat * 256 + n0.toNat)).flatMap fun c =>
        characterColumns attr (min 7 gap.toNat) (glyphOfCode inp (min 3 set.toNat) c.toNat)) ++
      columnsOf inp (codes.drop (n1.toNat * 256 + n0.toNat)) := by
  unfold columnsOf
  rw [List.length_cons, partColumns]
  simp only [if_true, charColumns_eq]
  rw [partColumns_fuel inp (m := (codes.drop (n1.toNat * 256 + n0.toNat)).length) (by simp; omega) le_rfl]
  rfl

theorem columnsOf_graphics (n1 n0 : Byte) (masks : List Byte) :
    columnsOf inp (2 :: n1 :: n0 :: masks) =
      masksOf (masks.take (3 * (n1.toNat * 256 + n0.toNat))) ++
      columnsOf inp (masks.drop (3 * (n1.toNat * 256 + n0.toNat))) := by
  show masksOf (masks.take (3 * (n1.toNat * 256 + n0.toNat))) ++
    partColumns inp (masks.length + 2) (masks.drop (3 * (n1.toNat * 256 + n0.toNat))) = _
  rw [partColumns_fuel inp (m := (masks.drop (3 * (n1.toNat * 256 + n0.toNat))).length) (by simp; omega) le_rfl]
  rfl

theorem columnsOf_skip (n1 n0 : Byte) (more : List Byte) :
    columnsOf inp (3 :: n1 :: n0 :: more) = List.replicate (n1.toNat * 256 + n0.toNat) 0 ++ columnsOf inp more := by
  show List.replicate (n1.toNat * 256 + n0.toNat) 0 ++ partColumns inp (more.length + 2) more = _
  rw [partColumns_fuel inp (m := more.length) (by omega) le_rfl]
  rfl

theorem columnsOf_short_text {rest : List Byte} (h : rest.length < 5) : columnsOf inp (1 :: rest) = [] := by
  match rest, h with
  | [], _ | [_], _ | [_, _], _ | [_, _, _], _ | [_, _, _, _], _ => rfl

theorem columnsOf_short {t : Byte} (ht : t = 2 ∨ t = 3) {rest : List Byte} (h : rest.length < 2) :
    columnsOf inp (t :: rest) = [] := by
  match rest, h with
  | [], _ | [_], _ => obtain rfl | rfl := ht <;> rfl

theorem columnsOf_unknown {t : Byte} (h1 : t ≠ 1) (h2 : t ≠ 2) (h3 : t ≠ 3) (rest : List Byte) :
    columnsOf inp (t :: rest) = [] := by
  show (if t = 1 then _ else if t = 2 then _ else if t = 3 then _ else []) = _
  simp only [h1, h2, h3, if_false]

end

/-- Settles O35: the columns of each run, one lemma a run type, and those of the rest of its part. -/
theorem runsMakeColumns : Obligations.RunsMakeColumns := by
  intro inp columns
  have hcol : ∀ ps, columns ps = ps.flatMap (columnsOf inp) := lineColumns_parts inp
  have hone : ∀ p, columns [p] = columnsOf inp p := fun p => by rw [hcol]; simp
  refine ⟨rfl, rfl, fun p ps => by simp [hcol], fun set attr gap n1 n0 codes more => ⟨fun h => ?_, fun h => ?_⟩,
    fun n1 n0 masks more => ⟨fun h => ?_, fun h => ?_⟩, fun n1 n0 more => ?_,
    fun rest h => (hone _).trans (columnsOf_short_text inp h),
    fun rest h => ⟨(hone _).trans (columnsOf_short inp (.inl rfl) h), (hone _).trans (columnsOf_short inp (.inr rfl) h)⟩,
    fun t rest h1 h2 h3 => (hone _).trans (columnsOf_unknown inp h1 h2 h3 rest)⟩
  · rw [hone, hone, columnsOf_text, Nat.mul_comm, ← h, List.take_left, List.drop_left]
  · rw [hone, columnsOf_text, Nat.mul_comm, List.take_of_length_le h.le, List.drop_of_length_le h.le]
    exact List.append_nil _
  · rw [hone, hone, columnsOf_graphics, Nat.mul_comm n1.toNat, ← h, List.take_left, List.drop_left, masksOf_eq]
  · rw [hone, columnsOf_graphics, Nat.mul_comm n1.toNat, List.take_of_length_le h.le, List.drop_of_length_le h.le,
      masksOf_eq]
    exact List.append_nil _
  · rw [hone, hone, columnsOf_skip, Nat.mul_comm]

end Sys2Proof.Machine
end

