-- ==== Sys2Proof/Proofs/Travel.lean ====
section
/-! PROOFS. The carriage stays where its motion state allows, and every finished image in the printable window
(05_pass_planning_and_fire_positions.md, 5.7; 06_carriage_motion.md, 6.6). -/

namespace Sys2Proof.Machine

/-! ## What leaves the carriage and the images alone -/

/-- What the law of the column buffers asks of one of them. -/
def Buffer.sound : Buffer → Prop
  | .free => True
  | .filling inp => inp.floor ≤ 3
  | .ready img => img.sound
  | .inUse img => img.sound

theorem buffersSound_iff {b : Buffers} : BuffersSound b ↔ ∀ i, (b.get i).sound :=
  forall_congr' fun i => by cases b.get i <;> rfl

theorem BuffersSound.get {b : Buffers} (h : BuffersSound b) (i : BufId) : (b.get i).sound := buffersSound_iff.mp h i

theorem BuffersSound.set {b : Buffers} (h : BuffersSound b) {i : BufId} {v : Buffer} (hv : v.sound) :
    BuffersSound (b.set i v) := by
  rw [buffersSound_iff] at h ⊢
  intro j
  by_cases hj : i = j
  · subst hj
    rwa [Buffers.get_set_self]
  · rw [Buffers.get_set_of_ne _ _ hj]
    exact h j

theorem BuffersSound.freed {b : Buffers} (h : BuffersSound b) (e : Entry) : BuffersSound (freeBufferOf e b) := by
  unfold freeBufferOf
  split
  · exact h.set trivial
  · exact h

/-- The carriage is the same, and the images and inputs in the column buffers stay sound. -/
structure Steady (s t : State) : Prop where
  carriage : t.carriage = s.carriage
  buffers  : BuffersSound s.buffers → BuffersSound t.buffers

theorem Steady.refl (s : State) : Steady s s := ⟨rfl, id⟩

theorem Steady.trans {s t u : State} (h : Steady s t) (k : Steady t u) : Steady s u :=
  ⟨k.carriage.trans h.carriage, k.buffers ∘ h.buffers⟩

theorem Steady.of_apart {s t : State} (h : Apart s t) (hc : t.carriage = s.carriage) : Steady s t :=
  ⟨hc, by rw [h.buffers]; exact id⟩

theorem Steady.of_eq {s t : State} (hc : t.carriage = s.carriage) (hb : t.buffers = s.buffers) : Steady s t :=
  ⟨hc, by rw [hb]; exact id⟩

theorem updIntake_steady (f : Intake → Intake) (s : State) : Steady s (s.updIntake f) := .of_eq rfl rfl
theorem updQueue_steady (f : Queue → Queue) (s : State) : Steady s (s.updQueue f) := .of_eq rfl rfl
theorem updSettings_steady (f : Settings → Settings) (s : State) : Steady s (s.updSettings f) := .of_eq rfl rfl
theorem updFiring_steady (f : Firing → Firing) (s : State) : Steady s (s.updFiring f) := .of_eq rfl rfl
theorem updHeat_steady (f : Heat → Heat) (s : State) : Steady s (s.updHeat f) := .of_eq rfl rfl
theorem updForms_steady (f : Forms → Forms) (s : State) : Steady s (s.updForms f) := .of_eq rfl rfl
theorem updRun_steady (f : RunControl → RunControl) (s : State) : Steady s (s.updRun f) := .of_eq rfl rfl
theorem setStage_steady (g : Stage) (s : State) : Steady s (s.setStage g) := .of_eq rfl rfl
theorem latch_steady (c : Cause) (s : State) : Steady s (latch c s) := .of_eq rfl rfl
theorem setWait_steady (r : WaitReason) (s : State) : Steady s (setWait r s) := .of_eq rfl rfl
theorem setInHand_steady (x : Option InHand) (s : State) : Steady s (setInHand x s) := .of_eq rfl rfl

theorem latchIf_steady (b : Bool) (c : Cause) (s : State) : Steady s (latchIf b c s) := by
  unfold latchIf
  split
  · exact latch_steady c s
  · exact .refl s

theorem updBuffers_steady {f : Buffers → Buffers} {s : State} (h : BuffersSound s.buffers → BuffersSound (f s.buffers)) :
    Steady s (s.updBuffers f) := ⟨rfl, h⟩

/-! ### The Line Queue -/

theorem removeAt_steady (i : Nat) (s : State) : Steady s (removeAt i s) := by
  unfold removeAt
  split
  · exact (updBuffers_steady fun h => h.freed _).trans (updQueue_steady _ _)
  · exact .refl s

theorem removed_steady (i : Nat) (s : State) : Steady s (latchDrained (removeAt i s)) :=
  (removeAt_steady i s).trans (latchIf_steady _ _ _)

theorem removeFront_steady (s : State) : Steady s (removeFront s) := by
  unfold removeFront
  split
  · exact removed_steady _ s
  · exact .refl s

theorem finishEntry_steady (s : State) : Steady s (finishEntry s) :=
  ⟨(removeFront_steady s).carriage, (removeFront_steady s).buffers⟩

theorem makeLive_steady (id : TableId) (page : Nat) (p : Page) (s : State) : Steady s (makeLive id page p s) := by
  unfold makeLive
  cases id with
  | profile =>
    dsimp only
    split <;> exact .of_eq rfl rfl
  | codeMap | glyphs | strike => exact .of_eq rfl rfl

theorem applyCommit_steady (id : TableId) (page : Nat) (s : State) : Steady s (applyCommit id page s) :=
  (makeLive_steady _ _ _ s).trans (setStage_steady _ _)

theorem builderStep_steady {s t : State} (hs : SettingsSound s.settings) (h : builderStep s = some t) : Steady s t := by
  unfold builderStep at h
  dsimp only at h
  split at h
  case h_12 =>
    rename_i hd parts _
    obtain ⟨b, _, rfl⟩ := Option.map_eq_some_iff.mp h
    obtain ⟨-, -, hfloor, -⟩ := hs
    have hv : (Buffer.filling (readBuildInputs hd parts s)).sound := hfloor
    exact (updBuffers_steady (f := fun bs => bs.set b _) fun k => k.set hv).trans (.of_eq rfl rfl)
  all_goals cases h
  · exact (applyCommit_steady _ _ s).trans (removed_steady _ _)
  · exact (applyCommit_steady _ _ s).trans (removed_steady _ _)
  · exact updQueue_steady _ s
  · exact (updSettings_steady _ s).trans (removed_steady _ _)
  · exact (updSettings_steady _ s).trans ((updQueue_steady _ _).trans (updQueue_steady _ _))
  all_goals exact updQueue_steady _ s

theorem discardOpen_steady (s : State) : Steady s (discardOpen s) := by
  unfold discardOpen
  dsimp only
  have h := (removeAt_steady (s.queue.entries.length - 1) s).trans (latch_steady .SQ _)
  split
  · exact h.trans (updRun_steady _ _)
  · exact h

theorem discardOpenTail_steady (s : State) : Steady s (discardOpenTail s) := by
  unfold discardOpenTail
  split
  · exact discardOpen_steady s
  · exact .refl s

theorem admitEntry_steady (e : Entry) (s : State) : Steady s (admitEntry e s) :=
  .of_eq rfl rfl

theorem offerEntry_steady (e : Entry) (s : State) : Steady s (offerEntry e s).state := by
  unfold offerEntry
  split
  · exact admitEntry_steady e s
  · exact .refl s

theorem offerRecord_steady (r : QRecord) (s : State) : Steady s (offerRecord r s).state := by
  cases r with
  | lineFirst h more runs =>
    refine (discardOpenTail_steady s).trans ?_
    simp only [offerRecord, offerFirst]
    split
    · exact admitEntry_steady _ _
    · exact .refl _
  | lineCont more runs =>
    simp only [offerRecord, offerContinuation]
    split
    · exact latch_steady _ s
    split
    · exact discardOpen_steady s
    split
    · exact .refl s
    · exact .of_eq rfl rfl
  | commit table page =>
    refine (discardOpenTail_steady s).trans ?_
    simp only [offerRecord, offerCommit]
    split
    · split
      · exact (setStage_steady _ _).trans (admitEntry_steady _ _)
      · exact latch_steady _ _
    · exact .refl _
  | set f =>
    refine (discardOpenTail_steady s).trans ?_
    simp only [offerRecord, offerSet]
    split
    · exact .of_eq rfl rfl
    · exact offerEntry_steady _ _
  | advance | form | geometry => exact (discardOpenTail_steady s).trans (offerEntry_steady _ _)

theorem offerStep_steady {s t : State} (h : offerStep s = some t) : Steady s t := by
  unfold offerStep at h
  split at h
  · cases h
  rename_i r rest _
  have hr := offerRecord_steady r s
  split at h
  · rename_i u hu
    cases h
    rw [hu] at hr
    exact hr.trans (updIntake_steady _ _)
  · rename_i u hu
    rw [hu] at hr
    split at h
    · cases h
      exact hr
    · cases h

/-! ### The Forms Drive and reports -/

theorem startStep_steady (s : State) : Steady s (startStep s) := by
  unfold startStep
  split
  · split
    · exact updForms_steady _ s
    · exact .refl s
  · exact .refl s

theorem beginFeed_steady (p : Purpose) (d : FeedDir) (n : Nat) (s : State) : Steady s (beginFeed p d n s) :=
  (updForms_steady _ s).trans (startStep_steady _)

theorem eject_steady (r : Nat) (s : State) : Steady s (eject r s) :=
  ((updForms_steady _ s).trans (latch_steady _ _)).trans (beginFeed_steady _ _ _ _)

theorem resetPaper_steady (s : State) : Steady s (resetPaper s) := by
  unfold resetPaper
  split
  · exact updForms_steady _ s
  · exact updForms_steady _ s
  · exact updForms_steady _ s
  · exact updForms_steady _ s
  · exact (updForms_steady _ s).trans (beginFeed_steady _ _ _ _)
  · exact beginFeed_steady _ _ _ s
  · exact .refl s

theorem resetForms_steady (s : State) : Steady s (resetForms s) := by
  unfold resetForms
  refine (updForms_steady (fun g => { g with paperRequest := false }) s).trans ?_
  dsimp only
  split
  · split
    · exact resetPaper_steady _
    · split
      · exact .refl _
      · exact updForms_steady _ _
  · exact resetPaper_steady _

theorem abandonFeed_steady (test : Purpose → Bool) (s : State) : Steady s (abandonFeed test s) := by
  unfold abandonFeed
  split
  · split
    · split <;> exact updForms_steady _ s
    · exact .refl s
  · exact .refl s

theorem cutLoading_steady (s : State) : Steady s (cutLoading s) := by
  unfold cutLoading
  split
  · split <;> exact .of_eq rfl rfl
  · exact .of_eq rfl rfl

theorem applyGeometry_steady (d : Byte) (g e : BitVec 16) (r : Byte) (s : State) :
    Steady s (applyGeometry d g e r s) := by
  unfold applyGeometry
  split <;> exact .of_eq rfl rfl

theorem feedComplete_steady (p : Purpose) (s : State) : Steady s (feedComplete p s) := by
  unfold feedComplete
  split
  · exact finishEntry_steady s
  · exact setInHand_steady _ s
  · exact finishEntry_steady s
  · exact finishEntry_steady s
  · exact setInHand_steady _ s
  · exact .refl s

theorem tearEnded_steady (s : State) : Steady s (tearEnded s) := by
  unfold tearEnded
  split
  · exact finishEntry_steady s
  · exact .refl s

theorem feedEnds_steady {s t : State} (h : feedEnds s = some t) : Steady s t := by
  unfold feedEnds at h
  split at h
  · split at h
    · cases h
      unfold endFeed
      split
      · exact (updForms_steady _ s).trans (tearEnded_steady _)
      · exact updForms_steady _ s
      · split <;> exact .of_eq rfl rfl
      · exact .of_eq rfl rfl
      · exact (updForms_steady _ s).trans (feedComplete_steady _ _)
    · cases h
  · cases h

theorem tailReached_steady (f : Feed) (s : State) : Steady s (tailReached f s) := by
  unfold tailReached
  dsimp only
  refine (eject_steady 0 s).trans ?_
  split
  · split
    · exact tearEnded_steady _
    · exact feedComplete_steady _ _
  · exact .refl _

theorem runStopped_steady (s : State) : Steady s (runStopped s) := by
  unfold runStopped
  split
  · exact setInHand_steady _ s
  · exact finishEntry_steady s
  · exact setInHand_steady _ s
  · exact .refl s

theorem lastFireDone_steady (s : State) : Steady s (lastFireDone s) := by
  unfold lastFireDone
  split
  · exact beginFeed_steady _ _ _ s
  · exact .refl s

theorem reportLastFire_steady (s : State) : Steady s (reportLastFire s) := by
  unfold reportLastFire
  split
  · exact (updFiring_steady _ s).trans (lastFireDone_steady _)
  · exact .refl s

theorem homingComplete_steady (s : State) : Steady s (homingComplete s) := by
  unfold homingComplete
  split
  · exact updRun_steady _ s
  · exact .refl s

theorem offerArrival_steady (s : State) : Steady s (offerArrival s) := by
  refine .of_apart (offerArrival_apart s) ?_
  have hl : ∀ (b : Bool) (c : Cause) (u : State), (latchIf b c u).carriage = u.carriage := fun b c u =>
    (latchIf_steady b c u).carriage
  unfold offerArrival
  split
  · split
    · split
      · unfold handEntry
        dsimp only
        split
        · split <;> simp only [fireEntry, State.updFiring_carriage, State.updHeat_carriage, hl,
            State.updPlanner_carriage]
        · rfl
      · rfl
    · rfl
  · rfl

theorem endPulse_steady (i : Nat) (p : Pulse) (faults : PinMask) (s : State) : Steady s (endPulse i p faults s) :=
  (updFiring_steady _ s).trans (latchIf_steady _ _ _)

theorem discardActive_steady (s : State) : Steady s (discardActive s) :=
  have h : Steady (removeFront s) ((forgetDirection (removeFront s)).updHeat fun h => { h with hold := false }) :=
    .of_eq rfl rfl
  (((removeFront_steady s).trans h).trans (abandonFeed_steady _ _)).trans (.of_eq rfl rfl)

theorem faultStop_steady (s : State) : Steady s (faultStop s) := by
  unfold faultStop
  split
  · exact .refl s
  · dsimp only
    refine (updRun_steady (fun c => { c with executor := .faultStop, reason := .none }) s).trans ?_
    split
    · exact discardActive_steady _
    · exact discardActive_steady _
    · exact discardActive_steady _
    · exact .refl _
    · exact .of_eq rfl rfl

/-! ## Pass starts -/

/-- A run through the checks leaves the carriage alone, or starts the pass of the ACTIVE line from rest. -/
theorem runChecks_travel (first : Bool) (s : State) : Steady s (runChecks first s) ∨
    ∃ h img p, s.carriage = { position := some p, drive := .stopped } ∧ activeImage s = some img ∧
      runChecks first s = startPass first h img p s := by
  unfold runChecks
  dsimp only
  split
  · exact .inl (setInHand_steady _ s)
  split
  · exact .inl (.of_eq rfl rfl)
  split
  · exact .inl (.of_eq rfl rfl)
  split
  · rename_i p hd hp
    split
    · exact .inl ((beginFeed_steady _ _ _ s).trans (.of_eq rfl rfl))
    split
    · exact .inl ((eject_steady _ s).trans (.of_eq rfl rfl))
    split
    · exact .inl (.of_eq rfl rfl)
    split
    · rename_i h img _ himg
      exact .inr ⟨h, img, p, by rw [← hd, ← hp], himg, rfl⟩
    · exact .inl (setInHand_steady _ s)
  · exact .inl (.of_eq rfl rfl)

theorem activateLine_steady (i : Nat) (h : LineHeader) (parts : List (List Byte)) (b : BufId) (s : State) :
    Steady s (activateLine i h parts b s) := by
  unfold activateLine
  split
  · rename_i img hb
    refine (updBuffers_steady (f := fun bs => bs.set b (.inUse img)) fun k => k.set ?_).trans (.of_eq rfl rfl)
    have := k.get b
    rwa [hb] at this
  · exact .refl s

theorem takeUp_steady (i : Nat) (e : Entry) (s : State) : Steady s (takeUp i e s) := by
  unfold takeUp
  dsimp only
  split
  · exact (applyCommit_steady _ _ s).trans (removed_steady _ _)
  · rename_i build p
    have h : Steady s ((s.updSettings (applyPassSettings p)).updHeat (applyThresholds p)) := .of_eq rfl rfl
    split
    · exact h.trans (removed_steady _ _)
    · exact h.trans (updQueue_steady _ _)
  · exact .refl s
  all_goals exact .of_eq rfl rfl

theorem takeUpStep_steady {s t : State} (h : takeUpStep s = some t) : Steady s t := by
  unfold takeUpStep at h
  split at h
  · split at h
    · cases h
      exact takeUp_steady _ _ s
    · cases h
  · cases h

theorem advanceStep_steady {m : AdvanceMode} {c : BitVec 16} {s t : State} (h : advanceStep m c s = some t) :
    Steady s t := by
  unfold advanceStep at h
  dsimp only at h
  split at h
  · split at h
    · cases h
      exact ((updForms_steady _ s).trans (beginFeed_steady _ _ _ _)).trans (.of_eq rfl rfl)
    split at h
    · cases h
      exact finishEntry_steady s
    split at h
    · cases h
      exact .of_eq rfl rfl
    · cases h
  · split at h
    · cases h
      exact (beginFeed_steady _ _ _ s).trans (.of_eq rfl rfl)
    · cases h

/-- An entry in hand goes on without moving the carriage, or by a run through the checks of its pass start. -/
theorem carryOut_travel {x : InHand} {s t : State} (h : carryOut x s = some t) :
    Steady s t ∨ ∃ first n, x = .lineDue first n ∧ t = runChecks first s := by
  unfold carryOut at h
  split at h
  · obtain ⟨i, -, rfl⟩ := Option.map_eq_some_iff.mp h
    exact .inl (activateLine_steady _ _ _ _ s)
  · split at h
    · cases h
      exact .inl ((updForms_steady _ s).trans (finishEntry_steady _))
    · cases h
  · split at h
    · cases h
      exact .inl ((applyGeometry_steady _ _ _ _ s).trans (finishEntry_steady _))
    · cases h
  · exact .inl (advanceStep_steady h)
  · split at h
    · cases h
      exact .inl ((beginFeed_steady _ _ _ s).trans (.of_eq rfl rfl))
    · cases h
  · split at h
    · cases h
      exact .inr ⟨_, _, rfl, rfl⟩
    · cases h
  · cases h

theorem requestStep_steady {s t : State} (h : requestStep s = some t) : Steady s t := by
  unfold requestStep at h
  split at h
  · cases h
    exact .of_eq rfl rfl
  split at h
  · cases h
    exact (updForms_steady _ s).trans (beginFeed_steady _ _ _ _)
  · cases h

/-! ## The bounds of a pass (R95, R105) -/

/-- What the bounds of a pass rest on. -/
structure Travels (s : State) : Prop where
  linked   : Linked s
  settings : SettingsSound s.settings
  geometry : GeometrySound s.geometry
  profiles : ProfilesSound s.tables
  buffers  : BuffersSound s.buffers
  carriage : CarriageSound s.carriage

theorem Travels.of_lawful {s t : State} (h : Travels s) {acked : Prop} (k : Lawful acked s t) (l : Linked t)
    (hb : BuffersSound t.buffers) (hc : CarriageSound t.carriage) : Travels t :=
  ⟨l, k.settings h.settings, k.geometry h.geometry, k.profiles h.profiles, hb, hc⟩

theorem Travels.steady {s t : State} (h : Travels s) {acked : Prop} (k : Lawful acked s t) (l : Linked t)
    (st : Steady s t) : Travels t :=
  h.of_lawful k l (st.buffers h.buffers) (by rw [st.carriage]; exact h.carriage)

/-- The image of an ACTIVE line in hand whose pass start is due has dots, all in the printable window. -/
theorem Travels.image {s : State} (h : Travels s) {first : Bool} {n : Need} {img : Image}
    (hx : s.run.inHand = some (.lineDue first n)) (hi : activeImage s = some img) :
    img.sound ∧ ∃ c ∈ img.cols, c ≠ 0 := by
  have hin := h.linked.inHand
  rw [hx] at hin
  obtain ⟨hd, ps, b, img', hf, hb, hext⟩ := hin
  obtain rfl : img' = img := by
    simpa only [activeImage, hf, hb, Option.some.injEq] using hi
  have hs : img'.sound := by
    have := h.buffers.get b
    rwa [hb] at this
  refine ⟨hs, ?_⟩
  obtain ⟨-, -, hdark⟩ := hs
  by_contra hno
  push Not at hno
  exact hext (hdark.trans (darkExtent_eq_none.mpr hno))

/-- The ends of a pass lie within its travel, the end ahead of the start in the direction of the pass. -/
theorem passRunOf_bounds {inp : PlanInputs} (side : Side)
    (hcols : ∀ k < inp.image.cols.length, inp.image.offset + k * inp.image.step ≤ 6527) (hst : inp.stagger ≤ 63)
    (htf : inp.flightTime ≤ 1000) (hcr : 50 ≤ inp.profile.cruise) (hlo : -32 ≤ inp.alignment)
    (hhi : inp.alignment ≤ 31) (hr1 : 1 ≤ inp.profile.ramp.length) (hr2 : inp.profile.ramp.length ≤ 200)
    (hdot : ∃ c ∈ inp.image.cols, c ≠ 0) :
    let run := passRunOf inp side
    InPassTravel run.start ∧ InPassTravel run.stop ∧ run.start ≠ run.stop ∧
      run.side.ahead run.start (run.stop - run.start).natAbs = run.stop := by
  obtain ⟨c, hc, h0⟩ := hdot
  have hne := fireSchedule_ne_nil (side := side) hc h0
  have hb := passPositionsBounded inp side hcols hst htf hcr hlo hhi hr1 hr2 hne
  obtain ⟨f, hf⟩ := List.exists_mem_of_ne_nil _ hne
  obtain ⟨hends, -, -, -, -, h1, h2, -⟩ := firesOnCruise inp side f hf
  cases side with
  | rightward =>
    obtain ⟨-, b1, b2, b3, b4⟩ := hb
    obtain ⟨e1, e2⟩ := hends
    simp only [passRunOf] at *
    refine ⟨⟨by omega, by omega⟩, ⟨by omega, by omega⟩, by omega, ?_⟩
    simp only [Side.ahead]
    omega
  | leftward =>
    obtain ⟨-, b1, b2, b3, b4⟩ := hb
    obtain ⟨e1, e2⟩ := hends
    simp only [passRunOf] at *
    refine ⟨⟨by omega, by omega⟩, ⟨by omega, by omega⟩, by omega, ?_⟩
    simp only [Side.ahead]
    omega

/-- A pass run that begins where it starts. -/
theorem runMove_sound {r : PassRun} (h1 : InPassTravel r.start) (h2 : InPassTravel r.stop) (hne : r.start ≠ r.stop)
    (ha : r.side.ahead r.start (r.stop - r.start).natAbs = r.stop) :
    CarriageSound { position := some r.start, drive := .passRun (runMove r) } := by
  refine ⟨r.start, rfl, h1, ?_, ?_⟩
  · simp only [runMove]
    omega
  · simp only [runMove, Nat.sub_zero, ha]
    exact h2

/-- A pass handed over at a place within the travel of a pass. -/
theorem beginPass_sound {r : PassRun} {p : Int} (hp : InPassTravel p) (h1 : InPassTravel r.start)
    (h2 : InPassTravel r.stop) (hne : r.start ≠ r.stop)
    (ha : r.side.ahead r.start (r.stop - r.start).natAbs = r.stop) :
    CarriageSound { position := some p, drive := beginPass r p } := by
  unfold beginPass
  dsimp only
  split
  · obtain rfl : r.start = p := by omega
    exact runMove_sound h1 h2 hne ha
  · refine ⟨p, rfl, hp, by dsimp only; omega, ?_, h1, h2, hne, ha⟩
    dsimp only
    split <;> simp only [Side.ahead] <;> omega

theorem startPass_carriage (first : Bool) (h : LineHeader) (img : Image) (p : Int) (s : State) :
    ∃ side, (startPass first h img p s).carriage =
      { s.carriage with drive := beginPass (passRunOf (planInputs img s) side) p } := by
  refine ⟨passDirection first h (planInputs img s) p s, ?_⟩
  simp only [startPass, setWait, setInHand, setDrive, State.updRun_carriage, State.updFiring_carriage,
    State.updPlanner_carriage, State.updCarriage_carriage]

theorem startPass_sound {s : State} (h : Travels s) {first f : Bool} {n : Need} {hd : LineHeader} {img : Image} {p : Int}
    (hx : s.run.inHand = some (.lineDue f n)) (hi : activeImage s = some img)
    (hc : s.carriage = { position := some p, drive := .stopped }) :
    CarriageSound (startPass first hd img p s).carriage := by
  obtain ⟨⟨hcols, hcls, -⟩, hdot⟩ := h.image hx hi
  have hband : s.heat.band ≤ 3 := by
    unfold Heat.band
    split <;> (try split) <;> (try split) <;> omega
  have hclass : passClass img.cls s.heat.band < 4 := by
    unfold passClass
    omega
  obtain ⟨-, -, -, hprof⟩ := h.profiles
  obtain ⟨hcr, hr1, hr2, -⟩ := hprof _ hclass
  obtain ⟨-, -, -, -, -, -, hlo, hhi, htf, -⟩ := h.settings
  obtain ⟨hst, -⟩ := h.geometry
  have hp : InPassTravel p := by
    have k := h.carriage
    rw [hc] at k
    obtain ⟨q, hq, k⟩ := k
    cases hq
    exact k
  obtain ⟨side, hs⟩ := startPass_carriage first hd img p s
  obtain ⟨b1, b2, b3, b4⟩ := passRunOf_bounds (inp := planInputs img s) side hcols hst htf hcr hlo hhi hr1 hr2 hdot
  rw [hs, hc]
  exact beginPass_sound hp b1 b2 b3 b4

theorem startPass_buffers (first : Bool) (h : LineHeader) (img : Image) (p : Int) (s : State) :
    (startPass first h img p s).buffers = s.buffers := by
  simp only [startPass, setWait, setInHand, setDrive, State.updRun_buffers, State.updFiring_buffers,
    State.updPlanner_buffers, State.updCarriage_buffers]

theorem runChecks_travels {s : State} (h : Travels s) {first : Bool} {n : Need}
    (hx : s.run.inHand = some (.lineDue first n)) : Travels (runChecks first s) := by
  have hl := runChecks_linked h.linked hx
  have hk := (runChecks_kept first s).lawful (acked := True)
  rcases runChecks_travel first s with st | ⟨hd, img, p, hc, hi, he⟩
  · exact h.steady hk hl st
  · refine h.of_lawful hk hl ?_ ?_
    · rw [he, startPass_buffers]
      exact h.buffers
    · rw [he]
      exact startPass_sound h hx hi hc

theorem followStep_travels {hold : Bool} {s t : State} (k : followStep hold s = some t) (h : Travels s) : Travels t := by
  have hl := followStep_linked k h.linked
  have hk := (followStep_kept k).lawful (acked := True)
  rcases followStep_cases k with e | e | e | e | e
  · exact h.steady hk hl (feedEnds_steady e)
  · exact h.steady hk hl (builderStep_steady h.settings e)
  · exact h.steady hk hl (offerStep_steady e)
  · unfold runStep at e
    split at e
    · rename_i x hx
      split at e
      · rcases carryOut_travel e with st | ⟨first, n, rfl, rfl⟩
        · exact h.steady hk hl st
        · exact runChecks_travels h hx
      · cases e
    · exact h.steady hk hl (takeUpStep_steady e)
  · exact h.steady hk hl (requestStep_steady e)

theorem judgeTimers_travels {s : State} (h : Travels s) : Travels (judgeTimers s) :=
  h.steady (judgeTimers_kept s).lawful (acked := True) (judgeTimers_linked h.linked) (updForms_steady _ s)

theorem finishEvent_travels {s : State} (h : Travels s) : Travels (finishEvent s) :=
  judgeTimers_travels (follow_keeps (fun _ _ => followStep_travels) _ s h)

theorem finishRunStop_travels {s : State} (h : Travels s) : Travels (finishRunStop s) :=
  judgeTimers_travels (follow_keeps (fun _ _ => followStep_travels) _ s h)


/-! ## The moves of the carriage -/

theorem arriveCarriage_carriage (side : Side) (home : Bool) (s : State) : (arriveCarriage side home s).carriage =
    { position := s.carriage.position.map side.next, drive := s.carriage.drive } := rfl

/-- One step of a move that stays within the travel of a pass. -/
theorem InPassTravel.next {d : Side} {p : Int} {n : Nat} (hp : InPassTravel p) (hn : 1 ≤ n)
    (he : InPassTravel (d.ahead p n)) :
    InPassTravel (d.next p) ∧ d.ahead (d.next p) (n - 1) = d.ahead p n := by
  obtain ⟨p1, p2⟩ := hp
  obtain ⟨e1, e2⟩ := he
  cases d with
  | rightward =>
    simp only [Side.ahead, Side.next] at *
    exact ⟨⟨by omega, by omega⟩, by omega⟩
  | leftward =>
    simp only [Side.ahead, Side.next] at *
    exact ⟨⟨by omega, by omega⟩, by omega⟩

/-- A place on the way of a move that stays within the travel of a pass. -/
theorem InPassTravel.ahead {d : Side} {p : Int} {k n : Nat} (hp : InPassTravel p) (hk : k ≤ n)
    (he : InPassTravel (d.ahead p n)) : InPassTravel (d.ahead p k) := by
  obtain ⟨p1, p2⟩ := hp
  obtain ⟨e1, e2⟩ := he
  cases d with
  | rightward =>
    simp only [Side.ahead] at *
    exact ⟨by omega, by omega⟩
  | leftward =>
    simp only [Side.ahead] at *
    exact ⟨by omega, by omega⟩

section
variable {s : State} (home : Bool)

theorem CarriageSound.positioning_next (h : CarriageSound s.carriage) {m : Move} {run : PassRun}
    (hd : s.carriage.drive = .positioning m run) :
    ∃ p, s.carriage.position.map m.side.next = some p ∧ InPassTravel p ∧
      m.side.ahead p (m.len - m.idx - 1) = run.start ∧ InPassTravel run.start ∧ InPassTravel run.stop ∧
      run.start ≠ run.stop ∧ run.side.ahead run.start (run.stop - run.start).natAbs = run.stop := by
  simp only [CarriageSound, hd] at h
  obtain ⟨p, hp, hin, hj, ha, h1, h2, hne, hs⟩ := h
  obtain ⟨hin', ha'⟩ := hin.next (n := m.len - m.idx) (by omega) (by rw [ha]; exact h1)
  exact ⟨m.side.next p, by rw [hp]; rfl, hin', ha'.trans ha, h1, h2, hne, hs⟩

theorem positions_sound (h : CarriageSound s.carriage) {m : Move} {run : PassRun}
    (hd : s.carriage.drive = .positioning m run) (hj : m.idx + 1 < m.len) :
    CarriageSound (setDrive (.positioning { m with idx := m.idx + 1 } run) (arriveCarriage m.side home s)).carriage := by
  obtain ⟨p, hp, hin, ha, h1, h2, hne, hs⟩ := h.positioning_next hd
  refine ⟨p, hp, hin, hj, ?_, h1, h2, hne, hs⟩
  rw [← ha]
  congr 1

theorem positioned_sound (h : CarriageSound s.carriage) {m : Move} {run : PassRun}
    (hd : s.carriage.drive = .positioning m run) (hj : ¬m.idx + 1 < m.len) :
    CarriageSound (setDrive (.passRun (runMove run)) (arriveCarriage m.side home s)).carriage := by
  obtain ⟨p, hp, hin, ha, h1, h2, hne, hs⟩ := h.positioning_next hd
  obtain rfl : p = run.start := by
    rw [← ha, show m.len - m.idx - 1 = 0 by omega]
    cases m.side <;> simp [Side.ahead]
  have hc : (setDrive (.passRun (runMove run)) (arriveCarriage m.side home s)).carriage =
      { position := some run.start, drive := .passRun (runMove run) } := by
    rw [← hp]
    rfl
  rw [hc]
  exact runMove_sound h1 h2 hne hs

theorem CarriageSound.passRun_next (h : CarriageSound s.carriage) {m : Move} (hd : s.carriage.drive = .passRun m) :
    ∃ p, s.carriage.position.map m.side.next = some p ∧ InPassTravel p ∧
      InPassTravel (m.side.ahead p (m.len - m.idx - 1)) := by
  simp only [CarriageSound, hd] at h
  obtain ⟨p, hp, hin, hj, ha⟩ := h
  obtain ⟨hin', ha'⟩ := hin.next (n := m.len - m.idx) (by omega) ha
  exact ⟨m.side.next p, by rw [hp]; rfl, hin', by rw [ha']; exact ha⟩

theorem CarriageSound.stopping_next (h : CarriageSound s.carriage) {d : Decel} (hd : s.carriage.drive = .stopping d) :
    ∃ p, s.carriage.position.map d.side.next = some p ∧ InPassTravel p ∧ InPassTravel (d.side.ahead p d.left) := by
  simp only [CarriageSound, hd] at h
  obtain ⟨p, hp, hin, ha⟩ := h
  obtain ⟨hin', ha'⟩ := hin.next (n := d.left + 1) (by omega) ha
  exact ⟨d.side.next p, by rw [hp]; rfl, hin', by rw [← Nat.add_sub_cancel (n := d.left) (m := 1), ha']; exact ha⟩

theorem decelerates_sound (h : CarriageSound s.carriage) {d : Decel} (hd : s.carriage.drive = .stopping d)
    (hl : d.left ≠ 0) (i : Nat) :
    CarriageSound (setDrive (.stopping { d with interval := i, left := d.left - 1 })
      (arriveCarriage d.side home s)).carriage := by
  obtain ⟨p, hp, hin, ha⟩ := h.stopping_next hd
  refine ⟨p, hp, hin, ?_⟩
  rw [show d.left - 1 + 1 = d.left by omega]
  exact ha

theorem homes_sound (h : CarriageSound s.carriage) {g g' : Homing} (hd : s.carriage.drive = .homing g)
    (hr : homingResult g (arriveCarriage g.phase.side home s).carriage.position home = .goesOn g') :
    CarriageSound (setDrive (.homing g') (arriveCarriage g.phase.side home s)).carriage := by
  rw [arriveCarriage_carriage] at hr
  simp only [CarriageSound, hd] at h
  simp only [setDrive, State.updCarriage_carriage, arriveCarriage_carriage, CarriageSound]
  unfold homingResult at hr
  cases hp : g.phase with
  | one =>
    simp only [hp] at h hr
    split at hr
    · split at hr
      · cases hr
      · cases hr
        simp only [h.1, Option.map_none, true_and]
        omega
    · cases hr
      simp [h.1]
  | two =>
    simp only [hp] at h hr
    split at hr
    · cases hr
    · split at hr
      · cases hr
      · cases hr
        simp only [h.1, Option.map_none, true_and]
        omega
  | three =>
    simp only [hp] at h hr
    split at hr
    · split at hr
      · cases hr
      · cases hr
        refine ⟨?_, by dsimp only; omega⟩
        rw [h.1]
        exact congrArg some (by push_cast; exact Int.add_assoc _ _ _)
    · cases hr

theorem homed_position (h : CarriageSound s.carriage) {g : Homing} (hd : s.carriage.drive = .homing g)
    (hr : homingResult g (arriveCarriage g.phase.side home s).carriage.position home = .complete) :
    (arriveCarriage g.phase.side home s).carriage.position = some 48 := by
  rw [arriveCarriage_carriage] at hr ⊢
  simp only [CarriageSound, hd] at h
  unfold homingResult at hr
  cases hp : g.phase with
  | one =>
    simp only [hp] at hr
    split at hr <;> (try split at hr) <;> cases hr
  | two =>
    simp only [hp] at hr
    split at hr <;> (try split at hr) <;> cases hr
  | three =>
    simp only [hp] at h hr
    split at hr
    · split at hr
      · rw [h.1, show g.steps = 23 by omega]
        rfl
      · cases hr
    · cases hr

theorem homing_sound (b : Bool) : CarriageSound (carriageDefault b) := by
  cases b <;> exact ⟨rfl, by decide⟩

/-- A RESET puts a deceleration in place of a move, and it ends before the move would have (R111). -/
theorem resetDrive_sound {c : Carriage} (h : CarriageSound c) : CarriageSound { c with drive := resetDrive c.drive } := by
  have decel : ∀ {m : Move} {p : Int}, InPassTravel p → m.idx < m.len → InPassTravel (m.side.ahead p (m.len - m.idx)) →
      InPassTravel ((decelOf m).side.ahead p ((decelOf m).left + 1)) := by
    intro m p hin hj ha
    refine hin.ahead (n := m.len - m.idx) ?_ ha
    simp only [decelOf, Move.rampIndex]
    omega
  cases hd : c.drive with
  | unhomed | stopped | stopping d => simpa only [resetDrive, CarriageSound, hd] using h
  | homing g => simpa only [resetDrive, CarriageSound, hd] using h
  | positioning m run =>
    simp only [CarriageSound, hd] at h
    obtain ⟨p, hp, hin, hj, ha, h1, -⟩ := h
    exact ⟨p, hp, hin, decel hin hj (by rw [ha]; exact h1)⟩
  | passRun m =>
    simp only [CarriageSound, hd] at h
    obtain ⟨p, hp, hin, hj, ha⟩ := h
    exact ⟨p, hp, hin, decel hin hj ha⟩

end

/-! ## Every command -/

theorem carriageFault_travels {s u : State} (h : Travels s) (k : Lawful True s u) (l : Linked u)
    (hb : u.buffers = s.buffers) : Travels (carriageFault u) := by
  have st := faultStop_steady
    (latch .CF (forgetLastFire (discardSchedule (u.updCarriage fun _ => { position := none, drive := .unhomed }))))
  refine h.of_lawful (k.trans (carriageFault_lawful u)) (carriageFault_linked l) (st.buffers ?_) ?_
  · rw [(faultedCarriage_apart u).buffers, hb]
    exact h.buffers
  · rw [carriageFault, st.carriage]
    exact rfl

theorem takeStage_steady (table page offset : Nat) (clear : Bool) (data : List Byte) (s : State) :
    Steady s (takeStage table page offset clear data s) := by
  have hw : ∀ b : Binding, Steady s (stageWritten b data s) := fun b =>
    (setStage_steady _ s).trans (latchIf_steady _ _ _)
  unfold takeStage
  split
  · exact latch_steady _ s
  split
  · split
    · exact latch_steady _ s
    · split
      · exact .refl s
      · exact hw _
    · split
      · split
        · exact setStage_steady _ s
        · exact hw _
      · split
        · exact hw _
        · exact latch_steady _ s
  · exact latch_steady _ s

theorem dropInHand_steady (s : State) : Steady s (dropInHand s) := by
  unfold dropInHand
  split
  · exact .refl s
  · split
    · exact .refl s
    · exact (abandonFeed_steady _ s).trans (.of_eq rfl rfl)

theorem freeBuffersOf_sound (es : List Entry) {b : Buffers} (h : BuffersSound b) : BuffersSound (freeBuffersOf es b) := by
  induction es generalizing b with
  | nil => exact h
  | cons e rest ih => exact ih (h.freed e)

theorem dropEntries_steady (s : State) : Steady s (dropEntries s) := by
  unfold dropEntries
  dsimp only
  refine .trans ?_ (latchIf_steady _ _ _)
  have h : Steady s (s.updBuffers (freeBuffersOf (s.queue.entries.filter fun e => !e.isActive))) :=
    updBuffers_steady (freeBuffersOf_sound _)
  split
  · exact (h.trans (updQueue_steady _ _)).trans (setStage_steady _ _)
  · exact h.trans (updQueue_steady _ _)

theorem takeReset_travels {s : State} (h : Travels s) : Travels (takeReset s) := by
  refine h.of_lawful (takeReset_lawful s (acked := True)) (takeReset_linked h.linked) ?_ ?_
  · simp only [takeReset, judgeTimers, restartTearTimer, resetCauses, State.updForms_buffers, State.updRun_buffers]
    rw [(resetForms_apart _).buffers]
    exact buffersSound_iff.mpr fun i => by cases i <;> exact trivial
  · simp only [takeReset, judgeTimers, restartTearTimer, resetCauses, State.updForms_carriage, State.updRun_carriage]
    rw [(resetForms_steady _).carriage]
    exact resetDrive_sound h.carriage

theorem takeAck_travels {named : BitVec 16} {mask : Option (BitVec 16)} {s : State} (h : Travels s) :
    Travels (takeAck named mask s) := by
  have hc : Travels (ackClear named mask s) := by
    have hb : (ackClear named mask s).buffers = s.buffers ∧ (ackClear named mask s).carriage = s.carriage := by
      unfold ackClear
      dsimp only
      split <;> exact ⟨rfl, rfl⟩
    refine h.steady (ackClear_lawful named mask s) ?_ (.of_eq hb.2 hb.1)
    unfold ackClear
    dsimp only
    split
    · exact updFiring_linked (updRun_linked h.linked rfl)
    · exact updRun_linked h.linked rfl
  unfold takeAck
  dsimp only
  split
  · refine finishEvent_travels ?_
    unfold leaveFaultStop
    split
    · exact hc.of_lawful ((updRun_lawful _ _ rfl rfl).trans (updCarriage_lawful _ _) (acked := True))
        (updCarriage_linked (updRun_linked hc.linked rfl)) hc.buffers (homing_sound _)
    · exact hc.steady (enterReady_kept _).lawful (acked := True) (enterReady_linked hc.linked) (.of_eq rfl rfl)
  · exact hc

theorem answer_travels {f : List Byte} {s : State} (h : Travels s) : Travels (answer f s) := by
  refine h.steady (answer_lawful f s (acked := True)) (answer_linked h.linked) ?_
  unfold answer
  split <;> exact .of_eq rfl rfl

theorem takeN_travels {r : NRecord} {s : State} (h : Travels s) : Travels (takeN r s) := by
  cases r with
  | query => exact answer_travels h
  | read table page source => exact answer_travels h
  | halt => exact h.steady (takeHalt_lawful s (acked := True)) (judgeTimers_linked (updRun_linked h.linked rfl)) (.of_eq rfl rfl)
  | go =>
    exact finishEvent_travels
      (h.steady (updRun_lawful _ s rfl rfl (acked := True)) (updRun_linked h.linked rfl) (.of_eq rfl rfl))
  | drop =>
    obtain ⟨l, hx⟩ := dropInHand_linked (s := clearIntake s) (updIntake_linked h.linked)
    exact finishEvent_travels (h.steady
      (((updIntake_lawful _ s).trans (dropInHand_lawful _)).trans (dropEntries_lawful _) (acked := True))
      (dropEntries_linked l hx)
      (((updIntake_steady _ s).trans (dropInHand_steady _)).trans (dropEntries_steady _)))
  | reset => exact takeReset_travels h
  | ack causes mask => exact takeAck_travels h
  | stage table page offset clear data =>
    exact h.steady (takeStage_lawful _ _ _ _ _ s (acked := True)) (takeStage_linked h.linked) (takeStage_steady _ _ _ _ _ s)

theorem endBuild_travels {hd : LineHeader} {parts : List (List Byte)} {b : BufId} {inp : BuildInputs} {s : State}
    (h : Travels s) (hb : buildInProgress s = some (hd, parts, b, inp)) :
    Travels (endBuild hd parts b (buildResult inp) s) := by
  have hget : s.buffers.get b = .filling inp := by
    unfold buildInProgress at hb
    split at hb
    · split at hb
      · rename_i hf
        cases hb
        exact hf
      · cases hb
    · cases hb
  have hfloor : inp.floor ≤ 3 := by
    have := h.buffers.get b
    rwa [hget] at this
  have st : Steady s (endBuild hd parts b (buildResult inp) s) := by
    have hv : (Buffer.ready (buildResult inp).image).sound := buildResult_sound hfloor
    unfold endBuild
    dsimp only
    refine .trans ?_ ((updQueue_steady _ _).trans (updQueue_steady _ _))
    refine .trans ?_ (latchIf_steady _ _ _)
    refine .trans ?_ (latchIf_steady _ _ _)
    exact (updBuffers_steady (f := fun bs => bs.set b _) fun k => k.set hv).trans (.of_eq rfl rfl)
  exact h.steady (endBuild_lawful _ _ _ _ s (acked := True)) (endBuild_linked h.linked hb) st

theorem finishLastFire_travels {s : State} (h : Travels s) : Travels (finishLastFire s) := by
  unfold finishLastFire
  split
  · exact finishEvent_travels (h.steady (reportLastFire_lawful s (acked := True))
      ((reportLastFire_apart s).linked h.linked) (reportLastFire_steady s))
  · exact h

/-- An arrival, with what the drive makes of it. -/
theorem arrived_travels {s : State} (h : Travels s) (side : Side) (home : Bool) (f : Carriage → Carriage)
    (hc : CarriageSound (f (arriveCarriage side home s).carriage)) :
    Travels ((arriveCarriage side home s).updCarriage f) :=
  h.of_lawful ((arriveCarriage_lawful side home s).trans (updCarriage_lawful f _) (acked := True))
    (updCarriage_linked ((arriveCarriage_apart side home s).linked h.linked)) h.buffers hc

theorem updArriveStep_travels {s : State} (h : Travels s) (e : Nat) (f : Feed) :
    Travels (s.updForms (arriveStep e f)) :=
  h.steady (updArriveStep_lawful e f s (acked := True)) (updForms_linked h.linked) (updForms_steady _ s)

/-- The carriage of an arrival of the pass run, with the entry it hands. -/
theorem offered_travels {s : State} (h : Travels s) (side : Side) (home : Bool) (u : State)
    (hu : u = offerArrival (arriveCarriage side home s) ∨ u = reportLastFire (offerArrival (arriveCarriage side home s)))
    (d : Drive) (hc : CarriageSound { position := s.carriage.position.map side.next, drive := d }) :
    Travels (setDrive d u) := by
  have hoff := (arriveCarriage_lawful side home s).trans (offerArrival_lawful _) (acked := True)
  have aoff := (arriveCarriage_apart side home s).trans (offerArrival_apart _)
  have soff := offerArrival_steady (arriveCarriage side home s)
  rcases hu with rfl | rfl
  · refine h.of_lawful (hoff.trans (updCarriage_lawful _ _)) (setDrive_linked (aoff.linked h.linked))
      (soff.buffers h.buffers) ?_
    rw [setDrive, State.updCarriage_carriage, soff.carriage]
    exact hc
  · have srep := soff.trans (reportLastFire_steady _)
    refine h.of_lawful ((hoff.trans (reportLastFire_lawful _)).trans (updCarriage_lawful _ _))
      (setDrive_linked ((aoff.trans (reportLastFire_apart _)).linked h.linked)) (srep.buffers h.buffers) ?_
    rw [setDrive, State.updCarriage_carriage, srep.carriage]
    exact hc

theorem Effect.travels {c : Instr} {s t : State} (k : Effect c s t) (h : Travels s) : Travels t := by
  cases k with
  | unchanged => exact h
  | frameFault =>
    exact h.steady (frameFault_lawful s (acked := True)) (frameFault_linked h.linked) (.of_eq rfl rfl)
  | frameStarts | headerStored | headerEnds | bodyStored | replySent =>
    exact h.steady (updIntake_lawful _ s (acked := True)) (updIntake_linked h.linked) (updIntake_steady _ s)
  | wrongLane =>
    exact h.steady ((releaseFrame_lawful s).trans (latch_lawful _ _) (acked := True))
      (latch_linked (updIntake_linked h.linked)) (.of_eq rfl rfl)
  | laneNReceived r =>
    exact takeN_travels (h.steady (releaseFrame_lawful s (acked := True)) (updIntake_linked h.linked) (.of_eq rfl rfl))
  | laneNSent r => exact takeN_travels h
  | laneQReceived b k r =>
    exact finishEvent_travels (h.steady ((releaseFrame_lawful s).trans (updIntake_lawful _ _) (acked := True))
      (updIntake_linked (updIntake_linked h.linked)) (.of_eq rfl rfl))
  | laneQSent r =>
    exact finishEvent_travels (h.steady (updIntake_lawful _ s (acked := True)) (updIntake_linked h.linked)
      (updIntake_steady _ s))
  | buildEnds hd parts b inp hb => exact finishEvent_travels (endBuild_travels h hb)
  | takenUp u hx hu =>
    exact finishEvent_travels (h.steady ((takeUpStep_kept hu).lawful (acked := True)) (takeUpStep_linked h.linked hx hu)
      (takeUpStep_steady hu))
  | passChecked first n hx => exact finishEvent_travels (runChecks_travels h hx)
  | carriageFaults side home =>
    exact finishEvent_travels (carriageFault_travels h (arriveCarriage_lawful side home s)
      ((arriveCarriage_apart side home s).linked h.linked) rfl)
  | positions m run home hd hj => exact arrived_travels h _ _ _ (positions_sound home h.carriage hd hj)
  | positioned m run home hd hj => exact arrived_travels h _ _ _ (positioned_sound home h.carriage hd hj)
  | runs m home hd hj =>
    refine finishLastFire_travels (offered_travels h m.side home _ (.inl rfl) _ ?_)
    obtain ⟨p, hp, hin, ha⟩ := h.carriage.passRun_next hd
    exact ⟨p, hp, hin, hj, ha⟩
  | runEnds m home hd hj =>
    have hstop := offered_travels h m.side home _ (.inr rfl) .stopped (by
      obtain ⟨p, hp, hin, -⟩ := h.carriage.passRun_next hd
      exact ⟨p, hp, hin⟩)
    have hdis := hstop.steady (discardSchedule_lawful _ (acked := True)) (discardSchedule_linked hstop.linked) (.of_eq rfl rfl)
    exact finishRunStop_travels (hdis.steady ((runStopped_kept _).lawful (acked := True)) (runStopped_linked hdis.linked)
      (runStopped_steady _))
  | decelerates d home hd hl => exact arrived_travels h _ _ _ (decelerates_sound home h.carriage hd hl _)
  | decelerated d home hd hl =>
    refine finishEvent_travels (arrived_travels h _ _ _ ?_)
    obtain ⟨p, hp, hin, -⟩ := h.carriage.stopping_next hd
    exact ⟨p, hp, hin⟩
  | homes g g' home hd hr => exact arrived_travels h _ _ _ (homes_sound home h.carriage hd hr)
  | homesAnew side home => exact arrived_travels h _ _ _ (homing_sound _)
  | edgeFound side home => exact arrived_travels h _ _ _ ⟨rfl, by decide⟩
  | homed g home hd hr =>
    have hstop : Travels (setDrive .stopped (arriveCarriage g.phase.side home s)) :=
      arrived_travels h _ _ _ ⟨48, homed_position home h.carriage hd hr, by decide, by decide⟩
    exact finishEvent_travels (hstop.steady ((homingComplete_kept _).lawful (acked := True))
      (homingComplete_linked hstop.linked) (homingComplete_steady _))
  | thirdDead i p faults =>
    have hsilent : Steady (endPulse i p faults s) (forgetLastFire (goSilent (endPulse i p faults s))) := .of_eq rfl rfl
    exact finishEvent_travels (h.steady ((endPulse_lawful i p faults s).trans (thirdDeadPin_lawful _) (acked := True))
      (thirdDeadPin_linked ((endPulse_apart i p faults s).linked h.linked))
      (((endPulse_steady i p faults s).trans hsilent).trans (faultStop_steady _)))
  | pulseEnds i p faults =>
    exact finishLastFire_travels (h.steady (endPulse_lawful i p faults s (acked := True))
      ((endPulse_apart i p faults s).linked h.linked) (endPulse_steady i p faults s))
  | cools => exact h.steady (updHeat_lawful coolHeat_sound (acked := True)) (updHeat_linked h.linked) (.of_eq rfl rfl)
  | holdReleased =>
    exact finishEvent_travels (h.steady
      ((updHeat_lawful coolHeat_sound).trans (setHold_kept false _).lawful (acked := True))
      (updHeat_linked (updHeat_linked h.linked)) (.of_eq rfl rfl))
  | tailReached f =>
    have ha := updArriveStep_travels h s.geometry.sensorDist f
    exact finishEvent_travels (ha.steady ((tailReached_kept f _).lawful (acked := True)) (tailReached_linked ha.linked)
      (tailReached_steady f _))
  | feedAbandoned f =>
    have ha := updArriveStep_travels h s.geometry.sensorDist f
    exact finishEvent_travels (ha.steady ((clearFeed_kept _).lawful (acked := True)) (updForms_linked ha.linked)
      (updForms_steady _ _))
  | feedReset f =>
    have ha := updArriveStep_travels h s.geometry.sensorDist f
    exact finishEvent_travels (ha.steady ((resetPaper_kept _).lawful (acked := True))
      ((resetPaper_apart _).linked ha.linked) (resetPaper_steady _))
  | loadingCut f =>
    have ha := updArriveStep_travels h s.geometry.sensorDist f
    exact finishEvent_travels (ha.steady ((enterNoForms_kept _).lawful (acked := True)) (enterNoForms_linked ha.linked)
      (.of_eq rfl rfl))
  | feedAtEnd f => exact finishEvent_travels (updArriveStep_travels h s.geometry.sensorDist f)
  | feedGoesOn f =>
    have ha := updArriveStep_travels h s.geometry.sensorDist f
    exact ha.steady ((startStep_kept _).lawful (acked := True)) (startStep_linked ha.linked) (startStep_steady _)
  | tearOff =>
    exact finishEvent_travels (h.steady ((beginTearOff_kept s).lawful (acked := True)) (beginTearOff_linked h.linked)
      ((updForms_steady _ s).trans (beginFeed_steady _ _ _ _)))
  | loads =>
    exact finishEvent_travels (h.steady ((beginLoading_kept s).lawful (acked := True))
      ((beginLoading_apart s).linked h.linked) ((updForms_steady _ s).trans (beginFeed_steady _ _ _ _)))
  | tracks | formsPresent | leverSettles =>
    exact judgeTimers_travels (h.steady ((updPins_lawful _ s).trans (updForms_lawful id id) (acked := True))
      (updForms_linked (updPins_linked h.linked)) (.of_eq rfl rfl))
  | seesNoForms =>
    have hp : Travels (s.updPins fun p => { p with formsPresent := false }) :=
      h.steady (updPins_lawful _ s (acked := True)) (updPins_linked h.linked) (.of_eq rfl rfl)
    exact finishEvent_travels (hp.steady ((cutLoading_kept _).lawful (acked := True))
      ((cutLoading_apart _).linked hp.linked) (cutLoading_steady _))
  | formsGone =>
    exact judgeTimers_travels (h.steady (updPins_lawful _ s (acked := True)) (updPins_linked h.linked) (.of_eq rfl rfl))
  | leverOpens =>
    exact judgeTimers_travels (h.steady
      (((updPins_lawful _ s).trans (updForms_lawful id id)).trans (latch_lawful _ _) (acked := True))
      (latch_linked (updForms_linked (updPins_linked h.linked))) (.of_eq rfl rfl))
  | leverRests => exact h.steady (updPins_lawful _ s (acked := True)) (updPins_linked h.linked) (.of_eq rfl rfl)
  | settled =>
    have hc : Travels (s.updForms fun g => { g with lever := .closed }) :=
      h.steady (updForms_lawful id id (acked := True)) (updForms_linked h.linked) (updForms_steady _ s)
    exact finishEvent_travels (hc.steady ((startStep_kept _).lawful (acked := True)) (startStep_linked hc.linked)
      (startStep_steady _))

theorem powerOn_travels (p : List Instr) (a : BitVec 2) (b d e : Bool) : Travels (State.powerOn p a b d e) where
  linked := powerOn_linked p a b d e
  settings := by
    show SettingsSound settingsDefault
    unfold SettingsSound
    decide
  geometry := by
    show GeometrySound geometryDefault
    unfold GeometrySound
    decide
  profiles := profilesSound_default
  buffers := buffersSound_iff.mpr fun i => by cases i <;> exact trivial
  carriage := homing_sound b

/-- Settles O9: the laws that the bounds of a pass rest on are kept together; the bounds follow from the law of the motion
state. -/
theorem stepKeepsCarriageLaw : Obligations.StepKeepsCarriageLaw := by
  refine ⟨fun s t hs h => ?_, fun c p hc hp => ?_⟩
  · have k : Travels t := step_keeps powerOn_travels
      (fun _ _ k => ⟨⟨k.linked.lines, k.linked.inHand, k.linked.stage⟩, k.settings, k.geometry, k.profiles, k.buffers,
        k.carriage⟩)
      (fun _ _ _ he => he.travels)
      ⟨⟨hs.lines, hs.inHand, hs.stage⟩, hs.settings, hs.geometry, hs.profiles, hs.buffers, hs.carriage⟩ h
    exact ⟨k.carriage, k.buffers⟩
  · unfold CarriageSound at hc
    cases hd : c.drive with
    | unhomed =>
      simp only [hd, hp] at hc
      cases hc
    | homing g =>
      simp only [hd, hp] at hc
      cases hg : g.phase <;> simp only [hg] at hc
      · cases hc.1
      · cases hc.1
      · obtain rfl : p = ((24 + g.steps : Nat) : Int) := Option.some.inj hc.1
        refine ⟨by omega, by omega, ?_, ?_, ?_⟩ <;> intros <;> contradiction
    | stopped =>
      simp only [hd, hp, Option.some.injEq] at hc
      obtain ⟨q, rfl, h1, h2⟩ := hc
      refine ⟨by omega, by omega, fun _ _ => ⟨h1, h2⟩, fun _ => ⟨h1, h2⟩, ?_⟩
      intros
      contradiction
    | positioning m run | passRun m =>
      simp only [hd, hp, Option.some.injEq] at hc
      obtain ⟨q, rfl, ⟨h1, h2⟩, -⟩ := hc
      refine ⟨by omega, by omega, fun _ _ => ⟨h1, h2⟩, fun _ => ⟨h1, h2⟩, ?_⟩
      intros
      contradiction
    | stopping d =>
      simp only [hd, hp, Option.some.injEq] at hc
      obtain ⟨q, rfl, ⟨h1, h2⟩, h3, h4⟩ := hc
      refine ⟨by omega, by omega, fun _ _ => ⟨h1, h2⟩, fun _ => ⟨h1, h2⟩, fun d' k => ?_⟩
      cases k
      cases hside : d.side <;> simp only [hside, Side.ahead] at h3 h4 ⊢ <;> omega

/-- Settles O10: the linked laws and those of the carriage hold at every power-on; the ranges are those of the defaults. -/
theorem soundAtReset : Obligations.SoundAtReset := by
  have h : Travels State.reset := powerOn_travels [] 0 false true false
  exact
    { heat := by
        show HeatSound heatDefault
        unfold HeatSound
        decide
      acc := by show 0 ≤ 15; decide
      replies := by show 0 ≤ 4; decide
      counters := by
        show 0 ≤ 255 ∧ 0 ≤ 255 ∧ 0 ≤ 65535 ∧ 0 ≤ 65535 ∧ 0 ≤ 65535
        decide
      form := by show 0 < 3168; decide
      ranges := ⟨by decide, by decide, by decide, by decide, fun r hr => by cases hr⟩
      timers := powerOn_timersSound _ _ _ _ _
      executor := by
        refine ⟨fun h => absurd rfl h, fun h => ?_, fun h => ?_, fun h => absurd rfl h⟩ <;> cases h
      intake := .hunting rfl rfl (by decide)
      queue := ⟨by decide, by decide, by decide⟩
      lines := h.linked.lines
      inHand := h.linked.inHand
      stage := h.linked.stage
      settings := h.settings
      geometry := h.geometry
      profiles := h.profiles
      buffers := h.buffers
      carriage := h.carriage }

end Sys2Proof.Machine
end

