-- ==== Sys2Proof/Proofs/Fields.lean ====
section
/-! PROOFS. Bytes and fields of lists of bytes (00_scope.md, Conventions). -/

namespace Sys2Proof.Machine

theorem byteAt_lt (p : List Byte) (i : Nat) : byteAt p i < 256 := (p.getD i 0).isLt

theorem byteAt_append_left {a b : List Byte} {i : Nat} (h : i < a.length) : byteAt (a ++ b) i = byteAt a i := by
  simp [byteAt, List.getD_eq_getElem?_getD, List.getElem?_append_left h]

theorem byteAt_append_right {a b : List Byte} {n i : Nat} (h : n = a.length + i) : byteAt (a ++ b) n = byteAt b i := by
  simp [byteAt, List.getD_eq_getElem?_getD, List.getElem?_append_right, h]

theorem fieldAt_congr {p q : List Byte} {i j n : Nat} (h : ∀ k < n, byteAt p (i + k) = byteAt q (j + k)) :
    fieldAt p i n = fieldAt q j n := by
  induction n generalizing i j with
  | zero => rfl
  | succ n ih =>
    have h0 : byteAt p i = byteAt q j := h 0 (by omega)
    have hrest : fieldAt p (i + 1) n = fieldAt q (j + 1) n := ih fun k hk => by
      rw [Nat.add_assoc, Nat.add_assoc, Nat.add_comm 1 k]
      exact h (k + 1) (by omega)
    rw [fieldAt, fieldAt, h0, hrest]

theorem fieldAt_append_left {a b : List Byte} {i n : Nat} (h : i + n ≤ a.length) : fieldAt (a ++ b) i n = fieldAt a i n :=
  fieldAt_congr fun k hk => byteAt_append_left (by omega)

theorem fieldAt_append_right {a b : List Byte} {m i n : Nat} (h : m = a.length + i) :
    fieldAt (a ++ b) m n = fieldAt b i n :=
  fieldAt_congr fun k hk => byteAt_append_right (by omega)

theorem fieldAt_one (p : List Byte) (i : Nat) : fieldAt p i 1 = byteAt p i := by simp [fieldAt]

/-- A number written in `n` bytes reads back modulo what they can hold. -/
theorem fieldAt_toBytes (v n : Nat) : fieldAt (toBytes v n) 0 n = v % 256 ^ n := by
  induction n with
  | zero => simp [fieldAt, Nat.mod_one]
  | succ n ih =>
    have hb : byteAt (toBytes v (n + 1)) 0 = v / 256 ^ n % 256 := rfl
    have hr : fieldAt (toBytes v (n + 1)) (0 + 1) n = v % 256 ^ n := by rw [toBytes, fieldAt_cons_succ, ih]
    rw [fieldAt, hb, hr, Nat.pow_succ, Nat.mod_mul, Nat.mul_comm, Nat.add_comm]

theorem fieldAt_toBytes_of_lt {v n : Nat} (h : v < 256 ^ n) : fieldAt (toBytes v n) 0 n = v := by
  rw [fieldAt_toBytes, Nat.mod_eq_of_lt h]

theorem byteAt_toBytes_one {v : Nat} (h : v < 256) : byteAt (toBytes v 1) 0 = v := by
  rw [← fieldAt_one, fieldAt_toBytes_of_lt (by omega)]

/-! ## Blocks of one length laid one after another -/

theorem byteAt_blocks {f : Nat → List Byte} {k n i j : Nat} (hf : ∀ i, (f i).length = k) (hi : i < n) (hj : j < k) :
    byteAt ((List.range n).flatMap f) (k * i + j) = byteAt (f i) j := by
  induction n generalizing f i with
  | zero => omega
  | succ n ih =>
    rw [List.range_succ_eq_map, List.flatMap_cons, List.flatMap_map]
    cases i with
    | zero => rw [Nat.mul_zero, Nat.zero_add, byteAt_append_left (by rw [hf]; exact hj)]
    | succ i =>
      rw [byteAt_append_right (i := k * i + j) (by rw [hf, Nat.mul_succ]; omega),
        ih (f := fun a => f (a + 1)) (fun a => hf _) (by omega)]

theorem fieldAt_blocks {f : Nat → List Byte} {k n i j m : Nat} (hf : ∀ i, (f i).length = k) (hi : i < n)
    (hj : j + m ≤ k) : fieldAt ((List.range n).flatMap f) (k * i + j) m = fieldAt (f i) j m :=
  fieldAt_congr fun l hl => by rw [Nat.add_assoc, byteAt_blocks hf hi (by omega)]

theorem length_blocks {f : Nat → List Byte} {k : Nat} (n : Nat) (hf : ∀ i, (f i).length = k) :
    ((List.range n).flatMap f).length = n * k := by
  simp [List.length_flatMap, hf]

theorem byteAt_map_range {f : Nat → Byte} {n i : Nat} (h : i < n) : byteAt ((List.range n).map f) i = (f i).toNat := by
  simp [byteAt, h]

end Sys2Proof.Machine
end

