-- ==== Sys2Proof/Proofs/PowerOn.lean ====
section
/-! PROOFS. What a power-on reset leaves (R18, R39, R61, R82, R115, R116, R129, R157, R164, R165, R170). -/

namespace Sys2Proof.Machine

theorem bitRateOf_eq (straps : BitVec 2) : bitRateOf straps = [19200, 57600, 115200, 230400].getD straps.toNat 0 := by
  revert straps
  decide

/-- The causes pending after a power-on reset: PO in NO FORMS, LO with the lever open. -/
theorem runDefault_pending (forms lever : Bool) (c : Cause) : (runDefault forms lever).causes &&& c.bit ≠ 0 ↔
    (c = .PO ∧ ¬(forms = true ∧ lever = false)) ∨ (c = .LO ∧ lever = true) := by
  cases forms <;> cases lever <;> cases c <;> decide

/-- Settles O13. -/
theorem powerOnReset : Obligations.PowerOnReset := by
  refine ⟨fun straps home forms lever s => ⟨_, rfl, rfl, rfl, ?_, rfl, rfl, rfl, rfl, rfl, rfl, rfl, rfl, rfl, ?_⟩,
    fun straps home forms lever s => ⟨_, rfl, rfl, rfl, ?_, rfl, rfl, rfl, rfl, rfl, rfl, rfl, rfl, rfl, rfl, rfl, rfl, rfl,
      rfl, rfl, rfl, fun c => ?_, ?_⟩⟩
  · show intakeDefault straps = _
    rw [intakeDefault, bitRateOf_eq]
  · show heatDefault.band = 1
    decide
  · show (if (forms && !lever) = true then Paper.atPrint else .noForms) = _
    simp
  · simp only [isPending, bne_iff_ne]
    exact runDefault_pending forms lever c
  · show ((runDefault forms lever).causes &&& (runDefault forms lever).mask != 0) = true ↔ _
    cases forms <;> cases lever <;> decide

/-- The identity code map (R41). -/
theorem codeMapEntry_default {set code : Nat} (hs : set < 4) (hc : code < 256) :
    codeMapEntry codeMapDefault set code = code := by
  have hpage : codeMapDefault.getD (4 * set + code / 64) [] =
      (List.range 64).flatMap fun i => [0, BitVec.ofNat 8 ((4 * set + code / 64) % 4 * 64 + i)] := by
    simp [codeMapDefault, show 4 * set + code / 64 < 16 by omega]
  rw [codeMapEntry, hpage, ← Nat.add_zero (2 * (code % 64)), fieldAt_blocks (k := 2) (fun _ => rfl) (by omega) (le_refl 2)]
  simp [fieldAt, byteAt]
  omega

theorem strikeEntry_default {fc band : Nat} (hf : fc < 8) (hb : band < 4) :
    strikeEntry strikeDefault fc band = 45 + 7 * fc - 2 * band := by
  rw [strikeEntry, strikeDefault, byteAt_map_range (by omega), show (fc * 4 + band) / 4 = fc by omega,
    show (fc * 4 + band) % 4 = band by omega, BitVec.toNat_ofNat]
  omega

/-- The cruise and ramp of a default profile page (R48). -/
theorem profilePage_read {t r : Nat} (ht : t ≤ 2000) (hr : r ≤ 200) (hr0 : 0 < r) :
    pageCruise (profilePage t r) = t ∧ pageRamp (profilePage t r) = (List.range r).map (rampDefault t r) := by
  have hlen : pageRampLen (profilePage t r) = r := by
    rw [pageRampLen, profilePage, byteAt_append_left (by simp)]
    show r % 256 = r
    omega
  refine ⟨?_, ?_⟩
  · rw [pageCruise, profilePage, fieldAt_append_left (by simp)]
    simp [fieldAt, byteAt]
    omega
  · rw [pageRamp, hlen]
    refine List.map_congr_left fun i hi => ?_
    have hi := List.mem_range.mp hi
    have hv : rampDefault t r i ≤ 2000 := by
      unfold rampDefault
      have : (2000 - t) * (r - 1 - i) / r ≤ 2000 - t :=
        Nat.div_le_of_le_mul (by rw [Nat.mul_comm r]; exact Nat.mul_le_mul_left _ (by omega))
      omega
    rw [profilePage, fieldAt_append_right (i := 2 * i + 0) (by simp),
      fieldAt_blocks (k := 2) (fun _ => rfl) (by omega) (le_refl 2)]
    simp [hi, fieldAt, byteAt]
    omega

/-- Settles O14. -/
theorem powerOnTables : Obligations.PowerOnTables := by
  refine fun straps home forms lever s => ⟨_, rfl, fun set hs code hc => codeMapEntry_default hs hc, fun slot h1 h2 => ?_,
    fun fc hf band hb => strikeEntry_default hf hb, fun c hc => ?_⟩
  · show glyphPage (List.replicate 64 blankGlyph) slot = blankGlyph
    rw [glyphPage, if_neg (by omega), List.getD_eq_getElem _ _ (by rw [List.length_replicate]; omega),
      List.getElem_replicate]
  · have page : ∀ t r, t ≤ 2000 → r ≤ 200 → 0 < r → profilesDefault.getD c [] = profilePage t r →
        (liveProfile tablesDefault c).cruise = t ∧
          (liveProfile tablesDefault c).ramp = (List.range r).map (rampDefault t r) := by
      intro t r ht hr hr0 h
      simp only [liveProfile, liveCruise, livePage, tablesDefault, h]
      exact profilePage_read ht hr hr0
    match c, hc with
    | 0, _ => exact page 125 64 (by decide) (by decide) (by decide) rfl
    | 1, _ => exact page 167 48 (by decide) (by decide) (by decide) rfl
    | 2, _ => exact page 250 32 (by decide) (by decide) (by decide) rfl
    | 3, _ => exact page 500 16 (by decide) (by decide) (by decide) rfl

end Sys2Proof.Machine
end

