-- ==== Sys2Proof/Proofs/Pages.lean ====
section
/-! PROOFS. Pages: the clamps of a page made live, the check of a profile page, and what a STAGE does
(03_tables_and_their_loading.md). -/

namespace Sys2Proof.Machine

/-! ## The clamps (R42, R44, R46, R47) -/

theorem fieldAt_clampCodeMap (p : Page) {i : Nat} (h : i < 64) :
    fieldAt (clampCodeMap p) (2 * i) 2 = if fieldAt p (2 * i) 2 ≤ 447 then fieldAt p (2 * i) 2 else 511 := by
  rw [clampCodeMap, ← Nat.add_zero (2 * i), fieldAt_blocks (k := 2) (fun _ => length_toBytes _ 2) h (le_refl 2), Nat.add_zero,
    fieldAt_toBytes_of_lt]
  split <;> omega

theorem byteAt_clampGlyph (p : Page) : byteAt (clampGlyph p) 0 = min 15 (max 1 (byteAt p 0)) ∧
    byteAt (clampGlyph p) 1 = min 12 (byteAt p 1) := by
  refine ⟨?_, ?_⟩
  · show clamp 1 15 (byteAt p 0) % 256 = _
    unfold clamp
    omega
  · show min 12 (byteAt p 1) % 256 = _
    omega

theorem fieldAt_clampGlyph (p : Page) {i : Nat} (h : i < 12) :
    fieldAt (clampGlyph p) (2 + 3 * i) 3 = fieldAt p (2 + 3 * i) 3 % 2 ^ 18 := by
  have hblock := fieldAt_blocks (k := 3) (j := 0) (m := 3) (f := fun i => maskBytes (maskAt p (2 + 3 * i)))
    (fun _ => length_toBytes _ 3) h (le_refl 3)
  rw [Nat.add_zero] at hblock
  rw [clampGlyph, Nat.add_comm 2, show 3 * i + 2 = 3 * i + 1 + 1 from rfl, fieldAt_cons_succ, fieldAt_cons_succ,
    hblock, maskBytes, fieldAt_toBytes_of_lt, maskAt, BitVec.toNat_ofNat, Nat.add_comm 2]
  exact lt_trans (BitVec.isLt _) (by decide)

theorem byteAt_clampStrike (p : Page) {i : Nat} (h : i < 32) :
    byteAt (clampStrike p) i = min 125 (max 25 (byteAt p i)) := by
  rw [clampStrike, byteAt_map_range h, BitVec.toNat_ofNat, clamp]
  omega

theorem byteAt_clampProfile_eq {p : Page} (hl : p.length = 403) (hr : byteAt p 2 ≤ 200) (i : Nat) :
    byteAt (clampProfile p) i = if i < 3 + 2 * byteAt p 2 then byteAt p i else 0 := by
  split
  · exact byteAt_clampProfile p i ‹_›
  · rename_i h
    have hlen : (p.take (3 + 2 * pageRampLen p)).length = 3 + 2 * byteAt p 2 := by
      rw [List.length_take, pageRampLen]
      omega
    rw [clampProfile, byteAt_append_right (i := i - (3 + 2 * byteAt p 2)) (by rw [hlen]; omega)]
    simp only [byteAt, List.getD_eq_getElem?_getD, List.getElem?_replicate]
    split <;> rfl

/-! ## The check of a profile page (R49) -/

theorem nonIncreasing_iff {l : List Nat} :
    nonIncreasing l = true ↔ ∀ i, ∀ h : i + 1 < l.length, l[i + 1] ≤ l[i] := by
  induction l with
  | nil => simp [nonIncreasing]
  | cons a rest ih =>
    cases rest with
    | nil => simp [nonIncreasing]
    | cons b rest =>
      rw [nonIncreasing, Bool.and_eq_true, ih, decide_eq_true_eq]
      constructor
      · rintro ⟨h0, h⟩ i hi
        cases i with
        | zero => exact h0
        | succ i => exact h i (Nat.lt_of_succ_lt_succ hi)
      · intro h
        exact ⟨h 0 (Nat.succ_lt_succ (Nat.succ_pos _)), fun i hi => h (i + 1) (Nat.succ_lt_succ hi)⟩

theorem profileValid_iff (t : Tables) (c : Nat) (p : Page) :
    let cruise := fieldAt p 0 2
    let r := byteAt p 2
    let ramp (i : Nat) : Nat := fieldAt p (3 + 2 * i) 2
    let live (k : Nat) : Nat := fieldAt (livePage t .profile k) 0 2
    (profileValid t c p = true ↔
      50 ≤ cruise ∧ cruise ≤ 2000 ∧ 1 ≤ r ∧ r ≤ 200 ∧ (∀ i < r, cruise ≤ ramp i ∧ ramp i ≤ 20000) ∧
      (∀ i, i + 1 < r → ramp (i + 1) ≤ ramp i) ∧ (0 < c → live (c - 1) ≤ cruise) ∧ (c < 3 → cruise ≤ live (c + 1))) := by
  intro cruise r ramp live
  have hall : (pageRamp p).all (fun v => decide (pageCruise p ≤ v ∧ v ≤ 20000)) = true ↔
      ∀ i < r, cruise ≤ ramp i ∧ ramp i ≤ 20000 := by
    simp only [pageRamp, List.all_map, List.all_eq_true, List.mem_range, Function.comp, decide_eq_true_eq]
    rfl
  have hfall : nonIncreasing (pageRamp p) = true ↔ ∀ i, i + 1 < r → ramp (i + 1) ≤ ramp i := by
    simp only [nonIncreasing_iff, pageRamp, List.length_map, List.length_range, List.getElem_map, List.getElem_range]
    rfl
  have hlo : decide (c = 0) = true ∨ decide (liveCruise t (c - 1) ≤ pageCruise p) = true ↔
      (0 < c → live (c - 1) ≤ cruise) := by
    simp only [decide_eq_true_eq, Nat.pos_iff_ne_zero]
    exact Decidable.or_iff_not_imp_left
  have hhi : decide (3 ≤ c) = true ∨ decide (pageCruise p ≤ liveCruise t (c + 1)) = true ↔
      (c < 3 → cruise ≤ live (c + 1)) := by
    simp only [decide_eq_true_eq, ← Nat.not_le (a := 3)]
    exact Decidable.or_iff_not_imp_left
  rw [profileValid, Bool.and_eq_true, Bool.and_eq_true, Bool.and_eq_true, Bool.and_eq_true, Bool.and_eq_true, hall, hfall,
    Bool.or_eq_true, Bool.or_eq_true, hlo, hhi, decide_eq_true_eq, decide_eq_true_eq]
  simp only [and_assoc]
  rfl

/-- Settles O23. -/
theorem livePagesClamped : Obligations.LivePagesClamped :=
  ⟨fun p => ⟨fun _ hi => fieldAt_clampCodeMap p hi, (byteAt_clampGlyph p).1, (byteAt_clampGlyph p).2,
    fun _ hi => fieldAt_clampGlyph p hi, fun _ hi => byteAt_clampStrike p hi, length_clampCodeMap p, length_clampGlyph p,
    length_clampStrike p, fun hl hr => ⟨length_clampProfile hl hr, fun i _ => byteAt_clampProfile_eq hl hr i⟩⟩,
    fun t c p _ => profileValid_iff t c p⟩

/-! ## The stage buffer (R51 to R55) -/

/-- The data lie from the cursor on as far as the page reaches, and the cursor stands after them (R52, R53). -/
theorem writeStage_eq (data : List Byte) {b : Binding} (hl : b.bytes.length = b.table.pageSize)
    (hc : b.cursor ≤ b.table.pageSize) : writeStage data b =
      { b with
        cursor := min b.table.pageSize (b.cursor + data.length),
        bytes := b.bytes.take b.cursor ++ data.take (b.table.pageSize - b.cursor) ++
          b.bytes.drop (b.cursor + data.length) } := by
  induction data generalizing b with
  | nil =>
    rw [writeStage, List.length_nil, Nat.add_zero, Nat.min_eq_right hc, List.take_nil, List.append_nil,
      List.take_append_drop]
  | cons d rest ih =>
    unfold writeStage
    split
    · rename_i hlt
      rw [ih (b := { b with bytes := b.bytes.set b.cursor d, cursor := b.cursor + 1 })
        (by rw [List.length_set]; exact hl) hlt]
      have htake : (b.bytes.set b.cursor d).take (b.cursor + 1) = b.bytes.take b.cursor ++ [d] := by
        rw [List.take_succ_eq_append_getElem (by rw [List.length_set]; omega), List.take_set_of_le (le_refl _),
          List.getElem_set_self]
      have hdata : (d :: rest).take (b.table.pageSize - b.cursor) = d :: rest.take (b.table.pageSize - (b.cursor + 1)) := by
        rw [show b.table.pageSize - b.cursor = b.table.pageSize - (b.cursor + 1) + 1 by omega, List.take_succ_cons]
      have hdrop : (b.bytes.set b.cursor d).drop (b.cursor + 1 + rest.length) =
          b.bytes.drop (b.cursor + (d :: rest).length) := by
        rw [List.drop_set_of_lt (by omega), List.length_cons, Nat.add_assoc, Nat.add_comm 1]
      simp only [htake, hdata, hdrop, List.append_assoc, List.singleton_append, List.length_cons]
      rw [Nat.add_assoc, Nat.add_comm 1]
    · rename_i hge
      have h0 : b.table.pageSize - b.cursor = 0 := by omega
      rw [h0, List.take_zero, List.append_nil, List.take_of_length_le (by omega), List.drop_of_length_le (by omega),
        List.append_nil, Nat.min_eq_left (by omega), show b.table.pageSize = b.cursor by omega]

/-- The stage bound to a page with data written from an offset, SS latched when some of them do not fit. -/
theorem stageWritten_eq {id : TableId} {n offset c : Nat} {old : Page} (data : List Byte) (s : State)
    (hl : old.length = id.pageSize) :
    let o := min offset id.pageSize
    stageWritten (seekStage offset { table := id, page := n, cursor := c, bytes := old }) data s =
      { s with
        stage := .bound
          { table := id, page := n, cursor := min id.pageSize (o + data.length),
            bytes := old.take o ++ data.take (id.pageSize - o) ++ old.drop (o + data.length) },
        run := { s.run with
          causes := if id.pageSize < o + data.length then s.run.causes ||| Cause.SS.bit else s.run.causes } } := by
  intro o
  rw [stageWritten, seekStage, writeStage_eq data hl (Nat.min_le_right _ _), latchIf]
  simp only [stageSpills, decide_eq_true_eq]
  split <;> rfl

theorem exec_stage {table : Byte} {page offset : BitVec 16} {clear : Bool} {data : List Byte} (s : State)
    (h : data.length ≤ 1000) : exec (.stage table page offset clear data) s =
      .next (takeStage table.toNat page.toNat offset.toNat clear data s) :=
  if_neg (by omega)

/-- Settles O22: the stage's state, the page named and clear-first decide between a refusal, a clearing and a writing. -/
theorem stagesJudged : Obligations.StagesJudged := by
  refine ⟨fun table page offset clear data s hd => ⟨fun h => ?_, fun id n h => ⟨fun hst => ?_, fun hst b hb => ?_,
    fun hst b hb hcl hne => ?_⟩⟩, fun table page offset id n s h hst hheld => ?_,
    fun table page offset clear data id n old s hd h hst hl hcase => ?_⟩
  · have e : takeStage table.toNat page.toNat offset.toNat clear data s = latch .TR s := by simp only [takeStage, h]
    rw [exec_stage s hd, e]
    rfl
  · have e : takeStage table.toNat page.toNat offset.toNat clear data s = latch .TR s := by
      simp [takeStage, h, hst]
    rw [exec_stage s hd, e]
    rfl
  · have e : takeStage table.toNat page.toNat offset.toNat clear data s = latch .SB s := by
      simp [takeStage, h, hst, hb]
    rw [exec_stage s hd, e]
    rfl
  · have e : takeStage table.toNat page.toNat offset.toNat clear data s = latch .SB s := by
      simp [takeStage, h, hst, hb, hcl, hne]
    rw [exec_stage s hd, e]
    rfl
  · have e : takeStage table.toNat page.toNat offset.toNat true [] s = s.setStage .empty := by
      simp only [takeStage, h, hst, if_true]
      cases hb : s.stage with
      | empty =>
        show s = s.setStage .empty
        rw [← hb]
        rfl
      | bound b => rfl
      | held b => exact absurd hb (hheld b)
    rw [exec_stage s (Nat.zero_le _), e]
    rfl
  · rw [exec_stage s hd]
    rcases hcase with ⟨hs, hne, rfl⟩ | ⟨⟨b, hs⟩, rfl, hne, rfl⟩ | ⟨⟨b, hs, rfl, rfl, rfl⟩, rfl⟩
    · have e : takeStage table.toNat page.toNat offset.toNat clear data s =
          stageWritten (freshBinding s.tables id n offset.toNat) data s := by
        have hwrites : ¬(clear && data.isEmpty) = true := by simpa using hne
        simp only [takeStage, h, hst, hs, hwrites, if_true, if_false, Bool.false_eq_true]
      rw [e, freshBinding, stageWritten_eq data s hl]
    · have e : takeStage table.toNat page.toNat offset.toNat true data s =
          stageWritten (freshBinding s.tables id n offset.toNat) data s := by
        have hwrites : ¬data.isEmpty = true := by simpa using hne
        simp only [takeStage, h, hst, hs, hwrites, if_true, if_false, Bool.false_eq_true]
      rw [e, freshBinding, stageWritten_eq data s hl]
    · have e : takeStage table.toNat page.toNat offset.toNat false data s =
          stageWritten (seekStage offset.toNat b) data s := by
        simp only [takeStage, h, hst, hs, and_self, if_true, if_false, Bool.false_eq_true]
      rw [e, stageWritten_eq (c := b.cursor) data s hl]

end Sys2Proof.Machine
end

