-- ==== Sys2Proof/Proofs/Records.lean ====
section
/-! PROOFS. Records read back, replies and STATUS, and the attention outputs (11_record_formats.md; R15 to R17, R59, R60,
R166, R168, R171, R172). -/

namespace Sys2Proof.Machine

/-! ## Fields laid one after another -/

/-- A field that lies at the start of a piece. -/
theorem fieldAt_flatten {pieces : List (List Byte)} {k i n : Nat} (hk : k < pieces.length)
    (hi : i = ((pieces.map List.length).take k).sum) (hn : n ≤ pieces[k].length) :
    fieldAt pieces.flatten i n = fieldAt pieces[k] 0 n := by
  induction pieces generalizing k i with
  | nil => cases hk
  | cons p rest ih =>
    cases k with
    | zero =>
      subst hi
      exact fieldAt_append_left (by simpa using hn)
    | succ k =>
      rw [List.map_cons, List.take_succ_cons, List.sum_cons] at hi
      rw [List.flatten_cons, fieldAt_append_right hi, List.getElem_cons_succ]
      exact ih (Nat.lt_of_succ_lt_succ hk) rfl hn

theorem toBytes_two (v : Nat) : toBytes v 2 = [BitVec.ofNat 8 (v / 256), BitVec.ofNat 8 v] := by simp [toBytes]

/-- A field of two bytes read back. -/
theorem ofNat_two (v : BitVec 16) : BitVec.ofNat 16 (v.toNat / 256 % 256 * 256 + v.toNat % 256) = v := by
  apply BitVec.eq_of_toNat_eq
  simp only [BitVec.toNat_ofNat]
  omega

/-! ## A SET's payload -/

/-- The fields of a SET as sent, in the order of their bits. -/
def setPieces (f : SetFields) : List (List Byte) :=
  [fieldBytes 2 f.tRec, fieldBytes 1 f.qualityFloor, fieldBytes 2 f.substSlot, fieldBytes 1 f.formsClass,
    fieldBytes 1 f.bidirectional, fieldBytes 1 f.alignment, fieldBytes 2 f.flightTime, fieldBytes 3 f.hWarm,
    fieldBytes 3 f.hHot, fieldBytes 3 f.hLimit, fieldBytes 1 f.tearDelay]

theorem setPayload_eq (f : SetFields) : setPayload f = (toBytes (presenceSet f) 2 :: setPieces f).flatten := by
  simp [setPayload, setPieces]

/-- Which fields a SET names. -/
def setNamed (f : SetFields) : List Bool :=
  [f.tRec.isSome, f.qualityFloor.isSome, f.substSlot.isSome, f.formsClass.isSome, f.bidirectional.isSome,
    f.alignment.isSome, f.flightTime.isSome, f.hWarm.isSome, f.hHot.isSome, f.hLimit.isSome, f.tearDelay.isSome]

theorem toNat_le_one (b : Bool) : b.toNat ≤ 1 := by cases b <;> decide

theorem presenceSet_lt (f : SetFields) : presenceSet f < 2048 := by
  have h0 := toNat_le_one f.tRec.isSome
  have h1 := toNat_le_one f.qualityFloor.isSome
  have h2 := toNat_le_one f.substSlot.isSome
  have h3 := toNat_le_one f.formsClass.isSome
  have h4 := toNat_le_one f.bidirectional.isSome
  have h5 := toNat_le_one f.alignment.isSome
  have h6 := toNat_le_one f.flightTime.isSome
  have h7 := toNat_le_one f.hWarm.isSome
  have h8 := toNat_le_one f.hHot.isSome
  have h9 := toNat_le_one f.hLimit.isSome
  have h10 := toNat_le_one f.tearDelay.isSome
  unfold presenceSet
  omega

/-- A number whose binary digits are given has them. -/
theorem testBit_of_digits {v : Nat} {bs : List Bool} (h : v = (bs.map Bool.toNat).foldr (fun b n => b + 2 * n) 0) (k : Nat) :
    v.testBit k = bs.getD k false := by
  induction bs generalizing v k with
  | nil => simp [h]
  | cons b rest ih =>
    subst h
    simp only [List.map_cons, List.foldr_cons]
    cases k with
    | zero => cases b <;> simp [Nat.testBit_zero, Nat.add_mod]
    | succ k =>
      rw [Nat.testBit_succ, List.getD_cons_succ, ← ih rfl k]
      congr 1
      have := toNat_le_one b
      omega

/-- Bit k of a presence set is set when field k is named. -/
theorem testBit_presenceSet (f : SetFields) (k : Nat) : (presenceSet f).testBit k = (setNamed f).getD k false := by
  refine testBit_of_digits ?_ k
  simp only [setNamed, List.map_cons, List.map_nil, List.foldr_cons, List.foldr_nil, presenceSet]
  omega

theorem presentSizes_presenceSet (f : SetFields) : presentSizes (presenceSet f) = (setPieces f).map List.length := by
  simp only [presentSizes, testBit_presenceSet, setPieces, List.map_cons, List.map_nil, length_fieldBytes]
  rfl

theorem fieldAt_setPayload_zero (f : SetFields) : fieldAt (setPayload f) 0 2 = presenceSet f := by
  rw [setPayload_eq, List.flatten_cons, fieldAt_append_left (by simp [length_toBytes]), fieldAt_toBytes_of_lt]
  exact lt_trans (presenceSet_lt f) (by decide)

/-- Field k of a SET's payload reads back as the field itself. -/
theorem setField_setPayload (f : SetFields) {k w n : Nat} (field : Option (BitVec w)) (hk : k < 11) (hw : w = 8 * n)
    (hn : setSizes.getD k 0 = n) (hp : (setPieces f)[k]'hk = fieldBytes n field)
    (hs : (setNamed f).getD k false = field.isSome) :
    (setField (setPayload f) k).map (BitVec.ofNat w) = field := by
  rw [setField, fieldAt_setPayload_zero, testBit_presenceSet, hs, hn, presentSizes_presenceSet]
  cases field with
  | none => rfl
  | some v =>
    have hlt : v.toNat < 256 ^ n := by
      rw [show 256 ^ n = 2 ^ w by rw [hw, Nat.pow_mul]]
      exact v.isLt
    have hlen : n ≤ ((setPieces f)[k]'hk).length := by rw [hp, length_fieldBytes]; exact le_rfl
    rw [setPayload_eq, List.flatten_cons, fieldAt_append_right (i := (((setPieces f).map List.length).take k).sum)
      (by rw [length_toBytes]), fieldAt_flatten hk rfl hlen, hp, fieldBytes, fieldAt_toBytes_of_lt hlt]
    simp

theorem setFieldsOf_setPayload (f : SetFields) : setFieldsOf (setPayload f) = f := by
  unfold setFieldsOf
  rw [setField_setPayload f f.tRec (by decide) rfl rfl rfl rfl,
    setField_setPayload f f.qualityFloor (by decide) rfl rfl rfl rfl,
    setField_setPayload f f.substSlot (by decide) rfl rfl rfl rfl,
    setField_setPayload f f.formsClass (by decide) rfl rfl rfl rfl,
    setField_setPayload f f.bidirectional (by decide) rfl rfl rfl rfl,
    setField_setPayload f f.alignment (by decide) rfl rfl rfl rfl,
    setField_setPayload f f.flightTime (by decide) rfl rfl rfl rfl,
    setField_setPayload f f.hWarm (by decide) rfl rfl rfl rfl,
    setField_setPayload f f.hHot (by decide) rfl rfl rfl rfl,
    setField_setPayload f f.hLimit (by decide) rfl rfl rfl rfl,
    setField_setPayload f f.tearDelay (by decide) rfl rfl rfl rfl]

theorem setConsistent_setPayload (f : SetFields) : setConsistent (setPayload f) = true := by
  rw [setConsistent, decide_eq_true_eq, fieldAt_setPayload_zero, presentSizes_presenceSet, setPayload_eq,
    List.flatten_cons, List.length_append, length_toBytes, List.length_flatten]

/-! ## Every record reads back (R171) -/

theorem qRecordOf_payload (r : QRecord) : qRecordOf r.kind r.payload = some r := by
  cases r with
  | set f =>
    simp only [QRecord.kind, QRecord.payload, qRecordOf, setConsistent_setPayload, setFieldsOf_setPayload, if_true]
  | lineFirst h more runs =>
    have hflags : (BitVec.ofNat 8 (1 + 2 * more.toNat)).getLsbD 0 = true ∧
        (BitVec.ofNat 8 (1 + 2 * more.toNat)).getLsbD 1 = more := by cases more <;> decide
    simp only [QRecord.kind, QRecord.payload, qRecordOf, toBytes_two, List.cons_append, List.nil_append, lineHeaderOf,
      List.getD_cons_zero, List.getD_cons_succ, hflags, if_true]
    simp [fieldAt, byteAt, ofNat_two]
  | lineCont more runs =>
    have hflags : (BitVec.ofNat 8 (2 * more.toNat)).getLsbD 0 = false ∧
        (BitVec.ofNat 8 (2 * more.toNat)).getLsbD 1 = more := by cases more <;> decide
    simp only [QRecord.kind, QRecord.payload, qRecordOf, List.cons_append, List.getD_cons_zero, hflags]
    rfl
  | advance | commit | form | geometry =>
    simp only [QRecord.kind, QRecord.payload, qRecordOf, toBytes_two, List.cons_append, List.nil_append]
    simp [fieldAt, byteAt, ofNat_two]

theorem nRecordOf_payload (r : NRecord) : nRecordOf r.kind r.payload = some r := by
  cases r with
  | query | halt | go | drop | reset => rfl
  | ack causes mask =>
    cases mask <;> simp [NRecord.kind, NRecord.payload, nRecordOf, fieldBytes, toBytes_two, fieldAt, byteAt, ofNat_two]
  | stage table page offset clear data =>
    have hflag : (BitVec.ofNat 8 clear.toNat).getLsbD 0 = clear := by cases clear <;> decide
    simp only [NRecord.kind, NRecord.payload, nRecordOf, toBytes_two, List.cons_append, List.nil_append,
      List.getD_cons_zero, List.getD_cons_succ, hflag]
    simp [fieldAt, byteAt, ofNat_two]
  | read table page source =>
    simp only [NRecord.kind, NRecord.payload, nRecordOf, toBytes_two, List.cons_append, List.nil_append]
    simp [fieldAt, byteAt, ofNat_two]

/-- Settles O18. -/
theorem payloadReadBack : Obligations.PayloadReadBack := ⟨qRecordOf_payload, nRecordOf_payload⟩

/-! ## Replies (R15, R16) -/

theorem foldl_sum_append (l : List Byte) (b : Byte) : (l ++ [b]).foldl (· + ·) 0 = l.foldl (· + ·) 0 + b := by
  rw [List.foldl_append]
  rfl

theorem frameSum_frameOf (kind : Byte) (payload : List Byte) : frameSum (frameOf kind payload) = 0 := by
  show ((kind :: toBytes payload.length 2 ++ payload) ++ [checkByte (kind :: toBytes payload.length 2 ++ payload)]).foldl
    (· + ·) 0 = 0
  rw [foldl_sum_append]
  exact BitVec.add_right_neg _

theorem frameOf_eq (kind : Byte) (payload : List Byte) : frameOf kind payload =
    0xC3 :: kind :: BitVec.ofNat 8 (payload.length / 256) :: BitVec.ofNat 8 payload.length ::
      (payload ++ [checkByte (kind :: toBytes payload.length 2 ++ payload)]) := by
  simp [frameOf, toBytes_two, syncByte]

theorem frameLength_frameOf (kind : Byte) {payload : List Byte} (h : payload.length < 65536) :
    frameLength (frameOf kind payload) = payload.length := by
  rw [frameOf_eq]
  simp [frameLength, fieldAt, byteAt]
  omega

theorem answer_room {s : State} (f : List Byte) (h : s.intake.replies.length < 4) :
    answer f s = { s with intake := { s.intake with replies := s.intake.replies ++ [f] } } := if_pos h

theorem answer_full {s : State} (f : List Byte) (h : 4 ≤ s.intake.replies.length) :
    answer f s = { s with intake := { s.intake with unanswered := min 255 (s.intake.unanswered + 1) } } :=
  if_neg (Nat.not_lt.mpr h)

/-- Settles O20. -/
theorem requestsAnswered : Obligations.RequestsAnswered := by
  refine ⟨fun table page source s h => ?_, fun table page source s h => ⟨congrArg _ (answer_full _ h), congrArg _ (answer_full _ h)⟩,
    fun kind payload h => ⟨length_frameOf kind payload, ?_, frameLength_frameOf kind h, ?_, frameSum_frameOf kind payload⟩,
    fun f rest s h => ?_⟩
  · have read : ∀ p, tablePayload table page source s = p →
        exec (.read table page source) s =
          .next { s with intake := { s.intake with replies := s.intake.replies ++ [frameOf 0xC1 p] } } := by
      rintro p rfl
      exact congrArg _ (answer_room _ h)
    refine ⟨congrArg _ (answer_room _ h), fun hn => read _ ?_, fun id n hn =>
      ⟨fun hs => read _ ?_, fun hs p hp => read _ ?_, fun hs hp => read _ ?_⟩⟩
    · simp [tablePayload, hn]
    · simp [tablePayload, hn, hs]
    · have hs : ¬source = 0#8 := hs
      simp [tablePayload, hn, hs, hp]
    · have hs : ¬source = 0#8 := hs
      simp [tablePayload, hn, hs, hp]
  · rw [frameOf_eq]
    rfl
  · rw [frameOf_eq]
    exact List.take_left ..
  · show Host.Outcome.next (s.updIntake fun i => { i with replies := i.replies.drop 1 }) = _
    rw [State.updIntake, h]
    rfl

/-! ## STATUS (R172) -/

/-- The fields of a STATUS payload, one after another. -/
def statusPieces (s : State) : List (List Byte) :=
  [toBytes s.run.executor.code 1, toBytes s.run.reason.code 1, toBytes s.forms.paper.code 1,
    toBytes s.run.causes.toNat 2, toBytes (firstCause s.run.causes) 1, toBytes s.run.mask.toNat 2,
    toBytes s.queue.entries.length 1, toBytes s.queue.arenaFree 2,
    toBytes s.stage.code 1, toBytes ((s.stage.binding.map (·.table.code)).getD 0) 1,
    toBytes ((s.stage.binding.map (·.page)).getD 0) 2, toBytes ((s.stage.binding.map (·.cursor)).getD 0) 2,
    toBytes s.buffers.one.code 1, toBytes s.buffers.two.code 1,
    toBytes (positionCode s.carriage.position) 2, toBytes s.carriage.drive.code 1,
    toBytes s.heat.level 3, toBytes s.heat.band 1,
    toBytes s.forms.position 2, toBytes s.forms.length 2, toBytes s.forms.count 2,
    toBytes (s.forms.tracking.getD 0xFFFF) 2, maskBytes s.firing.dead, toBytes s.run.locked.toNat 1,
    toBytes s.builder.suppressed 2, toBytes s.firing.deadDots 2, toBytes s.builder.clipped 2,
    toBytes s.intake.frameFaults 1, toBytes s.intake.unanswered 1]

theorem statusPayload_eq (s : State) : statusPayload s = (statusPieces s).flatten := by
  unfold statusPayload statusPieces
  simp only [List.append_assoc]
  rfl

/-- The widths of the STATUS fields, in their order. -/
def statusWidths : List Nat :=
  [1, 1, 1, 2, 1, 2, 1, 2, 1, 1, 2, 2, 1, 1, 2, 1, 3, 1, 2, 2, 2, 2, 3, 1, 2, 2, 2, 1, 1]

theorem statusPieces_widths (s : State) : (statusPieces s).map List.length = statusWidths := by
  simp only [statusPieces, statusWidths, List.map_cons, List.map_nil, length_toBytes, maskBytes]

/-- A number at its place in a STATUS payload, where its bytes can hold it. -/
theorem fieldAt_status (s : State) {k i n v : Nat} (hk : k < 29) (hp : (statusPieces s)[k]'hk = toBytes v n)
    (hi : i = (statusWidths.take k).sum) (hv : v < 256 ^ n) : fieldAt (statusPayload s) i n = v := by
  rw [statusPayload_eq, fieldAt_flatten hk (by rw [statusPieces_widths, hi]) (by rw [hp, length_toBytes]), hp,
    fieldAt_toBytes_of_lt hv]

theorem byteAt_status (s : State) {k i v : Nat} (hk : k < 29) (hp : (statusPieces s)[k]'hk = toBytes v 1)
    (hi : i = (statusWidths.take k).sum) (hv : v < 256) : byteAt (statusPayload s) i = v := by
  rw [← fieldAt_one]
  exact fieldAt_status s hk hp hi (by omega)

theorem firstCause_le (c : CauseSet) : firstCause c ≤ 15 := by
  unfold firstCause
  split
  · rename_i h
    have := List.mem_range.mp (List.mem_of_find?_eq_some h)
    omega
  · omega

theorem Heat.band_le (h : Heat) : h.band ≤ 3 := by
  unfold Heat.band
  split <;> (try split) <;> (try split) <;> omega

theorem code_lt (s : State) : s.run.executor.code < 256 ∧ s.run.reason.code < 256 ∧ s.forms.paper.code < 256 ∧
    s.stage.code < 256 ∧ s.carriage.drive.code < 256 ∧ s.run.locked.toNat < 256 := by
  refine ⟨?_, ?_, ?_, ?_, ?_, ?_⟩
  · cases s.run.executor <;> decide
  · cases s.run.reason <;> decide
  · cases s.forms.paper <;> decide
  · cases s.stage <;> simp [Stage.code]
  · cases s.carriage.drive <;> simp [Drive.code]
  · cases s.run.locked <;> decide

theorem Buffer.code_lt (b : Buffer) : b.code < 256 := by
  cases b <;> simp [Buffer.code]

theorem causeSet_lt (c : CauseSet) : c.toNat < 256 ^ 2 := lt_trans c.isLt (by decide)

/-- The stage fields of STATUS: state, table, page and cursor, 0 where the stage keeps none. -/
theorem stage_status (s : State) :
    byteAt (statusPayload s) 11 = s.stage.code ∧
    (s.stage = .empty → fieldAt (statusPayload s) 12 1 = 0 ∧ fieldAt (statusPayload s) 13 2 = 0 ∧
      fieldAt (statusPayload s) 15 2 = 0) ∧
    ∀ b, s.stage.binding = some b → b.page < 448 → b.cursor ≤ 403 →
      byteAt (statusPayload s) 12 = b.table.code ∧ fieldAt (statusPayload s) 13 2 = b.page ∧
        fieldAt (statusPayload s) 15 2 = b.cursor := by
  obtain ⟨-, -, -, hstage, -⟩ := code_lt s
  have h12 : ∀ v, (s.stage.binding.map (·.table.code)).getD 0 = v → v < 256 → fieldAt (statusPayload s) 12 1 = v := by
    rintro v rfl hv
    exact fieldAt_status s (k := 9) (by decide) rfl rfl (by omega)
  have h13 : ∀ v, (s.stage.binding.map (·.page)).getD 0 = v → v < 256 ^ 2 → fieldAt (statusPayload s) 13 2 = v := by
    rintro v rfl hv
    exact fieldAt_status s (k := 10) (by decide) rfl rfl hv
  have h15 : ∀ v, (s.stage.binding.map (·.cursor)).getD 0 = v → v < 256 ^ 2 → fieldAt (statusPayload s) 15 2 = v := by
    rintro v rfl hv
    exact fieldAt_status s (k := 11) (by decide) rfl rfl hv
  refine ⟨byteAt_status s (k := 8) (by decide) rfl rfl hstage, fun h => ?_, fun b hb hp hc => ?_⟩
  · exact ⟨h12 0 (by rw [h]; rfl) (by decide), h13 0 (by rw [h]; rfl) (by decide), h15 0 (by rw [h]; rfl) (by decide)⟩
  · rw [← fieldAt_one]
    exact ⟨h12 _ (by rw [hb]; rfl) (by cases b.table <;> decide), h13 _ (by rw [hb]; rfl) (by omega),
      h15 _ (by rw [hb]; rfl) (by omega)⟩

/-- Settles O21: each field is a piece of the payload, and the codes are those of the table. -/
theorem statusLayout : Obligations.StatusLayout := by
  intro s p
  obtain ⟨hex, hre, hpa, hst, hdr, hlo⟩ := code_lt s
  obtain ⟨hstage, hempty, hbound⟩ := stage_status s
  have hpos : ∀ v, positionCode s.carriage.position = v → v < 256 ^ 2 → fieldAt p 19 2 = v := by
    rintro v rfl hv
    exact fieldAt_status s (k := 14) (by decide) rfl rfl hv
  have htrack : ∀ v, s.forms.tracking.getD 0xFFFF = v → v < 256 ^ 2 → fieldAt p 32 2 = v := by
    rintro v rfl hv
    exact fieldAt_status s (k := 21) (by decide) rfl rfl hv
  refine ⟨?length, ?executor, ?reason, ?paper, fieldAt_status s (k := 3) (by decide) rfl rfl (causeSet_lt _),
    byteAt_status s (k := 4) (by decide) rfl rfl (by have := firstCause_le s.run.causes; omega),
    fieldAt_status s (k := 5) (by decide) rfl rfl (causeSet_lt _),
    fun h => byteAt_status s (k := 6) (by decide) rfl rfl (by omega),
    ?arena, fun h => ⟨?empty, hempty h⟩,
    fun b h => ?bound, fun b h => ?held, fun b h hp hc => ?binding,
    ?one, ?two, fun h => hpos _ (by rw [h]; rfl) (by decide), fun x hx h => hpos _ (by rw [h]; rfl) (by omega),
    ?drive, fun h => fieldAt_status s (k := 16) (by decide) rfl rfl (by omega),
    byteAt_status s (k := 17) (by decide) rfl rfl (by have := s.heat.band_le; omega),
    fun h => fieldAt_status s (k := 18) (by decide) rfl rfl h,
    fun h => fieldAt_status s (k := 19) (by decide) rfl rfl h,
    fun h => fieldAt_status s (k := 20) (by decide) rfl rfl h,
    fun h => htrack _ (by rw [h]; rfl) (by decide), fun r h hr => htrack _ (by rw [h]; rfl) (by omega),
    fieldAt_status s (k := 22) (by decide) rfl rfl (lt_trans (BitVec.isLt _) (by decide)), ?locked,
    fun ⟨h1, h2, h3, h4, h5⟩ => ⟨fieldAt_status s (k := 24) (by decide) rfl rfl (by omega),
      fieldAt_status s (k := 25) (by decide) rfl rfl (by omega), fieldAt_status s (k := 26) (by decide) rfl rfl (by omega),
      byteAt_status s (k := 27) (by decide) rfl rfl (by omega), byteAt_status s (k := 28) (by decide) rfl rfl (by omega)⟩⟩
  case length =>
    show (statusPayload s).length = 46
    rw [statusPayload_eq, List.length_flatten, statusPieces_widths]
    rfl
  case executor =>
    refine (byteAt_status s (k := 0) (by decide) rfl rfl hex).trans ?_
    cases s.run.executor <;> rfl
  case reason =>
    refine (byteAt_status s (k := 1) (by decide) rfl rfl hre).trans ?_
    cases s.run.reason <;> rfl
  case paper =>
    refine (byteAt_status s (k := 2) (by decide) rfl rfl hpa).trans ?_
    cases s.forms.paper <;> rfl
  case arena =>
    have hfree : fieldAt p 9 2 = s.queue.arenaFree :=
      fieldAt_status s (k := 7) (by decide) rfl rfl (lt_of_le_of_lt (Nat.sub_le _ _) (by decide))
    exact hfree
  case empty => exact hstage.trans (by rw [h]; rfl)
  case bound => exact hstage.trans (by rw [h]; rfl)
  case held => exact hstage.trans (by rw [h]; rfl)
  case binding =>
    obtain ⟨k1, k2⟩ := hbound b (by rcases h with h | h <;> rw [h] <;> rfl) hp hc
    refine ⟨k1.trans ?_, k2⟩
    cases b.table <;> rfl
  case one =>
    refine (byteAt_status s (k := 12) (by decide) rfl rfl s.buffers.one.code_lt).trans ?_
    cases s.buffers.one <;> rfl
  case two =>
    refine (byteAt_status s (k := 13) (by decide) rfl rfl s.buffers.two.code_lt).trans ?_
    cases s.buffers.two <;> rfl
  case drive =>
    refine (byteAt_status s (k := 15) (by decide) rfl rfl hdr).trans ?_
    cases s.carriage.drive <;> rfl
  case locked =>
    refine (byteAt_status s (k := 23) (by decide) rfl rfl hlo).trans ?_
    cases s.run.locked <;> rfl

/-! ## Attention (R166, R168) -/

theorem and_bit_ne_zero (v : CauseSet) (c : Cause) : v &&& c.bit ≠ 0 ↔ v.getLsbD (c.priority - 1) = true := by
  have hp : c.priority - 1 < 15 := by cases c <;> decide
  rw [show c.bit = BitVec.twoPow 15 (c.priority - 1) from rfl, BitVec.and_twoPow]
  cases v.getLsbD (c.priority - 1) with
  | false => simp
  | true =>
    simp only [if_true, iff_true]
    intro h
    have := congrArg (fun w : CauseSet => w.getLsbD (c.priority - 1)) h
    simp [hp] at this

theorem isPending_iff (c : Cause) (s : State) : isPending c s = true ↔ s.run.causes.getLsbD (c.priority - 1) = true := by
  rw [isPending, bne_iff_ne, and_bit_ne_zero]

theorem exists_cause {i : Nat} (h : i < 15) : ∃ c : Cause, c.priority = i + 1 := by
  have hall : ∀ i < 15, ∃ c ∈ [Cause.CF, .PF, .PO, .LO, .HW, .TR, .GL, .SQ, .LN, .FR, .SB, .SS, .CL, .DS, .DR],
      c.priority = i + 1 := by decide
  obtain ⟨c, -, hc⟩ := hall i h
  exact ⟨c, hc⟩

theorem Cause.priority_pos (c : Cause) : 1 ≤ c.priority := by cases c <;> decide

/-- Settles O29. -/
theorem firstCauseAndAttn : Obligations.FirstCauseAndAttn := by
  intro s
  have hnone : (List.range 15).find? (fun i => s.run.causes.getLsbD i) = none ↔ s.run.causes = 0 := by
    rw [List.find?_eq_none]
    constructor
    · intro h
      refine BitVec.eq_of_getLsbD_eq fun i hi => ?_
      simpa using h i (List.mem_range.mpr hi)
    · intro h i _
      simp [h]
  refine ⟨?_, fun hne => ?_, ?_⟩
  · rw [← hnone, firstCause]
    split
    · rename_i i h
      simp [h]
    · rename_i h
      simp [h]
  · cases h : (List.range 15).find? (fun i => s.run.causes.getLsbD i) with
    | none => exact absurd (hnone.mp h) hne
    | some i =>
      have hfirst : firstCause s.run.causes = i + 1 := by rw [firstCause, h]
      obtain ⟨hi, hrange, hleast⟩ := List.find?_range_eq_some.mp h
      obtain ⟨c, hc⟩ := exists_cause (List.mem_range.mp hrange)
      refine ⟨c, (isPending_iff c s).mpr (by rw [hc]; exact hi), by rw [hc, hfirst], fun d hd => ?_⟩
      have hd := (isPending_iff d s).mp hd
      by_contra hlt
      have := d.priority_pos
      have := hleast (d.priority - 1) (by omega)
      rw [hd] at this
      cases this
  · rw [State.attn, bne_iff_ne]
    constructor
    · intro h
      by_contra hno
      push Not at hno
      refine h (BitVec.eq_of_getLsbD_eq fun i hi => ?_)
      obtain ⟨c, hc⟩ := exists_cause hi
      cases hb : (s.run.causes &&& s.run.mask).getLsbD i with
      | false => simp
      | true =>
        rw [BitVec.getLsbD_and, Bool.and_eq_true] at hb
        have hi : c.priority - 1 = i := by omega
        exact absurd (hno c ((isPending_iff c s).mpr (by rw [hi]; exact hb.1)))
          ((and_bit_ne_zero _ _).mpr (by rw [hi]; exact hb.2))
    · rintro ⟨c, hp, hm⟩ h0
      have hp := (isPending_iff c s).mp hp
      have hm := (and_bit_ne_zero _ _).mp hm
      have := congrArg (fun w : CauseSet => w.getLsbD (c.priority - 1)) h0
      simp [hp, hm] at this

end Sys2Proof.Machine
end

