-- ==== Sys2Proof/Proofs/Link.lean ====
section
/-! PROOFS. The bytes of a frame: stored, judged, discarded, and complete (R1 to R9, R11, R12). -/

namespace Sys2Proof.Machine

/-! ## One byte -/

/-- A byte received with room for it while the header or the body of a frame is under reception. -/
theorem receiveByte_header {b : Byte} {s : State} (hf : s.intake.frameState = .header) (hr : s.intake.freeSpace ≠ 0) :
    exec (.receiveByte b true) s = .next (headerByte b s) := by
  show execReceiveByte b true s = _
  simp [execReceiveByte, hf, hr]

theorem receiveByte_body {b : Byte} {s : State} (hf : s.intake.frameState = .body) (hr : s.intake.freeSpace ≠ 0) :
    exec (.receiveByte b true) s = .next (bodyByte b s) := by
  show execReceiveByte b true s = _
  simp [execReceiveByte, hf, hr]

/-- A sync byte in HUNT with room for it starts a frame (R1). -/
theorem receiveByte_sync {s : State} (hf : s.intake.frameState = .hunt) (hr : s.intake.freeSpace ≠ 0) :
    exec (.receiveByte 0xC3 true) s =
      .next { s with intake := { s.intake with frame := [0xC3], frameState := .header, timer := true } } := by
  show execReceiveByte 0xC3 true s = _
  simp [execReceiveByte, hf, hr, syncByte, State.updIntake]

/-- A bad stop bit, or an overrun, in HEADER or BODY (R7, R9). -/
theorem receiveByte_faults {b : Byte} {good : Bool} {s : State} (hf : s.intake.frameState ≠ .hunt)
    (hb : good = false ∨ s.intake.freeSpace = 0) : exec (.receiveByte b good) s = .next (frameFault s) := by
  show execReceiveByte b good s = _
  unfold execReceiveByte
  cases h : s.intake.frameState with
  | hunt => exact absurd h hf
  | header => exact if_pos hb
  | body => exact if_pos hb

theorem headerByte_stores {b : Byte} {s : State} (h : s.intake.frame.length < 3) :
    headerByte b s = storeByte b .header s := if_pos (by rw [List.length_append, List.length_singleton]; omega)

theorem headerByte_judges {b : Byte} {s : State} (h : s.intake.frame.length = 3) :
    headerByte b s = if headerSound (s.intake.frame ++ [b]) then storeByte b .body s else frameFault s :=
  if_neg (by rw [List.length_append, List.length_singleton]; omega)

theorem bodyByte_stores {b : Byte} {s : State}
    (h : (s.intake.frame ++ [b]).length < 5 + frameLength (s.intake.frame ++ [b])) :
    bodyByte b s = storeByte b .body s := if_pos h

theorem bodyByte_judges {b : Byte} {s : State}
    (h : 5 + frameLength (s.intake.frame ++ [b]) ≤ (s.intake.frame ++ [b]).length) :
    bodyByte b s = if frameSum (s.intake.frame ++ [b]) = 0 then completeFrame (s.intake.frame ++ [b]) s
      else frameFault s := if_neg (Nat.not_lt.mpr h)

/-- The header table of R2 and R3. -/
theorem headerSound_iff (sync kind high low : Byte) {n : Nat} (hn : n = 256 * high.toNat + low.toNat) :
    headerSound [sync, kind, high, low] = true ↔
      n ≤ 1024 ∧ ∃ k, Kind.ofCode (kind.toNat % 128) = some k ∧ k.allows n = true := by
  have hl : frameLength [sync, kind, high, low] = n := by
    rw [hn]
    simp [frameLength, fieldAt, byteAt]
    omega
  rw [headerSound, hl, Bool.and_eq_true, decide_eq_true_iff]
  show _ ∧ (Kind.ofCode (kind.toNat % 128)).any _ = true ↔ _
  rw [Option.any_eq_true]

/-- Settles O15. -/
theorem bytesReceived : Obligations.BytesReceived := by
  refine ⟨fun b good s hf => ⟨fun hb => ?_, ?_⟩, fun b s hr => ⟨?_, ?_⟩, fun kind high low => ?_⟩
  · show execReceiveByte b good s = _
    rw [execReceiveByte, hf]
    exact if_pos hb
  · rintro rfl rfl hr
    exact receiveByte_sync hf hr
  · rintro (⟨hf, hl⟩ | ⟨hf, hl⟩)
    · rw [receiveByte_header hf hr, headerByte_stores hl, storeByte, State.updIntake, ← hf]
    · rw [receiveByte_body hf hr, bodyByte_stores (by rw [List.length_append, List.length_singleton]; exact hl),
        storeByte, State.updIntake, ← hf]
  · intro hf hl hs
    rw [receiveByte_header hf hr, headerByte_judges hl, if_pos hs]
    rfl
  · intro n
    rw [headerSound_iff (n := n) _ _ _ _ rfl]
    generalize kind.toNat % 128 = m
    unfold Kind.ofCode
    split <;> simp [Kind.allows] <;> omega

/-! ## Frames discarded -/

theorem frameFault_eq (s : State) : frameFault s =
    { s with intake := { s.intake with frameState := .hunt, frame := [], timer := false,
                                       frameFaults := min 255 (s.intake.frameFaults + 1) },
             run := { s.run with causes := s.run.causes ||| Cause.FR.bit } } := rfl

/-- Settles O16. -/
theorem framesDiscarded : Obligations.FramesDiscarded := by
  refine ⟨fun b good s => ?_, fun b k s hf hr hl hs hk hn => ?_⟩
  · intro frame payload faulted
    refine ⟨fun hf hb => receiveByte_faults hf hb, fun hf hr => ?_, fun hf hr hl hs => ?_,
      fun hf hr hl => ⟨fun hs => ?_, fun hs hk hn hp => ?_⟩, fun hf ht => ?_, fun hf => ?_⟩
    · show execReceiveByte 0xC3 true s = _
      simp only [execReceiveByte, hf, hr, syncByte]
      rfl
    · rw [receiveByte_header hf hr, headerByte_judges hl, hs]
      rfl
    · rw [receiveByte_body hf hr, bodyByte_judges (le_of_eq hl.symm), if_neg hs]
      rfl
    · have hset : qRecordOf .set payload = none := if_neg (by rw [setConsistent, decide_eq_true_iff]; exact hp)
      rw [receiveByte_body hf hr, bodyByte_judges (le_of_eq hl.symm), if_pos hs, completeFrame, hk]
      have hlane : frameLaneN (s.intake.frame ++ [b]) = false := hn
      simp only [hlane, Kind.laneN, bne_self_eq_false, Bool.false_eq_true, if_false]
      rw [hset]
      rfl
    · show execInterByteTimeout s = _
      exact if_neg (by simp [hf, ht])
    · exact if_pos (Or.inl hf)
  · rw [receiveByte_body hf hr, bodyByte_judges (by rw [List.length_append, List.length_singleton]; omega), if_pos hs,
      completeFrame, hk]
    exact congrArg _ (if_pos (bne_iff_ne.mpr hn))

/-! ## A whole frame -/

/-- The state with the bytes of a frame stored. -/
def receiving (f : List Byte) (st : FrameState) (s : State) : State :=
  { s with intake := { s.intake with frame := f, frameState := st, timer := true } }

theorem freeSpace_receiving {s : State} (he : s.intake.frame = []) {f : List Byte} (st : FrameState)
    (h : f.length < s.intake.freeSpace) : (receiving f st s).intake.freeSpace ≠ 0 := by
  simp only [receiving, Intake.freeSpace, Intake.held, he, List.length_nil] at h ⊢
  omega

theorem releaseFrame_receiving {s : State} (hf : s.intake.frameState = .hunt) (he : s.intake.frame = [])
    (ht : s.intake.timer = false) (f : List Byte) (st : FrameState) : releaseFrame (receiving f st s) = s := by
  have h : { s.intake with frameState := .hunt, frame := [], timer := false } = s.intake := by
    rw [← hf, ← he, ← ht]
  show { s with intake := { s.intake with frameState := .hunt, frame := [], timer := false } } = s
  rw [h]

theorem receiveAll_cons {b : Byte} {rest : List Byte} {s t : State} (h : exec (.receiveByte b true) s = .next t) :
    receiveAll (b :: rest) s = receiveAll rest t := by
  rw [receiveAll, h]

/-- The bytes of a payload, then a check byte with a good sum, complete the frame. -/
theorem receiveAll_body {s : State} (he : s.intake.frame = []) {c : Byte} (p : List Byte) {f : List Byte}
    (h4 : 4 ≤ f.length) (hl : f.length + p.length = 4 + frameLength f)
    (hr : f.length + p.length < s.intake.freeSpace) (hs : frameSum (f ++ p ++ [c]) = 0) :
    receiveAll (p ++ [c]) (receiving f .body s) =
      .next (completeFrame (f ++ p ++ [c]) (receiving (f ++ p) .body s)) := by
  induction p generalizing f with
  | nil =>
    rw [List.append_nil] at hs ⊢
    rw [List.length_nil] at hl hr
    rw [List.nil_append, receiveAll_cons (receiveByte_body rfl (freeSpace_receiving he _ hr)),
      bodyByte_judges]
    · exact congrArg (receiveAll []) (if_pos hs)
    · show 5 + frameLength (f ++ [c]) ≤ (f ++ [c]).length
      rw [frameLength_append c h4, List.length_append, List.length_singleton]
      omega
  | cons b rest ih =>
    rw [List.length_cons] at hl hr
    rw [List.cons_append, receiveAll_cons (receiveByte_body rfl (freeSpace_receiving he _ (by omega))), bodyByte_stores]
    · have hfb : f ++ b :: rest = f ++ [b] ++ rest := by simp
      rw [hfb] at hs ⊢
      have hlb : (f ++ [b]).length = f.length + 1 := by rw [List.length_append, List.length_singleton]
      exact ih (f := f ++ [b]) (by omega) (by rw [frameLength_append b h4]; omega) (by omega) hs
    · show (f ++ [b]).length < 5 + frameLength (f ++ [b])
      rw [frameLength_append b h4, List.length_append, List.length_singleton]
      omega

/-- The bytes of a frame with a sound header, received from HUNT, are judged as a complete frame. -/
theorem receiveAll_frameOf {s : State} (hf : s.intake.frameState = .hunt) (he : s.intake.frame = []) {kind : Byte}
    {payload : List Byte} {k : Kind} (hk : Kind.ofCode (kind.toNat % 128) = some k)
    (ha : k.allows payload.length = true) (hl : payload.length ≤ 1024)
    (hr : payload.length + 5 ≤ s.intake.freeSpace) :
    ∃ f, receiveAll (frameOf kind payload) s =
      .next (completeFrame (frameOf kind payload) (receiving f .body s)) := by
  have hsum := frameSum_frameOf kind payload
  have hlen : payload.length = 256 * (BitVec.ofNat 8 (payload.length / 256)).toNat +
      (BitVec.ofNat 8 payload.length).toNat := by
    simp only [BitVec.toNat_ofNat]
    omega
  rw [frameOf_eq] at hsum ⊢
  generalize checkByte _ = c at hsum ⊢
  generalize BitVec.ofNat 8 (payload.length / 256) = high at hlen hsum ⊢
  generalize BitVec.ofNat 8 payload.length = low at hlen hsum ⊢
  have h0 : s.intake.freeSpace ≠ 0 := by omega
  have room : ∀ (f : List Byte) st, f.length < 4 → (receiving f st s).intake.freeSpace ≠ 0 :=
    fun f st h => freeSpace_receiving he st (by omega)
  have sound : headerSound ([0xC3, kind, high] ++ [low]) = true := (headerSound_iff _ _ _ _ hlen).mpr ⟨hl, k, hk, ha⟩
  refine ⟨[0xC3, kind, high, low] ++ payload, ?_⟩
  calc receiveAll (0xC3 :: kind :: high :: low :: (payload ++ [c])) s
      = receiveAll (kind :: high :: low :: (payload ++ [c])) (receiving [0xC3] .header s) :=
        receiveAll_cons (receiveByte_sync hf h0)
    _ = receiveAll (high :: low :: (payload ++ [c])) (receiving [0xC3, kind] .header s) :=
        receiveAll_cons (by
          rw [receiveByte_header rfl (room [0xC3] _ (by decide)), headerByte_stores (by decide : [0xC3#8].length < 3)]
          rfl)
    _ = receiveAll (low :: (payload ++ [c])) (receiving [0xC3, kind, high] .header s) :=
        receiveAll_cons (by
          rw [receiveByte_header rfl (room [0xC3, kind] _ (Nat.lt_of_sub_eq_succ rfl)),
            headerByte_stores (Nat.lt_of_sub_eq_succ rfl : [0xC3#8, kind].length < 3)]
          rfl)
    _ = receiveAll (payload ++ [c]) (receiving [0xC3, kind, high, low] .body s) :=
        receiveAll_cons (by
          rw [receiveByte_header rfl (room [0xC3, kind, high] _ (Nat.lt_of_sub_eq_succ rfl)),
            headerByte_judges rfl]
          exact congrArg _ (if_pos sound))
    _ = _ := receiveAll_body he payload (le_refl 4)
        (by
          have : frameLength [0xC3, kind, high, low] = payload.length := by
            simp [frameLength, fieldAt, byteAt]
            omega
          rw [this]
          rfl)
        (by simp only [List.length_cons, List.length_nil]; omega) (by simpa using hsum)

/-- A complete frame of a known kind in its lane, judged by its record. -/
theorem completeFrame_frameOf {s : State} {kind : Byte} {payload : List Byte} {k : Kind}
    (hk : Kind.ofCode (kind.toNat % 128) = some k) (hn : kind.getLsbD 7 = k.laneN) (hl : payload.length ≤ 1024) :
    (k.laneN = true → ∀ r, nRecordOf k payload = some r →
      completeFrame (frameOf kind payload) s = takeN r (releaseFrame s)) ∧
    (k.laneN = false → ∀ r, qRecordOf k payload = some r →
      completeFrame (frameOf kind payload) s = joinLaneQ r (releaseFrame s)) := by
  have hkind : frameKind (frameOf kind payload) = some k := by rw [frameOf_eq]; exact hk
  have hlane : frameLaneN (frameOf kind payload) = k.laneN := by rw [frameOf_eq]; exact hn
  have hpay : ((frameOf kind payload).drop 4).take (frameLength (frameOf kind payload)) = payload := by
    rw [frameLength_frameOf kind (by omega), frameOf_eq]
    exact List.take_left ..
  refine ⟨fun h r hr => ?_, fun h r hr => ?_⟩
  all_goals
    rw [completeFrame, hkind]
    simp only [hlane, hpay, h, hr, bne_self_eq_false, Bool.false_eq_true, if_false, if_true]

/-- The lengths of the payloads of records are among those of their kinds (R3). -/
theorem QRecord.allows_payload (r : QRecord) (h : r.payloadSize ≤ 1024) : r.kind.allows r.payload.length = true := by
  have fits : ∀ runs : List Byte, runs.length ≤ 1015 → Sys2Proof.runsFit runs = true := fun runs hr => decide_eq_true hr
  cases r with
  | lineFirst hd more runs =>
    exact (Laws.FrameFits.lineFirstPart hd more runs (fits _ (by simp only [QRecord.payloadSize] at h; omega))).1 _ rfl
  | lineCont more runs =>
    exact (Laws.FrameFits.lineContinuation more runs (fits _ (by simp only [QRecord.payloadSize] at h; omega))).1 _ rfl
  | advance a b => exact (Laws.FrameFits.advance a b rfl).1 _ rfl
  | commit a b => exact (Laws.FrameFits.commit a b rfl).1 _ rfl
  | set f => exact (Laws.FrameFits.set f rfl).1 _ rfl
  | form a b => exact (Laws.FrameFits.form a b rfl).1 _ rfl
  | geometry a b c d => exact (Laws.FrameFits.geometry a b c d rfl).1 _ rfl

theorem NRecord.allows_payload {r : NRecord} (h : r.payload.length ≤ 1006) : r.kind.allows r.payload.length = true := by
  cases r with
  | stage a b c d data =>
    exact (Laws.FrameFits.stage a b c d data (decide_eq_true (by
      simp only [NRecord.payload, List.length_append, List.length_cons, length_toBytes, List.length_nil] at h
      omega))).2 _ rfl
  | query => exact (Laws.FrameFits.query rfl).2 _ rfl
  | halt => exact (Laws.FrameFits.halt rfl).2 _ rfl
  | go => exact (Laws.FrameFits.go rfl).2 _ rfl
  | drop => exact (Laws.FrameFits.drop rfl).2 _ rfl
  | reset => exact (Laws.FrameFits.reset rfl).2 _ rfl
  | ack a b => exact (Laws.FrameFits.ack a b rfl).2 _ rfl
  | read a b c => exact (Laws.FrameFits.read a b c rfl).2 _ rfl

/-- A record command of lane Q whose frame the buffer can hold joins the order (log 7). -/
theorem exec_qRecord {c : Instr} {r : QRecord} (s : State) (hc : qRecordOfCommand c = some r)
    (h1 : r.payloadSize ≤ 1024) (h2 : r.frameSize ≤ s.intake.freeSpace) : exec c s = .next (joinLaneQ r s) := by
  have hq : sendQ r s = joinLaneQ r s := if_neg (by omega)
  cases c <;> cases hc <;> exact congrArg _ hq

/-- A record command of lane N with a payload its kind allows is taken. -/
theorem exec_nRecord {c : Instr} {r : NRecord} (s : State) (hc : nRecordOfCommand c = some r)
    (h : r.payload.length ≤ 1006) : exec c s = .next (takeN r s) := by
  cases c <;> cases hc
  case stage table page offset clear data =>
    refine if_neg ?_
    simp only [NRecord.payload, List.length_append, List.length_cons, length_toBytes, List.length_nil] at h
    omega
  all_goals rfl

/-- The kind byte of a frame names the kind and the lane it needs (R2, R5). -/
theorem Kind.byte_laneQ {k : Kind} (h : k.laneN = false) :
    Kind.ofCode ((BitVec.ofNat 8 k.code).toNat % 128) = some k ∧ (BitVec.ofNat 8 k.code).getLsbD 7 = k.laneN := by
  revert h
  cases k <;> decide

theorem Kind.byte_laneN {k : Kind} (h : k.laneN = true) :
    Kind.ofCode ((BitVec.ofNat 8 (128 + k.code)).toNat % 128) = some k ∧
      (BitVec.ofNat 8 (128 + k.code)).getLsbD 7 = k.laneN := by
  revert h
  cases k <;> decide

/-- Settles O17: the header, the payload and the check byte are stored one by one, and what the complete frame does is
what the record does in the state before it. -/
theorem frameBytesAreRecordCommands : Obligations.FrameBytesAreRecordCommands := by
  refine fun c s hf he ht => ⟨fun r hc h1 h2 => ?_, fun r hc h1 h2 => ?_⟩
  · have hsize := length_payload r
    have hq : r.kind.laneN = false := by cases r <;> rfl
    obtain ⟨hk, hn⟩ := Kind.byte_laneQ hq
    obtain ⟨f, hall⟩ := receiveAll_frameOf hf he hk (r.allows_payload h1) (by omega)
      (by rw [QRecord.frameSize] at h2; omega)
    rw [exec_qRecord s hc h1 h2, QRecord.frame, hall,
      (completeFrame_frameOf hk hn (by omega)).2 hq r (qRecordOf_payload r), releaseFrame_receiving hf he ht]
  · have hq : r.kind.laneN = true := by cases r <;> rfl
    obtain ⟨hk, hn⟩ := Kind.byte_laneN hq
    obtain ⟨f, hall⟩ := receiveAll_frameOf hf he hk (NRecord.allows_payload h1) (by omega)
      (by rw [NRecord.frame, length_frameOf] at h2; exact h2)
    rw [exec_nRecord s hc h1, NRecord.frame, hall,
      (completeFrame_frameOf hk hn (by omega)).1 hq r (nRecordOf_payload r), releaseFrame_receiving hf he ht]

end Sys2Proof.Machine
end

