-- ==== Sys2Proof/Proofs/Working.lean ====
section
/-! PROOFS. The shared operations of Run Control and the Forms Drive as whole next states, and what follows an event, step by
step (R28, R32, R33, R84, R140, R141, R155, R159 to R162). -/

namespace Sys2Proof.Machine

/-! ## Steps of what follows -/

theorem followTo_add {hold : Bool} {m n : Nat} {s t u : State} (h : followTo hold m s = some t)
    (hu : followTo hold n t = some u) : followTo hold (m + n) s = some u := by
  induction m generalizing s with
  | zero =>
    cases h
    rw [Nat.zero_add]
    exact hu
  | succ m ih =>
    rw [Nat.succ_add]
    unfold followTo at h
    cases hs : followStep hold s with
    | none => rw [hs] at h; cases h
    | some v =>
      rw [hs] at h
      exact followTo_succ hs (ih h)

/-- Run Control's step for an entry in hand. -/
theorem runStep_inHand {s : State} {x : InHand} (h : s.run.inHand = some x) (he : s.run.executor.executing = true) :
    runStep s = carryOut x s := by
  simp [runStep, h, he]

theorem followStep_carryOut {s t : State} {x : InHand} (h0 : feedEnds s = none) (h1 : builderStep s = none)
    (h : s.run.inHand = some x) (he : s.run.executor.executing = true) (ht : carryOut x s = some t) :
    followStep false s = some t :=
  followStep_of_run h0 h1 (by rw [runStep_inHand h he, ht])

/-! ## The executor and the wait reason -/

theorem setWait_executing {r : WaitReason} {s : State} (h : s.run.executor.executing = true) :
    setWait r s = { s with run := { s.run with
      executor := if s.run.executor = .halting then .halting else if r = .none then .running else .waiting,
      reason := r } } := by
  unfold setWait State.updRun
  cases he : s.run.executor with
  | running | waiting | halting => simp [he]
  | homing | ready | halted | faultStop => rw [he] at h; cases h

theorem leaveEntry_executing {e : Executor} (h : e.executing = true) :
    e.leaveEntry = if e = .halting then .halted else .ready := by
  revert h
  cases e <;> decide

/-! ## The front of a queue of one entry -/

theorem isFront_lone {e : Entry} {c : Nat} (he : e.atFront = true) : IsFront { entries := [e], cursor := c } 0 e :=
  ⟨rfl, he, fun _ hj => absurd hj (Nat.not_lt_zero _)⟩

theorem frontEntry_lone {q : Queue} {e : Entry} (hq : q.entries = [e]) (he : e.atFront = true) : frontEntry q = some e := by
  simp [frontEntry, hq, he]

theorem frontIndex_lone {q : Queue} {e : Entry} (hq : q.entries = [e]) (he : e.atFront = true) : frontIndex q = some 0 := by
  simp [frontIndex, hq, he]

/-- A queue's only entry removed: its buffer FREE, and DR latched (R33, R34). -/
theorem removeLone {s : State} {e : Entry} (hq : s.queue.entries = [e]) :
    latchDrained (removeAt 0 s) =
      { s with queue := { entries := [], cursor := s.queue.cursor - 1 },
               buffers := freeBufferOf e s.buffers,
               run := { s.run with causes := s.run.causes ||| Cause.DR.bit } } := by
  have hc : (if 0 < s.queue.cursor then s.queue.cursor - 1 else s.queue.cursor) = s.queue.cursor - 1 := by
    split <;> omega
  have e : removeAt 0 s = { s with queue := { entries := [], cursor := s.queue.cursor - 1 },
                                   buffers := freeBufferOf e s.buffers } := by
    rw [← hc]
    simp only [removeAt, hq, List.getElem?_cons_zero, State.updBuffers, State.updQueue]
    rfl
  rw [e]
  rfl

theorem removeFront_lone {s : State} {e : Entry} (hq : s.queue.entries = [e]) (he : e.atFront = true) :
    removeFront s =
      { s with queue := { entries := [], cursor := s.queue.cursor - 1 },
               buffers := freeBufferOf e s.buffers,
               run := { s.run with causes := s.run.causes ||| Cause.DR.bit } } := by
  rw [← removeLone hq, removeFront, frontIndex_lone hq he]

/-- The entry in hand, alone in the queue, is finished (R33, R34, R99, R159). -/
theorem finishEntry_lone {s : State} {e : Entry} (hq : s.queue.entries = [e]) (he : e.atFront = true) :
    finishEntry s =
      { s with queue := { entries := [], cursor := s.queue.cursor - 1 },
               buffers := freeBufferOf e s.buffers,
               planner := { s.planner with keptDir := none },
               run := { s.run with executor := s.run.executor.leaveEntry, reason := .none, inHand := none,
                                   causes := s.run.causes ||| Cause.DR.bit } } := by
  rw [finishEntry, removeFront_lone hq he]
  rfl

/-- After the only entry has been finished nothing follows. -/
theorem finishEntry_settled {s : State} {e : Entry} (hq : s.queue.entries = [e]) (he : e.atFront = true)
    (hl : s.intake.laneQ = []) (hp : s.forms.paperRequest = false) (hf : feedEnds s = none) : Settled (finishEntry s) := by
  rw [finishEntry_lone hq he]
  exact settled_noWork rfl hl rfl hp (noFeed_of hf rfl)

/-! ## The builder with the cursor at the end -/

theorem builderStep_lone {s : State} {e : Entry} (hq : s.queue = { entries := [e], cursor := 1 }) : builderStep s = none :=
  builderStep_end (by rw [hq]; rfl)

/-! ## Feeds begin -/

/-- A forward feed of some steps begins (R140, R141, R155). -/
theorem beginFeed_forward {purpose : Purpose} {n : Nat} {s : State} (hn : n ≠ 0) :
    beginFeed purpose .forward n s = { s with forms := begunForward purpose n s s.forms } := by
  unfold beginFeed startStep begunForward
  by_cases hl : s.forms.lever = .closed
  · simp [State.updForms, hn, hl, tractorStep, tractorForward]
  · simp [State.updForms, hl]

/-- A reverse feed of some steps begins (R140, R141, R155). -/
theorem beginFeed_reverse {purpose : Purpose} {n : Nat} {s : State} (hn : n ≠ 0) :
    beginFeed purpose .reverse n s = { s with forms := begunReverse purpose n s s.forms } := by
  unfold beginFeed startStep begunReverse
  by_cases hl : s.forms.lever = .closed
  · simp [State.updForms, hn, hl, tractorStep, tractorReverse]
  · simp [State.updForms, hl]

/-- A feed of no steps stands at its end at once (R140). -/
theorem beginFeed_zero (purpose : Purpose) (dir : FeedDir) (s : State) :
    beginFeed purpose dir 0 s = s.updForms fun g =>
      { g with feed := some { purpose := purpose, dir := dir, total := 0, remaining := 0, suspended := true,
                              ending := .goOn } } := by
  simp [beginFeed, startStep, State.updForms]

theorem feed_begunForward (purpose : Purpose) (n : Nat) (s : State) (g : Forms) :
    (begunForward purpose n s g).feed =
      some { purpose := purpose, dir := .forward, total := n, remaining := n,
             suspended := decide (s.forms.lever ≠ .closed), ending := .goOn } := by
  unfold begunForward
  dsimp only
  split <;> rfl

theorem feed_begunReverse (purpose : Purpose) (n : Nat) (s : State) (g : Forms) :
    (begunReverse purpose n s g).feed =
      some { purpose := purpose, dir := .reverse, total := n, remaining := n,
             suspended := decide (s.forms.lever ≠ .closed), ending := .goOn } := by
  unfold begunReverse
  dsimp only
  split <;> rfl

/-- What a feed that begins leaves as it is. -/
theorem begunForward_rest (purpose : Purpose) (n : Nat) (s : State) (g : Forms) :
    (begunForward purpose n s g).paper = g.paper ∧ (begunForward purpose n s g).paperRequest = g.paperRequest ∧
      (begunForward purpose n s g).lever = g.lever ∧ (begunForward purpose n s g).tearAdvance = g.tearAdvance := by
  unfold begunForward
  dsimp only
  split <;> exact ⟨rfl, rfl, rfl, rfl⟩

theorem begunReverse_rest (purpose : Purpose) (n : Nat) (s : State) (g : Forms) :
    (begunReverse purpose n s g).paper = g.paper ∧ (begunReverse purpose n s g).paperRequest = g.paperRequest := by
  unfold begunReverse
  dsimp only
  split <;> exact ⟨rfl, rfl⟩

theorem feedEnds_begunForward {purpose : Purpose} {n : Nat} {s t : State} {g : Forms} (hn : n ≠ 0)
    (h : t.forms = begunForward purpose n s g) : feedEnds t = none := by
  rw [feedEnds_none]
  intro f hf
  rw [h, feed_begunForward] at hf
  cases hf
  exact hn

theorem feedEnds_begunReverse {purpose : Purpose} {n : Nat} {s t : State} {g : Forms} (hn : n ≠ 0)
    (h : t.forms = begunReverse purpose n s g) : feedEnds t = none := by
  rw [feedEnds_none]
  intro f hf
  rw [h, feed_begunReverse] at hf
  cases hf
  exact hn

theorem feedEnds_noFeed {s : State} (h : s.forms.feed = none) : feedEnds s = none := by
  simp [feedEnds, h]

/-! ## Entries in hand that wait for an event -/

theorem carryOut_advance_started (s : State) : carryOut (.advance true) s = none := by
  simp [carryOut]

theorem carryOut_lineFeed_started (s : State) : carryOut (.lineFeed true) s = none := by
  simp [carryOut]

theorem carryOut_linePass (last stopped done : Bool) (s : State) : carryOut (.linePass last stopped done) s = none := by
  simp [carryOut]

theorem carryOut_lineDue {first : Bool} {n : Need} {s : State} (hf : frontHeader s.queue ≠ none) :
    carryOut (.lineDue first n) s = if needMet n s then some (runChecks first s) else none := by
  unfold carryOut
  unfold frontHeader at hf
  split at hf
  · rename_i h
    simp [h]
  · exact absurd rfl hf

theorem carryOut_lineDue_unmet {first : Bool} {n : Need} {s : State} (h : needMet n s = false) :
    carryOut (.lineDue first n) s = none := by
  unfold carryOut
  split <;> simp_all

/-- An entry in hand for which no paper is needed now. -/
theorem needsPaper_false {s : State} {x : InHand} (h : s.run.inHand = some x)
    (hx : x ≠ .marker ∧ x ≠ .advance false ∧ x ≠ .lineFeed false ∧ ∀ first, x ≠ .lineDue first .paper) :
    needsPaper s = false := by
  obtain ⟨h1, h2, h3, h4⟩ := hx
  unfold needsPaper
  rw [h]
  cases x with
  | lineDue first n => cases n <;> simp_all
  | _ => simp_all

/-- A line whose pass has started, a line or an advance whose feed has begun: nothing follows but a feed's end. -/
theorem settled_started {t : State} {x : InHand} (h1 : t.run.inHand = some x)
    (hx : x = .advance true ∨ x = .lineFeed true ∨ ∃ a b c, x = .linePass a b c)
    (h4 : t.forms.paperRequest = false ∨ t.forms.paper ≠ .atTear) (h5 : feedEnds t = none) (h6 : builderStep t = none)
    (h7 : t.intake.laneQ = []) : Settled t := by
  refine settled_inHand h1 ?_ (needsPaper_false h1 ?_) h4 h5 h6 h7
  · rcases hx with rfl | rfl | ⟨a, b, c, rfl⟩
    exacts [carryOut_advance_started t, carryOut_lineFeed_started t, carryOut_linePass a b c t]
  · rcases hx with rfl | rfl | ⟨a, b, c, rfl⟩ <;> simp

/-! ## The checks of a pass start (R160) -/

/-- A pass start leaves the machine as `startedPass` says. -/
theorem startPass_eq {first : Bool} {h : LineHeader} {img : Image} {p : Int} {s : State}
    (he : s.run.executor.executing = true) : startPass first h img p s = startedPass first h img p s := by
  have htwo : (first && h.twoPass != 0) = decide (first = true ∧ h.twoPass ≠ 0) := by
    cases first <;> simp [bne, BEq.beq]
  unfold startPass
  rw [setWait_executing (by exact he)]
  simp only [htwo, startedPass, setInHand, setDrive, State.updRun, State.updFiring, State.updPlanner, State.updCarriage,
    decide_eq_true_iff, decide_not]
  rfl

theorem runChecks_paper {first : Bool} {s : State} (h : s.forms.paper ≠ .atPrint) :
    runChecks first s = setInHand (some (.lineDue first .paper)) s := if_pos h

theorem runChecks_lever {first : Bool} {s : State} (h1 : s.forms.paper = .atPrint) (h2 : s.forms.feed = none)
    (h3 : s.forms.lever ≠ .closed) :
    runChecks first s = setWait .lever (setInHand (some (.lineDue first .lever)) s) := by
  simp [runChecks, h1, h2, h3]

/-- The lever, the feed and the carriage let the checks go on to the skip zone, the paper's end and the heat. -/
theorem runChecks_still {first : Bool} {p : Int} {s : State} (h1 : s.forms.paper = .atPrint) (h2 : s.forms.feed = none)
    (h3 : s.forms.lever = .closed) (h4 : s.carriage.drive = .stopped) (h5 : s.carriage.position = some p) :
    runChecks first s =
      if first && skipDue s.forms then
        setWait .none (setInHand (some (.lineDue first .skipFeed))
          (beginFeed .skip .forward (s.forms.length - s.forms.position) s))
      else
        match s.forms.tracking.filter (· < 144) with
        | some r => setInHand (some (.lineDue first .paper)) (eject r s)
        | none =>
          if s.heat.band = 3 then
            setWait .heat (setInHand (some (.lineDue first .heat))
              (latch .HW (s.updHeat fun h => { h with hold := true })))
          else
            match frontHeader s.queue, activeImage s with
            | some h, some img => startPass first h img p s
            | _, _ => setInHand (some (.lineDue first .carriage)) s := by
  simp only [runChecks, h1, h2, h3, h4, h5]
  rfl

theorem tracking_far {s : State} (h : ∀ r, s.forms.tracking = some r → 144 ≤ r) :
    s.forms.tracking.filter (· < 144) = none := by
  cases ht : s.forms.tracking with
  | none => rfl
  | some r => simpa using h r ht

/-- Every check passed: the pass starts. -/
theorem runChecks_starts {first : Bool} {hd : LineHeader} {img : Image} {p : Int} {s : State}
    (he : s.run.executor.executing = true) (h1 : s.forms.paper = .atPrint) (h2 : s.forms.feed = none)
    (h3 : s.forms.lever = .closed) (h4 : s.carriage.drive = .stopped) (h5 : s.carriage.position = some p)
    (h6 : ¬(first = true ∧ skipDue s.forms = true)) (h7 : ∀ r, s.forms.tracking = some r → 144 ≤ r)
    (h8 : s.heat.band ≠ 3) (h9 : frontHeader s.queue = some hd) (h10 : activeImage s = some img) :
    runChecks first s = startedPass first hd img p s := by
  rw [runChecks_still h1 h2 h3 h4 h5, if_neg (by simpa using h6), tracking_far h7]
  simp only [h8, h9, h10, if_false]
  exact startPass_eq he

/-- After a pass has started nothing follows. -/
theorem settled_startedPass {first : Bool} {hd : LineHeader} {img : Image} {p : Int} {s : State}
    (h1 : s.forms.paper = .atPrint) (h2 : s.forms.feed = none)
    (h3 : builderStep (startedPass first hd img p s) = none) (h4 : s.intake.laneQ = []) :
    Settled (startedPass first hd img p s) := by
  refine settled_started (x := .linePass _ false false) rfl (.inr (.inr ⟨_, _, _, rfl⟩)) (.inr ?_)
    (feedEnds_noFeed h2) h3 h4
  show s.forms.paper ≠ .atTear
  rw [h1]
  decide

/-- The builder finds in a state what it finds in another with the same queue and column buffers. -/
theorem builderStep_none_of {s t : State} (h : builderStep s = none) (hq : t.queue = s.queue)
    (hb : t.buffers = s.buffers) : builderStep t = none := by
  unfold builderStep at h ⊢
  rw [hq, hb]
  dsimp only at h ⊢
  split at h <;> simp_all

end Sys2Proof.Machine
end

