-- ==== Sys2Proof/Proofs/Waiting.lean ====
section
/-! PROOFS. When an entry in hand goes on waiting, and the request for paper AT PRINT (R149, R159, R160). -/

namespace Sys2Proof.Machine

/-- What an entry in hand waits for is the same in both states: the entry, the front, the paper and its feed, the lever, the
carriage and the heat hold. -/
structure SameNeeds (s t : State) : Prop where
  inHand : t.run.inHand = s.run.inHand
  front  : frontEntry t.queue = frontEntry s.queue
  feed   : t.forms.feed = s.forms.feed
  paper  : t.forms.paper = s.forms.paper
  lever  : t.forms.lever = s.forms.lever
  drive  : t.carriage.drive = s.carriage.drive
  hold   : t.heat.hold = s.heat.hold

namespace SameNeeds

variable {s t : State}

theorem needMet (k : SameNeeds s t) (n : Need) : Machine.needMet n t = Machine.needMet n s := by
  unfold Machine.needMet
  rw [k.paper, k.feed, k.lever, k.drive, k.hold]

theorem paperFree (k : SameNeeds s t) : Machine.paperFree t = Machine.paperFree s := by
  unfold Machine.paperFree
  rw [k.paper, k.feed]

theorem tearOffUnderWay (k : SameNeeds s t) : Machine.tearOffUnderWay t.forms = Machine.tearOffUnderWay s.forms := by
  unfold Machine.tearOffUnderWay
  rw [k.paper, k.feed]

theorem advanceStep_none (k : SameNeeds s t) {mode : AdvanceMode} {count : BitVec 16}
    (h : advanceStep mode count s = none) : advanceStep mode count t = none := by
  unfold advanceStep at h ⊢
  rw [k.paperFree, k.tearOffUnderWay, k.paper]
  cases mode with
  | tear =>
    dsimp only at h ⊢
    split at h
    · cases h
    split at h
    · cases h
    split at h
    · cases h
    · rw [if_neg ‹_›, if_neg ‹_›, if_neg ‹_›]
  | feed | top =>
    dsimp only at h ⊢
    split at h
    · cases h
    · rw [if_neg ‹_›]

/-- An entry in hand that goes on waiting in the one state does so in the other. -/
theorem carryOut_none (k : SameNeeds s t) {x : InHand} (h : carryOut x s = none) : carryOut x t = none := by
  unfold carryOut at h ⊢
  rw [k.front]
  split at h
  · rename_i hf
    obtain ⟨i, hi⟩ := frontEntry_eq_some.mp hf
    rw [hi.frontIndex] at h
    cases h
  · split at h
    · cases h
    · exact if_neg (by rw [k.paper]; assumption)
  · split at h
    · cases h
    · exact if_neg (by rw [k.paper]; assumption)
  · exact k.advanceStep_none h
  · split at h
    · cases h
    · exact if_neg (by rw [k.paperFree]; assumption)
  · split at h
    · cases h
    · exact if_neg (by rw [k.needMet]; assumption)
  · rfl

theorem runStep_none (k : SameNeeds s t) {x : InHand} (hx : s.run.inHand = some x)
    (he : t.run.executor.executing = s.run.executor.executing) (h : runStep s = none) : runStep t = none := by
  unfold runStep at h ⊢
  rw [k.inHand, hx, he]
  rw [hx] at h
  dsimp only at h ⊢
  split at h
  · rw [if_pos ‹_›]
    exact k.carryOut_none h
  · rw [if_neg ‹_›]

end SameNeeds

/-! ## The paper request -/

/-- Run Control asks for paper AT PRINT and waits with the reason that the paper state gives (R149, R159). -/
def asking (s : State) : State :=
  { s with forms := { s.forms with paperRequest := true },
           run := { s.run with executor := if s.run.executor = .halting then .halting else .waiting,
                               reason := paperReason s.forms.paper } }

theorem needsPaper_executing {s : State} (h : needsPaper s = true) : s.run.executor.executing = true := by
  unfold needsPaper at h
  exact (Bool.and_eq_true_iff.mp h).1

theorem sameNeeds_asking (s : State) : SameNeeds s (asking s) := ⟨rfl, rfl, rfl, rfl, rfl, rfl, rfl⟩

theorem executing_asking {s : State} (h : s.run.executor.executing = true) :
    (asking s).run.executor.executing = s.run.executor.executing := by
  rw [h]
  show (if s.run.executor = .halting then Executor.halting else .waiting).executing = true
  split <;> rfl

theorem needsPaper_asking {s : State} (h : needsPaper s = true) : needsPaper (asking s) = true := by
  have he := needsPaper_executing h
  unfold needsPaper at h ⊢
  rw [executing_asking he]
  exact h

theorem paperReason_ne_none {p : Paper} (h : p ≠ .atPrint) : paperReason p ≠ .none := by
  revert h
  cases p <;> decide

/-- The request is made, unless it stands already with its reason. -/
theorem requestStep_asks {s : State} (h : needsPaper s = true) (hp : s.forms.paper ≠ .atPrint)
    (hs : s.run.executor = .running → s.run.reason ≠ paperReason s.forms.paper ∨ s.forms.paperRequest = false) :
    requestStep s = some (asking s) ∨ asking s = s := by
  have he := needsPaper_executing h
  by_cases hr : s.run.reason = paperReason s.forms.paper ∧ s.forms.paperRequest = true
  · right
    obtain ⟨hr, hq⟩ := hr
    have hx : (if s.run.executor = .halting then Executor.halting else .waiting) = s.run.executor := by
      cases hx : s.run.executor with
      | running => rcases hs hx with h | h <;> simp_all
      | waiting | halting => rfl
      | homing | ready | halted | faultStop => rw [hx] at he; cases he
    unfold asking
    rw [hx, ← hr, ← hq]
  · left
    unfold requestStep
    have hc : (needsPaper s && (s.run.reason != paperReason s.forms.paper ||
        (s.forms.paper != .atPrint && !s.forms.paperRequest))) = true := by
      rw [h, Bool.true_and, Bool.or_eq_true, Bool.and_eq_true, bne_iff_ne, bne_iff_ne]
      by_cases h1 : s.run.reason = paperReason s.forms.paper
      · exact .inr ⟨hp, by simpa using fun hq => hr ⟨h1, hq⟩⟩
      · exact .inl h1
    rw [if_pos hc, setWait_executing (by exact he), asking]
    simp only [State.updForms, hp, paperReason_ne_none hp, if_false, ne_eq, not_false_eq_true, decide_true]

theorem requestStep_asking {s : State} (ht : s.forms.paper = .atTear → s.forms.feed ≠ none) : requestStep (asking s) = none := by
  have hr : (asking s).run.reason = paperReason (asking s).forms.paper := rfl
  have hq : (asking s).forms.paperRequest = true := rfl
  have h2 : ((asking s).forms.paper = .atTear && (asking s).forms.feed.isNone) = false := by
    show (s.forms.paper = .atTear && s.forms.feed.isNone) = false
    cases hf : s.forms.feed with
    | none => simpa using fun h => ht h hf
    | some f => simp
  unfold requestStep
  rw [hr, hq]
  simp only [bne_self_eq_false, Bool.not_true, Bool.and_false, Bool.or_false, Bool.false_eq_true, if_false,
    Bool.true_and, h2]

/-- An entry in hand that waits for paper AT PRINT: the request is made, and nothing else follows. -/
theorem asks_follows {s : State} (h : needsPaper s = true) (hp : s.forms.paper ≠ .atPrint)
    (ht : s.forms.paper = .atTear → s.forms.feed ≠ none)
    (hs : s.run.executor = .running → s.run.reason ≠ paperReason s.forms.paper ∨ s.forms.paperRequest = false)
    (hr : runStep s = none) (hf : feedEnds s = none) (hb : builderStep s = none) (hl : s.intake.laneQ = []) :
    (∃ n ≤ 1, followTo false n s = some (asking s)) ∧ Settled (asking s) := by
  obtain ⟨x, hx⟩ : ∃ x, s.run.inHand = some x := by
    cases hx : s.run.inHand with
    | none => rw [needsPaper_none hx] at h; cases h
    | some x => exact ⟨x, rfl⟩
  have hset : Settled (asking s) :=
    settled_of (noFeed_of hf rfl) (builderStep_none_of hb rfl rfl) (offerStep_nil hl)
      ((sameNeeds_asking s).runStep_none hx (executing_asking (needsPaper_executing h)) hr) (requestStep_asking ht)
  refine ⟨?_, hset⟩
  rcases requestStep_asks h hp hs with hq | hq
  · exact ⟨1, le_rfl, followTo_one (followStep_of_request hf hb hr (offerStep_nil hl) hq)⟩
  · exact ⟨0, by decide, by rw [hq]; rfl⟩

end Sys2Proof.Machine
end

