-- ==== Sys2Proof/Proofs/PassStart.lean ====
section
/-! PROOFS. PASS_START and the releases that lead to it (R131, R133 to R135, R146, R153, R160). -/

namespace Sys2Proof.Machine

/-- PASS_START for a pass start that is due with its need met. -/
theorem exec_passStart {first : Bool} {n : Need} {s : State} (h : s.run.inHand = some (.lineDue first n))
    (he : s.run.executor.executing = true) (hn : needMet n s = true) :
    exec .passStart s = .next (finishEvent (runChecks first s)) := by
  show execPassStart s = _
  simp [execPassStart, h, he, hn]

/-- A pass that has started is worked out: nothing follows. -/
theorem finishEvent_startedPass {first : Bool} {hd : LineHeader} {img : Image} {p : Int} {s : State}
    (h1 : s.forms.paper = .atPrint) (h2 : s.forms.feed = none) (h3 : builderStep s = none) (h4 : s.intake.laneQ = []) :
    finishEvent (startedPass first hd img p s) = judgeTimers (startedPass first hd img p s) :=
  finishEvent_settled (settled_startedPass h1 h2 (builderStep_none_of h3 rfl rfl) h4)

/-- Settles O43. -/
theorem passStarts : Obligations.PassStarts := by
  intro first h img p s hdue hp hskip htrack hband hfront himg
  obtain ⟨⟨n, hin, hn⟩, he, hpaper, hfeed, hlever, hdrive, hb, hl⟩ := hdue
  rw [exec_passStart hin he hn, runChecks_starts he hpaper hfeed hlever hdrive hp hskip htrack hband hfront himg,
    finishEvent_startedPass hpaper hfeed hb hl]

/-- A pass start that waits for a need other than paper: nothing follows. -/
theorem settled_lineDue {first : Bool} {n : Need} {t : State} (h1 : t.run.inHand = some (.lineDue first n))
    (hn : needMet n t = false) (hp : n ≠ .paper) (h4 : t.forms.paper = .atPrint) (h5 : feedEnds t = none)
    (h6 : builderStep t = none) (h7 : t.intake.laneQ = []) : Settled t := by
  refine settled_inHand h1 (carryOut_lineDue_unmet hn) (needsPaper_false h1 ?_) (.inr ?_) h5 h6 h7
  · simpa using hp
  · rw [h4]
    decide

/-- A pass start that stops at the lever leaves Run Control waiting for it (R160). -/
def atLever (first : Bool) (s : State) : State :=
  { s with run := { s.run with
      executor := if s.run.executor = .halting then .halting else .waiting, reason := .lever,
      inHand := some (.lineDue first .lever) } }

theorem runChecks_atLever {first : Bool} {s : State} (he : s.run.executor.executing = true)
    (h1 : s.forms.paper = .atPrint) (h2 : s.forms.feed = none) (h3 : s.forms.lever ≠ .closed) :
    runChecks first s = atLever first s := by
  rw [runChecks_lever h1 h2 h3, setWait_executing (by exact he)]
  rfl

theorem settled_atLever {first : Bool} {s : State} (h1 : s.forms.paper = .atPrint) (h2 : s.forms.feed = none)
    (h3 : s.forms.lever ≠ .closed) (h4 : builderStep s = none) (h5 : s.intake.laneQ = []) :
    Settled (atLever first s) :=
  settled_lineDue (n := .lever) rfl (decide_eq_false h3) (by decide) h1
    (feedEnds_noFeed h2) (builderStep_none_of h4 rfl rfl) h5

/-- A pass start whose need has been met is run through in the event that met it (R160). -/
theorem followStep_lineDue {first : Bool} {n : Need} {s : State} (h0 : feedEnds s = none) (h1 : builderStep s = none)
    (hin : s.run.inHand = some (.lineDue first n)) (he : s.run.executor.executing = true) (hn : needMet n s = true)
    (hf : frontHeader s.queue ≠ none) : followStep false s = some (runChecks first s) :=
  followStep_carryOut h0 h1 hin he (by rw [carryOut_lineDue hf, if_pos hn])

/-- Such a pass start with every check passed is made. -/
theorem followStep_starts {first : Bool} {n : Need} {hd : LineHeader} {img : Image} {p : Int} {s : State}
    (hb : builderStep s = none) (hin : s.run.inHand = some (.lineDue first n))
    (he : s.run.executor.executing = true) (hn : needMet n s = true) (h1 : s.forms.paper = .atPrint)
    (h2 : s.forms.feed = none) (h3 : s.forms.lever = .closed) (h4 : s.carriage = { position := some p, drive := .stopped })
    (h6 : ¬(first = true ∧ skipDue s.forms = true)) (h7 : ∀ r, s.forms.tracking = some r → 144 ≤ r)
    (h8 : s.heat.band ≠ 3) (h9 : frontHeader s.queue = some hd) (h10 : activeImage s = some img) :
    followStep false s = some (startedPass first hd img p s) := by
  rw [followStep_lineDue (feedEnds_noFeed h2) hb hin he hn (by rw [h9]; exact Option.some_ne_none _),
    runChecks_starts he h1 h2 h3 (by rw [h4]) (by rw [h4]) h6 h7 h8 h9 h10]

theorem feedEnds_some {f : Feed} {s : State} (h : s.forms.feed = some f) (h0 : f.remaining = 0) :
    feedEnds s = some (endFeed f.purpose s) := by
  simp [feedEnds, h, h0]

theorem begunForward_asked (purpose : Purpose) (n : Nat) (s : State) (g : Forms) :
    { begunForward purpose n s g with paperRequest := true } =
      begunForward purpose n s { g with paperRequest := true } := by
  unfold begunForward
  dsimp only
  split <;> rfl

/-- A pass start that has found the paper out waits for paper. -/
theorem finishEvent_outOfPaper {first : Bool} {t : State} (hin : t.run.inHand = some (.lineDue first .paper))
    (he : t.run.executor.executing = true) (hrun : t.run.executor = .running → t.run.reason = .none)
    (hp : t.forms.paper = .ejecting ∨ t.forms.paper = .noForms) (hf : feedEnds t = none) (hb : builderStep t = none)
    (hl : t.intake.laneQ = []) : (∃ n ≤ 1, followTo false n t = some (asking t)) ∧ Settled (asking t) := by
  have hr : paperReason t.forms.paper = .paper := by rcases hp with h | h <;> rw [h] <;> rfl
  have hne : t.forms.paper ≠ .atPrint := by rcases hp with h | h <;> rw [h] <;> decide
  refine asks_follows ?_ hne ?_ (fun h => .inl ?_) ?_ hf hb hl
  · unfold needsPaper
    rw [hin, he]
    rfl
  · rcases hp with h | h <;> simp [h]
  · rw [hrun h, hr]
    decide
  · rw [runStep_inHand hin he]
    exact carryOut_lineDue_unmet (decide_eq_false hne)

/-- A pass start that finds the paper out: EJECTING or, with nothing to eject, NO FORMS (R153). -/
theorem finishEvent_ejects {first : Bool} {r : Nat} {s : State} (he : s.run.executor.executing = true)
    (hrun : s.run.executor = .running → s.run.reason = .none) (hfeed : s.forms.feed = none)
    (hb : builderStep s = none) (hl : s.intake.laneQ = []) :
    let ejecting : Forms :=
      { s.forms with paper := .ejecting, tracking := none, tearAdvance := none, paperRequest := true }
    finishEvent (setInHand (some (.lineDue first .paper)) (eject r s)) = judgeTimers
      { s with
        forms := if r + s.geometry.tearGap = 0 then { ejecting with paper := .noForms }
          else begunForward .ejection (r + s.geometry.tearGap) s ejecting,
        run := { s.run with
          executor := if s.run.executor = .halting then .halting else .waiting,
          reason := .paper, inHand := some (.lineDue first .paper), causes := s.run.causes ||| Cause.PO.bit } } := by
  intro ejecting
  have hb' : ∀ t : State, t.queue = s.queue → t.buffers = s.buffers → builderStep t = none :=
    fun t => builderStep_none_of hb
  by_cases hn : r + s.geometry.tearGap = 0
  · rw [if_pos hn]
    let noForms : State := { s with
      forms := { s.forms with paper := .noForms, tracking := none, tearAdvance := none, feed := none },
      run := { s.run with inHand := some (.lineDue first .paper),
                          causes := s.run.causes ||| Cause.PO.bit ||| Cause.PO.bit } }
    have e : feedEnds (setInHand (some (.lineDue first .paper)) (eject r s)) = some noForms := by
      rw [eject, hn, beginFeed_zero, feedEnds_some rfl rfl]
      simp only [endFeed, enterNoForms, latch, setInHand, State.updForms, State.updRun, noForms]
    obtain ⟨⟨n, hn1, hn2⟩, hset⟩ := finishEvent_outOfPaper (t := noForms) rfl he hrun (.inr rfl) (feedEnds_noFeed rfl)
      (hb' _ rfl rfl) hl
    rw [finishEvent_of_followTo (n := n + 1) (by omega) (followTo_succ (followStep_of_feed e) hn2) hset]
    simp only [asking, noForms, ejecting, hfeed, BitVec.or_assoc, BitVec.or_self]
    rfl
  · rw [if_neg hn]
    let ejects : State := { s with
      forms := begunForward .ejection (r + s.geometry.tearGap) s
        { s.forms with paper := .ejecting, tracking := none, tearAdvance := none },
      run := { s.run with inHand := some (.lineDue first .paper), causes := s.run.causes ||| Cause.PO.bit } }
    have e : setInHand (some (.lineDue first .paper)) (eject r s) = ejects := by
      rw [eject, beginFeed_forward hn]
      rfl
    obtain ⟨hpaper, -⟩ := begunForward_rest .ejection (r + s.geometry.tearGap) s
      { s.forms with paper := .ejecting, tracking := none, tearAdvance := none }
    obtain ⟨⟨n, hn1, hn2⟩, hset⟩ := finishEvent_outOfPaper (t := ejects) rfl he hrun (.inl hpaper)
      (feedEnds_begunForward hn rfl) (hb' _ rfl rfl) hl
    have hr : paperReason ejects.forms.paper = .paper := by
      rw [show ejects.forms.paper = .ejecting from hpaper]
      rfl
    rw [e, finishEvent_of_followTo (by omega) hn2 hset, asking, hr, begunForward_asked]

/-- Settles O44. -/
theorem passStartDeferred : Obligations.PassStartDeferred := by
  refine ⟨fun first p s hdue hp hskip htrack hband => ?heat, fun p s hdue hp hform hz hpos => ?skip,
    fun first p r s hdue hex hp hskip htrack hr => ?out⟩
  case heat =>
    obtain ⟨⟨n, hin, hn⟩, he, hpaper, hfeed, hlever, hdrive, hb, hl⟩ := hdue
    have e : runChecks first s = { s with
        heat := { s.heat with hold := true },
        run := { s.run with
          executor := if s.run.executor = .halting then .halting else .waiting,
          reason := .heat, inHand := some (.lineDue first .heat), causes := s.run.causes ||| Cause.HW.bit } } := by
      rw [runChecks_still hpaper hfeed hlever hdrive hp, if_neg (by simpa using hskip), tracking_far htrack]
      simp only [hband, if_true]
      rw [setWait_executing (by exact he)]
      rfl
    rw [exec_passStart hin he hn, e]
    exact congrArg _ (finishEvent_settled (settled_lineDue (n := .heat) rfl rfl (by decide) hpaper
      (feedEnds_noFeed hfeed) (builderStep_none_of hb rfl rfl) hl))
  case skip =>
    obtain ⟨⟨n, hin, hn⟩, he, hpaper, hfeed, hlever, hdrive, hb, hl⟩ := hdue
    have hne : s.forms.length - s.forms.position ≠ 0 := by
      have : s.forms.position < s.forms.length := hform
      omega
    have hd : skipDue s.forms = true := decide_eq_true ⟨hz, hpos⟩
    have e : runChecks true s = { s with
        forms := begunForward .skip (s.forms.length - s.forms.position) s s.forms,
        run := { s.run with
          executor := if s.run.executor = .halting then .halting else .running,
          reason := .none, inHand := some (.lineDue true .skipFeed) } } := by
      rw [runChecks_still hpaper hfeed hlever hdrive hp, hd, Bool.true_and, if_pos rfl, beginFeed_forward hne,
        setWait_executing (by exact he)]
      rfl
    obtain ⟨hrest, -⟩ := begunForward_rest .skip (s.forms.length - s.forms.position) s s.forms
    rw [exec_passStart hin he hn, e]
    exact congrArg _ (finishEvent_settled (settled_lineDue (n := .skipFeed) rfl rfl (by decide) (hrest.trans hpaper)
      (feedEnds_begunForward hne rfl) (builderStep_none_of hb rfl rfl) hl))
  case out =>
    obtain ⟨⟨n, hin, hn⟩, he, hpaper, hfeed, hlever, hdrive, hb, hl⟩ := hdue
    have hrun : s.run.executor = .running → s.run.reason = .none := fun h => by
      by_contra hne
      rcases hex.1 hne with h' | h' <;> rw [h] at h' <;> cases h'
    have e : runChecks first s = setInHand (some (.lineDue first .paper)) (eject r s) := by
      have ht : s.forms.tracking.filter (· < 144) = some r := by simp [htrack, hr]
      rw [runChecks_still hpaper hfeed hlever hdrive hp, if_neg (by simpa using hskip), ht]
    rw [exec_passStart hin he hn, e]
    exact congrArg _ (finishEvent_ejects he hrun hfeed hb hl)

theorem executing_of_waits {e : Executor} (h : e = .waiting ∨ e = .halting) : e.executing = true := by
  rcases h with h | h <;> rw [h] <;> rfl

/-- Where the executor waits or is halting, the wait for another need keeps it. -/
theorem executor_of_waits {e : Executor} (h : e = .waiting ∨ e = .halting) :
    (if e = .halting then Executor.halting else .waiting) = e := by
  rcases h with h | h <;> rw [h] <;> rfl

theorem atLever_of_waits {first : Bool} {s : State} (h : s.run.executor = .waiting ∨ s.run.executor = .halting) :
    atLever first s = { s with run := { s.run with reason := .lever, inHand := some (.lineDue first .lever) } } := by
  rw [atLever, executor_of_waits h]

theorem Heat.band_eq (h : Heat) : h.band =
    if h.level < h.warm then 0 else if h.level < h.hot then 1 else if h.level < h.limit then 2 else 3 := rfl

/-- Settles O56. -/
theorem heatCools : Obligations.HeatCools := by
  refine ⟨fun s => ⟨fun hno => ?_, fun first hd hhold hlow hin hex hfront hpaper hfeed hw => ?_⟩, fun h hs => ?_⟩
  · exact if_neg hno
  · intro released
    have e : exec .coolingTick s = .next (finishEvent released) := if_pos ⟨hhold, hlow⟩
    have he := executing_of_waits hex
    have hb : builderStep released = none := builderStep_none_of hw.1 rfl rfl
    rw [e]
    refine ⟨fun hlever => ?_, fun img p hlever hcar hskip htrack himg => ?_⟩
    · have hstep : followStep false released = some (atLever first released) := by
        rw [followStep_lineDue (s := released) (feedEnds_noFeed hfeed) hb hin he rfl
          (by rw [show frontHeader released.queue = some hd from hfront]; exact Option.some_ne_none _),
          runChecks_atLever (s := released) he hpaper hfeed hlever]
      rw [finishEvent_of_followTo (by decide) (followTo_one hstep) (settled_atLever hpaper hfeed hlever hb hw.2),
        atLever_of_waits (s := released) hex]
    · have hband : released.heat.band ≠ 3 := by
        have : released.heat.band = 0 := if_pos hlow
        rw [this]
        decide
      rw [finishEvent_of_followTo (by decide) (followTo_one (followStep_starts hb hin he rfl hpaper hfeed hlever hcar
        hskip htrack hband hfront himg)) (settled_startedPass hpaper hfeed (builderStep_none_of hb rfl rfl) hw.2)]
  · obtain ⟨-, -, h1, h2, -⟩ := hs
    rw [Heat.band_eq]
    refine ⟨?_, ?_, ?_, ?_⟩ <;> split <;> (try split) <;> (try split) <;> omega

end Sys2Proof.Machine
end

