-- ==== Sys2Proof/Proofs/TakingUp.lean ====
section
/-! PROOFS. TAKE_UP_FRONT_ENTRY for an entry alone in the queue, by its kind (R49, R57, R132, R143, R144, R159, R160, R164,
R165). -/

namespace Sys2Proof.Machine

/-- The front is taken up, RUNNING and in hand (R159). -/
def taken (x : InHand) (s : State) : State := { s with run := { s.run with executor := .running, inHand := some x } }

theorem takeUpStep_lone {s : State} {e : Entry} (hx : s.run.executor = .ready) (hm : s.carriage.drive.moving = false)
    (hq : s.queue.entries = [e]) (he : e.atFront = true) : takeUpStep s = some (takeUp 0 e s) := by
  rw [takeUpStep, if_pos ⟨hx, hm⟩, frontIndex_lone hq he, frontEntry_lone hq he]

/-- TAKE_UP_FRONT_ENTRY takes up the only entry. -/
theorem exec_takeUp_lone {s : State} {e : Entry} (hx : s.run.executor = .ready) (hin : s.run.inHand = none)
    (hm : s.carriage.drive.moving = false) (hq : s.queue.entries = [e]) (he : e.atFront = true) :
    exec .takeUpFrontEntry s = .next (finishEvent (takeUp 0 e s)) := by
  show execTakeUpFrontEntry s = _
  rw [execTakeUpFrontEntry, hin, takeUpStep_lone hx hm hq he]

/-! ## Entries with no needs -/

/-- The page of a commit marker that holds the stage is made live, and the stage is EMPTY (R57). -/
theorem applyCommit_held {s : State} {b : Binding} (h : s.stage = .held b) (id : TableId) (page : Nat) :
    applyCommit id page s = (makeLive id page b.bytes s).setStage .empty := by
  rw [applyCommit, h]
  rfl

theorem makeLive_strike (page : Nat) (p : Page) (s : State) :
    makeLive .strike page p s = { s with tables := { s.tables with strike := clampStrike p } } := rfl

theorem makeLive_profile_valid {page : Nat} {p : Page} {s : State} (h : profileValid s.tables page p = true) :
    makeLive .profile page p s =
      { s with tables := { s.tables with profiles := s.tables.profiles.set page (clampProfile p) } } := by
  rw [makeLive, if_pos h]
  rfl

theorem makeLive_profile_invalid {page : Nat} {p : Page} {s : State} (h : profileValid s.tables page p = false) :
    makeLive .profile page p s = { s with run := { s.run with causes := s.run.causes ||| Cause.TR.bit } } := by
  rw [makeLive, if_neg (by rw [h]; decide)]
  rfl

/-- An entry taken up and finished at once, alone in the queue: nothing follows. -/
theorem finishEvent_removesLone {s : State} {e : Entry} (hq : s.queue.entries = [e]) (hin : s.run.inHand = none)
    (hl : s.intake.laneQ = []) (hp : s.forms.paperRequest = false) (hf : NoFeedEnds s) :
    finishEvent (latchDrained (removeAt 0 s)) = judgeTimers
      { s with queue := { entries := [], cursor := s.queue.cursor - 1 },
               buffers := freeBufferOf e s.buffers,
               run := { s.run with causes := s.run.causes ||| Cause.DR.bit } } := by
  rw [removeLone hq]
  exact finishEvent_settled (settled_noWork rfl hl hin hp (noFeed_of hf rfl))

/-- Settles O39. -/
theorem noNeedsTakenUp : Obligations.NoNeedsTakenUp := by
  refine ⟨fun p s hx hin hm hq hl hp hf => ?settings, fun b s hx hin hm hq hst hl hp hf => ?commit,
    fun b p t h => ?clamps⟩
  case settings =>
    rw [exec_takeUp_lone hx hin hm hq rfl]
    exact congrArg _ (finishEvent_removesLone (s := (s.updSettings _).updHeat _) hq hin hl hp (noFeed_of hf rfl))
  case commit =>
    intro gone
    have taken : ∀ (t : State), makeLive b.table b.page b.bytes s = t →
        (Entry.commit b.table b.page).atFront = true → t.queue = s.queue → t.intake = s.intake → t.run.inHand = s.run.inHand →
        t.forms = s.forms → exec .takeUpFrontEntry s = .next (judgeTimers
          { t with stage := .empty, queue := { entries := [], cursor := s.queue.cursor - 1 },
                   run := { t.run with causes := t.run.causes ||| Cause.DR.bit } }) := by
      intro t ht he h1 h2 h3 h4
      rw [exec_takeUp_lone hx hin hm hq he, takeUp, applyCommit_held hst, ht]
      refine congrArg _ ?_
      rw [finishEvent_removesLone (s := t.setStage .empty) (by exact h1 ▸ hq) (h3.trans hin) (by exact h2 ▸ hl)
        (by exact h4 ▸ hp) (noFeed_of hf (by exact congrArg _ h4)), ← h1]
      rfl
    refine ⟨fun hb => ?_, fun hb hv => ?_, fun hb hv => ?_⟩
    · exact taken _ ((congrArg (makeLive · _ _ _) hb).trans (makeLive_strike _ _ _)) (by rw [hb]; rfl) rfl rfl rfl rfl
    · exact taken _ ((congrArg (makeLive · _ _ _) hb).trans (makeLive_profile_valid hv)) (by rw [hb]; rfl) rfl rfl rfl rfl
    · exact taken _ ((congrArg (makeLive · _ _ _) hb).trans (makeLive_profile_invalid hv)) (by rw [hb]; rfl) rfl rfl rfl rfl
  case clamps =>
    obtain ⟨tRec, qualityFloor, substSlot⟩ := b
    obtain ⟨formsClass, bidirectional, alignment, flightTime, hWarm, hHot, hLimit, tearDelay⟩ := p
    refine ⟨?_, ?_, ?_, ?_, ?_, ?_, ?_, ?_, rfl, rfl, ?_, ?_, ?_⟩
    · cases tRec <;> rfl
    · cases qualityFloor <;> rfl
    · cases substSlot <;> rfl
    · cases formsClass <;> rfl
    · cases bidirectional <;> rfl
    · cases alignment <;> rfl
    · cases flightTime <;> rfl
    · cases tearDelay <;> rfl
    · cases hWarm <;> rfl
    · cases hHot <;> rfl
    · cases hLimit <;> rfl

/-! ## Markers -/

/-- A marker in hand with paper AT PRINT, alone in the queue, is carried out and removed; nothing follows. -/
theorem finishEvent_marker {s t : State} {e : Entry} (hq : s.queue = { entries := [e], cursor := 1 })
    (he : e.atFront = true) (hin : s.run.inHand = some .marker) (hx : s.run.executor.executing = true)
    (ht : carryOut .marker s = some (finishEntry t)) (h1 : t.queue = s.queue) (hl : t.intake.laneQ = [])
    (hp : t.forms.paperRequest = false) (hf : NoFeedEnds s) (h2 : t.forms.feed = s.forms.feed) :
    finishEvent s = judgeTimers (finishEntry t) :=
  finishEvent_of_followTo (by decide) (followTo_one (followStep_carryOut hf (builderStep_lone hq) hin hx ht))
    (finishEntry_settled (by rw [h1, hq]) he hl hp (noFeed_of hf h2))

theorem carryOut_geometry {s : State} {d r : Byte} {g e : BitVec 16} (hf : frontEntry s.queue = some (.geometry d g e r))
    (hp : s.forms.paper = .atPrint) : carryOut .marker s = some (finishEntry (applyGeometry d g e r s)) := by
  unfold carryOut
  rw [hf]
  exact if_pos hp

theorem carryOut_form {s : State} {l z : BitVec 16} (hf : frontEntry s.queue = some (.form l z))
    (hp : s.forms.paper = .atPrint) : carryOut .marker s = some (finishEntry (applyForm l z s)) := by
  unfold carryOut
  rw [hf]
  exact if_pos hp

theorem applyGeometry_locked {s : State} (d r : Byte) (g e : BitVec 16) (h : s.run.locked = true) :
    applyGeometry d g e r s = { s with run := { s.run with causes := s.run.causes ||| Cause.GL.bit } } := by
  rw [applyGeometry, if_pos h]
  rfl

theorem applyGeometry_unlocked {s : State} (d r : Byte) (g e : BitVec 16) (h : s.run.locked = false) :
    applyGeometry d g e r s =
      { s with geometry := { stagger := min 63 d.toNat, tearGap := min 2880 g.toNat,
                             sensorDist := min 4032 (max 576 e.toNat), ratio := min 24 (max 8 r.toNat) },
               forms := { s.forms with tracking := s.forms.tracking.map (min (min 4032 (max 576 e.toNat))) },
               run := { s.run with locked := true } } := by
  rw [applyGeometry, if_neg (by rw [h]; decide)]
  rfl

theorem applyForm_eq (l z : BitVec 16) (s : State) : applyForm l z s =
    { s with forms := { s.forms with length := min 6912 (max 288 l.toNat),
                                     skip := min (min 6912 (max 288 l.toNat) - 144) z.toNat, position := 0 } } := rfl

/-- The state after the only entry, a marker, has been carried out from READY (R33, R34, R159). -/
theorem exec_takeUp_marker {s t : State} {e : Entry} (hx : s.run.executor = .ready) (hin : s.run.inHand = none)
    (hm : s.carriage.drive.moving = false) (hq : s.queue = { entries := [e], cursor := 1 }) (he : e.atFront = true)
    (hl : s.intake.laneQ = []) (hr : s.forms.paperRequest = false) (hf : NoFeedEnds s)
    (htake : takeUp 0 e s = taken .marker s) (ht : carryOut .marker (taken .marker s) = some (finishEntry t))
    (h1 : t.queue = s.queue) (h2 : t.intake = s.intake) (h3 : t.forms.paperRequest = s.forms.paperRequest)
    (h4 : t.forms.feed = s.forms.feed) (h5 : t.run.executor = .running) :
    exec .takeUpFrontEntry s = .next (judgeTimers
      { t with queue := { entries := [], cursor := 0 },
               buffers := freeBufferOf e t.buffers,
               planner := { t.planner with keptDir := none },
               run := { t.run with executor := .ready, reason := .none, inHand := none,
                                   causes := t.run.causes ||| Cause.DR.bit } }) := by
  have h1' : t.queue = { entries := [e], cursor := 1 } := h1.trans hq
  rw [exec_takeUp_lone hx hin hm (by rw [hq]) he, htake,
    finishEvent_marker (s := taken .marker s) hq he rfl rfl ht h1 (by rw [h2, hl]) (by rw [h3, hr])
      (noFeed_of hf rfl) h4, finishEntry_lone (by rw [h1']) he, h1', h5]
  rfl

/-- Settles O40. -/
theorem markersTakenUp : Obligations.MarkersTakenUp := by
  intro s hx hin hm hp hl hr hf gone
  refine ⟨fun d g e r hq hc => ?geometry, fun l z hq hc => ?form⟩
  case geometry =>
    have hqs : s.queue = { entries := [.geometry d g e r], cursor := 1 } := by rw [← hq, ← hc]
    have ht := carryOut_geometry (s := taken .marker s) (frontEntry_lone hq rfl) hp
    refine ⟨fun hlock => ?_, fun hlock => ?_⟩
    · rw [applyGeometry_locked d r g e (s := taken .marker s) hlock] at ht
      rw [exec_takeUp_marker hx hin hm hqs rfl hl hr hf rfl ht rfl rfl rfl rfl rfl]
      simp only [gone, taken, hx, hin, hc]
      rfl
    · rw [applyGeometry_unlocked d r g e (s := taken .marker s) hlock] at ht
      rw [exec_takeUp_marker hx hin hm hqs rfl hl hr hf rfl ht rfl rfl rfl rfl rfl]
      simp only [gone, taken, hx, hin, hc]
      rfl
  case form =>
    have hqs : s.queue = { entries := [.form l z], cursor := 1 } := by rw [← hq, ← hc]
    have ht := carryOut_form (s := taken .marker s) (frontEntry_lone hq rfl) hp
    rw [applyForm_eq] at ht
    rw [exec_takeUp_marker hx hin hm hqs rfl hl hr hf rfl ht rfl rfl rfl rfl rfl]
    simp only [gone, taken, hx, hin, hc]
    rfl

/-! ## Advances -/

/-- A feed begun for the entry in hand: RUNNING with no reason (R144). -/
theorem carryOut_advance {s : State} {mode : Byte} {count : BitVec 16}
    (hf : frontEntry s.queue = some (.advance mode count)) :
    carryOut (.advance false) s = advanceStep (advanceModeOf mode) count s := by
  unfold carryOut
  rw [hf]

/-- A FEED or TOP begins when the drive can begin a feed (R144). -/
theorem advanceStep_feeds {s : State} {mode : AdvanceMode} (count : BitVec 16) (hm : mode ≠ .tear)
    (h : paperFree s = true) : advanceStep mode count s =
      some (setWait .none (setInHand (some (.advance true))
        (beginFeed .advance .forward (advanceSteps mode count s.forms) s))) := by
  cases mode with
  | tear => exact absurd rfl hm
  | feed | top => exact if_pos h

theorem advanceStep_waits {s : State} {mode : AdvanceMode} (count : BitVec 16) (hm : mode ≠ .tear)
    (h : paperFree s = false) : advanceStep mode count s = none := by
  cases mode with
  | tear => exact absurd rfl hm
  | feed | top => exact if_neg (by rw [h]; decide)

/-- A TEAR by the paper state (R144, log 32). -/
theorem advanceStep_tear {s : State} (count : BitVec 16) : advanceStep .tear count s =
    if paperFree s then some (setWait .none (setInHand (some (.advance true)) (beginTearOff s)))
    else if s.forms.paper = .atTear then some (finishEntry s)
    else if tearOffUnderWay s.forms then some (setWait .none (setInHand (some (.advance true)) s))
    else none := rfl

theorem advanceModeOf_tear {mode : Byte} : advanceModeOf mode = .tear ↔ mode = 2 := by
  unfold advanceModeOf
  by_cases h1 : mode = 1
  · subst h1
    decide
  · rw [if_neg h1]
    by_cases h2 : mode = 2
    · rw [if_pos h2]
      exact ⟨fun _ => h2, fun _ => rfl⟩
    · rw [if_neg h2]
      exact ⟨fun h => (nomatch h), fun h => absurd h h2⟩

theorem advanceSteps_eq {mode : Byte} (count : BitVec 16) (f : Forms) (h : mode ≠ 2) :
    advanceSteps (advanceModeOf mode) count f =
      if mode = 1 then (f.length - f.position) % f.length else min 4095 count.toNat := by
  unfold advanceSteps advanceModeOf
  by_cases h1 : mode = 1
  · rw [if_pos h1, if_pos h1, if_pos rfl]
  · rw [if_neg h1, if_neg h1, if_neg h, if_neg (by decide), clampFeed]

theorem paperFree_atPrint {s : State} (h1 : s.forms.paper = .atPrint) (h2 : s.forms.feed = none) :
    paperFree s = true := by
  simp [paperFree, h1, h2]

theorem paperFree_elsewhere {s : State} (h : s.forms.paper ≠ .atPrint) : paperFree s = false := by
  simp [paperFree, h]

theorem feedEnds_advance {s : State} {f : Feed} (h : s.forms.feed = some f) (h0 : f.remaining = 0)
    (hp : f.purpose = .advance) (hin : s.run.inHand = some (.advance true)) :
    feedEnds s = some (finishEntry (clearFeed s)) := by
  rw [feedEnds_some h h0, hp]
  show some (feedComplete .advance (clearFeed s)) = _
  unfold feedComplete
  rw [show (clearFeed s).run.inHand = some (.advance true) from hin]

/-- The paper AT TEAR, no feed in progress. -/
def atTear (s : State) : State := s.updForms fun g => { g with paper := .atTear, feed := none }

theorem feedEnds_tearAdvance {s : State} {f : Feed} (h : s.forms.feed = some f) (h0 : f.remaining = 0)
    (hp : f.purpose = .tearAdvance) (hin : s.run.inHand = some (.advance true)) :
    feedEnds s = some (finishEntry (atTear s)) := by
  rw [feedEnds_some h h0, hp]
  show some (tearEnded (atTear s)) = _
  unfold tearEnded
  rw [show (atTear s).run.inHand = some (.advance true) from hin]

/-- The entry in hand, an advance alone in the queue, has its feed or tear-off under way. -/
def advancing (g : Forms) (s : State) : State :=
  { s with forms := g,
           run := { s.run with executor := if s.run.executor = .halting then .halting else .running, reason := .none,
                               inHand := some (.advance true) } }

/-- The only entry finished, with the forms as they are then. -/
def leftLone (g : Forms) (s : State) : State :=
  { s with queue := { entries := [], cursor := 0 }, planner := { s.planner with keptDir := none }, forms := g,
           run := { s.run with executor := if s.run.executor = .halting then .halted else .ready, reason := .none,
                               inHand := none, causes := s.run.causes ||| Cause.DR.bit } }

theorem setWait_started {g : Forms} {s : State} (he : s.run.executor.executing = true) :
    setWait .none (setInHand (some (.advance true)) { s with forms := g }) = advancing g s := by
  rw [setWait_executing (by exact he)]
  rfl

theorem finishEntry_advancing {s : State} {mode : Byte} {count : BitVec 16}
    (hq : s.queue = { entries := [.advance mode count], cursor := 1 }) (g : Forms) :
    finishEntry (advancing g s) = leftLone g s := by
  have hx : (advancing g s).run.executor.leaveEntry = if s.run.executor = .halting then .halted else .ready := by
    show (if s.run.executor = .halting then Executor.halting else .running).leaveEntry = _
    split <;> rfl
  rw [finishEntry_lone (e := .advance mode count) (by exact congrArg Queue.entries hq) rfl, hx]
  simp only [advancing, hq]
  rfl

/-- The only entry, in hand and holding no column buffer, is finished. -/
theorem finishEntry_leftLone {s : State} {e : Entry} (hq : s.queue = { entries := [e], cursor := 1 })
    (he : e.atFront = true) (hb : e.buf = none) (hx : s.run.executor.executing = true) :
    finishEntry s = leftLone s.forms s := by
  rw [finishEntry_lone (by rw [hq]) he, hq, leaveEntry_executing hx, freeBufferOf, hb]
  rfl

theorem forms_noFeed {g : Forms} (h : g.feed = none) : { g with feed := none } = g := by
  rw [← h]

section Advance

variable {s : State} {mode : Byte} {count : BitVec 16}

theorem followStep_advance (hq : s.queue = { entries := [.advance mode count], cursor := 1 })
    (hin : s.run.inHand = some (.advance false)) (he : s.run.executor.executing = true) (hf : NoFeedEnds s) {t : State}
    (ht : advanceStep (advanceModeOf mode) count s = some t) : followStep false s = some t :=
  followStep_carryOut hf (builderStep_lone hq) hin he
    ((carryOut_advance (frontEntry_lone (by rw [hq]) rfl)).trans ht)

theorem settled_advancing {g : Forms} (hq : s.queue = { entries := [.advance mode count], cursor := 1 })
    (hl : s.intake.laneQ = []) (hr : g.paperRequest = false) (hf : ∀ f, g.feed = some f → f.remaining ≠ 0) :
    Settled (advancing g s) :=
  settled_started (x := .advance true) rfl (.inl rfl) (.inl hr) (feedEnds_none.mpr hf)
    (builderStep_lone (e := .advance mode count) hq) hl

theorem settled_leftLone {g : Forms} (hl : s.intake.laneQ = []) (hr : g.paperRequest = false)
    (hf : ∀ f, g.feed = some f → f.remaining ≠ 0) : Settled (leftLone g s) :=
  settled_noWork rfl hl rfl hr (feedEnds_none.mpr hf)

theorem begunForward_remains {purpose : Purpose} {n : Nat} {g : Forms} (hn : n ≠ 0) (f : Feed)
    (hf : (begunForward purpose n s g).feed = some f) : f.remaining ≠ 0 := by
  rw [feed_begunForward] at hf
  cases hf
  exact hn

/-- A FEED or TOP of some steps begins (R144). -/
theorem advance_feeds {n : Nat} (hq : s.queue = { entries := [.advance mode count], cursor := 1 })
    (hin : s.run.inHand = some (.advance false)) (he : s.run.executor.executing = true)
    (hp : s.forms.paper = .atPrint) (hfeed : s.forms.feed = none) (hmode : mode ≠ 2)
    (hsteps : (if mode = 1 then (s.forms.length - s.forms.position) % s.forms.length else min 4095 count.toNat) = n)
    (hn : n ≠ 0) : followStep false s = some (advancing (begunForward .advance n s s.forms) s) := by
  refine followStep_advance hq hin he (feedEnds_noFeed hfeed) ?_
  rw [advanceStep_feeds count (mt advanceModeOf_tear.mp hmode) (paperFree_atPrint hp hfeed), advanceSteps_eq _ _ hmode,
    hsteps, beginFeed_forward hn, setWait_started he]

/-- One of no steps is done in the event (R140, R144). -/
theorem advance_none (hq : s.queue = { entries := [.advance mode count], cursor := 1 })
    (hin : s.run.inHand = some (.advance false)) (he : s.run.executor.executing = true)
    (hp : s.forms.paper = .atPrint) (hfeed : s.forms.feed = none) (hmode : mode ≠ 2)
    (hsteps : (if mode = 1 then (s.forms.length - s.forms.position) % s.forms.length else min 4095 count.toNat) = 0) :
    followTo false 2 s = some (leftLone s.forms s) := by
  let fed : State := advancing
    { s.forms with feed := some { purpose := .advance, dir := .forward, total := 0, remaining := 0, suspended := true,
                                  ending := .goOn } } s
  have h1 : followStep false s = some fed := by
    refine followStep_advance hq hin he (feedEnds_noFeed hfeed) ?_
    rw [advanceStep_feeds count (mt advanceModeOf_tear.mp hmode) (paperFree_atPrint hp hfeed),
      advanceSteps_eq _ _ hmode, hsteps, beginFeed_zero, State.updForms, setWait_started he]
  refine followTo_succ h1 (followTo_one (followStep_of_feed ?_))
  rw [feedEnds_advance rfl rfl rfl rfl]
  exact congrArg some ((finishEntry_advancing hq { s.forms with feed := none }).trans (by rw [forms_noFeed hfeed]))

/-- A TEAR begins a tear-off (R144, R148). -/
theorem advance_tears {a : Nat} (hq : s.queue = { entries := [.advance mode count], cursor := 1 })
    (hin : s.run.inHand = some (.advance false)) (he : s.run.executor.executing = true)
    (hp : s.forms.paper = .atPrint) (hfeed : s.forms.feed = none) (hmode : mode = 2)
    (ha : (s.forms.length - s.forms.position) % s.forms.length + s.geometry.tearGap = a) (ha0 : a ≠ 0) :
    followStep false s = some (advancing
      (begunForward .tearAdvance a s { s.forms with paper := .tearing, tearAdvance := some a }) s) := by
  have ha' : tearAdvanceOf s.forms s.geometry.tearGap = a := ha
  refine followStep_advance hq hin he (feedEnds_noFeed hfeed) ?_
  rw [advanceModeOf_tear.mpr hmode, advanceStep_tear, if_pos (paperFree_atPrint hp hfeed), beginTearOff, ha',
    beginFeed_forward ha0, setWait_started (by exact he)]
  rfl

/-- A tear-off of no steps is AT TEAR, and done, in the event (R140, R144, R148). -/
theorem advance_tears_none (hq : s.queue = { entries := [.advance mode count], cursor := 1 })
    (hin : s.run.inHand = some (.advance false)) (he : s.run.executor.executing = true)
    (hp : s.forms.paper = .atPrint) (hfeed : s.forms.feed = none) (hmode : mode = 2)
    (ha : (s.forms.length - s.forms.position) % s.forms.length + s.geometry.tearGap = 0) :
    followTo false 2 s = some (leftLone { s.forms with paper := .atTear, tearAdvance := some 0 } s) := by
  have ha' : tearAdvanceOf s.forms s.geometry.tearGap = 0 := ha
  let fed : State := advancing
    { s.forms with paper := .tearing, tearAdvance := some 0,
                   feed := some { purpose := .tearAdvance, dir := .forward, total := 0, remaining := 0,
                                  suspended := true, ending := .goOn } } s
  have h1 : followStep false s = some fed := by
    refine followStep_advance hq hin he (feedEnds_noFeed hfeed) ?_
    rw [advanceModeOf_tear.mpr hmode, advanceStep_tear, if_pos (paperFree_atPrint hp hfeed), beginTearOff, ha',
      beginFeed_zero]
    exact congrArg some (setWait_started he)
  refine followTo_succ h1 (followTo_one (followStep_of_feed ?_))
  rw [feedEnds_tearAdvance rfl rfl rfl rfl]
  exact congrArg some ((finishEntry_advancing hq { s.forms with paper := .atTear, tearAdvance := some 0, feed := none }).trans
    (by rw [← hfeed]))

/-- Where the drive can begin no feed an advance waits, a TEAR but AT TEAR and in its own tear-off (R144, log 32). -/
theorem advanceStep_elsewhere (hp : paperFree s = false)
    (h : mode = 2 → s.forms.paper ≠ .atTear ∧ tearOffUnderWay s.forms = false) :
    advanceStep (advanceModeOf mode) count s = none := by
  by_cases hmode : mode = 2
  · obtain ⟨h1, h2⟩ := h hmode
    rw [advanceModeOf_tear.mpr hmode, advanceStep_tear, hp, if_neg (by decide), if_neg h1, h2,
      if_neg (by decide)]
  · exact advanceStep_waits count (mt advanceModeOf_tear.mp hmode) hp

end Advance

/-- With paper AT PRINT and no request kept, a request only takes back a wait reason (R159). -/
theorem requestStep_atPrint {s : State} (h : needsPaper s = true) (hp : s.forms.paper = .atPrint)
    (hr : s.forms.paperRequest = false) :
    requestStep s = if s.run.reason = .none then none else some (setWait .none s) := by
  have hd : decide (s.forms.paper ≠ .atPrint) = s.forms.paperRequest := by
    rw [hr]
    exact decide_eq_false fun hne => hne hp
  have hu : (s.updForms fun g => { g with paperRequest := decide (s.forms.paper ≠ .atPrint) }) = s := by
    rw [hd]
    rfl
  unfold requestStep
  rw [hu, hp, hr, h]
  by_cases hreason : s.run.reason = .none <;> simp [hreason, paperReason]

/-- AT TEAR the request kept starts the return (R149). -/
theorem requestStep_returns {s : State} (hp : s.forms.paper = .atTear) (hfeed : s.forms.feed = none) :
    requestStep (asking s) = some (beginReturn (asking s)) := by
  have hr : (asking s).run.reason = paperReason (asking s).forms.paper := rfl
  have hq : (asking s).forms.paperRequest = true := rfl
  have h2 : ((asking s).forms.paper = .atTear && (asking s).forms.feed.isNone) = true := by
    simp [asking, hp, hfeed]
  unfold requestStep
  rw [hr, hq]
  simp only [bne_self_eq_false, Bool.not_true, Bool.and_false, Bool.or_false, Bool.false_eq_true, if_false,
    Bool.true_and, h2, if_true]

theorem begunReverse_asked (purpose : Purpose) (n : Nat) (s : State) (g : Forms) :
    { begunReverse purpose n s g with paperRequest := true } =
      begunReverse purpose n s { g with paperRequest := true } := by
  unfold begunReverse
  dsimp only
  split <;> rfl

theorem beginReturn_asking {k : Nat} {s : State} (hp : s.forms.paper = .atTear)
    (hk : s.forms.tearAdvance = some k) (hk0 : k ≠ 0) :
    beginReturn (asking s) =
      asking { s with forms := begunReverse .return k s { s.forms with paper := .returning } } := by
  have hk' : (asking s).forms.tearAdvance.getD 0 = k := by
    rw [show (asking s).forms.tearAdvance = some k from hk]
    rfl
  obtain ⟨hpaper, -⟩ := begunReverse_rest .return k s { s.forms with paper := .returning }
  rw [beginReturn, hk', beginFeed_reverse hk0, asking, asking, hpaper, begunReverse_asked, hp]
  rfl

/-- Settles O41. -/
theorem advanceTakenUp : Obligations.AdvanceTakenUp := by
  intro mode count s hx hin hm hq hl hr hf begun waits done n a
  let u : State := taken (.advance false) s
  have ends : ∀ (k : Nat) (t : State), k ≤ 64 → followTo false k u = some t → Settled t →
      exec .takeUpFrontEntry s = .next (judgeTimers t) := by
    intro k t hk ht hset
    rw [exec_takeUp_lone (e := .advance mode count) hx hin hm (by rw [hq]) rfl]
    exact congrArg _ (finishEvent_of_followTo (s := u) hk ht hset)
  have hdone : ∀ g, leftLone g u = { done with forms := g } := fun g => by
    simp only [leftLone, u, taken, done, hx, hin]
    rfl
  have hadv : ∀ g, advancing g u = begun g := fun g => rfl
  have hcarry : carryOut (.advance false) u = advanceStep (advanceModeOf mode) count u :=
    carryOut_advance (frontEntry_lone (e := .advance mode count) (by exact congrArg Queue.entries hq) rfl)
  have hb : builderStep u = none := builderStep_lone (e := .advance mode count) hq
  have hfu : feedEnds u = none := noFeed_of hf rfl
  have waiting : ∀ r, paperReason s.forms.paper = r → s.forms.paper ≠ .atPrint → s.forms.paper ≠ .atTear →
      (mode = 2 → tearOffUnderWay s.forms = false) →
      exec .takeUpFrontEntry s = .next (judgeTimers (waits r s.forms)) := by
    rintro r rfl hp htear hno
    have ht : advanceStep (advanceModeOf mode) count u = none := 
      advanceStep_elsewhere (paperFree_elsewhere hp) fun h => ⟨htear, hno h⟩
    obtain ⟨⟨k, hk, hk'⟩, hset⟩ := asks_follows (s := u) rfl hp (fun h => absurd h htear) (fun _ => .inr hr)
      (by rw [runStep_inHand (x := .advance false) rfl rfl, hcarry, ht]) hfu hb hl
    exact ends k _ (by omega) hk' hset
  refine ⟨fun hp hfeed => ⟨fun hmode hn => ?feeds, fun hmode hn => ?feedsNone, fun hmode ha => ?tears,
      fun hmode ha => ?tearsNone⟩, fun hp hfeed => ?stillStepping,
    fun hp hfeed => ⟨fun hmode => ?atTear, fun hmode k hk hk0 => ?returns⟩, fun f hp hfeed => ⟨fun hmode hend => ?joins,
      fun hno => ?tearing⟩, fun hp => ?returning, fun hp => ?out⟩
  case feeds =>
    obtain ⟨-, hreq, -⟩ := begunForward_rest .advance n s s.forms
    exact ends 1 _ (by decide) (followTo_one (advance_feeds (s := u) hq rfl rfl hp hfeed hmode rfl hn))
      (settled_advancing (s := u) hq hl (hreq.trans hr) (begunForward_remains hn))
  case feedsNone =>
    rw [ends 2 _ (by decide) (advance_none (s := u) hq rfl rfl hp hfeed hmode hn)
      (settled_leftLone hl hr (by rw [show u.forms.feed = none from hfeed]; simp)), hdone]
    rfl
  case tears =>
    obtain ⟨-, hreq, -⟩ := begunForward_rest .tearAdvance a s { s.forms with paper := .tearing, tearAdvance := some a }
    exact ends 1 _ (by decide) (followTo_one (advance_tears (s := u) hq rfl rfl hp hfeed hmode rfl ha))
      (settled_advancing (s := u) hq hl (hreq.trans hr) (begunForward_remains ha))
  case tearsNone =>
    rw [ends 2 _ (by decide) (advance_tears_none (s := u) hq rfl rfl hp hfeed hmode ha)
      (settled_leftLone hl hr (by simp [u, taken, hfeed])), hdone]
    rfl
  case stillStepping =>
    have ht : advanceStep (advanceModeOf mode) count u = none :=
      advanceStep_elsewhere (by simpa [paperFree, u, taken, Option.isNone_eq_false_iff, Option.isSome_iff_ne_none, hp] using hfeed)
        fun _ => ⟨by rw [show u.forms.paper = .atPrint from hp]; decide, by
          unfold tearOffUnderWay
          split <;> simp [show u.forms.paper = .atPrint from hp]⟩
    have hrun : runStep u = none := (runStep_inHand (x := .advance false) rfl rfl).trans (hcarry.trans ht)
    let v : State := { u with run := { u.run with reason := .none } }
    have hset : Settled v := by
      refine settled_of (noFeed_of hf rfl) (builderStep_lone (e := .advance mode count) hq) (offerStep_nil hl) ?_ ?_
      · have k : SameNeeds u v := ⟨rfl, rfl, rfl, rfl, rfl, rfl, rfl⟩
        exact k.runStep_none (x := .advance false) rfl rfl hrun
      · rw [requestStep_atPrint (s := v) rfl hp hr]
        exact if_pos rfl
    by_cases hreason : s.run.reason = .none
    · exact ends 0 v (by decide) (by simp only [followTo_zero, u, v, taken, hreason]) hset
    · refine ends 1 v (by decide) (followTo_one (followStep_of_request hfu hb hrun (offerStep_nil hl) ?_)) hset
      rw [requestStep_atPrint (s := u) rfl hp hr, if_neg (by exact hreason), setWait_executing (by rfl)]
      rfl
  case atTear =>
    have ht : advanceStep (advanceModeOf mode) count u = some (finishEntry u) := by
      rw [advanceModeOf_tear.mpr hmode, advanceStep_tear, paperFree_elsewhere (s := u) (by rw [show u.forms.paper = .atTear from hp]; decide),
        if_neg (by decide), if_pos (by exact hp)]
    have hgone : finishEntry u = leftLone u.forms u := finishEntry_leftLone (e := .advance mode count) hq rfl rfl rfl
    rw [hgone] at ht
    rw [ends 1 _ (by decide) (followTo_one (followStep_advance (s := u) hq rfl rfl hfu ht))
      (settled_leftLone hl hr (feedEnds_none.mp hfu)), hdone]
    rfl
  case returns =>
    have hpt : s.forms.paper ≠ .atPrint := by rw [hp]; decide
    have hrun : runStep u = none := (runStep_inHand (x := .advance false) rfl rfl).trans
      (hcarry.trans (advanceStep_elsewhere (s := u) (paperFree_elsewhere hpt) fun h => absurd h hmode))
    let v : State := { u with forms := begunReverse .return k s { s.forms with paper := .returning } }
    have hask : requestStep u = some (asking u) := by
      rcases requestStep_asks (s := u) rfl hpt (fun _ => .inr hr) with h | h
      · exact h
      · have : s.forms.paperRequest = true := (congrArg (fun t => t.forms.paperRequest) h).symm
        rw [hr] at this
        cases this
    obtain ⟨hpv, -⟩ := begunReverse_rest .return k s { s.forms with paper := .returning }
    have hpv : v.forms.paper = .returning := hpv
    have hback : requestStep (asking u) = some (asking v) := by
      rw [requestStep_returns (s := u) hp hfeed]
      exact congrArg some (beginReturn_asking (s := u) hp hk hk0)
    have hfa : feedEnds (asking u) = none := noFeed_of hf rfl
    have hba : builderStep (asking u) = none := builderStep_lone (e := .advance mode count) hq
    have hra : runStep (asking u) = none :=
      (sameNeeds_asking u).runStep_none (x := .advance false) rfl rfl hrun
    have hset : Settled (asking v) := by
      refine settled_of (noFeed_of (s := v) (feedEnds_begunReverse hk0 rfl) rfl)
        (builderStep_lone (e := .advance mode count) hq) (offerStep_nil hl) ?_
        (requestStep_asking (by rw [hpv]; intro h; cases h))
      refine (runStep_inHand (x := .advance false) rfl rfl).trans ?_
      rw [carryOut_advance (frontEntry_lone (e := .advance mode count) (by exact congrArg Queue.entries hq) rfl)]
      exact advanceStep_elsewhere (paperFree_elsewhere (by rw [show (asking v).forms.paper = .returning from hpv]; decide))
        fun h => absurd h hmode
    rw [ends 2 _ (by decide) (followTo_succ (followStep_of_request hfu hb hrun (offerStep_nil hl) hask)
      (followTo_one (followStep_of_request hfa hba hra (offerStep_nil hl) hback))) hset, asking, hpv]
    rfl
  case joins =>
    have ht : advanceStep (advanceModeOf mode) count u = some (advancing u.forms u) := by
      rw [advanceModeOf_tear.mpr hmode, advanceStep_tear, paperFree_elsewhere (s := u) (by rw [show u.forms.paper = .tearing from hp]; decide),
        if_neg (by decide), if_neg (by rw [show u.forms.paper = .tearing from hp]; decide), if_pos (by simp [tearOffUnderWay, u, taken, hp, hfeed, hend])]
      exact congrArg some (setWait_started (s := u) (g := u.forms) rfl)
    exact ends 1 _ (by decide) (followTo_one (followStep_advance (s := u) hq rfl rfl hfu ht))
      (settled_advancing (s := u) hq hl hr ((feedEnds_none (s := u)).mp hfu))
  case tearing =>
    refine waiting _ (by rw [hp]; rfl) (by rw [hp]; decide) (by rw [hp]; decide) fun hmode => ?_
    rcases hno with h | h
    · exact absurd hmode h
    · simp [tearOffUnderWay, hfeed, h]
  case returning =>
    exact waiting _ (by rw [hp]; rfl) (by rw [hp]; decide) (by rw [hp]; decide) fun _ => by
      unfold tearOffUnderWay
      split <;> simp [hp]
  case out =>
    refine waiting _ (by rcases hp with h | h | h <;> rw [h] <;> rfl) ?_ ?_ fun _ => ?_
    · rcases hp with h | h | h <;> rw [h] <;> decide
    · rcases hp with h | h | h <;> rw [h] <;> decide
    · unfold tearOffUnderWay
      split
      · rcases hp with h | h | h <;> simp [h]
      · rfl

/-! ## Lines -/

/-- An ACTIVE line with no pass, or after its pass, alone in the queue and finished: its buffer is FREE (R32, R33). -/
def leftLine (b : BufId) (g : Forms) (s : State) : State := { leftLone g s with buffers := s.buffers.set b .free }

theorem finishEntry_line {s : State} {h : LineHeader} {parts : List (List Byte)} {b : BufId}
    (hq : s.queue = { entries := [.line h parts (.active b)], cursor := 1 }) (hx : s.run.executor.executing = true) :
    finishEntry s = leftLine b s.forms s := by
  rw [finishEntry_lone (e := .line h parts (.active b)) (by rw [hq]) rfl, hq, leaveEntry_executing hx]
  rfl

theorem Buffers.set_set (bs : Buffers) (b : BufId) (v w : Buffer) : (bs.set b v).set b w = bs.set b w := by
  cases b <;> rfl

theorem settled_leftLine {b : BufId} {g : Forms} {s : State} (hl : s.intake.laneQ = [])
    (hr : g.paperRequest = false ∨ g.paper ≠ .atTear) (hf : g.feed = none) : Settled (leftLine b g s) := by
  refine settled_of (feedEnds_noFeed hf) (builderStep_end rfl) (offerStep_nil hl) ?_ ?_
  · simp [runStep, leftLine, leftLone, takeUpStep, frontIndex]
  · rw [requestStep, needsPaper_none rfl]
    rcases hr with h | h <;> simp [leftLine, leftLone, h]

theorem frontHeader_some {q : Queue} {h : LineHeader} (hq : frontHeader q = some h) :
    ∃ parts st, frontEntry q = some (.line h parts st) := by
  unfold frontHeader at hq
  split at hq
  · rename_i h' parts st hf
    cases hq
    exact ⟨parts, st, hf⟩
  · cases hq

/-- The feed after line of a line with no pass (R145, R160). -/
theorem carryOut_lineFeed {s : State} {h : LineHeader} (hq : frontHeader s.queue = some h)
    (hp : s.forms.paper = .atPrint) (hf : s.forms.feed = none) :
    carryOut (.lineFeed false) s = some (setWait .none (setInHand (some (.lineFeed true))
      (beginFeed .afterLine .forward (min 4095 h.feedAfter.toNat) s))) := by
  obtain ⟨parts, st, hfront⟩ := frontHeader_some hq
  unfold carryOut
  rw [hfront]
  exact if_pos (paperFree_atPrint hp hf)

/-- The feed after line of a line with no pass is under way. -/
def lineFeeding (g : Forms) (s : State) : State :=
  { s with forms := g,
           run := { s.run with executor := if s.run.executor = .halting then .halting else .running, reason := .none,
                               inHand := some (.lineFeed true) } }

theorem feedAfter_zero {h : LineHeader} (h0 : h.feedAfter = 0) : min 4095 h.feedAfter.toNat = 0 := by
  rw [h0]
  rfl

theorem feedAfter_pos {h : LineHeader} (h0 : h.feedAfter ≠ 0) : min 4095 h.feedAfter.toNat ≠ 0 := by
  have : h.feedAfter.toNat ≠ 0 := fun hz => h0 (BitVec.eq_of_toNat_eq hz)
  omega

theorem setWait_lineFeeding {g : Forms} {s : State} (he : s.run.executor.executing = true) :
    setWait .none (setInHand (some (.lineFeed true)) { s with forms := g }) = lineFeeding g s := by
  rw [setWait_executing (by exact he)]
  rfl

theorem finishEntry_lineFeeding {s : State} {h : LineHeader} {parts : List (List Byte)} {b : BufId}
    (hq : s.queue = { entries := [.line h parts (.active b)], cursor := 1 }) (g : Forms) :
    finishEntry (lineFeeding g s) = leftLine b g s := by
  have hx : (lineFeeding g s).run.executor.leaveEntry = if s.run.executor = .halting then .halted else .ready := by
    show (if s.run.executor = .halting then Executor.halting else .running).leaveEntry = _
    split <;> rfl
  rw [finishEntry_lone (e := .line h parts (.active b)) (by exact congrArg Queue.entries hq) rfl, hx]
  simp only [lineFeeding, hq]
  rfl

theorem followStep_lineFeeds {s : State} {h : LineHeader} (hb : builderStep s = none)
    (hin : s.run.inHand = some (.lineFeed false)) (he : s.run.executor.executing = true)
    (hq : frontHeader s.queue = some h) (hp : s.forms.paper = .atPrint) (hf : s.forms.feed = none)
    (h0 : h.feedAfter ≠ 0) :
    followStep false s = some (lineFeeding (begunForward .afterLine (min 4095 h.feedAfter.toNat) s s.forms) s) := by
  refine followStep_carryOut (feedEnds_noFeed hf) hb hin he ?_
  rw [carryOut_lineFeed hq hp hf, beginFeed_forward (feedAfter_pos h0), setWait_lineFeeding he]

theorem settled_lineFeeding {s : State} {g : Forms} (hb : builderStep s = none) (hl : s.intake.laneQ = [])
    (hr : g.paperRequest = false ∨ g.paper ≠ .atTear) (hf : ∀ f, g.feed = some f → f.remaining ≠ 0) :
    Settled (lineFeeding g s) :=
  settled_started (x := .lineFeed true) rfl (.inr (.inl rfl)) hr (feedEnds_none.mpr hf)
    (builderStep_none_of hb rfl rfl) hl

/-- A feed after line of no steps ends a line with no pass in the event (R145, R160). -/
theorem followTo_lineFeedNone {s : State} {h : LineHeader} {parts : List (List Byte)} {b : BufId}
    (hin : s.run.inHand = some (.lineFeed false)) (he : s.run.executor.executing = true)
    (hq : s.queue = { entries := [.line h parts (.active b)], cursor := 1 }) (hp : s.forms.paper = .atPrint)
    (hf : s.forms.feed = none) (h0 : h.feedAfter = 0) : followTo false 2 s = some (leftLine b s.forms s) := by
  let fed : State := lineFeeding
    { s.forms with feed := some { purpose := .afterLine, dir := .forward, total := 0, remaining := 0, suspended := true,
                                  ending := .goOn } } s
  have hfront : frontHeader s.queue = some h := by rw [hq]; rfl
  have h1 : followStep false s = some fed := by
    refine followStep_carryOut (feedEnds_noFeed hf) (builderStep_lone hq) hin he ?_
    rw [carryOut_lineFeed hfront hp hf, feedAfter_zero h0, beginFeed_zero, State.updForms, setWait_lineFeeding he]
  refine followTo_succ h1 (followTo_one (followStep_of_feed ?_))
  rw [feedEnds_some rfl rfl]
  have hend : endFeed .afterLine fed = finishEntry (clearFeed fed) := rfl
  exact congrArg some (hend.trans ((finishEntry_lineFeeding hq { s.forms with feed := none }).trans
    (by rw [forms_noFeed hf])))

/-- A BUILT line in hand at the front becomes ACTIVE, its buffer IN USE, and goes on to its pass start or, with no dark
extent, to its feed (R26, R32, R160). -/
def activated (h : LineHeader) (parts : List (List Byte)) (b : BufId) (img : Image) (s : State) : State :=
  { s with queue := { entries := [.line h parts (.active b)], cursor := 1 },
           buffers := s.buffers.set b (.inUse img),
           run := { s.run with executor := if s.run.executor = .halting then .halting else .running, reason := .none,
                               inHand := some (if img.extent.isNone then .lineFeed false else .lineDue true .ready) } }

section BuiltLine

variable {s : State} {h : LineHeader} {parts : List (List Byte)} {b : BufId} {img : Image}

theorem followStep_activates (hin : s.run.inHand = some .notBuilt) (he : s.run.executor.executing = true)
    (hq : s.queue = { entries := [.line h parts (.built b)], cursor := 1 }) (hg : s.buffers.get b = .ready img)
    (hf : NoFeedEnds s) : followStep false s = some (activated h parts b img s) := by
  refine followStep_carryOut hf (builderStep_lone hq) hin he ?_
  have hfront : frontEntry s.queue = some (.line h parts (.built b)) := frontEntry_lone (by rw [hq]) rfl
  unfold carryOut
  rw [hfront]
  dsimp only
  rw [frontIndex_lone (e := .line h parts (.built b)) (by rw [hq]) rfl, Option.map_some, activateLine, hg]
  dsimp only
  rw [setWait_executing (by exact he)]
  simp only [activated, setInHand, setEntry, State.updRun, State.updQueue, State.updBuffers, hq]
  rfl

theorem executing_activated :
    (activated h parts b img s).run.executor.executing = true := by
  show (if s.run.executor = .halting then Executor.halting else .running).executing = true
  split <;> rfl

theorem inHand_activated_dark (hext : img.extent ≠ none) :
    (activated h parts b img s).run.inHand = some (.lineDue true .ready) := by
  have : img.extent.isNone = false := by simpa [Option.isNone_eq_false_iff, Option.isSome_iff_ne_none] using hext
  simp [activated, this]

theorem inHand_activated_blank (hext : img.extent = none) :
    (activated h parts b img s).run.inHand = some (.lineFeed false) := by
  simp [activated, hext]

theorem activeImage_activated : activeImage (activated h parts b img s) = some img := by
  have hg : (activated h parts b img s).buffers.get b = .inUse img := Buffers.get_set_self _ _ _
  show (match (activated h parts b img s).buffers.get b with
    | .inUse img => some img
    | _ => none) = some img
  rw [hg]

end BuiltLine

/-- A pass start whose need has been met stops at the lever. -/
theorem followStep_atLever {first : Bool} {n : Need} {s : State} (hb : builderStep s = none)
    (hin : s.run.inHand = some (.lineDue first n)) (he : s.run.executor.executing = true) (hn : needMet n s = true)
    (hq : frontHeader s.queue ≠ none) (h1 : s.forms.paper = .atPrint) (h2 : s.forms.feed = none)
    (h3 : s.forms.lever ≠ .closed) : followStep false s = some (atLever first s) := by
  rw [followStep_lineDue (feedEnds_noFeed h2) hb hin he hn hq, runChecks_atLever he h1 h2 h3]

/-- Settles O42. -/
theorem builtLineTakenUp : Obligations.BuiltLineTakenUp := by
  intro h parts b img s hx hin hm hq hg hl hp hf tk
  let u : State := taken .notBuilt s
  have ends : ∀ (k : Nat) (t : State), k ≤ 60 → followTo false k (activated h parts b img u) = some t → Settled t →
      exec .takeUpFrontEntry s = .next (judgeTimers t) := by
    intro k t hk ht hset
    rw [exec_takeUp_lone (e := .line h parts (.built b)) hx hin hm (by rw [hq]) rfl]
    exact congrArg _ (finishEvent_of_followTo (s := u) (n := k + 1) (by omega)
      (followTo_succ (followStep_activates (s := u) rfl rfl hq hg (feedEnds_noFeed hf)) ht) hset)
  have hb : builderStep (activated h parts b img u) = none := builderStep_lone (e := .line h parts (.active b)) rfl
  refine ⟨fun hext hlever => ?lever, fun hext h0 => ?feeds, fun hext h0 => ?ends⟩
  case lever =>
    have h1 := followStep_atLever (s := activated h parts b img u) hb (inHand_activated_dark hext) executing_activated
      rfl (Option.some_ne_none h) hp hf hlever
    exact ends 1 _ (by decide) (followTo_one h1) (settled_atLever (s := activated h parts b img u) hp hf hlever hb hl)
  case feeds =>
    have h1 := followStep_lineFeeds hb (inHand_activated_blank hext) executing_activated rfl hp hf h0
    obtain ⟨hpaper, -⟩ := begunForward_rest .afterLine (min 4095 h.feedAfter.toNat) s s.forms
    exact ends 1 _ (by decide) (followTo_one h1) (settled_lineFeeding hb hl (.inr (by
      intro htear
      exact absurd (hp.symm.trans (hpaper.symm.trans htear)) (by decide))) (begunForward_remains (feedAfter_pos h0)))
  case ends =>
    have h1 := followTo_lineFeedNone (inHand_activated_blank hext) executing_activated
      (show (activated h parts b img u).queue = _ from rfl) hp hf h0
    rw [ends 2 _ (by decide) h1 (settled_leftLine hl (.inr (by
      rw [show (activated h parts b img u).forms.paper = .atPrint from hp]
      decide)) hf)]
    simp only [leftLine, leftLone, activated, Buffers.set_set, u, taken, hx, hin]
    rfl

end Sys2Proof.Machine
end

