-- ==== Sys2Proof/Proofs/FeedSteps.lean ====
section
/-! PROOFS. FEED_STEP_ARRIVAL within a feed and at its end (R140 to R157, R160, R161). -/

namespace Sys2Proof.Machine

/-! ## What an arrival counts -/

theorem arriveStep_forward {f : Feed} (d : Nat) (g : Forms) (hl : f.purpose ≠ .loading) (hd : f.dir = .forward) :
    arriveStep d f g =
      { countedForward g with feed := some { f with remaining := f.remaining - 1, suspended := true } } := by
  unfold arriveStep countedForward
  rw [if_neg hl, hd]
  dsimp only
  unfold countForward trackStep
  by_cases hp : g.position + 1 ≥ g.length <;> cases g.tracking <;> simp [hp]

theorem arriveStep_reverse {f : Feed} (d : Nat) (g : Forms) (hl : f.purpose ≠ .loading) (hd : f.dir = .reverse) :
    arriveStep d f g =
      { countedReverse d g with feed := some { f with remaining := f.remaining - 1, suspended := true } } := by
  unfold arriveStep countedReverse
  rw [if_neg hl, hd]
  dsimp only
  unfold countReverse trackStep
  by_cases hp : g.position = 0 <;> cases g.tracking <;> simp [hp]

theorem trackStep_none (d : Nat) (dir : FeedDir) {g : Forms} (h : g.tracking = none) : trackStep d dir g = g := by
  unfold trackStep
  split <;> simp_all

/-- A loading counts neither p nor the form count. -/
theorem arriveStep_loading {f : Feed} (d : Nat) (g : Forms) (hl : f.purpose = .loading) (ht : g.tracking = none) :
    arriveStep d f g = { g with feed := some { f with remaining := f.remaining - 1, suspended := true } } := by
  unfold arriveStep
  rw [if_pos hl]
  dsimp only
  rw [trackStep_none _ _ ht]

/-! ## The cases of an arrival -/

/-- The arrival brings r to 0 in a feed that paper out stops (R153). -/
def findsTail (f : Feed) (s : State) : Prop :=
  f.purpose.stopsAtTail = true ∧ f.dir = .forward ∧ (arriveStep s.geometry.sensorDist f s.forms).tracking = some 0

/-- The state with the counts of the arrival made. -/
def arrived (f : Feed) (s : State) : State := s.updForms (arriveStep s.geometry.sensorDist f)

section Arrival

variable {f : Feed} {s : State}

theorem exec_feedStep_tail (hf : s.forms.feed = some f) (hs : f.suspended = false) (hr : f.remaining ≠ 0)
    (ht : findsTail f s) : exec .feedStepArrival s = .next (finishEvent (tailReached f (arrived f s))) := by
  show execFeedStepArrival s = _
  unfold execFeedStepArrival
  rw [hf]
  dsimp only
  rw [if_neg (by simp [hs, hr])]
  exact if_pos ht

theorem exec_feedStep (hf : s.forms.feed = some f) (hs : f.suspended = false) (hr : f.remaining ≠ 0)
    (ht : ¬findsTail f s) : exec .feedStepArrival s =
      match f.ending with
      | .abandon => .next (finishEvent (clearFeed (arrived f s)))
      | .reset => .next (finishEvent (resetPaper (arrived f s)))
      | .cutShort => .next (finishEvent (enterNoForms (arrived f s)))
      | .goOn => if f.remaining = 1 then .next (finishEvent (arrived f s)) else .next (startStep (arrived f s)) := by
  show execFeedStepArrival s = _
  unfold execFeedStepArrival
  rw [hf]
  dsimp only
  rw [if_neg (by simp [hs, hr])]
  exact if_neg ht

/-- An arrival within a feed that goes on. -/
theorem exec_feedStep_goesOn (hf : s.forms.feed = some f) (hs : f.suspended = false) (hr : 2 ≤ f.remaining)
    (he : f.ending = .goOn) (ht : ¬findsTail f s) : exec .feedStepArrival s = .next (startStep (arrived f s)) := by
  rw [exec_feedStep hf hs (by omega) ht, he]
  exact if_neg (by omega)

theorem findsTail_none (ht : s.forms.tracking = none) : ¬findsTail f s := by
  rintro ⟨h1, h2, h3⟩
  rw [arriveStep_forward _ _ (by intro h; rw [h] at h1; cases h1) h2] at h3
  have h3 : s.forms.tracking.map (· - 1) = some 0 := h3
  rw [ht] at h3
  cases h3

theorem findsTail_reverse (hd : f.dir = .reverse) : ¬findsTail f s := by
  rintro ⟨-, h, -⟩
  rw [hd] at h
  cases h

/-- The last step of a feed: the feed's end, and what follows it. -/
theorem exec_feedStep_ends (hf : s.forms.feed = some f) (hs : f.suspended = false) (hr : f.remaining = 1)
    (he : f.ending = .goOn) (ht : ¬findsTail f s) {n : Nat} {t : State} (hn : n ≤ 60)
    (h : followTo false n (endFeed f.purpose (arrived f s)) = some t) (hset : Settled t) :
    exec .feedStepArrival s = .next (judgeTimers t) := by
  obtain ⟨f', hf', h0, hp⟩ : ∃ f', (arrived f s).forms.feed = some f' ∧ f'.remaining = 0 ∧ f'.purpose = f.purpose :=
    ⟨_, rfl, by simp [hr], rfl⟩
  have h1 : followStep false (arrived f s) = some (endFeed f.purpose (arrived f s)) :=
    followStep_of_feed (by rw [feedEnds_some hf' h0, hp])
  rw [exec_feedStep hf hs (by omega) ht, he]
  dsimp only
  rw [if_pos hr, finishEvent_of_followTo (n := n + 1) (by omega) (followTo_succ h1 h) hset]

end Arrival

/-! ## Within a feed -/

/-- The next step of a feed that goes on, with its tractor steps where the lever is CLOSED (R140, R141, R155). -/
theorem startStep_next {f : Feed} {s : State} (hf : s.forms.feed = some f) (hs : f.suspended = true)
    (hr : f.remaining ≠ 0) : startStep s =
      if s.forms.lever = .closed then
        { s with forms := { tractorStep s.geometry.ratio f.dir s.forms with feed := some { f with suspended := false } } }
      else s := by
  unfold startStep
  rw [hf]
  by_cases h : s.forms.lever = .closed <;> simp [hs, hr, h, State.updForms]

theorem tractorStep_feed (ratio : Nat) (dir : FeedDir) (g : Forms) (x : Option Feed) :
    tractorStep ratio dir { g with feed := x } = { tractorStep ratio dir g with feed := x } := by
  cases dir <;> rfl

/-- A forward step undone by a reverse step (R141, R142). -/
theorem reverse_forward {ratio : Nat} {f : Forms} (h1 : f.acc ≤ 15) (h2 : f.position < f.length) (h3 : f.count < 65536) :
    tractorReverse ratio (countReverse (countForward (tractorForward ratio f))) = f := by
  have hacc : ((((f.acc + ratio) % 16 : Nat) : Int) - ratio) % 16 = f.acc := by omega
  have hmotor : f.tractorMotor + (((f.acc + ratio) / 16 : Nat) : Int) +
      ((((f.acc + ratio) % 16 : Nat) : Int) - ratio) / 16 = f.tractorMotor := by omega
  have hfeed : f.feedMotor + 1 - 1 = f.feedMotor := by omega
  unfold countForward tractorForward
  dsimp only
  by_cases hp : f.position + 1 ≥ f.length
  · have hpos : f.length - 1 = f.position := by omega
    have hcount : ((f.count + 1) % 65536 + 65535) % 65536 = f.count := by omega
    simp only [hp, if_true, countReverse, tractorReverse, hacc, hmotor, hfeed, hpos, hcount, Int.toNat_natCast]
  · simp only [hp, if_false, countReverse, tractorReverse, hacc, hmotor, hfeed, Int.toNat_natCast, Nat.add_sub_cancel,
      Nat.succ_ne_zero]

theorem forward_ranges {ratio : Nat} {f : Forms} (h2 : f.position < f.length) (h3 : f.count < 65536) :
    (countForward (tractorForward ratio f)).acc ≤ 15 ∧
      (countForward (tractorForward ratio f)).position < (countForward (tractorForward ratio f)).length ∧
      (countForward (tractorForward ratio f)).count < 65536 := by
  unfold countForward tractorForward
  dsimp only
  split <;> dsimp only <;> refine ⟨?_, ?_, ?_⟩ <;> omega

theorem reverse_forward_iterate (n ratio : Nat) {f : Forms} (h1 : f.acc ≤ 15) (h2 : f.position < f.length)
    (h3 : f.count < 65536) :
    (fun g => tractorReverse ratio (countReverse g))^[n] ((fun g => countForward (tractorForward ratio g))^[n] f) = f := by
  induction n generalizing f with
  | zero => rfl
  | succ n ih =>
    obtain ⟨k1, k2, k3⟩ := forward_ranges (ratio := ratio) h2 h3
    rw [Function.iterate_succ_apply' (fun g => tractorReverse ratio (countReverse g)), Function.iterate_succ_apply,
      ih k1 k2 k3]
    exact reverse_forward h1 h2 h3

/-- The forms in EJECTING with the tear gap to feed (R153). -/
theorem eject_zero {s : State} (h : s.geometry.tearGap ≠ 0) : eject 0 s =
    { s with
      forms := begunForward .ejection s.geometry.tearGap s
        { s.forms with paper := .ejecting, tracking := none, tearAdvance := none },
      run := { s.run with causes := s.run.causes ||| Cause.PO.bit } } := by
  rw [eject, Nat.zero_add, beginFeed_forward h]
  rfl

/-- Settles O57. -/
theorem feedStepArrives : Obligations.FeedStepArrives := by
  refine ⟨fun f s hf hs hr he hl => ?_, fun f s hf hs hr he hd htrack hgap => ?_,
    fun n ratio f h1 h2 h3 => reverse_forward_iterate n ratio h1 h2 h3⟩
  · intro go fed
    have next : ∀ g, ¬findsTail f s → arriveStep s.geometry.sensorDist f s.forms =
        { g with feed := some { f with remaining := f.remaining - 1, suspended := true } } → g.lever = s.forms.lever →
        exec .feedStepArrival s = .next { s with forms :=
          { (if go then tractorStep s.geometry.ratio f.dir g else g) with
            feed := some { f with remaining := f.remaining - 1, suspended := !go } } } := by
      intro g hno ha hg
      rw [exec_feedStep_goesOn hf hs hr he hno, arrived, State.updForms, ha,
        startStep_next (f := { f with remaining := f.remaining - 1, suspended := true }) rfl rfl
          (by show f.remaining - 1 ≠ 0; omega)]
      dsimp only
      by_cases hlever : g.lever = .closed
      · have hgo : go = true := decide_eq_true (hg.symm.trans hlever)
        rw [if_pos hlever, hgo, if_pos rfl, tractorStep_feed]
        rfl
      · have hgo : go = false := decide_eq_false fun h => hlever (hg.trans h)
        rw [if_neg hlever, hgo, if_neg Bool.false_ne_true]
        rfl
    refine ⟨fun hd htrack => ?_, fun hd => ?_⟩
    · have hno : ¬findsTail f s := by
        rintro ⟨h1, -, h3⟩
        rw [arriveStep_forward _ _ hl hd] at h3
        have h3 : s.forms.tracking.map (· - 1) = some 0 := h3
        rcases htrack with ⟨ha, hb⟩ | hp
        · obtain ⟨r, hr, hr0⟩ := Option.map_eq_some_iff.mp h3
          have : r = 0 ∨ r = 1 := by omega
          rcases this with rfl | rfl
          · exact hb hr
          · exact ha hr
        · rw [hp] at h1
          cases h1
      rw [next _ hno (arriveStep_forward _ _ hl hd) rfl]
      by_cases hlever : s.forms.lever = .closed <;>
        simp [fed, go, hd, hlever, tractorStep, tractorForward, countedForward]
    · rw [next _ (findsTail_reverse hd) (arriveStep_reverse _ _ hl hd) rfl]
      by_cases hlever : s.forms.lever = .closed <;>
        simp [fed, go, hd, hlever, tractorStep, tractorReverse, countedReverse]
  · intro out
    have ejected : f.purpose.stopsAtTail = true → exec .feedStepArrival s = .next (finishEvent
        (if f.purpose = .tearAdvance then tearEnded (out s.run) else feedComplete f.purpose (out s.run))) := by
      intro hp
      have hl : f.purpose ≠ .loading := by
        intro h
        rw [h] at hp
        cases hp
      have ha := arriveStep_forward s.geometry.sensorDist s.forms hl hd
      have ht : findsTail f s := ⟨hp, hd, by rw [ha]; exact congrArg (Option.map (· - 1)) htrack⟩
      rw [exec_feedStep_tail hf hs hr ht, tailReached, he, eject_zero (s := arrived f s) hgap, arrived, State.updForms, ha]
      rfl
    have hout : ∀ r, feedEnds (out r) = none := fun r => feedEnds_begunForward hgap rfl
    have hpaper : ∀ r, (out r).forms.paper = .ejecting := fun r => (begunForward_rest _ _ _ _).1
    have hreq : ∀ r, (out r).forms.paperRequest = s.forms.paperRequest := fun r => (begunForward_rest _ _ _ _).2.1
    refine ⟨fun hp hin hw => ?line, fun hp hw => ?tear, fun mode count hp hq hl hin hx hreq0 => ?advance⟩
    case line =>
      have e : feedComplete f.purpose (out s.run) = out { s.run with inHand := some (.linePass true false true) } := by
        rw [hp]
        unfold feedComplete
        rw [show (out s.run).run.inHand = some (.linePass true false false) from hin]
        rfl
      rw [ejected (by rw [hp]; rfl), if_neg (by rw [hp]; decide), e]
      exact congrArg _ (finishEvent_settled (settled_started rfl (.inr (.inr ⟨_, _, _, rfl⟩))
        (.inr (by rw [hpaper]; decide)) (hout _) (builderStep_none_of hw.1 rfl rfl) hw.2))
    case tear =>
      obtain ⟨h1, h2, h3, h4, -⟩ := hw
      have e : tearEnded (out s.run) = out s.run := by
        unfold tearEnded
        rw [show (out s.run).run.inHand = none from h3]
      rw [ejected (by rw [hp]; rfl), if_pos hp, e]
      exact congrArg _ (finishEvent_settled (settled_noWork h1 h2 h3 ((hreq _).trans h4) (hout _)))
    case advance =>
      have e : (if f.purpose = .tearAdvance then tearEnded (out s.run) else feedComplete f.purpose (out s.run)) =
          finishEntry (out s.run) := by
        have hin' : (out s.run).run.inHand = some (.advance true) := hin
        rcases hp with hp | hp
        · rw [hp, if_neg (by decide)]
          unfold feedComplete
          rw [hin']
        · rw [if_pos hp]
          unfold tearEnded
          rw [hin']
      have hgone : finishEntry (out s.run) = leftLone (out s.run).forms (out s.run) :=
        finishEntry_leftLone (e := .advance mode count) hq rfl rfl (by rw [show (out s.run).run.executor = .running from hx]; rfl)
      rw [ejected (by rcases hp with h | h <;> rw [h] <;> rfl), e, hgone,
        finishEvent_settled (settled_leftLone (s := out s.run) hl ((hreq _).trans hreq0) (feedEnds_none.mp (hout _)))]
      simp only [leftLone, out, hx]
      rfl

end Sys2Proof.Machine
end

