-- ==== Sys2Proof/Proofs/FeedEnds.lean ====
section
/-! PROOFS. The ends of feeds at their last step, and what follows each (R32, R33, R140, R143 to R153, R160, R161). -/

namespace Sys2Proof.Machine

/-! ## What a feed's end reports -/

section Reports

variable {s : State}

theorem feedComplete_advance (h : s.run.inHand = some (.advance true)) : feedComplete .advance s = finishEntry s := by
  unfold feedComplete
  rw [h]

theorem feedComplete_recorded {done : Bool} (h : s.run.inHand = some (.linePass true false done)) :
    feedComplete .afterLine s = setInHand (some (.linePass true false true)) s := by
  unfold feedComplete
  rw [h]

theorem feedComplete_done {done : Bool} (h : s.run.inHand = some (.linePass true true done) ∨ s.run.inHand = some (.lineFeed true)) :
    feedComplete .afterLine s = finishEntry s := by
  unfold feedComplete
  rcases h with h | h <;> rw [h]

theorem feedComplete_skip {first : Bool} (h : s.run.inHand = some (.lineDue first .skipFeed)) :
    feedComplete .skip s = setInHand (some (.lineDue first .ready)) s := by
  unfold feedComplete
  rw [h]

theorem tearEnded_advance (h : s.run.inHand = some (.advance true)) : tearEnded s = finishEntry s := by
  unfold tearEnded
  rw [h]

theorem tearEnded_other (h : s.run.inHand ≠ some (.advance true)) : tearEnded s = s := by
  unfold tearEnded
  split
  · exact absurd ‹_› h
  · rfl

end Reports

/-- The only entry finished while the forms are `g`. -/
theorem finishEntry_loneAt {s : State} {e : Entry} (g : Forms) (hq : s.queue = { entries := [e], cursor := 1 })
    (he : e.atFront = true) (hb : e.buf = none) (hx : s.run.executor.executing = true) :
    finishEntry { s with forms := g } = leftLone g s :=
  finishEntry_leftLone (s := { s with forms := g }) hq he hb hx

theorem finishEntry_lineAt {s : State} {h : LineHeader} {parts : List (List Byte)} {b : BufId} (g : Forms)
    (hq : s.queue = { entries := [.line h parts (.active b)], cursor := 1 }) (hx : s.run.executor.executing = true) :
    finishEntry { s with forms := g } = leftLine b g s :=
  finishEntry_line (s := { s with forms := g }) hq hx

/-! ## The state at a feed's end -/

section Ends

variable {f : Feed} {s : State}

theorem arrived_forward (hl : f.purpose ≠ .loading) (hd : f.dir = .forward) : arrived f s =
    { s with forms :=
      { countedForward s.forms with feed := some { f with remaining := f.remaining - 1, suspended := true } } } := by
  rw [arrived, State.updForms, arriveStep_forward _ _ hl hd]

theorem arrived_reverse (hl : f.purpose ≠ .loading) (hd : f.dir = .reverse) : arrived f s =
    { s with forms :=
      { countedReverse s.geometry.sensorDist s.forms with
        feed := some { f with remaining := f.remaining - 1, suspended := true } } } := by
  rw [arrived, State.updForms, arriveStep_reverse _ _ hl hd]

theorem arrived_loading (hl : f.purpose = .loading) (ht : s.forms.tracking = none) : arrived f s =
    { s with
      forms := { s.forms with feed := some { f with remaining := f.remaining - 1, suspended := true } } } := by
  rw [arrived, State.updForms, arriveStep_loading _ _ hl ht]

/-- A feed that just ends: the counts made, no feed in progress. -/
theorem endFeed_cleared (hp : f.purpose = .advance ∨ f.purpose = .afterLine ∨ f.purpose = .skip) (hd : f.dir = .forward) :
    endFeed f.purpose (arrived f s) =
      feedComplete f.purpose { s with forms := { countedForward s.forms with feed := none } } := by
  rw [arrived_forward (by rcases hp with h | h | h <;> rw [h] <;> decide) hd]
  rcases hp with h | h | h <;> rw [h] <;> rfl

theorem endFeed_tear (hp : f.purpose = .tearAdvance) (hd : f.dir = .forward) :
    endFeed f.purpose (arrived f s) =
      tearEnded { s with forms := { countedForward s.forms with feed := none, paper := .atTear } } := by
  rw [arrived_forward (by rw [hp]; decide) hd, hp]
  rfl

theorem endFeed_ejection (hp : f.purpose = .ejection) (hd : f.dir = .forward) :
    endFeed f.purpose (arrived f s) =
      { s with forms := { countedForward s.forms with feed := none, paper := .noForms },
               run := { s.run with causes := s.run.causes ||| Cause.PO.bit } } := by
  rw [arrived_forward (by rw [hp]; decide) hd, hp]
  rfl

theorem endFeed_loading (hp : f.purpose = .loading) (ht : s.forms.tracking = none) (hf : s.pins.formsPresent = true) :
    endFeed f.purpose (arrived f s) =
      { s with forms :=
        { s.forms with feed := none, paper := .atPrint, tearAdvance := none, paperRequest := false, position := 0 } } := by
  rw [arrived_loading hp ht, hp]
  exact if_pos hf

theorem endFeed_return (hp : f.purpose = .return) (hd : f.dir = .reverse) :
    endFeed f.purpose (arrived f s) =
      { s with forms :=
        { countedReverse s.geometry.sensorDist s.forms with
          feed := none, paper := .atPrint, tearAdvance := none, paperRequest := false } } := by
  rw [arrived_reverse (by rw [hp]; decide) hd, hp]
  rfl

end Ends

/-- An entry in hand but an advance that needs paper waits while it is not AT PRINT. -/
theorem carryOut_needsPaper {s : State} {x : InHand} (hx : x = .marker ∨ x = .lineFeed false ∨ ∃ first, x = .lineDue first .paper)
    (hp : s.forms.paper ≠ .atPrint) : carryOut x s = none := by
  rcases hx with rfl | rfl | ⟨first, rfl⟩
  · unfold carryOut
    split <;> simp_all
  · unfold carryOut
    split <;> simp_all [paperFree_elsewhere]
  · exact carryOut_lineDue_unmet (decide_eq_false hp)

/-- A kept request with its reason only starts the return, and only AT TEAR (R149). -/
theorem requestStep_standing {s : State} (hr : s.run.reason = paperReason s.forms.paper) (hq : s.forms.paperRequest = true) :
    requestStep s =
      if s.forms.paper = .atTear && s.forms.feed.isNone then some (beginReturn s) else none := by
  unfold requestStep
  rw [hr, hq]
  simp only [bne_self_eq_false, Bool.not_true, Bool.and_false, Bool.or_false, Bool.false_eq_true, if_false,
    Bool.true_and]

/-- AT TEAR with a request kept, the return begins in the same event (R149). -/
theorem returns_follow {s : State} {x : InHand} {a : Nat} (hin : s.run.inHand = some x)
    (hx : x = .marker ∨ x = .lineFeed false ∨ ∃ first, x = .lineDue first .paper)
    (he : s.run.executor.executing = true) (hrs : s.run.reason = .paperReturning) (hreq : s.forms.paperRequest = true)
    (hp : s.forms.paper = .atTear) (hf : s.forms.feed = none) (ha : s.forms.tearAdvance = some a) (ha0 : a ≠ 0)
    (hb : builderStep s = none) (hl : s.intake.laneQ = []) :
    let returning : State := { s with forms := begunReverse .return a s { s.forms with paper := .returning } }
    followStep false s = some returning ∧ Settled returning := by
  intro returning
  obtain ⟨hpaper, hkept⟩ := begunReverse_rest .return a s { s.forms with paper := .returning }
  have hpaper : returning.forms.paper = .returning := hpaper
  have hwaits : ∀ t : State, t.run = s.run → t.forms.paper ≠ .atPrint → runStep t = none := fun t ht hne =>
    (runStep_inHand (by rw [ht, hin]) (by rw [ht, he])).trans (carryOut_needsPaper hx hne)
  have hreturn : beginReturn s = returning := by
    rw [beginReturn, ha, Option.getD_some, beginFeed_reverse ha0]
    rfl
  refine ⟨followStep_of_request (feedEnds_noFeed hf) hb (hwaits s rfl (by rw [hp]; decide)) (offerStep_nil hl) ?_, ?_⟩
  · rw [requestStep_standing (by rw [hrs, hp]; rfl) hreq, hp, hf, hreturn]
    rfl
  · refine settled_of (feedEnds_begunReverse ha0 rfl) (builderStep_none_of hb rfl rfl) (offerStep_nil hl)
      (hwaits _ rfl (by rw [hpaper]; decide)) ?_
    rw [requestStep_standing (by rw [hpaper]; exact hrs) (hkept.trans hreq), hpaper]
    rfl

/-- A FEED that waited for paper AT PRINT begins when the paper comes there (R149, R153). -/
theorem waitingAdvance_begins {s : State} {mode : Byte} {count : BitVec 16}
    (hq : s.queue = { entries := [.advance mode count], cursor := 1 }) (h1 : mode ≠ 1) (h2 : mode ≠ 2) (h0 : count ≠ 0)
    (hin : s.run.inHand = some (.advance false)) (hx : s.run.executor = .waiting) (hp : s.forms.paper = .atPrint)
    (hf : s.forms.feed = none) (hreq : s.forms.paperRequest = false) (hl : s.intake.laneQ = []) :
    let begun : State :=
      { s with forms := begunForward .advance (min 4095 count.toNat) s s.forms,
               run := { s.run with executor := .running, reason := .none, inHand := some (.advance true) } }
    followStep false s = some begun ∧ Settled begun := by
  intro begun
  have hn : min 4095 count.toNat ≠ 0 := by
    have : count.toNat ≠ 0 := fun h => h0 (BitVec.eq_of_toNat_eq h)
    omega
  have e : begun = advancing (begunForward .advance (min 4095 count.toNat) s s.forms) s := by
    simp only [begun, advancing, hx]
    rfl
  obtain ⟨-, hkept, -⟩ := begunForward_rest .advance (min 4095 count.toNat) s s.forms
  rw [e]
  exact ⟨advance_feeds hq hin (by rw [hx]; rfl) hp hf h2 (if_neg h1) hn,
    settled_advancing hq hl (hkept.trans hreq) (begunForward_remains hn)⟩

/-- A pass start that waited for paper AT PRINT is made when the paper comes there, with every check passed (R149, R160). -/
theorem waitingPass_starts {first : Bool} {hd : LineHeader} {img : Image} {p : Int} {s : State}
    (hin : s.run.inHand = some (.lineDue first .paper)) (hx : s.run.executor = .waiting ∨ s.run.executor = .halting)
    (hb : builderStep s = none) (h1 : s.forms.paper = .atPrint) (h2 : s.forms.feed = none)
    (h3 : s.forms.lever = .closed) (h4 : s.carriage = { position := some p, drive := .stopped })
    (h6 : ¬(first = true ∧ skipDue s.forms = true)) (h7 : ∀ r, s.forms.tracking = some r → 144 ≤ r)
    (h8 : s.heat.band ≠ 3) (h9 : frontHeader s.queue = some hd) (h10 : activeImage s = some img)
    (hl : s.intake.laneQ = []) :
    followStep false s = some (startedPass first hd img p s) ∧ Settled (startedPass first hd img p s) :=
  ⟨followStep_starts hb hin (executing_of_waits hx) (decide_eq_true h1) h1 h2 h3 h4 h6 h7 h8 h9 h10,
    settled_startedPass h1 h2 (builderStep_none_of hb rfl rfl) hl⟩

/-- Settles O58, by the direction and the purpose of the feed, each end followed up to rest. -/
theorem feedsEnd : Obligations.FeedsEnd := by
  refine ⟨?forward, ?reverse, ?cut⟩
  case forward =>
    intro f s hf hs hr he hd ht hl counted tear gone removed
    have ends : ∀ (n : Nat) (t : State), n ≤ 60 → followTo false n (endFeed f.purpose (arrived f s)) = some t →
        Settled t → exec .feedStepArrival s = .next (judgeTimers t) :=
      fun n t => exec_feedStep_ends hf hs hr he (findsTail_none ht)
    refine ⟨fun mode count hq hin hx hreq => ⟨fun hp => ?advance, fun hp => ?tear⟩, fun hp hin hw hreq => ?recorded,
      fun h parts b hp hin hq hx hreq => ?done, fun hp hw => ?tearIdle,
      fun a hp hb ha ha0 hin hx hrs hreq => ?returns, fun first hp hin hx hb hpaper hfront => ?skip,
      fun hp hw => ?ejection, fun hp hforms => ?loading⟩
    case advance =>
      have e : endFeed f.purpose (arrived f s) = leftLone counted s := by
        rw [endFeed_cleared (.inl hp) hd, hp]
        exact (feedComplete_advance (by exact hin)).trans (finishEntry_loneAt _ hq rfl rfl hx)
      exact ends 0 _ (by decide) (congrArg some e) (settled_leftLone hl hreq (by simp [counted]))
    case tear =>
      have e : endFeed f.purpose (arrived f s) = leftLone tear s := by
        rw [endFeed_tear hp hd]
        exact (tearEnded_advance (by exact hin)).trans (finishEntry_loneAt _ hq rfl rfl hx)
      exact ends 0 _ (by decide) (congrArg some e) (settled_leftLone hl hreq (by simp [tear, counted]))
    case recorded =>
      have e : endFeed f.purpose (arrived f s) =
          { s with forms := counted, run := { s.run with inHand := some (.linePass true false true) } } := by
        rw [endFeed_cleared (.inr (.inl hp)) hd, hp]
        exact feedComplete_recorded (by exact hin)
      exact ends 0 _ (by decide) (congrArg some e) (settled_started rfl (.inr (.inr ⟨_, _, _, rfl⟩)) (.inl hreq)
        (feedEnds_noFeed rfl) (builderStep_none_of hw.1 rfl rfl) hw.2)
    case done =>
      have e : endFeed f.purpose (arrived f s) = leftLine b counted s := by
        rw [endFeed_cleared (.inr (.inl hp)) hd, hp]
        exact (feedComplete_done (by exact hin)).trans (finishEntry_lineAt _ hq hx)
      exact ends 0 _ (by decide) (congrArg some e) (settled_leftLine hl (.inl hreq) rfl)
    case tearIdle =>
      have e : endFeed f.purpose (arrived f s) = { s with forms := tear } := by
        rw [endFeed_tear hp hd]
        exact tearEnded_other (by rw [show State.run _ = s.run from rfl, hw.2.2.1]; simp)
      exact ends 0 _ (by decide) (congrArg some e) (settled_noWork hw.1 hl hw.2.2.1 hw.2.2.2.1 (feedEnds_noFeed rfl))
    case returns =>
      obtain ⟨x, hx', hkind⟩ : ∃ x, s.run.inHand = some x ∧
          (x = .marker ∨ x = .lineFeed false ∨ ∃ first, x = .lineDue first .paper) := by
        rcases hin with h | h | ⟨first, h⟩
        exacts [⟨_, h, .inl rfl⟩, ⟨_, h, .inr (.inl rfl)⟩, ⟨_, h, .inr (.inr ⟨first, rfl⟩)⟩]
      have e : endFeed f.purpose (arrived f s) = { s with forms := tear } := by
        rw [endFeed_tear hp hd]
        refine tearEnded_other (by
          rw [show State.run _ = s.run from rfl, hx']
          rintro h
          cases h
          rcases hkind with h | h | ⟨first, h⟩ <;> cases h)
      obtain ⟨h1, h2⟩ := returns_follow (s := { s with forms := tear }) hx' hkind hx hrs hreq rfl rfl ha ha0
        (builderStep_none_of hb rfl rfl) hl
      exact ends 1 _ (by decide) (by rw [e]; exact followTo_one h1) h2
    case skip =>
      let due : State := { s with forms := counted, run := { s.run with inHand := some (.lineDue first .ready) } }
      have e : endFeed f.purpose (arrived f s) = due := by
        rw [endFeed_cleared (.inr (.inr hp)) hd, hp]
        exact feedComplete_skip (by exact hin)
      have hb' : builderStep due = none := builderStep_none_of hb rfl rfl
      refine ⟨fun hlever => ?_, fun hd img p hlever hcar hskip hband hhd himg => ?_⟩
      · have h1 : followStep false due = some (atLever first due) :=
          followStep_atLever (s := due) hb' rfl hx rfl hfront hpaper rfl hlever
        exact ends 1 _ (by decide) (by rw [e]; exact followTo_one h1)
          (settled_atLever (s := due) hpaper rfl hlever hb' hl)
      · have htrack : ∀ r, due.forms.tracking = some r → 144 ≤ r := by
          intro r hr
          rw [show due.forms.tracking = s.forms.tracking.map (· - 1) from rfl, ht] at hr
          cases hr
        have h1 : followStep false due = some (startedPass first hd img p due) :=
          followStep_starts (s := due) hb' rfl hx rfl hpaper rfl hlever hcar hskip htrack hband hhd himg
        exact ends 1 _ (by decide) (by rw [e]; exact followTo_one h1)
          (settled_startedPass (s := due) hpaper rfl (builderStep_none_of hb rfl rfl) hl)
    case ejection =>
      have e := endFeed_ejection (s := s) hp hd
      exact ends 0 _ (by decide) (congrArg some e) (settled_noWork hw.1 hl hw.2.2.1 hw.2.2.2.1 (feedEnds_noFeed rfl))
    case loading =>
      intro loaded
      have e : endFeed f.purpose (arrived f s) = { s with forms := loaded } := endFeed_loading hp ht hforms
      refine ⟨fun hq hin => ?_, fun mode count hq h1 h2 h0 hin hx => ?_,
        fun first hd img p hin hx hb hlever hcar hskip hband hhd himg => ?_⟩
      · exact ends 0 _ (by decide) (congrArg some e) (settled_noWork hq hl hin rfl (feedEnds_noFeed rfl))
      · obtain ⟨k1, k2⟩ := waitingAdvance_begins (s := { s with forms := loaded }) hq h1 h2 h0 hin hx rfl rfl rfl hl
        exact ends 1 _ (by decide) (by rw [e]; exact followTo_one k1) k2
      · have htrack : ∀ r, loaded.tracking = some r → 144 ≤ r := by
          intro r hr
          rw [show loaded.tracking = s.forms.tracking from rfl, ht] at hr
          cases hr
        obtain ⟨k1, k2⟩ := waitingPass_starts (s := { s with forms := loaded }) hin hx (builderStep_none_of hb rfl rfl) rfl rfl
          hlever hcar hskip htrack hband hhd himg hl
        exact ends 1 _ (by decide) (by rw [e]; exact followTo_one k1) k2
  case reverse =>
    intro f s hf hs hr he hd hp hl atPrint
    have ends : ∀ (n : Nat) (t : State), n ≤ 60 → followTo false n { s with forms := atPrint } = some t →
        Settled t → exec .feedStepArrival s = .next (judgeTimers t) :=
      fun n t hn h => exec_feedStep_ends hf hs hr he (findsTail_reverse hd) hn (by rw [endFeed_return hp hd]; exact h)
    refine ⟨fun hq hin => ?idle, fun mode count hq h1 h2 h0 hin hx => ?advance, fun hx => ?waiting⟩
    case idle => exact ends 0 _ (by decide) rfl (settled_noWork hq hl hin rfl (feedEnds_noFeed rfl))
    case advance =>
      obtain ⟨k1, k2⟩ := waitingAdvance_begins (s := { s with forms := atPrint }) hq h1 h2 h0 hin hx rfl rfl rfl hl
      exact ends 1 _ (by decide) (followTo_one k1) k2
    case waiting =>
      intro removed
      let u : State := { s with forms := atPrint }
      have he : u.run.executor.executing = true := executing_of_waits hx
      have hu : NoFeedEnds u := feedEnds_noFeed rfl
      have marker : ∀ (e : Entry) (t : State), s.queue = { entries := [e], cursor := 1 } → e.atFront = true → e.buf = none →
          s.run.inHand = some .marker → carryOut .marker u = some (finishEntry t) → t.queue = u.queue →
          t.run.executor = u.run.executor → t.intake = u.intake → t.forms.paperRequest = false → t.forms.feed = none →
          exec .feedStepArrival s = .next (judgeTimers (leftLone t.forms t)) := by
        intro e t hq hat hbuf hin ht h1 h2 h3 h4 h5
        have hdone : finishEntry t = leftLone t.forms t :=
          finishEntry_leftLone (h1.trans hq) hat hbuf (by rw [h2]; exact he)
        rw [hdone] at ht
        exact ends 1 _ (by decide) (followTo_one (followStep_carryOut hu (builderStep_lone hq) hin he ht))
          (settled_leftLone (by rw [h3]; exact hl) h4 (by simp [h5]))
      refine ⟨fun l z hq hin => ?form, fun d g e q hq hin => ⟨fun hlock => ?locked, fun hlock => ?unlocked⟩,
        fun hd hin hb hfront h0 => ?feeds, fun hd parts b hin h0 hq => ?ends,
        fun first hd img p hin hb hlever hcar hskip htrack hband hhd himg => ?pass⟩
      case form =>
        exact marker (.form l z) (applyForm l z u) hq rfl rfl hin (carryOut_form (frontEntry_lone (by exact congrArg _ hq) rfl) rfl)
          rfl rfl rfl rfl rfl
      case locked =>
        have ht := carryOut_geometry (s := u) (frontEntry_lone (by exact congrArg _ hq) rfl) rfl
        rw [applyGeometry_locked d q g e (s := u) hlock] at ht
        exact marker (.geometry d g e q) _ hq rfl rfl hin ht rfl rfl rfl rfl rfl
      case unlocked =>
        have ht := carryOut_geometry (s := u) (frontEntry_lone (by exact congrArg _ hq) rfl) rfl
        rw [applyGeometry_unlocked d q g e (s := u) hlock] at ht
        exact marker (.geometry d g e q) _ hq rfl rfl hin ht rfl rfl rfl rfl rfl
      case feeds =>
        have hb' : builderStep u = none := builderStep_none_of hb rfl rfl
        obtain ⟨-, hkept, -⟩ := begunForward_rest .afterLine (min 4095 hd.feedAfter.toNat) u atPrint
        exact ends 1 _ (by decide) (followTo_one (followStep_lineFeeds (s := u) hb' hin he hfront rfl rfl h0))
          (settled_lineFeeding (s := u) hb' hl (.inl hkept) (begunForward_remains (feedAfter_pos h0)))
      case ends =>
        exact ends 2 _ (by decide) (followTo_lineFeedNone (s := u) hin he hq rfl rfl h0)
          (settled_leftLine (s := u) hl (.inl rfl) rfl)
      case pass =>
        obtain ⟨k1, k2⟩ := waitingPass_starts (s := u) hin hx (builderStep_none_of hb rfl rfl) rfl rfl hlever hcar hskip
          htrack hband hhd himg hl
        exact ends 1 _ (by decide) (followTo_one k1) k2
  case cut =>
    intro f s hf hs hr he hp ht hw
    rw [exec_feedStep hf hs hr (findsTail_none ht), he]
    have e : enterNoForms (arrived f s) =
        { s with forms := { s.forms with feed := none, paper := .noForms },
                 run := { s.run with causes := s.run.causes ||| Cause.PO.bit } } := by
      rw [arrived_loading hp ht]
      rfl
    dsimp only
    rw [e]
    exact congrArg _ (finishEvent_settled (settled_noWork hw.1 hw.2.1 hw.2.2.1 hw.2.2.2.1 (feedEnds_noFeed rfl)))

end Sys2Proof.Machine
end

