-- ==== Sys2Proof/Proofs/PaperEvents.lean ====
section
/-! PROOFS. The tear timer, the presence timer, the forms sensor and the tractor lever (R146 to R148, R150 to R155, R160). -/

namespace Sys2Proof.Machine

/-! ## The two timers -/

theorem beginTearOff_begins {s : State} {a : Nat} (ha : tearAdvanceOf s.forms s.geometry.tearGap = a) (h0 : a ≠ 0) :
    beginTearOff s =
      { s with forms := begunForward .tearAdvance a s { s.forms with paper := .tearing, tearAdvance := some a } } := by
  rw [beginTearOff, ha, beginFeed_forward h0]
  rfl

theorem beginLoading_begins {s : State} (h0 : s.geometry.sensorDist ≠ 0) :
    beginLoading s =
      { s with forms := begunForward .loading s.geometry.sensorDist s { s.forms with paper := .loading } } := by
  rw [beginLoading, beginFeed_forward h0]
  rfl

/-- With no work nothing follows a feed that begins. -/
theorem finishEvent_begins {purpose : Purpose} {n : Nat} {s : State} {g : Forms} (h : NoWork s) (hn : n ≠ 0)
    (hg : g.paperRequest = s.forms.paperRequest) :
    finishEvent { s with forms := begunForward purpose n s g } =
      judgeTimers { s with forms := begunForward purpose n s g } := by
  obtain ⟨h1, h2, h3, h4, -⟩ := h
  obtain ⟨-, hreq, -⟩ := begunForward_rest purpose n s g
  exact finishEvent_settled (settled_noWork h1 h2 h3 (hreq.trans (hg.trans h4)) (feedEnds_begunForward hn rfl))

/-- Settles O59: each expiry under its conditions begins its feed, and the law of the timers is a part of the ranges. -/
theorem formsTimers : Obligations.FormsTimers := by
  refine ⟨fun s hw hf => ⟨fun htimer hx hp hd => ?tear, fun htimer hp hpin hlever hdist => ?presence⟩,
    fun s t => step_keeps_timers⟩
  case tear =>
    intro a ha
    have hdue : tearTimerDue s = true := by simp [tearTimerDue, hx, hw.1, hp, hd]
    have hgo : (s.forms.tearTimer.isSome && tearTimerDue s && s.forms.feed.isNone) = true := by
      simp [Option.isSome_iff_ne_none, htimer, hdue, hf]
    show execTearTimerExpiry s = _
    rw [execTearTimerExpiry, if_pos hgo, beginTearOff_begins (a := a) rfl ha]
    exact congrArg _ (finishEvent_begins hw ha rfl)
  case presence =>
    have hgo : (s.forms.presenceTimer && presenceDue s && s.forms.feed.isNone) = true := by
      simp [htimer, presenceDue, hp, hpin, hlever, hf]
    show execPresenceTimerExpiry s = _
    rw [execPresenceTimerExpiry, if_pos hgo, beginLoading_begins hdist]
    exact congrArg _ (finishEvent_begins hw hdist rfl)

/-! ## The forms sensor -/

/-- The sensor's level changed to no forms. -/
def seesNoForms (s : State) : State := { s with pins := { s.pins with formsPresent := false } }

section Sensor

variable {s : State}

theorem exec_noForms_tracks (h : s.pins.formsPresent = true) (hp : s.forms.paper.tracks = true) :
    exec .formsSensorNoForms s =
      .next (judgeTimers ((seesNoForms s).updForms fun g => { g with tracking := some s.geometry.sensorDist })) := by
  show execFormsSensorNoForms s = _
  rw [execFormsSensorNoForms, if_pos h]
  exact if_pos hp

theorem exec_noForms_loading (h : s.pins.formsPresent = true) (hp : s.forms.paper = .loading) :
    exec .formsSensorNoForms s = .next (finishEvent (cutLoading (seesNoForms s))) := by
  have hno : ¬(seesNoForms s).forms.paper.tracks = true := by
    show ¬s.forms.paper.tracks = true
    rw [hp]
    decide
  show execFormsSensorNoForms s = _
  rw [execFormsSensorNoForms, if_pos h]
  exact (if_neg hno).trans (if_pos hp)

/-- A loading that sees no forms: cut short at its next arrival, or at once when it is suspended (R151, log 15). -/
theorem cutLoading_feed {f : Feed} (hf : s.forms.feed = some f) :
    cutLoading s = if f.suspended then enterNoForms s
      else { s with forms := { s.forms with feed := some { f with ending := .cutShort } } } := by
  unfold cutLoading
  rw [hf]
  rfl

end Sensor

/-! ## The end of the settle time -/

theorem exec_settled {s : State} (h : s.forms.lever = .settling) : exec .settleTimeExpiry s =
    .next (finishEvent (startStep { s with forms := { s.forms with lever := .closed } })) := by
  show execSettleTimeExpiry s = _
  rw [execSettleTimeExpiry, if_pos h]
  rfl

theorem startStep_noFeed {s : State} (h : s.forms.feed = none) : startStep s = s := by
  simp [startStep, h]

/-- Settles O60, by the level the sensor or the lever goes to and, at the end of the settle time, by the feed. -/
theorem sensorsAndLever : Obligations.SensorsAndLever := by
  refine ⟨fun s => ⟨fun hpin hp => ?tracks, fun f hpin hp hf hr hw => ?cut, rfl⟩,
    fun s => ⟨rfl, fun hlever => ?close, fun hlever hw hf => ?closed, fun f hlever hw hf hs hr => ?resumes,
      fun first hd img p hlever hin hx hw hpaper hf hcar hskip htrack hband hhd himg => ?pass⟩⟩
  case tracks =>
    refine exec_noForms_tracks hpin ?_
    rcases hp with h | h | h | h <;> rw [h] <;> rfl
  case cut =>
    intro seen
    obtain ⟨h1, h2, h3, h4, -⟩ := hw
    rw [exec_noForms_loading hpin hp, cutLoading_feed (s := seesNoForms s) hf]
    refine ⟨fun hs => ?_, fun hs => ?_⟩
    · rw [hs, if_neg (by decide)]
      exact congrArg _ (finishEvent_settled (settled_noWork h1 h2 h3 h4 (feedEnds_none.mpr fun g hg => by
        cases hg
        exact hr)))
    · rw [hs, if_pos rfl]
      exact congrArg _ (finishEvent_settled (settled_noWork h1 h2 h3 h4 (feedEnds_noFeed rfl)))
  case close => exact if_pos hlever
  case closed =>
    obtain ⟨h1, h2, h3, h4, -⟩ := hw
    rw [exec_settled hlever, startStep_noFeed (by exact hf)]
    exact congrArg _ (finishEvent_settled (settled_noWork h1 h2 h3 h4 (feedEnds_noFeed hf)))
  case resumes =>
    intro resumed
    obtain ⟨h1, h2, h3, h4, -⟩ := hw
    have goes : ∀ (d : FeedDir) (g : Forms), f.dir = d → { tractorStep s.geometry.ratio d { s.forms with lever := .closed } with
        feed := some { f with suspended := false } } = g → g.paperRequest = s.forms.paperRequest →
        g.feed = some { f with suspended := false } →
        exec .settleTimeExpiry s = .next (judgeTimers { s with forms := g }) := by
      intro d g hd hg hreq hfeed
      subst hd
      rw [exec_settled hlever, startStep_next (s := { s with forms := { s.forms with lever := .closed } }) hf hs hr,
        if_pos rfl, hg]
      refine congrArg _ (finishEvent_settled (settled_noWork h1 h2 h3 (hreq.trans h4) (feedEnds_none.mpr fun k hk => ?_)))
      cases hfeed.symm.trans hk
      exact hr
    exact ⟨fun hd => goes .forward _ hd rfl rfl rfl, fun hd => goes .reverse _ hd rfl rfl rfl⟩
  case pass =>
    let shut : State := { s with forms := { s.forms with lever := .closed } }
    have hb : builderStep shut = none := builderStep_none_of hw.1 rfl rfl
    have h1 : followStep false shut = some (startedPass first hd img p shut) :=
      followStep_starts (s := shut) hb hin (executing_of_waits hx) rfl hpaper hf rfl hcar hskip htrack hband hhd himg
    rw [exec_settled hlever, startStep_noFeed (by exact hf)]
    exact congrArg _ (finishEvent_of_followTo (s := shut) (n := 1) (by decide) (followTo_one h1)
      (settled_startedPass (s := shut) hpaper hf (builderStep_none_of hb rfl rfl) hw.2))

end Sys2Proof.Machine
end

