-- ==== Sys2Proof/Proofs/Resets.lean ====
section
/-! PROOFS. RESET in every block, and the arrival of a feed step that a RESET has left to complete (R14, R38, R61, R82, R111,
R112, R128, R138, R157, R169). -/

namespace Sys2Proof.Machine

/-! ## The causes by their bits -/

theorem Cause.bit_getLsbD (c d : Cause) : d.bit.getLsbD (c.priority - 1) = decide (c = d) := by
  cases c <;> cases d <;> rfl

theorem sticky_getLsbD (c : Cause) : stickyCauses.getLsbD (c.priority - 1) = true ↔ c = .CF ∨ c = .PF := by
  simp [stickyCauses, Cause.bit_getLsbD]

theorem ite_bit_getLsbD (b : Bool) (c d : Cause) :
    (if b then d.bit else (0 : CauseSet)).getLsbD (c.priority - 1) = true ↔ c = d ∧ b = true := by
  cases b <;> simp [Cause.bit_getLsbD]

theorem paperOutHolds_iff (p : Paper) : paperOutHolds p = true ↔ p = .noForms ∨ p = .loading ∨ p = .ejecting := by
  simp [paperOutHolds, or_assoc]

theorem leverHolds_iff (l : Lever) : leverHolds l = true ↔ l = .opened ∨ l = .settling := by
  simp [leverHolds]

/-- The condition causes whose condition holds (R166). -/
theorem held_getLsbD (c : Cause) (s : State) : (heldCauses s).getLsbD (c.priority - 1) = true ↔
    (c = .PO ∧ (s.forms.paper = .noForms ∨ s.forms.paper = .loading ∨ s.forms.paper = .ejecting)) ∨
      (c = .LO ∧ (s.forms.lever = .opened ∨ s.forms.lever = .settling)) ∨ (c = .HW ∧ s.heat.hold = true) := by
  rw [heldCauses, BitVec.getLsbD_or, BitVec.getLsbD_or, Bool.or_eq_true, Bool.or_eq_true, ite_bit_getLsbD,
    ite_bit_getLsbD, ite_bit_getLsbD, paperOutHolds_iff, leverHolds_iff, or_assoc]

/-! ## The Forms Drive at a RESET -/

/-- The forms counted as they were: what no RESET and no begun feed changes, and a request withdrawn stays so. -/
structure SameCounts (f g : Forms) : Prop where
  position : g.position = f.position
  length   : g.length = f.length
  skip     : g.skip = f.skip
  count    : g.count = f.count
  tracking : g.tracking = f.tracking
  lever    : g.lever = f.lever
  request  : f.paperRequest = false → g.paperRequest = false

/-- A feed's next step begins, or nothing is done. -/
theorem startStep_cases (s : State) : startStep s = s ∨ ∃ f : Feed, startStep s =
    { s with
      forms := { tractorStep s.geometry.ratio f.dir s.forms with feed := some { f with suspended := false } } } := by
  unfold startStep
  split
  · split
    · exact .inr ⟨_, rfl⟩
    · exact .inl rfl
  · exact .inl rfl

/-- A feed of `n` steps that begins. -/
def newFeed (purpose : Purpose) (dir : FeedDir) (n : Nat) : Feed :=
  { purpose := purpose, dir := dir, total := n, remaining := n, suspended := true, ending := .goOn }

theorem sameCounts_beginFeed (purpose : Purpose) (dir : FeedDir) (n : Nat) (s : State) :
    SameCounts s.forms (beginFeed purpose dir n s).forms := by
  rcases startStep_cases (s.updForms fun g => { g with feed := some (newFeed purpose dir n) }) with h | ⟨f, h⟩
  · rw [show beginFeed purpose dir n s = _ from h]
    exact ⟨rfl, rfl, rfl, rfl, rfl, rfl, id⟩
  · rw [show beginFeed purpose dir n s = _ from h]
    cases f.dir <;> exact ⟨rfl, rfl, rfl, rfl, rfl, rfl, id⟩

theorem sameCounts_resetPaper (s : State) : SameCounts s.forms (resetPaper s).forms := by
  unfold resetPaper
  split
  · exact ⟨rfl, rfl, rfl, rfl, rfl, rfl, id⟩
  · exact ⟨rfl, rfl, rfl, rfl, rfl, rfl, fun _ => rfl⟩
  · exact ⟨rfl, rfl, rfl, rfl, rfl, rfl, fun _ => rfl⟩
  · exact ⟨rfl, rfl, rfl, rfl, rfl, rfl, fun _ => rfl⟩
  · obtain ⟨h1, h2, h3, h4, h5, h6, h7⟩ := sameCounts_beginFeed .loading .forward s.geometry.sensorDist
      (s.updForms fun g => { g with paper := .loading })
    exact ⟨h1, h2, h3, h4, h5, h6, h7⟩
  · exact sameCounts_beginFeed _ _ _ _
  · exact ⟨rfl, rfl, rfl, rfl, rfl, rfl, id⟩

section ResetForms

variable {s : State}

/-- The kept paper request withdrawn. -/
def unasked (s : State) : State := { s with forms := { s.forms with paperRequest := false } }

theorem resetForms_eq (s : State) : resetForms s =
    match s.forms.feed with
    | some f =>
      if f.suspended then resetPaper (unasked s)
      else if f.ending = .cutShort then unasked s
      else { unasked s with forms := { (unasked s).forms with feed := some { f with ending := .reset } } }
    | none => resetPaper (unasked s) := rfl

/-- With no feed step in progress the drive is put in order at once. -/
theorem resetForms_stops (h : ∀ f, s.forms.feed = some f → f.suspended = true) :
    resetForms s = resetPaper (unasked s) := by
  rw [resetForms_eq]
  split
  · rename_i f hf
    rw [if_pos (h f hf)]
  · rfl

/-- A feed step in progress completes first (log 10). -/
theorem resetForms_waits {f : Feed} (hf : s.forms.feed = some f) (hs : f.suspended = false) (he : f.ending ≠ .cutShort) :
    resetForms s =
      { s with
        forms := { s.forms with paperRequest := false, feed := some { f with ending := .reset } } } := by
  rw [resetForms_eq, hf]
  dsimp only
  rw [hs, if_neg (by decide), if_neg he]
  rfl

theorem sameCounts_resetForms (s : State) :
    SameCounts s.forms (resetForms s).forms ∧ (resetForms s).forms.paperRequest = false := by
  by_cases h : ∀ f, s.forms.feed = some f → f.suspended = true
  · rw [resetForms_stops h]
    obtain ⟨h1, h2, h3, h4, h5, h6, h7⟩ := sameCounts_resetPaper (unasked s)
    exact ⟨⟨h1, h2, h3, h4, h5, h6, fun _ => h7 rfl⟩, h7 rfl⟩
  · push Not at h
    obtain ⟨f, hf, hs⟩ := h
    have hs : f.suspended = false := by simpa using hs
    by_cases he : f.ending = .cutShort
    · have : resetForms s = unasked s := by
        rw [resetForms_eq, hf]
        dsimp only
        rw [hs, if_neg (by decide), if_pos he]
      rw [this]
      exact ⟨⟨rfl, rfl, rfl, rfl, rfl, rfl, fun _ => rfl⟩, rfl⟩
    · rw [resetForms_waits hf hs he]
      exact ⟨⟨rfl, rfl, rfl, rfl, rfl, rfl, fun _ => rfl⟩, rfl⟩

theorem beginFeed_forms (purpose : Purpose) (dir : FeedDir) (n : Nat) (s : State) :
    beginFeed purpose dir n s = { s with forms := (beginFeed purpose dir n s).forms } := by
  rcases startStep_cases (s.updForms fun g => { g with feed := some (newFeed purpose dir n) }) with h | ⟨f, h⟩
  · rw [show beginFeed purpose dir n s = _ from h]
    rfl
  · rw [show beginFeed purpose dir n s = _ from h]
    rfl

theorem resetPaper_forms (s : State) : resetPaper s = { s with forms := (resetPaper s).forms } := by
  unfold resetPaper
  split
  · rfl
  · rfl
  · rfl
  · rfl
  · exact beginFeed_forms _ _ _ (s.updForms fun g => { g with paper := .loading })
  · exact beginFeed_forms _ _ _ _
  · rfl

/-- RESET changes nothing in the forms drive's step but the forms. -/
theorem resetForms_forms (s : State) : resetForms s = { s with forms := (resetForms s).forms } := by
  rw [resetForms_eq]
  split
  · split
    · exact resetPaper_forms (unasked s)
    · split <;> rfl
  · exact resetPaper_forms (unasked s)

end ResetForms

/-! ## RESET in every block -/

/-- The state with every block but the Forms Drive and Run Control as RESET leaves it. -/
def cleared (s : State) : State :=
  { s with
    intake := { s.intake with laneQ := [], frame := [], frameState := .hunt, timer := false,
                              replies := s.intake.replies.take 1, frameFaults := 0, unanswered := 0 },
    queue := { entries := [], cursor := 0 }, buffers := { one := .free, two := .free },
    builder := { clipped := 0, suppressed := 0 }, stage := .empty, planner := { schedule := none, keptDir := none },
    firing := { s.firing with state := .idle, deadDots := 0, lastPending := false }, heat := { s.heat with hold := false },
    carriage := { s.carriage with drive := resetDrive s.carriage.drive } }

/-- The forms as RESET leaves them, the timers apart. -/
def resetFormsOf (s : State) : Forms := (resetForms (cleared s)).forms

/-- The state in which RESET leaves the machine, the timers apart. -/
def resetState (s : State) : State :=
  { cleared s with
    forms := { resetFormsOf s with tearTimer := none },
    run := { s.run with
      executor := resetExecutor s.run.executor, reason := .none, inHand := none,
      causes := s.run.causes &&& (stickyCauses ||| heldCauses { cleared s with forms := resetFormsOf s }) } }

theorem exec_reset (s : State) : exec .reset s = .next (judgeTimers (resetState s)) := by
  have e : ∃ u, u = cleared s ∧ takeReset s = judgeTimers (restartTearTimer (resetCauses
      ((resetForms u).updRun fun c =>
        { c with executor := resetExecutor c.executor, reason := .none, inHand := none }))) := by
    refine ⟨_, ?_, rfl⟩
    simp only [State.updIntake, State.updQueue, State.updBuffers, State.updBuilder, State.setStage, State.updPlanner,
      State.updFiring, State.updHeat, State.updCarriage, resetIntake, clearIntake, cleared]
  obtain ⟨_, rfl, e⟩ := e
  show Host.Outcome.next (takeReset s) = _
  rw [e, resetForms_forms]
  rfl

/-- Settles O26, block by block from the state in which RESET leaves the machine. -/
theorem resetClears : Obligations.ResetClears := by
  intro s
  refine ⟨_, exec_reset s, rfl, rfl, rfl, rfl, rfl, rfl, rfl, rfl, rfl, rfl, rfl, ?drive, rfl, rfl, ?executor, rfl, rfl, rfl,
    rfl, ?causes⟩
  case drive =>
    show resetDrive s.carriage.drive = _
    cases s.carriage.drive <;> rfl
  case executor =>
    show resetExecutor s.run.executor = _
    cases s.run.executor <;> rfl
  case causes =>
    intro c
    have hlever : (resetFormsOf s).lever = s.forms.lever := (sameCounts_resetForms (cleared s)).1.lever
    rw [isPending_iff, isPending_iff]
    show (s.run.causes &&& (stickyCauses ||| heldCauses { cleared s with forms := resetFormsOf s })).getLsbD _ = true ↔ _
    rw [BitVec.getLsbD_and, BitVec.getLsbD_or, Bool.and_eq_true, Bool.or_eq_true, sticky_getLsbD, held_getLsbD]
    simp only [hlever, cleared, Bool.false_eq_true, and_false, or_false, or_assoc]
    rfl

/-! ## RESET in the Forms Drive -/

theorem forms_paper {g : Forms} {p : Paper} (h : g.paper = p) : { g with paper := p } = g := by rw [← h]

theorem forms_noRequest {g : Forms} (h : g.paperRequest = false) : { g with paperRequest := false } = g := by rw [← h]

/-- A feed begun with the request withdrawn. -/
theorem begunForward_noRequest (purpose : Purpose) (n : Nat) (s : State) :
    begunForward purpose n (unasked s) (unasked s).forms =
      { begunForward purpose n s s.forms with paperRequest := false } := by
  by_cases hl : s.forms.lever = .closed <;> simp [begunForward, unasked, hl]

section StoppedAtOnce

variable {s : State}

theorem resetFormsOf_stops (h : ∀ f, s.forms.feed = some f → f.suspended = true) :
    resetFormsOf s = (resetPaper (unasked (cleared s))).forms :=
  congrArg State.forms (resetForms_stops (s := cleared s) h)

theorem resetPaper_toPrint (h : s.forms.paper = .tearing ∨ s.forms.paper = .atTear ∨ s.forms.paper = .returning) :
    resetPaper s = arriveAtPrint s := by
  unfold resetPaper
  rcases h with h | h | h <;> rw [h]

theorem resetPaper_atPrint (h : s.forms.paper = .atPrint) : resetPaper s = clearFeed s := by
  unfold resetPaper
  rw [h]

theorem resetPaper_noForms (h : s.forms.paper = .noForms) : resetPaper s = s := by
  unfold resetPaper
  rw [h]

theorem resetPaper_loading (h : s.forms.paper = .loading) (h0 : s.geometry.sensorDist ≠ 0) :
    resetPaper s = { s with forms := begunForward .loading s.geometry.sensorDist s s.forms } := by
  have e : resetPaper s = beginLoading s := by
    unfold resetPaper
    rw [h]
  rw [e, beginLoading_begins h0, forms_paper h]

theorem resetPaper_ejecting {f : Feed} (h : s.forms.paper = .ejecting) (hf : s.forms.feed = some f) (h0 : f.total ≠ 0) :
    resetPaper s = { s with forms := begunForward .ejection f.total s s.forms } := by
  have e : resetPaper s = beginFeed .ejection .forward ((s.forms.feed.map (·.total)).getD 0) s := by
    unfold resetPaper
    rw [h]
  rw [e, hf]
  exact beginFeed_forward h0

end StoppedAtOnce

end Sys2Proof.Machine

namespace Sys2Proof

open Machine

/-- Settles O27: with no step in progress by the paper state, with one at once and at its arrival. -/
theorem resetForms : Obligations.ResetForms := by
  refine ⟨fun s => ⟨_, exec_reset s, ?_⟩, fun f s hf hs hr he ht hw => ?_⟩
  · obtain ⟨⟨h1, h2, h3, h4, h5, h6, -⟩, hreq⟩ := sameCounts_resetForms (cleared s)
    refine ⟨h1, h2, h3, h4, h5, h6, hreq, fun hstop => ⟨fun hp => ?toPrint, fun hp => ?noReturn, fun hp h0 => ?loading,
      fun hp f hf h0 => ?ejecting, fun hp => ?noForms⟩, fun f hf hs he => ?waits⟩
    case toPrint =>
      have e := resetFormsOf_stops hstop
      have : (resetFormsOf s).paper = .atPrint ∧ (resetFormsOf s).feed = none ∧ (resetFormsOf s).acc = s.forms.acc := by
        rcases hp with hp | hp
        · rw [e, resetPaper_atPrint (s := unasked (cleared s)) hp]
          exact ⟨hp, rfl, rfl⟩
        · rw [e, resetPaper_toPrint (s := unasked (cleared s)) hp]
          exact ⟨rfl, rfl, rfl⟩
      exact this
    case noReturn =>
      show (resetFormsOf s).tearAdvance = none
      rw [resetFormsOf_stops hstop, resetPaper_toPrint (s := unasked (cleared s)) hp]
      rfl
    case loading =>
      have e : resetFormsOf s = { begunForward .loading s.geometry.sensorDist s s.forms with paperRequest := false } := by
        rw [resetFormsOf_stops hstop, resetPaper_loading (s := unasked (cleared s)) hp h0, ← begunForward_noRequest]
        rfl
      rw [resetState, e]
      rfl
    case ejecting =>
      have e : resetFormsOf s = { begunForward .ejection f.total s s.forms with paperRequest := false } := by
        rw [resetFormsOf_stops hstop, resetPaper_ejecting (s := unasked (cleared s)) hp hf h0, ← begunForward_noRequest]
        rfl
      rw [resetState, e]
      rfl
    case noForms =>
      have : (resetFormsOf s).paper = .noForms ∧ (resetFormsOf s).acc = s.forms.acc := by
        rw [resetFormsOf_stops hstop, resetPaper_noForms (s := unasked (cleared s)) hp]
        exact ⟨hp, rfl⟩
      exact this
    case waits =>
      have e : resetFormsOf s = { s.forms with paperRequest := false, feed := some { f with ending := .reset } } :=
        congrArg State.forms (resetForms_waits (s := cleared s) hf hs he)
      have : (resetFormsOf s).paper = s.forms.paper ∧ (resetFormsOf s).acc = s.forms.acc ∧
          (resetFormsOf s).tearAdvance = s.forms.tearAdvance ∧
          (resetFormsOf s).feed = some { f with ending := .reset } := by
        rw [e]
        exact ⟨rfl, rfl, rfl, rfl⟩
      exact this
  · intro counted
    obtain ⟨w1, w2, w3, w4, -⟩ := hw
    have harrive : f.purpose ≠ .loading → arrived f s = { s with forms :=
        { counted with feed := some { f with remaining := f.remaining - 1, suspended := true } } } := by
      intro hl
      have hdir : f.dir = .forward ∨ f.dir = .reverse := by cases f.dir <;> simp
      rcases hdir with hd | hd
      · rw [show counted = countedForward s.forms by simp only [counted, hd]]
        exact arrived_forward hl hd
      · rw [show counted = countedReverse s.geometry.sensorDist s.forms by simp only [counted, hd]]
        exact arrived_reverse hl hd
    have hkept : counted.paper = s.forms.paper ∧ counted.paperRequest = false := by
      simp only [counted]
      cases f.dir <;> exact ⟨rfl, w4⟩
    have hreset : exec .feedStepArrival s = .next (finishEvent (resetPaper (arrived f s))) := by
      rw [exec_feedStep hf hs hr (findsTail_none ht), he]
    have ends : ∀ g : Forms, resetPaper (arrived f s) = { s with forms := g } → g.paperRequest = false →
        feedEnds { s with forms := g } = none → exec .feedStepArrival s = .next (judgeTimers { s with forms := g }) := by
      intro g hg hq hend
      rw [hreset, hg]
      exact congrArg _ (finishEvent_settled (settled_noWork w1 w2 w3 hq hend))
    refine ⟨fun hp hl => ?_, fun hp hl => ?_, fun hp hl h0 => ?_, fun hp hl hd h0 => ?_⟩
    · exact ends _ (by rw [harrive hl, resetPaper_atPrint (by exact hkept.1.trans hp)]; rfl) hkept.2 (feedEnds_noFeed rfl)
    · refine ends _ ?_ hkept.2 (feedEnds_noFeed rfl)
      have hp : counted.paper = .tearing ∨ counted.paper = .atTear ∨ counted.paper = .returning := by
        rw [hkept.1]
        exact hp.imp id .inr
      rw [harrive hl, resetPaper_toPrint (by exact hp)]
      simp only [arriveAtPrint, State.updForms, ← hkept.2]
    · have h1 := begunForward_rest .loading s.geometry.sensorDist s s.forms
      refine ends _ ?_ (h1.2.1.trans w4) (feedEnds_begunForward h0 rfl)
      rw [arrived_loading hl ht, resetPaper_loading (by exact hp) (by exact h0)]
      rfl
    · have h1 := begunForward_rest .ejection f.total s counted
      refine ends _ ?_ (h1.2.1.trans hkept.2) (feedEnds_begunForward h0 rfl)
      have hc : counted = countedForward s.forms := by simp only [counted, hd]
      rw [harrive (by rw [hl]; decide), resetPaper_ejecting (f := { f with remaining := f.remaining - 1, suspended := true })
        (by exact hkept.1.trans hp) (by exact rfl) (by exact h0), hc]
      rfl

end Sys2Proof
end

