-- ==== Sys2Proof/Proofs/Standstill.lean ====
section
/-! PROOFS. What follows an event while the executor is in HOMING, HALTED or FAULT STOP: Run Control takes nothing up and
carries nothing out (R159, R163, log 11). -/

namespace Sys2Proof.Machine

/-- The executor carries nothing out and takes nothing up (R158, R159). -/
def Executor.resting : Executor → Bool
  | .homing => true
  | .halted => true
  | .faultStop => true
  | _ => false

theorem Executor.not_executing_of_resting {e : Executor} (h : e.resting = true) : e.executing = false ∧ e ≠ .ready := by
  cases e with
  | homing | halted | faultStop => decide
  | ready | running | waiting | halting => cases h

/-- What nothing that follows an event changes while the executor rests. -/
structure Rests (s t : State) : Prop where
  executor : s.run.executor.resting = true → t.run.executor = s.run.executor
  carriage : t.carriage = s.carriage
  schedule : t.planner.schedule = s.planner.schedule
  firing   : t.firing = s.firing
  level    : t.heat.level = s.heat.level
  strike   : t.tables.strike = s.tables.strike
  geometry : t.geometry = s.geometry
  sticky   : t.run.causes &&& stickyCauses = s.run.causes &&& stickyCauses

theorem Rests.refl (s : State) : Rests s s := ⟨fun _ => rfl, rfl, rfl, rfl, rfl, rfl, rfl, rfl⟩

theorem Rests.trans {s t u : State} (h : Rests s t) (k : Rests t u) : Rests s u where
  executor := fun r => (k.executor (by rw [h.executor r]; exact r)).trans (h.executor r)
  carriage := k.carriage.trans h.carriage
  schedule := k.schedule.trans h.schedule
  firing := k.firing.trans h.firing
  level := k.level.trans h.level
  strike := k.strike.trans h.strike
  geometry := k.geometry.trans h.geometry
  sticky := k.sticky.trans h.sticky

/-! ## The operations -/

theorem or_and_eq_of_disjoint {w : Nat} {a b m : BitVec w} (h : b &&& m = 0) : (a ||| b) &&& m = a &&& m := by
  apply BitVec.eq_of_getLsbD_eq
  intro i hi
  have hb : (b &&& m).getLsbD i = false := by rw [h]; simp
  rw [BitVec.getLsbD_and] at hb
  rw [BitVec.getLsbD_and, BitVec.getLsbD_or, BitVec.getLsbD_and, Bool.and_or_distrib_right, hb, Bool.or_false]

theorem latch_rests {c : Cause} (s : State) (h : c.bit &&& stickyCauses = 0) : Rests s (latch c s) :=
  ⟨fun _ => rfl, rfl, rfl, rfl, rfl, rfl, rfl, or_and_eq_of_disjoint h⟩

theorem latchDrained_rests (s : State) : Rests s (latchDrained s) := by
  unfold latchDrained latchIf
  split
  · exact latch_rests s (by decide)
  · exact .refl s

theorem updForms_rests (f : Forms → Forms) (s : State) : Rests s (s.updForms f) :=
  ⟨fun _ => rfl, rfl, rfl, rfl, rfl, rfl, rfl, rfl⟩

theorem updQueue_rests (f : Queue → Queue) (s : State) : Rests s (s.updQueue f) :=
  ⟨fun _ => rfl, rfl, rfl, rfl, rfl, rfl, rfl, rfl⟩

theorem updSettings_rests (f : Settings → Settings) (s : State) : Rests s (s.updSettings f) :=
  ⟨fun _ => rfl, rfl, rfl, rfl, rfl, rfl, rfl, rfl⟩

theorem updBuffers_rests (f : Buffers → Buffers) (s : State) : Rests s (s.updBuffers f) :=
  ⟨fun _ => rfl, rfl, rfl, rfl, rfl, rfl, rfl, rfl⟩

theorem setStage_rests (g : Stage) (s : State) : Rests s (s.setStage g) :=
  ⟨fun _ => rfl, rfl, rfl, rfl, rfl, rfl, rfl, rfl⟩

theorem setInHand_rests (x : Option InHand) (s : State) : Rests s (setInHand x s) :=
  ⟨fun _ => rfl, rfl, rfl, rfl, rfl, rfl, rfl, rfl⟩

theorem leaveEntry_rests (s : State) : Rests s (leaveEntry s) := by
  refine ⟨fun h => ?_, rfl, rfl, rfl, rfl, rfl, rfl, rfl⟩
  show s.run.executor.leaveEntry = s.run.executor
  cases hx : s.run.executor with
  | homing | ready | halted | faultStop => rfl
  | running | waiting | halting =>
    rw [hx] at h
    cases h

theorem removeAt_rests (i : Nat) (s : State) : Rests s (removeAt i s) := by
  unfold removeAt
  split
  · exact (updBuffers_rests _ s).trans (updQueue_rests _ _)
  · exact .refl s

theorem removeFront_rests (s : State) : Rests s (removeFront s) := by
  unfold removeFront
  split
  · exact (removeAt_rests _ s).trans (latchDrained_rests _)
  · exact .refl s

theorem forgetDirection_rests (s : State) : Rests s (forgetDirection s) :=
  ⟨fun _ => rfl, rfl, rfl, rfl, rfl, rfl, rfl, rfl⟩

theorem finishEntry_rests (s : State) : Rests s (finishEntry s) :=
  ((removeFront_rests s).trans (forgetDirection_rests _)).trans (leaveEntry_rests _)

theorem beginFeed_rests (purpose : Purpose) (dir : FeedDir) (n : Nat) (s : State) : Rests s (beginFeed purpose dir n s) := by
  rw [beginFeed_forms]
  exact ⟨fun _ => rfl, rfl, rfl, rfl, rfl, rfl, rfl, rfl⟩

theorem enterNoForms_rests (s : State) : Rests s (enterNoForms s) :=
  (updForms_rests _ s).trans (latch_rests _ (by decide))

theorem applyCommit_rests {id : TableId} (h : id = .codeMap ∨ id = .glyphs) (page : Nat) (s : State) :
    Rests s (applyCommit id page s) := by
  refine .trans ?_ (setStage_rests _ _)
  rcases h with rfl | rfl <;> exact ⟨fun _ => rfl, rfl, rfl, rfl, rfl, rfl, rfl, rfl⟩

/-! ## What follows an event -/

theorem feedComplete_rests (p : Purpose) (s : State) : Rests s (feedComplete p s) := by
  unfold feedComplete
  split
  · exact finishEntry_rests s
  · exact setInHand_rests _ s
  · exact finishEntry_rests s
  · exact finishEntry_rests s
  · exact setInHand_rests _ s
  · exact .refl s

theorem tearEnded_rests (s : State) : Rests s (tearEnded s) := by
  unfold tearEnded
  split
  · exact finishEntry_rests s
  · exact .refl s

theorem feedEnds_rests {s t : State} (h : feedEnds s = some t) : Rests s t := by
  unfold feedEnds at h
  split at h
  · split at h
    · cases h
      unfold endFeed
      split
      · exact (updForms_rests _ s).trans (tearEnded_rests _)
      · exact updForms_rests _ s
      · split
        · exact (updForms_rests _ s).trans (updForms_rests _ _)
        · exact enterNoForms_rests s
      · exact enterNoForms_rests s
      · exact (updForms_rests _ s).trans (feedComplete_rests _ _)
    · cases h
  · cases h

theorem builderStep_rests {s t : State} (h : builderStep s = some t) : Rests s t := by
  unfold builderStep at h
  dsimp only at h
  split at h
  case h_1 | h_5 | h_13 | h_14 => cases h
  case h_2 =>
    cases h
    exact ((applyCommit_rests (.inl rfl) _ s).trans (removeAt_rests _ _)).trans (latchDrained_rests _)
  case h_3 =>
    cases h
    exact ((applyCommit_rests (.inr rfl) _ s).trans (removeAt_rests _ _)).trans (latchDrained_rests _)
  case h_6 =>
    cases h
    exact ((updSettings_rests _ s).trans (removeAt_rests _ _)).trans (latchDrained_rests _)
  case h_7 =>
    cases h
    exact ((updSettings_rests _ s).trans (updQueue_rests _ _)).trans (updQueue_rests _ _)
  case h_12 =>
    obtain ⟨b, -, rfl⟩ := Option.map_eq_some_iff.mp h
    exact ⟨fun _ => rfl, rfl, rfl, rfl, rfl, rfl, rfl, rfl⟩
  all_goals
    cases h
    exact updQueue_rests _ s

theorem discardOpen_rests (s : State) : Rests s (discardOpen s) := by
  have h : Rests s (latch .SQ (removeAt (s.queue.entries.length - 1) s)) :=
    (removeAt_rests _ s).trans (latch_rests _ (by decide))
  unfold discardOpen
  dsimp only
  split
  · exact h.trans (leaveEntry_rests _)
  · exact h

theorem discardOpenTail_rests (s : State) : Rests s (discardOpenTail s) := by
  unfold discardOpenTail
  split
  · exact discardOpen_rests s
  · exact .refl s

theorem admitEntry_rests (e : Entry) (s : State) : Rests s (admitEntry e s) :=
  ⟨fun _ => rfl, rfl, rfl, rfl, rfl, rfl, rfl, rfl⟩

theorem offerEntry_rests (e : Entry) (s : State) : Rests s (offerEntry e s).state := by
  unfold offerEntry
  split
  · exact admitEntry_rests e s
  · exact .refl s

theorem offerRecord_rests (r : QRecord) (s : State) : Rests s (offerRecord r s).state := by
  cases r with
  | lineFirst h more runs =>
    refine (discardOpenTail_rests s).trans ?_
    simp only [offerRecord, offerFirst]
    split
    · exact admitEntry_rests _ _
    · exact .refl _
  | lineCont more runs =>
    simp only [offerRecord, offerContinuation]
    split
    · exact latch_rests s (by decide)
    split
    · exact discardOpen_rests s
    split
    · exact .refl s
    · exact ⟨fun _ => rfl, rfl, rfl, rfl, rfl, rfl, rfl, rfl⟩
  | commit table page =>
    refine (discardOpenTail_rests s).trans ?_
    simp only [offerRecord, offerCommit]
    split
    · split
      · exact (setStage_rests _ _).trans (admitEntry_rests _ _)
      · exact latch_rests _ (by decide)
    · exact .refl _
  | set f =>
    refine (discardOpenTail_rests s).trans ?_
    simp only [offerRecord, offerSet]
    split
    · exact ⟨fun _ => rfl, rfl, rfl, rfl, rfl, rfl, rfl, rfl⟩
    · exact offerEntry_rests _ _
  | advance | form | geometry => exact (discardOpenTail_rests s).trans (offerEntry_rests _ _)

theorem offerStep_rests {s t : State} (h : offerStep s = some t) : Rests s t := by
  unfold offerStep at h
  split at h
  · cases h
  rename_i r rest _
  have hr := offerRecord_rests r s
  split at h
  · rename_i u hu
    cases h
    rw [hu] at hr
    exact hr.trans ⟨fun _ => rfl, rfl, rfl, rfl, rfl, rfl, rfl, rfl⟩
  · rename_i u hu
    rw [hu] at hr
    split at h
    · cases h
      exact hr
    · cases h

theorem runStep_resting {s : State} (h : s.run.executor.resting = true) : runStep s = none := by
  obtain ⟨hx, hready⟩ := Executor.not_executing_of_resting h
  unfold runStep
  split
  · rw [hx]
    rfl
  · unfold takeUpStep
    rw [if_neg fun k => hready k.1]

theorem needsPaper_resting {s : State} (h : s.run.executor.resting = true) : needsPaper s = false := by
  rw [needsPaper, (Executor.not_executing_of_resting h).1, Bool.false_and]

theorem requestStep_rests {s t : State} (h : s.run.executor.resting = true) (ht : requestStep s = some t) : Rests s t := by
  unfold requestStep at ht
  rw [needsPaper_resting h, Bool.false_and, if_neg (by decide)] at ht
  split at ht
  · cases ht
    exact (updForms_rests _ s).trans (beginFeed_rests _ _ _ _)
  · cases ht

theorem followStep_rests {hold : Bool} {s t : State} (h : s.run.executor.resting = true)
    (ht : followStep hold s = some t) : Rests s t := by
  rcases followStep_cases ht with e | e | e | e | e
  · exact feedEnds_rests e
  · exact builderStep_rests e
  · exact offerStep_rests e
  · rw [runStep_resting h] at e
    cases e
  · exact requestStep_rests h e

theorem follow_rests (hold : Bool) (n : Nat) {s : State} (h : s.run.executor.resting = true) : Rests s (follow hold n s) := by
  induction n generalizing s with
  | zero => exact .refl s
  | succ n ih =>
    unfold follow
    split
    · rename_i t ht
      have k := followStep_rests h ht
      exact k.trans (ih (by rw [k.executor h]; exact h))
    · exact .refl s

theorem judgeTimers_rests (s : State) : Rests s (judgeTimers s) :=
  ⟨fun _ => rfl, rfl, rfl, rfl, rfl, rfl, rfl, rfl⟩

theorem finishEvent_rests {s : State} (h : s.run.executor.resting = true) : Rests s (finishEvent s) :=
  (follow_rests false (followFuel s) h).trans (judgeTimers_rests _)

/-- With the executor at rest and no request kept, nothing follows but a feed's end, the builder and the lane Q order. -/
theorem settled_resting {s : State} (h : s.run.executor.resting = true) (hp : s.forms.paperRequest = false)
    (hf : feedEnds s = none) (hb : builderStep s = none) (hl : s.intake.laneQ = []) : Settled s :=
  settled_of hf hb (offerStep_nil hl) (runStep_resting h) (requestStep_none (needsPaper_resting h) hp)

theorem sticky_eq_zero_iff (s : State) : s.run.causes &&& stickyCauses = 0 ↔ isPending .CF s = false ∧ isPending .PF s = false := by
  have hbits : ∀ c : Cause, isPending c s = false ↔ s.run.causes.getLsbD (c.priority - 1) = false := fun c => by
    rw [← Bool.not_eq_true, isPending_iff, Bool.not_eq_true]
  rw [hbits, hbits]
  constructor
  · intro h
    have bit : ∀ c : Cause, c = .CF ∨ c = .PF → s.run.causes.getLsbD (c.priority - 1) = false := by
      intro c hc
      have := congrArg (fun v : CauseSet => v.getLsbD (c.priority - 1)) h
      simpa [(sticky_getLsbD c).mpr hc] using this
    exact ⟨bit _ (.inl rfl), bit _ (.inr rfl)⟩
  · rintro ⟨h1, h2⟩
    apply BitVec.eq_of_getLsbD_eq
    intro i hi
    obtain ⟨c, hc⟩ := exists_cause hi
    have hi' : i = c.priority - 1 := by omega
    rw [BitVec.getLsbD_and, hi', show (0 : CauseSet).getLsbD (c.priority - 1) = false from BitVec.getLsbD_zero]
    by_cases hs : c = .CF ∨ c = .PF
    · rcases hs with rfl | rfl
      · rw [h1, Bool.false_and]
      · rw [h2, Bool.false_and]
    · rw [Bool.eq_false_iff.mpr fun k => hs ((sticky_getLsbD c).mp k), Bool.and_false]

end Sys2Proof.Machine
end

