-- ==== Sys2Proof/Proofs/Acks.lean ====
section
/-! PROOFS. ACK outside FAULT STOP, in it, and out of it (R127, R166, R167). -/

namespace Sys2Proof.Machine

/-- The causes that stay pending at an ACK (R167). -/
theorem ackCauses_getLsbD (named : BitVec 16) (c : Cause) (s : State) :
    (ackCauses named s).getLsbD (c.priority - 1) = true ↔ s.run.causes.getLsbD (c.priority - 1) = true ∧
      (named.getLsbD (c.priority - 1) = false ∨ (heldCauses s).getLsbD (c.priority - 1) = true) := by
  have hp : c.priority - 1 < 15 := by cases c <;> decide
  rw [ackCauses, BitVec.getLsbD_and, BitVec.getLsbD_not, BitVec.getLsbD_and, BitVec.getLsbD_not, BitVec.getLsbD_setWidth]
  simp only [hp, decide_true, Bool.true_and, Bool.and_eq_true, Bool.not_eq_true', Bool.and_eq_false_iff,
    Bool.not_eq_false']

/-- CF and PF have no condition: an ACK that names them clears them. -/
theorem ackCauses_sticky (named : BitVec 16) (s : State) :
    ackCauses named s &&& stickyCauses = s.run.causes &&& stickyCauses &&& ~~~(named.setWidth 15) := by
  apply BitVec.eq_of_getLsbD_eq
  intro i hi
  obtain ⟨c, hc⟩ := exists_cause hi
  have hi' : i = c.priority - 1 := by omega
  subst hi'
  rw [Bool.eq_iff_iff, BitVec.getLsbD_and, Bool.and_eq_true, ackCauses_getLsbD, BitVec.getLsbD_and, BitVec.getLsbD_and,
    BitVec.getLsbD_not, BitVec.getLsbD_setWidth, held_getLsbD, sticky_getLsbD]
  simp only [hi, decide_true, Bool.true_and, Bool.and_eq_true, sticky_getLsbD, Bool.not_eq_true']
  constructor
  · rintro ⟨⟨h1, h2⟩, h3⟩
    refine ⟨⟨h1, h3⟩, h2.resolve_right ?_⟩
    rcases h3 with rfl | rfl <;> simp
  · rintro ⟨⟨h1, h3⟩, h2⟩
    exact ⟨⟨h1, .inl h2⟩, h3⟩

/-- Steps 1 to 3 of an ACK: causes, mask and dead-pin set (R127, R167). -/
theorem ackClear_eq (named : BitVec 16) (mask : Option (BitVec 16)) (s : State) :
    ackClear named mask s =
      { s with
        run := { s.run with causes := ackCauses named s, mask := (mask.map (·.setWidth 15)).getD s.run.mask },
        firing := { s.firing with dead := if named.getLsbD 1 then 0 else s.firing.dead } } := by
  have hm : orKeep mask (fun m => m.setWidth 15) s.run.mask = (mask.map (·.setWidth 15)).getD s.run.mask := by
    cases mask <;> rfl
  unfold ackClear
  dsimp only [State.updRun, State.updFiring]
  rw [hm]
  split <;> rfl

theorem exec_ack_stays {named : BitVec 16} {mask : Option (BitVec 16)} {s : State}
    (h : s.run.executor ≠ .faultStop ∨ s.run.causes &&& stickyCauses &&& ~~~(named.setWidth 15) ≠ 0) :
    exec (.ack named mask) s = .next (ackClear named mask s) := by
  show Host.Outcome.next (takeAck named mask s) = _
  rw [takeAck, ackClear_eq]
  dsimp only
  rw [ackCauses_sticky]
  exact congrArg _ (if_neg fun k => h.elim (· k.1) (· k.2))

theorem exec_ack_leaves {named : BitVec 16} {mask : Option (BitVec 16)} {s : State} (hx : s.run.executor = .faultStop)
    (h : s.run.causes &&& stickyCauses &&& ~~~(named.setWidth 15) = 0) :
    exec (.ack named mask) s = .next (finishEvent (leaveFaultStop (ackClear named mask s))) := by
  show Host.Outcome.next (takeAck named mask s) = _
  rw [takeAck, ackClear_eq]
  dsimp only
  rw [ackCauses_sticky]
  exact congrArg _ (if_pos ⟨hx, h⟩)

/-- Settles O28: the causes bit by bit, and the two ways out of FAULT STOP. -/
theorem acksTaken : Obligations.AcksTaken := by
  refine ⟨fun named mask s h => ⟨_, exec_ack_stays h, ?_, fun c => ?_⟩, fun named mask s hx h =>
    ⟨fun hd => ?homing, fun hd hw => ?ready⟩⟩
  · rw [ackClear_eq]
  · rw [isPending_iff, isPending_iff, ackClear_eq]
    dsimp only
    rw [ackCauses_getLsbD, held_getLsbD]
  case homing =>
    let u : State := ackClear named mask s
    have hu : u.run.causes &&& stickyCauses = 0 := by
      rw [show u = _ from ackClear_eq named mask s]
      exact (ackCauses_sticky named s).trans h
    have hpins : u.pins = s.pins := by rw [show u = _ from ackClear_eq named mask s]
    have hdrive : u.carriage.drive = .unhomed := by
      rw [show u = _ from ackClear_eq named mask s]
      exact hd
    have e : leaveFaultStop u = beginHoming (u.updRun fun c => { c with executor := .homing }) := if_pos hdrive
    have k := finishEvent_rests (s := leaveFaultStop u) (by rw [e]; rfl)
    obtain ⟨hCF, hPF⟩ := (sticky_eq_zero_iff (finishEvent (leaveFaultStop u))).mp (by rw [k.sticky, e]; exact hu)
    refine ⟨_, exec_ack_leaves hx h, ?_, hCF, hPF, ?_⟩
    · rw [k.executor (by rw [e]; rfl), e]
      rfl
    · rw [k.carriage, e, ← hpins]
      show carriageDefault u.pins.homeSensor = _
      cases u.pins.homeSensor <;> rfl
  case ready =>
    obtain ⟨h1, h2, h3, h4, h5⟩ := hw
    let v : State :=
      { s with
        run := { s.run with executor := .ready, reason := .none, causes := ackCauses named s,
                            mask := (mask.map (·.setWidth 15)).getD s.run.mask },
        firing := { s.firing with dead := if named.getLsbD 1 then 0 else s.firing.dead } }
    have e : leaveFaultStop (ackClear named mask s) = v := by
      rw [ackClear_eq]
      refine (if_neg (by exact hd)).trans ?_
      simp only [enterReady, State.updRun, h3, v]
      rfl
    have hend : exec (.ack named mask) s = .next (judgeTimers v) := by
      rw [exec_ack_leaves hx h, e]
      exact congrArg _ (finishEvent_settled (settled_noWork h1 h2 h3 h4 (noFeed_of h5 rfl)))
    obtain ⟨hCF, hPF⟩ := (sticky_eq_zero_iff (judgeTimers v)).mp ((ackCauses_sticky named s).trans h)
    exact ⟨_, hend, hCF, hPF, rfl⟩

end Sys2Proof.Machine
end

