-- ==== Sys2Proof/Proofs/Moves.lean ====
section
/-! PROOFS. The good arrivals of positioning, deceleration and homing, and the step interval (R101 to R103, R106 to R109,
R111, R112). -/

namespace Sys2Proof.Machine

/-- A move's step arrived: the sensor's level, the position and the drive. -/
def movedTo (home : Bool) (p : Option Int) (d : Drive) (s : State) : State :=
  { s with pins := { s.pins with homeSensor := home }, carriage := { position := p, drive := d } }

theorem homeCheck_iff {q : Int} {home : Bool} : homeCheck (some q) home = true ↔ (home = true ↔ q ≤ 24) := by
  cases home <;> simp [homeCheck]

section Arrival

variable {s : State} {home : Bool}

theorem exec_positioning {m : Move} {run : PassRun} (hd : s.carriage.drive = .positioning m run) :
    exec (.positioningArrival home) s =
      if homeCheck (s.carriage.position.map m.side.next) home then
        if m.idx + 1 < m.len then .next (movedTo home (s.carriage.position.map m.side.next)
          (.positioning { m with idx := m.idx + 1 } run) s)
        else .next (movedTo home (s.carriage.position.map m.side.next) (.passRun (runMove run)) s)
      else .next (finishEvent (carriageFault (arriveCarriage m.side home s))) := by
  show execPositioningArrival home s = _
  unfold execPositioningArrival
  rw [hd]
  rfl

theorem exec_stopping {d : Decel} (hd : s.carriage.drive = .stopping d) :
    exec (.stoppingArrival home) s =
      if homeCheck (s.carriage.position.map d.side.next) home then
        if d.left = 0 then .next (finishEvent (movedTo home (s.carriage.position.map d.side.next) .stopped s))
        else .next (movedTo home (s.carriage.position.map d.side.next)
          (.stopping { d with interval := d.profile.ramp.getD (d.left - 1) d.profile.cruise, left := d.left - 1 }) s)
      else .next (finishEvent (carriageFault (arriveCarriage d.side home s))) := by
  show execStoppingArrival home s = _
  unfold execStoppingArrival
  rw [hd]
  rfl

theorem exec_homing {g : Homing} (hd : s.carriage.drive = .homing g) :
    exec (.homingArrival home) s =
      match homingResult g (s.carriage.position.map g.phase.side.next) home with
      | .failed => .next (finishEvent (carriageFault (arriveCarriage g.phase.side home s)))
      | .goesOn h' =>
        if g.restart then .next (beginHoming (arriveCarriage g.phase.side home s))
        else .next (movedTo home (s.carriage.position.map g.phase.side.next) (.homing h') s)
      | .edgeFound =>
        if g.restart then .next (beginHoming (arriveCarriage g.phase.side home s))
        else .next (movedTo home (some 24) (.homing { phase := .three, steps := 0, restart := false }) s)
      | .complete =>
        if g.restart then .next (beginHoming (arriveCarriage g.phase.side home s))
        else .next (finishEvent (homingComplete (movedTo home (s.carriage.position.map g.phase.side.next) .stopped s))) := by
  show execHomingArrival home s = _
  unfold execHomingArrival
  rw [hd]
  rfl

end Arrival

/-- Settles O49: by the rule of the interval, and each good arrival by where its move stands. -/
theorem movesArrive : Obligations.MovesArrive := by
  refine ⟨fun m hm => ?interval, fun m run p q home s hd hp hq hcheck => ?positioning,
    fun d p q home s hd hp hq hcheck => ?stopping⟩
  case interval =>
    intro i
    have e : m.interval = (m.profile.ramp[i]?).getD m.profile.cruise := List.getD_eq_getElem?_getD
    refine ⟨fun hi => ?_, fun hi => ?_⟩
    · rw [e, List.getElem?_eq_getElem hi]
      rfl
    · rw [e, List.getElem?_eq_none hi]
      rfl
  case positioning =>
    have hpos : s.carriage.position.map m.side.next = some q := by rw [hp, hq]; rfl
    rw [exec_positioning hd, hpos, if_pos (homeCheck_iff.mpr hcheck)]
    split <;> rfl
  case stopping =>
    intro moved
    have hpos : s.carriage.position.map d.side.next = some q := by rw [hp, hq]; rfl
    rw [exec_stopping hd, hpos, if_pos (homeCheck_iff.mpr hcheck)]
    refine ⟨fun n hn => ?_, fun h0 hw => ?_⟩
    · rw [hn, if_neg (Nat.succ_ne_zero n)]
      rfl
    · obtain ⟨h1, h2, h3, h4, h5⟩ := hw
      rw [if_pos h0]
      exact congrArg _ (finishEvent_settled (settled_noWork h1 h2 h3 h4 (noFeed_of h5 rfl)))

/-- A homing arrival that is no carriage fault has not failed. -/
theorem homingResult_ne_failed {g : Homing} {s : State} {home : Bool} (hd : s.carriage.drive = .homing g)
    (h : ¬arrivalFaults home s (.homingArrival home)) :
    homingResult g (s.carriage.position.map g.phase.side.next) home ≠ .failed := by
  intro hf
  refine h ⟨rfl, g, hd, ?_⟩
  unfold homingResult at hf
  cases hph : g.phase with
  | one =>
    rw [hph] at hf
    dsimp only at hf
    split at hf
    · split at hf
      · exact .inl ⟨rfl, ‹_›, ‹_›⟩
      · cases hf
    · cases hf
  | two =>
    rw [hph] at hf
    dsimp only at hf
    split at hf
    · cases hf
    · split at hf
      · exact .inr (.inl ⟨rfl, Bool.not_eq_true _ ▸ ‹_›, ‹_›⟩)
      · cases hf
  | three =>
    rw [hph] at hf
    dsimp only at hf
    split at hf
    · split at hf <;> cases hf
    · rename_i hno
      cases hp : s.carriage.position with
      | none => exact absurd (by rw [hp]; rfl) hno
      | some p =>
        rw [hp] at hno
        exact .inr (.inr ⟨rfl, p, rfl, fun k => hno (homeCheck_iff.mpr k)⟩)

/-- Settles O52: phase by phase, and the restart at whatever the arrival finds. -/
theorem homingArrives : Obligations.HomingArrives := by
  refine ⟨fun n home s => ?phases, fun g home s hd hr hf => ?restart⟩
  case phases =>
    intro at_ to_
    have arrives : ∀ {ph : HomingPhase} {p : Option Int}, at_ ph p → exec (.homingArrival home) s =
        match homingResult { phase := ph, steps := n, restart := false } (p.map ph.side.next) home with
        | .failed => .next (finishEvent (carriageFault (arriveCarriage ph.side home s)))
        | .goesOn h' => .next (movedTo home (p.map ph.side.next) (.homing h') s)
        | .edgeFound => .next (movedTo home (some 24) (.homing { phase := .three, steps := 0, restart := false }) s)
        | .complete => .next (finishEvent (homingComplete (movedTo home (p.map ph.side.next) .stopped s))) := by
      intro ph p h
      rw [exec_homing (congrArg Carriage.drive h), congrArg Carriage.position h]
      rfl
    have goes : ∀ {ph ph' : HomingPhase} {p : Option Int} {k : Nat}, at_ ph p →
        homingResult { phase := ph, steps := n, restart := false } (p.map ph.side.next) home =
          .goesOn { phase := ph', steps := k, restart := false } →
        exec (.homingArrival home) s = .next (to_ ph' k (p.map ph.side.next)) := by
      intro ph ph' p k h hres
      rw [arrives h, hres]
      rfl
    refine ⟨fun h hh hn => goes h ?_, fun h hh => goes h ?_, fun h hh hn => goes h ?_, fun h hh => ?_,
      fun h hh hn => goes h ?_, fun h hn hh hx hw => ?_⟩
    · exact (if_pos hh).trans (if_neg (show ¬240 ≤ n + 1 by omega))
    · exact if_neg (by rw [hh]; decide)
    · exact (if_neg (by rw [hh]; decide)).trans (if_neg (show ¬7400 ≤ n + 1 by omega))
    · have hres : homingResult { phase := .two, steps := n, restart := false }
          ((none : Option Int).map HomingPhase.two.side.next) home = .edgeFound := if_pos hh
      rw [arrives h, hres]
      rfl
    · refine (if_pos (homeCheck_iff.mpr ⟨fun k => absurd (hh.symm.trans k) (by decide), fun k => ?_⟩)).trans
        (if_neg (show ¬24 ≤ n + 1 by omega))
      have : 24 + (n : Int) + 1 ≤ 24 := k
      omega
    · have hres : homingResult { phase := .three, steps := n, restart := false }
          ((some (47 : Int)).map HomingPhase.three.side.next) home = .complete :=
        (if_pos (by rw [hh]; decide)).trans (if_pos (show 24 ≤ n + 1 by omega))
      obtain ⟨h1, h2, h3, h4, h5⟩ := hw
      rw [arrives h, hres]
      have e : homingComplete (movedTo home ((some (47 : Int)).map HomingPhase.three.side.next) .stopped s) =
          { s with pins := { s.pins with homeSensor := home },
                   carriage := { position := some 48, drive := .stopped },
                   run := { s.run with executor := .ready, reason := .none } } := by
        refine (if_pos hx).trans ?_
        simp only [enterReady, State.updRun, movedTo, h3, if_true]
        rfl
      dsimp only
      rw [e]
      exact congrArg Host.Outcome.next (finishEvent_settled (settled_noWork h1 h2 h3 h4 (noFeed_of h5 rfl)))
  case restart =>
    have hbegin : beginHoming (arriveCarriage g.phase.side home s) = movedTo home none
        (.homing { phase := if home then .one else .two, steps := 0, restart := false }) s := by
      show movedTo home none (.homing (homingStart home)) s = _
      cases home <;> rfl
    rw [exec_homing hd]
    cases hres : homingResult g (s.carriage.position.map g.phase.side.next) home with
    | failed => exact absurd hres (homingResult_ne_failed hd hf)
    | goesOn h' | edgeFound | complete =>
      dsimp only
      rw [if_pos hr, hbegin]
      rfl

end Sys2Proof.Machine
end

