-- ==== Sys2Proof/Proofs/FaultStops.lean ====
section
/-! PROOFS. The fault stop: at a carriage fault and at the third dead pin (R35, R108 to R110, R123, R125, R136, R145, R156,
R163). -/

namespace Sys2Proof.Machine

/-! ## What a fault stop leaves -/

/-- FAULT STOP entered, the entry in hand not yet judged. -/
def inFaultStop (s : State) : State := { s with run := { s.run with executor := .faultStop, reason := .none } }

/-- A feed of these purposes abandoned: at once when suspended, else at its arrival (R145, R156). -/
def abandonedFeed (test : Purpose → Bool) (o : Option Feed) : Option Feed :=
  match o with
  | some f => if test f.purpose then if f.suspended then none else some { f with ending := .abandon } else some f
  | none => none

theorem abandonFeed_eq (test : Purpose → Bool) (s : State) :
    abandonFeed test s = { s with forms := { s.forms with feed := abandonedFeed test s.forms.feed } } := by
  unfold abandonFeed abandonedFeed
  cases hf : s.forms.feed with
  | none => simp [← hf]
  | some f =>
    dsimp only
    split
    · split <;> rfl
    · simp [← hf]

theorem feedEnds_abandoned {test : Purpose → Bool} {s t : State} (h : feedEnds s = none)
    (ht : t.forms.feed = abandonedFeed test s.forms.feed) : feedEnds t = none := by
  rw [feedEnds_none] at h ⊢
  intro f hf
  rw [ht] at hf
  unfold abandonedFeed at hf
  split at hf
  · rename_i g hg
    have hr := h g hg
    split at hf
    · split at hf
      · cases hf
      · cases hf
        exact hr
    · cases hf
      exact hr
  · cases hf

theorem discardActive_rests (s : State) : Rests s (discardActive s) := by
  have hold : ∀ u : State, Rests u (u.updHeat fun h => { h with hold := false }) :=
    fun u => ⟨fun _ => rfl, rfl, rfl, rfl, rfl, rfl, rfl, rfl⟩
  have feed : ∀ (test : Purpose → Bool) (u : State), Rests u (abandonFeed test u) := by
    intro test u
    rw [abandonFeed_eq]
    exact ⟨fun _ => rfl, rfl, rfl, rfl, rfl, rfl, rfl, rfl⟩
  exact (((((removeFront_rests s).trans (forgetDirection_rests _)).trans (hold _)).trans (feed _ _)).trans
    (updForms_rests _ _)).trans (setInHand_rests _ _)

/-- A fault stop is in FAULT STOP, and leaves what an executor at rest leaves. -/
theorem faultStop_rests (s : State) : Rests (inFaultStop s) (faultStop s) := by
  unfold faultStop
  split
  · exact ⟨fun _ => ‹_›, rfl, rfl, rfl, rfl, rfl, rfl, rfl⟩
  · dsimp only
    split
    · exact discardActive_rests (inFaultStop s)
    · exact discardActive_rests (inFaultStop s)
    · exact discardActive_rests (inFaultStop s)
    · exact .refl (inFaultStop s)
    · exact (updForms_rests _ (inFaultStop s)).trans (setInHand_rests _ _)

theorem finishEvent_faultStop_rests (s : State) : Rests (inFaultStop s) (finishEvent (faultStop s)) := by
  have h := faultStop_rests s
  exact h.trans (finishEvent_rests (by rw [h.executor rfl]; rfl))

theorem faultStop_eq {s : State} (h : s.run.executor ≠ .faultStop) : faultStop s =
    match s.run.inHand with
    | some (.lineDue _ _) => discardActive (inFaultStop s)
    | some (.linePass _ _ _) => discardActive (inFaultStop s)
    | some (.lineFeed _) => discardActive (inFaultStop s)
    | some (.advance true) => inFaultStop s
    | _ => setInHand none ((inFaultStop s).updForms fun g => { g with paperRequest := false }) :=
  if_neg h

theorem faultStop_active {s : State} {x : InHand} (h : s.run.executor ≠ .faultStop) (hin : s.run.inHand = some x)
    (hx : x.isActive = true) : faultStop s = discardActive (inFaultStop s) := by
  rw [faultStop_eq h, hin]
  cases x with
  | lineDue | linePass | lineFeed => rfl
  | notBuilt | marker | advance => cases hx

theorem faultStop_started {s : State} (h : s.run.executor ≠ .faultStop) (hin : s.run.inHand = some (.advance true)) :
    faultStop s = inFaultStop s := by
  rw [faultStop_eq h, hin]

/-- The entry in hand left in the queue, its paper request withdrawn (R163). -/
def entryLeft (s : State) : State :=
  { s with forms := { s.forms with paperRequest := false }, run := { s.run with inHand := none } }

theorem faultStop_waiting {s : State} {x : InHand} (h : s.run.executor ≠ .faultStop) (hin : s.run.inHand = some x)
    (hx : x = .notBuilt ∨ x = .marker ∨ x = .advance false) :
    faultStop s = entryLeft (inFaultStop s) := by
  rw [faultStop_eq h, hin]
  rcases hx with rfl | rfl | rfl <;> rfl

theorem isPending_latch (c : Cause) (s : State) : isPending c (latch c s) = true := by
  rw [isPending_iff]
  show (s.run.causes ||| c.bit).getLsbD _ = true
  rw [BitVec.getLsbD_or, Cause.bit_getLsbD]
  simp

/-- A cause of the sticky two is pending as it was. -/
theorem Rests.pending {s t : State} (h : Rests s t) {c : Cause} (hc : c = .CF ∨ c = .PF) : isPending c t = isPending c s := by
  have := congrArg (fun v : CauseSet => v.getLsbD (c.priority - 1)) h.sticky
  simp only [BitVec.getLsbD_and, (sticky_getLsbD c).mpr hc, Bool.and_true] at this
  rw [Bool.eq_iff_iff, isPending_iff, isPending_iff, this]

/-! ## The entry in hand -/

/-- The state in which a fault has been noted agrees with another in all that the fault stop judges. -/
structure SameWork (s v : State) : Prop where
  queue    : v.queue = s.queue
  buffers  : v.buffers = s.buffers
  laneQ    : v.intake.laneQ = s.intake.laneQ
  forms    : v.forms = s.forms
  executor : v.run.executor = s.run.executor
  inHand   : v.run.inHand = s.run.inHand

/-- An ACTIVE line at the front discarded with the builder past it (R35, R163). -/
theorem discardActive_front {s : State} {h : LineHeader} {parts : List (List Byte)} {b : BufId} {rest : List Entry}
    (hq : s.queue = { entries := .line h parts (.active b) :: rest, cursor := rest.length + 1 }) :
    discardActive s =
      { s with
        queue := { entries := rest, cursor := rest.length }, buffers := s.buffers.set b .free,
        planner := { s.planner with keptDir := none }, heat := { s.heat with hold := false },
        forms := { s.forms with
          feed := abandonedFeed (fun p => p = .afterLine ∨ p = .skip) s.forms.feed, paperRequest := false },
        run := { s.run with
          inHand := none, causes := if rest.isEmpty then s.run.causes ||| Cause.DR.bit else s.run.causes } } := by
  have hfront : removeFront s =
      { s with
        queue := { entries := rest, cursor := rest.length }, buffers := s.buffers.set b .free,
        run := { s.run with causes := if rest.isEmpty then s.run.causes ||| Cause.DR.bit else s.run.causes } } := by
    have hi : frontIndex s.queue = some 0 := by rw [hq]; rfl
    unfold removeFront
    rw [hi]
    dsimp only
    have hr : removeAt 0 s = { s with queue := { entries := rest, cursor := rest.length },
                                      buffers := s.buffers.set b .free } := by
      simp only [removeAt, hq, List.getElem?_cons_zero, State.updBuffers, State.updQueue]
      rfl
    rw [hr, latchDrained, latchIf]
    dsimp only
    split <;> rfl
  rw [discardActive, hfront, abandonFeed_eq]
  rfl

theorem activeLineDiscarded_of {s v : State} (k : SameWork s v) : ActiveLineDiscarded s (finishEvent (faultStop v)) := by
  rintro h parts b rest hq hl hf hx ⟨x, hin, hact⟩
  have e : faultStop v = _ := (faultStop_active (by rw [k.executor]; exact hx) (k.inHand.trans hin) hact).trans
    (discardActive_front (s := inFaultStop v) (k.queue.trans hq))
  have hset : Settled (faultStop v) := by
    rw [e]
    refine settled_resting rfl rfl (feedEnds_abandoned (s := v) (test := fun p => p = .afterLine ∨ p = .skip) (noFeed_of hf (by rw [k.forms])) rfl) (builderStep_end ?_)
      (k.laneQ.trans hl)
    simp
  rw [finishEvent_settled hset, e]
  refine ⟨rfl, congrArg (fun bs : Buffers => bs.set b .free) k.buffers, fun hrest => ?_, rfl, rfl, rfl, rfl, rfl, ?_⟩
  · subst hrest
    exact isPending_latch .DR v
  · show abandonedFeed (fun p => p = .afterLine ∨ p = .skip) v.forms.feed = _
    rw [k.forms]
    unfold abandonedFeed
    cases s.forms.feed <;> simp

theorem otherEntryStays_of {s v : State} (k : SameWork s v) : OtherEntryStays s (finishEvent (faultStop v)) := by
  intro x hin hx hw hf hne hreq
  have hv : v.run.executor ≠ .faultStop := by rw [k.executor]; exact hne
  have hend : feedEnds v = none := noFeed_of hf (by rw [k.forms])
  have hb : builderStep v = none := builderStep_none_of hw.1 k.queue k.buffers
  have hl : v.intake.laneQ = [] := k.laneQ.trans hw.2
  by_cases hadv : x = .advance true
  · subst hadv
    have hfeed : v.forms.feed = s.forms.feed := by rw [k.forms]
    have e := faultStop_started hv (k.inHand.trans hin)
    have hp : v.forms.paperRequest = false := by rw [k.forms]; exact hreq rfl
    rw [e, finishEvent_settled (s := inFaultStop v) (settled_resting rfl hp (noFeed_of hend rfl) (builderStep_none_of hb rfl rfl) hl)]
    exact ⟨k.queue, k.buffers, hfeed, hp, rfl, k.inHand.trans hin⟩
  · have hx' : x = .notBuilt ∨ x = .marker ∨ x = .advance false :=
      hx.imp_right (Or.imp_right fun h => h.resolve_right hadv)
    have e := faultStop_waiting hv (k.inHand.trans hin) hx'
    rw [e, finishEvent_settled (s := entryLeft (inFaultStop v)) (settled_resting rfl rfl (noFeed_of hend rfl) (builderStep_none_of hb rfl rfl) hl), if_neg hadv]
    exact ⟨k.queue, k.buffers, by rw [← k.forms]; rfl, rfl, rfl, rfl⟩

/-! ## The two faults -/

/-- What a carriage fault latches and gives up before the fault stop (R99, R110, log 17). -/
def carriageLost (s : State) : State :=
  { s with
    carriage := { position := none, drive := .unhomed }, planner := { s.planner with schedule := none },
    firing := { s.firing with state := .idle, lastPending := false },
    run := { s.run with causes := s.run.causes ||| Cause.CF.bit } }

theorem carriageFault_eq (s : State) : carriageFault s = faultStop (carriageLost s) := rfl

theorem exec_fault {c : Instr} {home : Bool} {s : State} (h : arrivalFaults home s c) :
    ∃ side, exec c s = .next (finishEvent (faultStop (carriageLost (arriveCarriage side home s)))) := by
  have bad : ∀ {side : Side} {p : Int}, s.carriage.position = some p → ¬(home = true ↔ side.next p ≤ 24) →
      ¬homeCheck (s.carriage.position.map side.next) home = true := by
    intro side p hp hno
    rw [hp]
    exact fun k => hno (homeCheck_iff.mp k)
  cases c with
  | positioningArrival =>
    obtain ⟨rfl, m, run, p, hd, hp, hno⟩ := h
    exact ⟨m.side, by rw [exec_positioning hd, if_neg (bad hp hno), carriageFault_eq]⟩
  | passRunArrival =>
    obtain ⟨rfl, m, p, hd, hp, hno⟩ := h
    refine ⟨m.side, ?_⟩
    show execPassRunArrival _ s = _
    unfold execPassRunArrival
    rw [hd]
    exact if_neg (bad hp hno)
  | stoppingArrival =>
    obtain ⟨rfl, d, p, hd, hp, hno⟩ := h
    exact ⟨d.side, by rw [exec_stopping hd, if_neg (bad hp hno), carriageFault_eq]⟩
  | homingArrival =>
    obtain ⟨rfl, g, hd, hg⟩ := h
    refine ⟨g.phase.side, ?_⟩
    rename_i home
    have hres : homingResult g (s.carriage.position.map g.phase.side.next) home = .failed := by
      unfold homingResult
      rcases hg with ⟨hph, hh, hn⟩ | ⟨hph, hh, hn⟩ | ⟨hph, p, hp, hno⟩
      · rw [hph, hh]
        exact if_pos hn
      · rw [hph, hh]
        exact if_pos hn
      · rw [hph]
        exact if_neg (bad (side := .rightward) hp hno)
    rw [exec_homing hd, hres, carriageFault_eq]
  | _ => exact absurd h id

/-- Settles O53: the fault stop taken from the state in which the fault has been latched. -/
theorem carriageFaultStops : Obligations.CarriageFaultStops := by
  intro c home s h
  obtain ⟨side, e⟩ := exec_fault h
  have k := finishEvent_faultStop_rests (carriageLost (arriveCarriage side home s))
  have same : SameWork s (carriageLost (arriveCarriage side home s)) := ⟨rfl, rfl, rfl, rfl, rfl, rfl⟩
  refine ⟨_, e, k.carriage, ?_, k.schedule, ?_, ?_, ?_, k.executor rfl, k.level, k.strike, k.geometry,
    activeLineDiscarded_of same, otherEntryStays_of same⟩
  · rw [k.pending (.inl rfl)]
    exact isPending_latch .CF s
  · rw [k.firing]
    rfl
  · rw [k.firing]
    rfl
  · rw [k.firing]
    rfl

/-! ## The third dead pin -/

theorem or_andNot {w : Nat} (a b : BitVec w) : a ||| (b &&& ~~~a) = a ||| b := by
  apply BitVec.eq_of_getLsbD_eq
  intro i hi
  rw [BitVec.getLsbD_or, BitVec.getLsbD_and, BitVec.getLsbD_not, BitVec.getLsbD_or]
  cases a.getLsbD i <;> simp [hi]

theorem exec_pulseEnd {i : Nat} {p : Pulse} {s : State} (faults : PinMask) (h : s.firing.pulses[i]? = some p) :
    exec (.pulseEnd i faults) s =
      if isThirdDead s.firing.dead (endPulse i p faults s).firing.dead then
        .next (finishEvent (thirdDeadPin (endPulse i p faults s)))
      else .next (finishLastFire (endPulse i p faults s)) := by
  show execPulseEnd i faults s = _
  unfold execPulseEnd
  rw [h]

/-- A fire's pulses ended, its faulty pins joined to the dead ones (R120, R123). -/
def pulseEnded (i : Nat) (p : Pulse) (faults : PinMask) (s : State) : State :=
  { s with
    firing := { s.firing with
      pulses := s.firing.pulses.eraseIdx i, dead := s.firing.dead ||| (p.pins &&& faults &&& ~~~s.firing.dead) },
    run := { s.run with
      causes := if p.pins &&& faults &&& ~~~s.firing.dead = 0 then s.run.causes else s.run.causes ||| Cause.PF.bit } }

theorem endPulse_eq (i : Nat) (p : Pulse) (faults : PinMask) (s : State) :
    endPulse i p faults s = pulseEnded i p faults s := by
  unfold endPulse latchIf pulseEnded
  dsimp only
  by_cases h : p.pins &&& faults &&& ~~~s.firing.dead = 0
  · rw [if_pos h, h]
    rfl
  · rw [if_neg h, if_pos (by simpa using h)]
    rfl

/-- Settles O55: the fault stop taken from the state in which the pulses have ended. -/
theorem thirdDeadPinStops : Obligations.ThirdDeadPinStops := by
  intro i p faults s hp dead h2 h3
  let v : State := forgetLastFire (goSilent (pulseEnded i p faults s))
  have hdead : s.firing.dead ||| (p.pins &&& faults &&& ~~~s.firing.dead) = dead := or_andNot _ _
  have hjoined : p.pins &&& faults &&& ~~~s.firing.dead ≠ 0 := by
    intro h0
    rw [h0] at hdead
    have hsame : dead = s.firing.dead := by rw [← hdead]; simp
    rw [hsame] at h3
    omega
  have e : exec (.pulseEnd i faults) s = .next (finishEvent (faultStop v)) := by
    rw [exec_pulseEnd faults hp, endPulse_eq]
    refine if_pos ?_
    exact decide_eq_true ⟨h2, le_of_le_of_eq h3 (congrArg pinCount hdead.symm)⟩
  have k := finishEvent_faultStop_rests v
  have same : SameWork s v := ⟨rfl, rfl, rfl, rfl, rfl, rfl⟩
  have hcauses : v.run.causes = s.run.causes ||| Cause.PF.bit := if_neg hjoined
  refine ⟨_, e, k.executor rfl, ?_, ?_, ?_, ?_, activeLineDiscarded_of same, otherEntryStays_of same⟩
  · rw [k.pending (.inr rfl), isPending_iff]
    show v.run.causes.getLsbD _ = true
    rw [hcauses]
    exact (isPending_iff .PF _).mp (isPending_latch .PF s)
  · rw [k.firing, ← hdead]
    rfl
  · exact k.carriage
  · exact k.level

end Sys2Proof.Machine
end

