-- ==== Sys2Proof/Proofs/LastFires.lean ====
section
/-! PROOFS. The last fire of a pass, the end of a fire's pulses, and the arrivals of a pass run (R97, R103, R113, R116 to
R123, R130, R145, R161). -/

namespace Sys2Proof.Machine

/-! ## The report of the last fire -/

section LastFire

variable {s : State}

/-- A line's pass in hand needs nothing by itself; nothing follows but a return that a kept request still asks for. -/
theorem settled_passing {last stopped done : Bool} (hin : s.run.inHand = some (.linePass last stopped done))
    (hp : s.forms.paperRequest = false ∨ s.forms.feed ≠ none) (hf : feedEnds s = none) (hw : NoneWaits s) : Settled s := by
  refine settled_of hf hw.1 (offerStep_nil hw.2) ?_ ?_
  · rw [runStep, hin]
    dsimp only
    rw [carryOut_linePass]
    exact ite_self _
  · have hneeds : needsPaper s = false := needsPaper_false hin (by simp)
    unfold requestStep
    rw [hneeds, Bool.false_and, if_neg (by decide)]
    rcases hp with h | h
    · simp [h]
    · simp [Option.isNone_eq_false_iff.mpr (Option.isSome_iff_ne_none.mpr h)]

theorem lastFireDone_feeds {h : LineHeader} {stopped : Bool} (hin : s.run.inHand = some (.linePass true stopped false))
    (hq : frontHeader s.queue = some h) :
    lastFireDone s = beginFeed .afterLine .forward (min 4095 h.feedAfter.toNat) s := by
  unfold lastFireDone
  rw [hin, hq]
  rfl

theorem lastFireDone_first {stopped done : Bool} (hin : s.run.inHand = some (.linePass false stopped done)) :
    lastFireDone s = s := by
  unfold lastFireDone
  rw [hin]

theorem finishLastFire_notDue (h : lastFireDue s = false) : finishLastFire s = s := if_neg (by rw [h]; decide)

theorem finishLastFire_due (h : lastFireDue s = true) :
    finishLastFire s = finishEvent (lastFireDone (forgetLastFire s)) := by
  rw [finishLastFire, if_pos h, reportLastFire, if_pos h]

/-- The last fire of a line's last pass: its feed after line begins (R122, R145). -/
theorem finishLastFire_feeds {h : LineHeader} {stopped : Bool} (hd : lastFireDue s = true) (hw : NoneWaits s)
    (hin : s.run.inHand = some (.linePass true stopped false)) (hq : frontHeader s.queue = some h) (h0 : h.feedAfter ≠ 0) :
    finishLastFire s = judgeTimers
      { forgetLastFire s with forms := begunForward .afterLine (min 4095 h.feedAfter.toNat) s s.forms } := by
  have hfeed := feed_begunForward .afterLine (min 4095 h.feedAfter.toNat) s s.forms
  rw [finishLastFire_due hd, lastFireDone_feeds (s := forgetLastFire s) hin hq, beginFeed_forward (feedAfter_pos h0)]
  refine finishEvent_settled (settled_passing hin (.inr ?_) (feedEnds_begunForward (feedAfter_pos h0) rfl)
    ⟨builderStep_none_of hw.1 rfl rfl, hw.2⟩)
  exact fun k => Option.some_ne_none _ (hfeed.symm.trans k)

/-- A feed after line of no steps is complete at once (R140, R161). -/
theorem finishLastFire_noFeed {h : LineHeader} (hd : lastFireDue s = true) (hw : NoneWaits s)
    (hin : s.run.inHand = some (.linePass true false false)) (hq : frontHeader s.queue = some h) (h0 : h.feedAfter = 0)
    (hp : s.forms.paperRequest = false) :
    finishLastFire s = judgeTimers
      { forgetLastFire s with
        forms := { s.forms with feed := none }, run := { s.run with inHand := some (.linePass true false true) } } := by
  let fed : State := (forgetLastFire s).updForms fun g => { g with feed := some (newFeed .afterLine .forward 0) }
  have hend : feedEnds fed = some
      { forgetLastFire s with
        forms := { s.forms with feed := none }, run := { s.run with inHand := some (.linePass true false true) } } := by
    rw [feedEnds_some rfl rfl]
    exact congrArg some (feedComplete_recorded (s := clearFeed fed) hin)
  rw [finishLastFire_due hd, lastFireDone_feeds (s := forgetLastFire s) hin hq, feedAfter_zero h0, beginFeed_zero]
  exact finishEvent_of_followTo (s := fed) (n := 1) (by decide) (followTo_one (followStep_of_feed hend))
    (settled_passing rfl (.inl hp) (feedEnds_noFeed rfl) ⟨builderStep_none_of hw.1 rfl rfl, hw.2⟩)

/-- The last fire of a first pass of two is only reported. -/
theorem finishLastFire_first {stopped done : Bool} (hd : lastFireDue s = true) (hw : NoneWaits s)
    (hin : s.run.inHand = some (.linePass false stopped done)) (hp : s.forms.paperRequest = false) (hf : NoFeedEnds s) :
    finishLastFire s = judgeTimers (forgetLastFire s) := by
  rw [finishLastFire_due hd, lastFireDone_first (s := forgetLastFire s) hin]
  exact finishEvent_settled (settled_passing hin (.inl hp) (noFeed_of hf rfl) ⟨builderStep_none_of hw.1 rfl rfl, hw.2⟩)

end LastFire

/-- Settles O54: the pulses ended, and then the report of the last fire by the line in hand. -/
theorem pulseEnds : Obligations.PulseEnds := by
  intro i p faults s hp joined hno ended reported
  have e : exec (.pulseEnd i faults) s = .next (finishLastFire ended) := by
    rw [exec_pulseEnd faults hp, endPulse_eq]
    exact if_neg (by rw [isThirdDead, decide_eq_true_iff]; exact hno)
  rw [e]
  refine ⟨fun h => ?_, fun hlast hps hw => ?_⟩
  · refine congrArg _ (finishLastFire_notDue ?_)
    show (s.firing.lastPending && (s.firing.pulses.eraseIdx i).isEmpty) = false
    rcases h with h | h
    · rw [h, Bool.false_and]
    · have hi : i < s.firing.pulses.length := (List.getElem?_eq_some_iff.mp hp).1
      have hlen := List.length_eraseIdx_of_lt hi
      rw [Bool.and_eq_false_iff]
      right
      rw [List.isEmpty_eq_false_iff_exists_mem]
      exact List.exists_mem_of_length_pos (by omega)
  · have hi : i = 0 := by
      have := (List.getElem?_eq_some_iff.mp hp).1
      rw [hps] at this
      simpa using this
    have hdue : lastFireDue ended = true := by
      show (s.firing.lastPending && (s.firing.pulses.eraseIdx i).isEmpty) = true
      rw [hlast, hps, hi]
      rfl
    have hw' : NoneWaits ended := ⟨builderStep_none_of hw.1 rfl rfl, hw.2⟩
    exact ⟨fun h rs hin hq h0 => congrArg _ (finishLastFire_feeds (s := ended) hdue hw' hin hq h0),
      fun h hin hq h0 hreq => congrArg _ (finishLastFire_noFeed (s := ended) hdue hw' hin hq h0 hreq),
      fun rs fd hin hreq hf => congrArg _ (finishLastFire_first (s := ended) hdue hw' hin hreq (noFeed_of hf rfl))⟩

end Sys2Proof.Machine
end

