-- ==== Sys2Proof/Proofs/PassRuns.lean ====
section
/-! PROOFS. The arrivals of a pass run: what each hands to the Firing Unit, and the end of the run (R97, R103, R111, R113,
R118, R122, R124, R126, R130). -/

namespace Sys2Proof.Machine

/-! ## An arrival of the run -/

theorem exec_passRun {m : Move} {p q : Int} {home : Bool} {s : State} (hd : s.carriage.drive = .passRun m)
    (hp : s.carriage.position = some p) (hq : q = match m.side with | .rightward => p + 1 | .leftward => p - 1)
    (hcheck : home = true ↔ q ≤ 24) :
    exec (.passRunArrival home) s =
      if m.idx + 1 < m.len then
        .next (finishLastFire (setDrive (.passRun { m with idx := m.idx + 1 })
          (offerArrival (movedTo home (some q) (.passRun m) s))))
      else
        .next (finishRunStop (runStopped (discardSchedule (setDrive .stopped
          (reportLastFire (offerArrival (movedTo home (some q) (.passRun m) s))))))) := by
  have hpos : (s.carriage.position.map m.side.next) = some q := by rw [hp, hq]; rfl
  have hmoved : arriveCarriage m.side home s = movedTo home (some q) (.passRun m) s := by
    rw [arriveCarriage, movedTo, ← hpos, ← hd]
    rfl
  show execPassRunArrival home s = _
  unfold execPassRunArrival
  rw [hd]
  dsimp only
  rw [hmoved]
  exact if_pos (homeCheck_iff.mpr hcheck)

section Offer

variable {s : State} {sc : Schedule} {q : Int}

theorem offerArrival_entry {f : Fire} (hs : s.planner.schedule = some sc) (hp : s.carriage.position = some q)
    (hf : sc.fires[sc.mark]? = some f) : offerArrival s = if f.pos = q then handEntry sc f s else s := by
  unfold offerArrival
  rw [hs, hp]
  dsimp only
  rw [hf]

theorem offerArrival_past (h : ∀ sc, s.planner.schedule = some sc → sc.fires.length ≤ sc.mark) : offerArrival s = s := by
  unfold offerArrival
  split
  · rename_i sc p hs hp
    rw [List.getElem?_eq_none (h sc hs)]
  · rfl

/-- The marked entry handed while SILENT: the mark moves (R126). -/
theorem handEntry_silent {f : Fire} {t : Nat} (h : s.firing.state = .silent t) : handEntry sc f s =
    { s with planner := { s.planner with schedule := some { sc with mark := sc.mark + 1 } } } := by
  unfold handEntry
  dsimp only [State.updPlanner]
  rw [h]

/-- The marked entry fired, the last one not yet noted (R118, R119, R124, R130). -/
def handed (sc : Schedule) (f : Fire) (tRec : Nat) (s : State) : State :=
  let fired := f.mask &&& ~~~s.firing.dead
  let skipped := f.mask &&& s.firing.dead
  let w := min (4 * strikeEntry s.tables.strike s.settings.formsClass s.heat.band) (tRec - 50)
  { s with
    planner := { s.planner with schedule := some { sc with mark := sc.mark + 1 } },
    firing := { s.firing with
      pulses := dropPins fired s.firing.pulses ++ (if fired = 0 then [] else [{ pins := fired, width := w }]),
      deadDots := min 65535 (s.firing.deadDots + pinCount skipped) },
    run := { s.run with causes := if skipped = 0 then s.run.causes else s.run.causes ||| Cause.DS.bit },
    heat := { s.heat with level := min 1048575 (s.heat.level + pinCount fired * (w / 4)) } }

theorem handEntry_armed {f : Fire} {tRec : Nat} (h : s.firing.state = .armed tRec) : handEntry sc f s =
    if sc.mark + 1 = sc.fires.length then (handed sc f tRec s).updFiring fun g => { g with lastPending := true }
    else handed sc f tRec s := by
  have e : fireEntry f.mask tRec (s.updPlanner fun p => { p with schedule := some { sc with mark := sc.mark + 1 } }) =
      handed sc f tRec s := by
    unfold fireEntry latchIf handed
    dsimp only [State.updPlanner, State.updFiring, State.updHeat]
    by_cases hk : f.mask &&& s.firing.dead = 0
    · rw [if_pos hk, hk]
      rfl
    · rw [if_neg hk, if_pos (by simpa using hk)]
      rfl
  unfold handEntry
  dsimp only
  rw [show (s.updPlanner _).firing.state = s.firing.state from rfl, h]
  dsimp only
  rw [e]

end Offer

/-- Settles O50: by what the arrival hands, and, when the last fire is done, by the line in hand. -/
theorem passRunFires : Obligations.PassRunFires := by
  refine ⟨fun m sc f tRec p q home s hd hp hq hcheck hm hs hf hlast => ?entry,
    fun m p q home s hd hp hq hcheck hm hpast hdue => ?past⟩
  case entry =>
    intro moved fired skipped w handed'
    have arrives : exec (.passRunArrival home) s = .next (finishLastFire (setDrive (.passRun { m with idx := m.idx + 1 })
        (if f.pos = q then handEntry sc f (movedTo home (some q) (.passRun m) s)
          else movedTo home (some q) (.passRun m) s))) := by
      rw [exec_passRun hd hp hq hcheck, if_pos hm, offerArrival_entry (s := movedTo home (some q) (.passRun m) s) hs rfl hf]
    refine ⟨fun hne => ?elsewhere, fun he harmed => ?armed, fun he t hsilent => ?silent⟩
    case elsewhere =>
      rw [arrives, if_neg hne]
      exact congrArg _ (finishLastFire_notDue (by
        show (s.firing.lastPending && _) = false
        rw [hlast, Bool.false_and]))
    case silent =>
      rw [arrives, if_pos he, handEntry_silent (s := movedTo home (some q) (.passRun m) s) hsilent]
      exact congrArg _ (finishLastFire_notDue (by
        show (s.firing.lastPending && _) = false
        rw [hlast, Bool.false_and]))
    case armed =>
      rw [arrives, if_pos he, handEntry_armed (s := movedTo home (some q) (.passRun m) s) harmed]
      refine ⟨fun hn => ?_, fun hn hps => ?_, fun hn hps hw => ?_⟩
      · rw [if_neg (by omega)]
        exact congrArg _ (finishLastFire_notDue (s := handed') (by
          show (s.firing.lastPending && _) = false
          rw [hlast, Bool.false_and]))
      · rw [if_pos hn]
        exact congrArg _ (finishLastFire_notDue (s := { handed' with firing := { handed'.firing with lastPending := true } }) (by
          show (true && handed'.firing.pulses.isEmpty) = false
          simpa using hps))
      · rw [if_pos hn]
        let noted : State := { handed' with firing := { handed'.firing with lastPending := true } }
        have hdue : lastFireDue noted = true := by
          show (true && handed'.firing.pulses.isEmpty) = true
          rw [hps]
          rfl
        have hw' : NoneWaits noted := ⟨builderStep_none_of hw.1 rfl rfl, hw.2⟩
        have hforget : forgetLastFire noted = handed' := by
          show { handed' with firing := { handed'.firing with lastPending := false } } = handed'
          rw [← hlast]
        refine ⟨fun rs h hin hfront h0 => ?_, fun rs fd hin hreq hf => ?_⟩
        · have k := finishLastFire_feeds (s := noted) hdue hw' hin hfront h0
          rw [hforget] at k
          exact congrArg _ k
        · have k := finishLastFire_first (s := noted) hdue hw' hin hreq (noFeed_of hf rfl)
          rw [hforget] at k
          exact congrArg _ k
  case past =>
    rw [exec_passRun hd hp hq hcheck, if_pos hm, offerArrival_past (s := movedTo home (some q) (.passRun m) s) hpast]
    exact congrArg _ (finishLastFire_notDue hdue)

/-! ## The end of the run -/

/-- A run through the checks that does not pass them all leaves the carriage. -/
theorem runChecks_carriage {first : Bool} {s : State} (h : checksPass first s = false) :
    (runChecks first s).carriage = s.carriage := by
  unfold runChecks
  dsimp only
  split
  · rfl
  rename_i hpaper
  split
  · rfl
  rename_i hfeed
  split
  · rfl
  rename_i hlever
  split
  · rename_i p hd hp
    split
    · exact (beginFeed_steady _ _ _ s).carriage
    rename_i hskip
    split
    · exact (eject_steady _ s).carriage
    rename_i htail
    split
    · rfl
    rename_i hband
    split
    · rename_i hd' img _ himg
      have hany : (s.forms.tracking.any fun r => decide (r < 144)) = false := by
        cases ht : s.forms.tracking with
        | none => rfl
        | some r => simpa [ht] using htail
      have hnone : s.forms.feed.isNone = true := by simpa using hfeed
      have hpass : checksPass first s = true := by
        simp only [checksPass, not_not.mp hpaper, not_not.mp hlever, hd, hp, himg, Bool.not_eq_true _ ▸ hskip, hany,
          hnone, bne_iff_ne.mpr hband]
        rfl
      exact absurd (h.symm.trans hpass) (by decide)
    · rfl
  · rfl

/-- Run Control moves the carriage only by a pass start that is ready. -/
theorem runStep_carriage {s t : State} (h : passStartReady s = false) (ht : runStep s = some t) :
    t.carriage = s.carriage := by
  unfold runStep at ht
  split at ht
  · rename_i x hx
    split at ht
    · rename_i hexec
      rcases carryOut_travel ht with k | ⟨first, n, rfl, rfl⟩
      · exact k.carriage
      · have hmet : needMet n s = true := by
          by_contra hno
          rw [carryOut_lineDue_unmet (Bool.not_eq_true _ ▸ hno)] at ht
          cases ht
        refine runChecks_carriage ?_
        simpa [passStartReady, hx, hexec, hmet] using h
    · cases ht
  · exact (takeUpStep_steady ht).carriage

theorem followStep_held_cases {s t : State} (h : followStep true s = some t) :
    feedEnds s = some t ∨ builderStep s = some t ∨ offerStep s = some t ∨
      (passStartReady s = false ∧ runStep s = some t) ∨ requestStep s = some t := by
  cases hr : passStartReady s with
  | false =>
    rw [followStep_notReady true hr] at h
    simpa using followStep_cases h
  | true =>
    unfold followStep at h
    simp only [hr, Bool.and_self, if_true] at h
    split at h
    · exact .inl (h ▸ ‹_›)
    split at h
    · exact .inr (.inl (h ▸ ‹_›))
    split at h
    · exact .inr (.inr (.inl (h ▸ ‹_›)))
    · exact .inr (.inr (.inr (.inr h)))

/-- What follows the end of a pass run leaves the carriage where it is (R113, log 31). -/
theorem finishRunStop_carriage (s : State) : (finishRunStop s).carriage = s.carriage := by
  refine follow_keeps (P := fun t => t.carriage = s.carriage) (fun u t h hu => ?_) (followFuel s) s rfl
  refine .trans ?_ hu
  rcases followStep_held_cases h with e | e | e | ⟨hr, e⟩ | e
  · exact (feedEnds_rests e).carriage
  · exact (builderStep_rests e).carriage
  · exact (offerStep_rests e).carriage
  · exact runStep_carriage hr e
  · exact (requestStep_steady e).carriage

/-- The end of a feed is reported to nobody while nothing is in hand. -/
theorem feedComplete_nothing {p : Purpose} {s : State} (h : s.run.inHand = none) : feedComplete p s = s := by
  unfold feedComplete
  rw [h]
  cases p <;> rfl

/-- With no entry, nothing in hand and no frame waiting only feeds and the return follow. -/
def Idle (s : State) : Prop := s.queue.entries = [] ∧ s.intake.laneQ = [] ∧ s.run.inHand = none

theorem followStep_idle {s t : State} (h : Idle s) (ht : followStep false s = some t) :
    Idle t ∧ t.carriage = s.carriage := by
  obtain ⟨h1, h2, h3⟩ := h
  rcases followStep_cases ht with e | e | e | e | e
  · refine ⟨?_, (feedEnds_rests e).carriage⟩
    unfold feedEnds at e
    split at e
    · split at e
      · cases e
        unfold endFeed
        split
        · rw [tearEnded_other fun k => by cases h3.symm.trans k]
          exact ⟨h1, h2, h3⟩
        · exact ⟨h1, h2, h3⟩
        · split <;> exact ⟨h1, h2, h3⟩
        · exact ⟨h1, h2, h3⟩
        · rw [feedComplete_nothing (s := clearFeed s) h3]
          exact ⟨h1, h2, h3⟩
      · cases e
    · cases e
  · rw [builderStep_end (by simp [h1])] at e
    cases e
  · rw [offerStep_nil h2] at e
    cases e
  · have hi : frontIndex s.queue = none := by simp [frontIndex, h1]
    rw [runStep, h3] at e
    simp [takeUpStep, hi] at e
  · refine ⟨?_, (requestStep_steady e).carriage⟩
    unfold requestStep at e
    rw [needsPaper_none h3, Bool.false_and, if_neg (by decide)] at e
    split at e
    · cases e
      rw [beginReturn, beginFeed_forms]
      exact ⟨h1, h2, h3⟩
    · cases e

theorem finishEvent_idle_carriage {s : State} (h : Idle s) : (finishEvent s).carriage = s.carriage :=
  (follow_keeps (P := fun t => Idle t ∧ t.carriage = s.carriage)
    (fun _ _ ht k => (followStep_idle k.1 ht).imp_right (·.trans k.2)) (followFuel s) s ⟨h, rfl⟩).2

theorem settled_held {s : State} (h : Settled s) : followStep true s = none := by
  obtain ⟨h0, h1, h2, h3, h4⟩ := (settled_iff s).mp h
  simp [followStep, h0, h1, h2, h3, h4]

theorem finishRunStop_settled {s : State} (h : Settled s) : finishRunStop s = judgeTimers s :=
  finishRunStop_of_followTo (n := 0) (by decide) rfl (settled_held h)

/-- Settles O51: the line's report after its last pass, the start of pass 2 left due, and both orders with a RESET. -/
theorem passRunStops : Obligations.PassRunStops := by
  intro m p q home s hd hp hq hcheck hm stopped
  have arrives : exec (.passRunArrival home) s = .next (finishRunStop (runStopped (discardSchedule (setDrive .stopped
      (reportLastFire (offerArrival (movedTo home (some q) (.passRun m) s))))))) := by
    rw [exec_passRun hd hp hq hcheck, if_neg hm]
  refine ⟨fun sc hs hmark hdue hf hreq => ?reports, ?arrivalFirst, ?resetFirst⟩
  case reports =>
    have hpast : ∀ sc', s.planner.schedule = some sc' → sc'.fires.length ≤ sc'.mark := by
      intro sc' hs'
      cases hs.symm.trans hs'
      exact hmark
    have hstop : exec (.passRunArrival home) s = .next (finishRunStop (runStopped stopped)) := by
      rw [arrives, offerArrival_past (s := movedTo home (some q) (.passRun m) s) hpast, reportLastFire,
        if_neg (by rw [show lastFireDue (movedTo home (some q) (.passRun m) s) = false from hdue]; decide)]
      rfl
    rw [hstop]
    refine ⟨fun hin hw => ?recorded, fun rs h parts b hin hqueue hl hx => ?removed,
      fun rs fd img hin hw hx h1 h2 h3 h7 h8 himg => ?due⟩
    case recorded =>
      have e : runStopped stopped = setInHand (some (.linePass true true false)) stopped := by
        unfold runStopped
        rw [show stopped.run.inHand = _ from hin]
      rw [e]
      exact congrArg _ (finishRunStop_settled (settled_passing rfl (.inl hreq) (noFeed_of hf rfl)
        ⟨builderStep_none_of hw.1 rfl rfl, hw.2⟩))
    case removed =>
      have e : runStopped stopped = leftLine b s.forms stopped := by
        unfold runStopped
        rw [show stopped.run.inHand = _ from hin]
        exact finishEntry_line (s := stopped) hqueue hx
      rw [e]
      exact congrArg _ (finishRunStop_settled (settled_noWork rfl hl rfl hreq (noFeed_of hf rfl)))
    case due =>
      let due : State := { stopped with run := { s.run with inHand := some (.lineDue false .ready) } }
      have e : runStopped stopped = due := by
        unfold runStopped
        rw [show stopped.run.inHand = _ from hin]
        rfl
      have hany : (s.forms.tracking.any fun r => decide (r < 144)) = false := by
        cases ht : s.forms.tracking with
        | none => rfl
        | some r => simpa using h7 r ht
      have hready : passStartReady due = true := by
        show (s.run.executor.executing && true && checksPass false due) = true
        have himg' : activeImage due = some img := himg
        simp only [hx, checksPass, show due.forms = s.forms from rfl, show due.heat = s.heat from rfl,
          show due.carriage = { position := some q, drive := .stopped } from rfl, h1, h2, h3, hany, himg', bne_iff_ne.mpr h8]
        rfl
      have hneeds : needsPaper due = false := needsPaper_false (x := .lineDue false .ready) rfl (by simp)
      rw [e]
      exact congrArg _ (finishRunStop_of_followTo (n := 0) (by decide) rfl (followStep_held hready (noFeed_of hf rfl)
        (builderStep_none_of hw.1 rfl rfl) (offerStep_nil hw.2) (requestStep_none hneeds hreq)))
  case arrivalFirst =>
    have hq' : (reportLastFire (offerArrival (movedTo home (some q) (.passRun m) s))).carriage =
        { position := some q, drive := .passRun m } :=
      ((reportLastFire_steady _).carriage.trans (offerArrival_steady _).carriage)
    let halted : State :=
      discardSchedule (setDrive .stopped (reportLastFire (offerArrival (movedTo home (some q) (.passRun m) s))))
    have hc : halted.carriage = { position := some q, drive := .stopped } := by
      show Carriage.mk (reportLastFire _).carriage.position Drive.stopped = _
      rw [hq']
    have hend : (finishRunStop (runStopped halted)).carriage = { position := some q, drive := .stopped } :=
      (finishRunStop_carriage _).trans ((runStopped_steady halted).carriage.trans hc)
    refine ⟨_, _, arrives, exec_reset _, ?_⟩
    show Carriage.mk (finishRunStop (runStopped halted)).carriage.position
      (resetDrive (finishRunStop (runStopped halted)).carriage.drive) = _
    rw [hend]
    rfl
  case resetFirst =>
    let t : State := judgeTimers (resetState s)
    have hpos : (t.carriage.position.map (decelOf m).side.next) = some q := by
      show s.carriage.position.map m.side.next = some q
      rw [hp, hq]
      rfl
    have hdrive : t.carriage.drive = .stopping (decelOf m) := by
      show resetDrive s.carriage.drive = _
      rw [hd]
      rfl
    have hleft : (decelOf m).left = 0 := by
      show min (min m.idx (m.len - 1 - m.idx)) m.profile.ramp.length = 0
      omega
    have e : exec (.stoppingArrival home) t = .next (finishEvent (movedTo home (some q) .stopped t)) := by
      rw [exec_stopping hdrive, hpos, if_pos (homeCheck_iff.mpr hcheck), if_pos hleft]
    exact ⟨t, _, exec_reset s, e, finishEvent_idle_carriage ⟨rfl, rfl, rfl⟩⟩

end Sys2Proof.Machine
end

