-- ==== Sys2Proof/Proofs/Halting.lean ====
section
/-! PROOFS. HALT, GO and DROP (R14, R34, R36, R37, R58, R81, R156, R162, R163). -/

namespace Sys2Proof.Machine

/-! ## Nothing follows in a state where Run Control finds what it found before -/

theorem needsPaper_of {s t : State} (h1 : t.run.executor = s.run.executor) (h2 : t.run.inHand = s.run.inHand) :
    needsPaper t = needsPaper s := by
  unfold needsPaper
  rw [h1, h2]

theorem requestStep_none_of {s t : State} (h : requestStep s = none) (hin : t.run.inHand = s.run.inHand)
    (hx : t.run.executor = s.run.executor) (hr : t.run.reason = s.run.reason) (hpaper : t.forms.paper = s.forms.paper)
    (hf : t.forms.feed = s.forms.feed) (hp : t.forms.paperRequest = s.forms.paperRequest) : requestStep t = none := by
  unfold requestStep at h ⊢
  rw [needsPaper_of hx hin, hr, hpaper, hp, hf]
  split at h
  · cases h
  split at h
  · cases h
  · rw [if_neg ‹_›, if_neg ‹_›]

/-- A settled state stays so where the builder and the lane Q order have nothing to do and the entry in hand, or the front,
asks for what it asked for. -/
theorem settled_of_same {s t : State} (h : Settled s) (k : SameNeeds s t) (hx : t.run.executor = s.run.executor)
    (hr : t.run.reason = s.run.reason) (hp : t.forms.paperRequest = s.forms.paperRequest) (hb : builderStep t = none)
    (hl : t.intake.laneQ = []) (hn : s.run.inHand = none → takeUpStep t = none) : Settled t := by
  obtain ⟨h0, -, -, h3, h4⟩ := (settled_iff s).mp h
  refine settled_of (noFeed_of h0 k.feed) hb (offerStep_nil hl) ?_
    (requestStep_none_of h4 k.inHand hx hr k.paper k.feed hp)
  cases hin : s.run.inHand with
  | none =>
    rw [runStep, k.inHand, hin]
    exact hn hin
  | some x => exact k.runStep_none hin (by rw [hx]) h3

theorem takeUpStep_none {s : State} (h : s.run.executor = .ready → s.carriage.drive.moving = true) :
    takeUpStep s = none := by
  refine if_neg fun ⟨h1, h2⟩ => ?_
  rw [h h1] at h2
  cases h2

/-! ## GO on a queue of pass-only settings -/

/-- Pass parts applied and removed one after another, the queue empty at the end (R57, R164). -/
def drained (ps : List PassPart) (s : State) : State :=
  { s with
    queue := { entries := [], cursor := 0 },
    settings := ps.foldl (fun t p => applyPassSettings p t) s.settings,
    heat := ps.foldl (fun t p => applyThresholds p t) s.heat,
    run := { s.run with causes := s.run.causes ||| Cause.DR.bit } }

/-- Entries that hold nothing but a pass part. -/
def passEntries (ps : List PassPart) : Queue :=
  { entries := ps.map fun p => .settings none (some p), cursor := ps.length }

/-- The first of several pass parts applied and removed. -/
theorem followStep_passPart {p : PassPart} {ps : List PassPart} {s : State} (hx : s.run.executor = .ready)
    (hin : s.run.inHand = none) (hm : s.carriage.drive.moving = false) (hf : feedEnds s = none)
    (hq : s.queue = passEntries (p :: ps)) :
    followStep false s = some (latchIf ps.isEmpty .DR
      { s with
        queue := passEntries ps, settings := applyPassSettings p s.settings, heat := applyThresholds p s.heat }) := by
  refine followStep_of_run hf (builderStep_end (by rw [hq]; simp [passEntries])) ?_
  rw [runStep, hin]
  dsimp only
  rw [takeUpStep, if_pos ⟨hx, hm⟩, show frontIndex s.queue = some 0 by rw [hq]; rfl,
    show frontEntry s.queue = some (.settings none (some p)) by rw [hq]; rfl]
  dsimp only
  have hr : removeAt 0 ((s.updSettings (applyPassSettings p)).updHeat (applyThresholds p)) =
      { s with
        queue := passEntries ps, settings := applyPassSettings p s.settings, heat := applyThresholds p s.heat } := by
    simp only [removeAt, State.updSettings, State.updHeat, State.updBuffers, State.updQueue, hq]
    rfl
  have he : (passEntries ps).entries.isEmpty = ps.isEmpty := by simp [passEntries]
  show some (latchDrained (removeAt 0 _)) = _
  rw [hr, latchDrained, he]

theorem followTo_drained {ps : List PassPart} (hne : ps ≠ []) {s : State} (hx : s.run.executor = .ready)
    (hin : s.run.inHand = none) (hm : s.carriage.drive.moving = false) (hf : feedEnds s = none)
    (hq : s.queue = passEntries ps) : followTo false ps.length s = some (drained ps s) := by
  induction ps generalizing s with
  | nil => exact absurd rfl hne
  | cons p ps ih =>
    have h1 := followStep_passPart hx hin hm hf hq
    cases ps with
    | nil => exact followTo_one h1
    | cons p' ps => exact followTo_succ h1 (ih (by simp) hx hin hm (noFeed_of hf rfl) rfl)

/-- A line's first part with more to follow, offered to an empty queue (R21, R22). -/
theorem offerStep_firstPart {h : LineHeader} {runs : List Byte} {s : State}
    (hq : s.queue = { entries := [], cursor := 0 }) (hl : s.intake.laneQ = [.lineFirst h true runs])
    (hlen : runs.length ≤ 24576) :
    offerStep s = some
      { s with
        intake := { s.intake with laneQ := [] }, queue := { entries := [.line h [runs] .opened], cursor := 0 },
        forms := { s.forms with tearTimer := none } } := by
  have hopen : openTail s.queue = none := by rw [hq]; rfl
  have hroom : s.queue.hasEntry = true ∧ runs.length ≤ s.queue.arenaFree := by
    rw [hq]
    exact ⟨rfl, hlen⟩
  unfold offerStep
  rw [hl]
  dsimp only
  rw [offerRecord, discardOpenTail_none hopen, offerFirst, if_pos hroom]
  simp only [admitEntry, restartTearTimer, appendEntry, State.updForms, State.updQueue, State.updIntake, hq]
  rfl

/-- Settles O24: HALT, GO with nothing after it, and GO that drains the queue up to the first part that waited. -/
theorem haltAndGo : Obligations.HaltAndGo := by
  refine ⟨fun s => ⟨_, rfl, ?_, ?_⟩, fun s => ?go, fun ps h runs s hx hin hm hp hf hne hlen hruns hq hl => ?drains⟩
  · cases hx : s.run.executor <;> simp only [takeHalt, judgeTimers, State.updForms, State.updRun, haltState, hx]
  · refine if_neg ?_
    have : haltState s.run.executor ≠ .ready := by cases s.run.executor <;> decide
    simp [tearTimerDue, this]
  case go =>
    intro gone hset
    have e : takeGo s = finishEvent gone := by
      unfold takeGo
      refine congrArg finishEvent ?_
      simp only [State.updRun, gone]
      cases s.run.executor <;> rfl
    show Host.Outcome.next (takeGo s) = _
    rw [e, finishEvent_settled hset]
  case drains =>
    let u : State := { s with run := { s.run with executor := .ready } }
    have e : takeGo s = finishEvent u := by
      simp only [takeGo, State.updRun, hx]
      rfl
    have hd := followTo_drained hne (s := u) rfl hin hm (noFeed_of hf rfl) hq
    let v : State := drained ps u
    let w : State :=
      { v with
        intake := { s.intake with laneQ := [] }, queue := { entries := [.line h [runs] .opened], cursor := 0 },
        forms := { s.forms with tearTimer := none } }
    have hfv : feedEnds v = none := noFeed_of hf rfl
    have hrun : runStep v = none := by simp [runStep, v, u, drained, hin, takeUpStep, frontIndex]
    have h1 : followStep false v = some w := by
      refine followStep_of_offer hfv (builderStep_end rfl) hrun ?_
      exact offerStep_firstPart rfl hl (by omega)
    let z : State := { w with run := { w.run with executor := .waiting, reason := .notBuilt, inHand := some .notBuilt } }
    have hbw : builderStep w = none := rfl
    have h2 : followStep false w = some z := by
      refine followStep_of_run (noFeed_of hf rfl) hbw ?_
      rw [runStep, show w.run.inHand = none from hin]
      exact takeUpStep_lone (e := .line h [runs] .opened) rfl hm rfl rfl
    have hset : Settled z :=
      settled_inHand (x := .notBuilt) rfl rfl rfl (.inl hp) (noFeed_of hf rfl) rfl rfl
    have hto : followTo false (ps.length + 2) u = some z := followTo_add hd (followTo_succ h1 (followTo_one h2))
    show Host.Outcome.next (takeGo s) = _
    rw [e]
    exact congrArg _ (finishEvent_of_followTo (by omega) hto hset)

/-! ## DROP -/

/-- DROP on the Line Queue (R34, R36, R37, R58, R81). -/
theorem dropEntries_eq {gone kept : List Entry} {s : State} (hg : (s.queue.entries.filter fun e => !e.isActive) = gone)
    (hk : s.queue.entries.filter Entry.isActive = kept) : dropEntries s =
      { s with
        queue := { entries := kept, cursor := kept.length }, buffers := freeBuffersOf gone s.buffers,
        stage := if gone.any (Entry.holdsStage s.stage) then releaseStage s.stage else s.stage,
        run := { s.run with
          causes := if !gone.isEmpty && kept.isEmpty then s.run.causes ||| Cause.DR.bit else s.run.causes } } := by
  subst hg hk
  unfold dropEntries latchIf
  dsimp only [State.updBuffers, State.updQueue]
  by_cases h1 : (s.queue.entries.filter fun e => !e.isActive).any (Entry.holdsStage s.stage) = true <;>
    by_cases h2 : (!(s.queue.entries.filter fun e => !e.isActive).isEmpty &&
      (s.queue.entries.filter Entry.isActive).isEmpty) = true <;> simp only [h1, h2, if_true] <;> rfl

/-- An entry in hand that is no ACTIVE line is left, its request withdrawn, its feed abandoned (R36, R156, R163). -/
theorem dropInHand_left {s : State} {x : InHand} (hin : s.run.inHand = some x) (hx : x.isActive = false) :
    dropInHand s =
      { s with
        forms := { s.forms with feed := abandonedFeed (fun p => p = .advance) s.forms.feed, paperRequest := false },
        run := { s.run with executor := s.run.executor.leaveEntry, reason := .none, inHand := none } } := by
  unfold dropInHand
  rw [hin]
  dsimp only
  rw [hx, if_neg (by decide), abandonFeed_eq]
  rfl

theorem abandonedAdvance_eq (o : Option Feed) : abandonedFeed (fun p => p = .advance) o =
    match o with
    | some f => if f.purpose = .advance then if f.suspended then none else some { f with ending := .abandon } else some f
    | none => none := by
  unfold abandonedFeed
  cases o <;> simp

/-- Settles O25: the entries parted into the ACTIVE and the others, and then the entry in hand. -/
theorem dropRemoves : Obligations.DropRemoves := by
  refine ⟨fun s hno hf => ?noneActive, fun h parts b rest s hq hno hcase => ?active⟩
  case noneActive =>
    intro dropped
    have hg : ∀ u : State, u.queue = s.queue → (u.queue.entries.filter fun e => !e.isActive) = s.queue.entries :=
      fun u hu => by rw [hu]; exact List.filter_eq_self.mpr fun e he => by rw [hno e he]; rfl
    have hk : ∀ u : State, u.queue = s.queue → u.queue.entries.filter Entry.isActive = [] :=
      fun u hu => by rw [hu]; exact List.filter_eq_nil_iff.mpr fun e he => by rw [hno e he]; decide
    have hcauses : (if (!s.queue.entries.isEmpty && ([] : List Entry).isEmpty) = true then s.run.causes ||| Cause.DR.bit
        else s.run.causes) = if s.queue.entries = [] then s.run.causes else s.run.causes ||| Cause.DR.bit := by
      cases s.queue.entries <;> rfl
    refine ⟨fun hin hp => ?_, fun x hin hx => ?_⟩
    · have e : dropEntries (dropInHand (clearIntake s)) = dropped := by
        rw [dropInHand_none (by exact hin), dropEntries_eq (hg (clearIntake s) rfl) (hk (clearIntake s) rfl)]
        simp only [dropped, ← hcauses]
        rfl
      show Host.Outcome.next (finishEvent (dropEntries (dropInHand (clearIntake s)))) = _
      rw [e]
      exact congrArg _ (finishEvent_settled (settled_noWork rfl rfl hin hp (noFeed_of hf rfl)))
    · have hact : x.isActive = false := by rcases hx with rfl | rfl | rfl | rfl <;> rfl
      let left : State :=
        { dropped with
          forms := { s.forms with feed := abandonedFeed (fun p => p = .advance) s.forms.feed, paperRequest := false },
          run := { dropped.run with executor := s.run.executor.leaveEntry, reason := .none, inHand := none } }
      have e : dropEntries (dropInHand (clearIntake s)) = left := by
        have hleft := dropInHand_left (s := clearIntake s) hin hact
        rw [dropEntries_eq (hg _ (by rw [hleft]; rfl)) (hk _ (by rw [hleft]; rfl)), hleft]
        simp only [left, dropped, ← hcauses]
        rfl
      show Host.Outcome.next (finishEvent (dropEntries (dropInHand (clearIntake s)))) = _
      rw [e, finishEvent_settled (settled_noWork rfl rfl rfl rfl (feedEnds_abandoned (s := s) (test := fun p => p = .advance) hf rfl))]
      simp only [left, abandonedAdvance_eq]
      cases s.run.executor <;> rfl
  case active =>
    obtain ⟨x, hin, hact⟩ : ∃ x, s.run.inHand = some x ∧ x.isActive = true := by
      rcases hcase with ⟨⟨last, rs, fd, hin⟩, -⟩ | ⟨hx, -⟩
      · exact ⟨_, hin, rfl⟩
      · exact hx
    let dropped : State :=
      { s with
        intake := { s.intake with laneQ := [], frame := [], frameState := .hunt, timer := false },
        queue := { entries := [.line h parts (.active b)], cursor := 1 },
        buffers := freeBuffersOf rest s.buffers,
        stage := if rest.any (Entry.holdsStage s.stage) then releaseStage s.stage else s.stage }
    have hline : (Entry.line h parts (.active b)).isActive = true := rfl
    have hg : ((clearIntake s).queue.entries.filter fun e => !e.isActive) = rest := by
      show (s.queue.entries.filter fun e => !e.isActive) = rest
      rw [hq, List.filter_cons_of_neg (by rw [hline]; decide)]
      exact List.filter_eq_self.mpr fun e he => by rw [hno e he]; rfl
    have hk : (clearIntake s).queue.entries.filter Entry.isActive = [.line h parts (.active b)] := by
      show s.queue.entries.filter Entry.isActive = _
      rw [hq, List.filter_cons_of_pos hline, List.filter_eq_nil_iff.mpr fun e he => by rw [hno e he]; decide]
    have e : dropEntries (dropInHand (clearIntake s)) = dropped := by
      rw [dropInHand_active (by exact hin) hact, dropEntries_eq hg hk, List.isEmpty_cons, Bool.and_false,
        if_neg (c := false = true) (by decide)]
      rfl
    have hb : builderStep dropped = none := builderStep_lone (e := .line h parts (.active b)) rfl
    have hset : Settled dropped := by
      rcases hcase with ⟨⟨last, rs, fd, hpass⟩, hf, hp⟩ | ⟨-, hset⟩
      · exact settled_passing hpass (.inl hp) (noFeed_of hf rfl) ⟨hb, rfl⟩
      · have hfront : frontEntry dropped.queue = frontEntry s.queue := by
          rw [show frontEntry s.queue = some (.line h parts (.active b)) by simp [frontEntry, hq, Entry.atFront]]
          rfl
        exact settled_of_same hset ⟨rfl, hfront, rfl, rfl, rfl, rfl, rfl⟩ rfl rfl rfl hb rfl
          fun hnone => by cases hin.symm.trans hnone
    show Host.Outcome.next (finishEvent (dropEntries (dropInHand (clearIntake s)))) = _
    rw [e, finishEvent_settled hset]

end Sys2Proof.Machine
end

