-- ==== Sys2Proof/Proofs/Reaching.lean ====
section
/-! PROOFS. An entry alone in the queue comes to rest in a few steps, so that the working out of an event that admits it and
of the event that takes it up end in the same state (R149, R159, log 6). -/

namespace Sys2Proof.Machine

/-- Within `n` steps of what follows nothing follows any more. -/
def Reaches (n : Nat) (s : State) : Prop := ∃ k ≤ n, ∃ t, followTo false k s = some t ∧ Settled t

theorem Reaches.of_settled {n : Nat} {s : State} (h : Settled s) : Reaches n s := ⟨0, Nat.zero_le n, s, rfl, h⟩

theorem Reaches.step {n : Nat} {s t : State} (h : followStep false s = some t) (ht : Reaches n t) : Reaches (n + 1) s := by
  obtain ⟨k, hk, u, hu, hset⟩ := ht
  exact ⟨k + 1, by omega, u, followTo_succ h hu, hset⟩

theorem Reaches.steps {n k : Nat} {s t : State} (h : followTo false k s = some t) (ht : Reaches n t) : Reaches (k + n) s := by
  obtain ⟨j, hj, u, hu, hset⟩ := ht
  exact ⟨k + j, by omega, u, followTo_add h hu, hset⟩

theorem Reaches.mono {m n : Nat} {s : State} (h : Reaches m s) (hmn : m ≤ n) : Reaches n s := by
  obtain ⟨k, hk, h⟩ := h
  exact ⟨k, by omega, h⟩

/-- Some steps into what follows an event, the rest of it is the same. -/
theorem finishEvent_of_reaches {n k : Nat} {s t : State} (h : followTo false k s = some t) (ht : Reaches n t)
    (hn : k + n ≤ 64) : finishEvent s = finishEvent t := by
  obtain ⟨j, hj, u, hu, hset⟩ := ht
  rw [finishEvent_of_followTo (by omega) (followTo_add h hu) hset, finishEvent_of_followTo (by omega) hu hset]

/-! ## An entry in hand that may wait for paper -/

/-- The front entry `e`, alone in the queue with the builder past it, is in hand as `x`. -/
structure Holds (e : Entry) (x : InHand) (s : State) : Prop where
  queue     : s.queue = { entries := [e], cursor := 1 }
  laneQ     : s.intake.laneQ = []
  inHand    : s.run.inHand = some x
  executing : s.run.executor.executing = true

/-- The entries that may wait for paper AT PRINT before their first feed, and how they are in hand. -/
inductive Waiter : Entry → InHand → Prop where
  | form (l z : BitVec 16) : Waiter (.form l z) .marker
  | geometry (d : Byte) (g e : BitVec 16) (r : Byte) : Waiter (.geometry d g e r) .marker
  | advance (mode : Byte) (count : BitVec 16) : Waiter (.advance mode count) (.advance false)

section Waits

variable {e : Entry} {x : InHand} {s : State}

theorem Waiter.atFront (k : Waiter e x) : e.atFront = true := by cases k <;> rfl

theorem Waiter.needsPaper (k : Waiter e x) (h : Holds e x s) : needsPaper s = true := by
  unfold Machine.needsPaper
  rw [h.executing, h.inHand]
  cases k <;> rfl

theorem Holds.runStep (h : Holds e x s) : runStep s = carryOut x s := runStep_inHand h.inHand h.executing

/-- A marker with paper AT PRINT is carried out and removed. -/
theorem reaches_marker (hm : x = .marker) (k : Waiter e x) (h : Holds e x s) (hp : s.forms.paper = .atPrint)
    (hf : feedEnds s = none) (hr : s.forms.paperRequest = false) : Reaches 1 s := by
  have hfront : frontEntry s.queue = some e := frontEntry_lone (by rw [h.queue]) k.atFront
  have done : ∀ t : State, carryOut x s = some (finishEntry t) → t.queue = s.queue → t.intake = s.intake →
      t.forms.paperRequest = s.forms.paperRequest → t.forms.feed = s.forms.feed → Reaches 1 s := by
    intro t ht h1 h2 h3 h4
    exact .step (followStep_carryOut hf (builderStep_lone h.queue) h.inHand h.executing ht)
      (.of_settled (finishEntry_settled (by rw [h1, h.queue]) k.atFront (by rw [h2]; exact h.laneQ) (h3.trans hr)
        (noFeed_of hf h4)))
  cases k with
  | form l z => exact done _ (carryOut_form hfront hp) rfl rfl rfl rfl
  | geometry d g e r =>
    have ht := carryOut_geometry hfront hp
    by_cases hlock : s.run.locked = true
    · rw [applyGeometry_locked d r g e hlock] at ht
      exact done _ ht rfl rfl rfl rfl
    · rw [applyGeometry_unlocked d r g e (Bool.not_eq_true _ ▸ hlock)] at ht
      exact done _ ht rfl rfl rfl rfl
  | advance => cases hm

/-- An advance with paper AT PRINT and no feed in progress begins its feed, or is done. -/
theorem reaches_advance {mode : Byte} {count : BitVec 16} (h : Holds (.advance mode count) (.advance false) s)
    (hp : s.forms.paper = .atPrint) (hf : s.forms.feed = none) (hr : s.forms.paperRequest = false) : Reaches 2 s := by
  have hnone : ∀ g : Forms, g.feed = s.forms.feed → ∀ f, g.feed = some f → f.remaining ≠ 0 := by
    intro g hg f hgf
    rw [hg, hf] at hgf
    cases hgf
  by_cases hmode : mode = 2
  · by_cases ha : (s.forms.length - s.forms.position) % s.forms.length + s.geometry.tearGap = 0
    · exact .steps (n := 0) (advance_tears_none h.queue h.inHand h.executing hp hf hmode ha)
        (.of_settled (settled_leftLone h.laneQ hr (hnone _ rfl)))
    · obtain ⟨-, hreq, -⟩ := begunForward_rest .tearAdvance
        ((s.forms.length - s.forms.position) % s.forms.length + s.geometry.tearGap) s
        { s.forms with paper := .tearing,
                       tearAdvance := some ((s.forms.length - s.forms.position) % s.forms.length + s.geometry.tearGap) }
      exact .step (advance_tears h.queue h.inHand h.executing hp hf hmode rfl ha)
        (.of_settled (settled_advancing h.queue h.laneQ (hreq.trans hr) (begunForward_remains ha)))
  · by_cases hn : (if mode = 1 then (s.forms.length - s.forms.position) % s.forms.length else min 4095 count.toNat) = 0
    · exact .steps (n := 0) (advance_none h.queue h.inHand h.executing hp hf hmode hn)
        (.of_settled (settled_leftLone h.laneQ hr (hnone _ rfl)))
    · obtain ⟨-, hreq, -⟩ := begunForward_rest .advance
        (if mode = 1 then (s.forms.length - s.forms.position) % s.forms.length else min 4095 count.toNat) s s.forms
      exact .step (advance_feeds h.queue h.inHand h.executing hp hf hmode rfl hn)
        (.of_settled (settled_advancing h.queue h.laneQ (hreq.trans hr) (begunForward_remains hn)))

/-- With paper AT PRINT, no feed and no request kept, what is in hand goes on. -/
theorem reaches_free (k : Waiter e x) (h : Holds e x s) (hp : s.forms.paper = .atPrint) (hf : s.forms.feed = none)
    (hr : s.forms.paperRequest = false) : Reaches 2 s := by
  cases k with
  | form l z => exact (reaches_marker rfl (.form l z) h hp (feedEnds_noFeed hf) hr).mono (by decide)
  | geometry d g e r => exact (reaches_marker rfl (.geometry d g e r) h hp (feedEnds_noFeed hf) hr).mono (by decide)
  | advance => exact reaches_advance h hp hf hr

/-- While the paper returns everything in hand waits. -/
theorem carryOut_returning (k : Waiter e x) (h : Holds e x s) (hp : s.forms.paper = .returning) : carryOut x s = none := by
  have hne : s.forms.paper ≠ .atPrint := by rw [hp]; decide
  cases k with
  | form | geometry => exact carryOut_needsPaper (.inl rfl) hne
  | advance mode count =>
    rw [carryOut_advance (frontEntry_lone (by rw [h.queue]) rfl)]
    refine advanceStep_elsewhere (paperFree_elsewhere hne) fun _ => ⟨by rw [hp]; decide, ?_⟩
    unfold tearOffUnderWay
    split <;> simp [hp]

/-- The return from AT TEAR with its request kept: under way, or of no steps and so at its end at once (R149). -/
theorem reaches_return (k : Waiter e x) (h : Holds e x s) (hp : s.forms.paper = .atTear) (hf : s.forms.feed = none) :
    Reaches 3 (beginReturn (asking s)) := by
  have hexec : (asking s).run.executor.executing = true := (executing_asking h.executing).trans h.executing
  by_cases hn : (asking s).forms.tearAdvance.getD 0 = 0
  · let u : State := { asking s with forms :=
      { (asking s).forms with paper := .returning, feed := some (newFeed .return .reverse 0) } }
    have hu : beginReturn (asking s) = u := by
      rw [beginReturn, hn, beginFeed_zero]
      rfl
    have hend : feedEnds u = some (arriveAtPrint u) := by
      rw [feedEnds_some rfl rfl]
      rfl
    rw [hu]
    exact .step (followStep_of_feed hend)
      (reaches_free k (s := arriveAtPrint u) ⟨h.queue, h.laneQ, h.inHand, hexec⟩ rfl rfl rfl)
  · let g : Forms := { (asking s).forms with paper := .returning }
    let u : State :=
      { asking s with forms := begunReverse .return ((asking s).forms.tearAdvance.getD 0) (asking s) g }
    have hu : beginReturn (asking s) = u := by
      rw [beginReturn, beginFeed_reverse hn]
      rfl
    obtain ⟨hpaper, hreq⟩ := begunReverse_rest .return ((asking s).forms.tearAdvance.getD 0) (asking s)
      { (asking s).forms with paper := .returning }
    have hpu : u.forms.paper = .returning := hpaper
    have hreason : u.run.reason = paperReason u.forms.paper := by
      rw [hpu]
      show paperReason s.forms.paper = _
      rw [hp]
      rfl
    have hhold : Holds e x u := ⟨h.queue, h.laneQ, h.inHand, hexec⟩
    rw [hu]
    refine .of_settled (settled_of (feedEnds_begunReverse hn rfl) (builderStep_lone h.queue) (offerStep_nil h.laneQ)
      (hhold.runStep.trans (carryOut_returning k hhold hpu)) ?_)
    rw [requestStep_standing hreason hreq, hpu]
    rfl

/-- What waits with the paper elsewhere asks for it, and from AT TEAR the return follows (R149). -/
theorem reaches_waits (k : Waiter e x) (h : Holds e x s) (hp : s.forms.paper ≠ .atPrint) (hf : feedEnds s = none)
    (hr : s.forms.paperRequest = false) (hc : carryOut x s = none) : Reaches 5 s := by
  have hrun : runStep s = none := h.runStep.trans hc
  have hb : builderStep s = none := builderStep_lone h.queue
  by_cases ht : s.forms.paper = .atTear ∧ s.forms.feed = none
  · obtain ⟨ht, hfeed⟩ := ht
    have hask : requestStep s = some (asking s) := by
      rcases requestStep_asks (k.needsPaper h) hp (fun _ => .inr hr) with hq | hq
      · exact hq
      · have : s.forms.paperRequest = true := (congrArg (fun t => t.forms.paperRequest) hq).symm
        rw [hr] at this
        cases this
    have hrun' : runStep (asking s) = none :=
      (sameNeeds_asking s).runStep_none h.inHand (executing_asking h.executing) hrun
    exact .step (followStep_of_request hf hb hrun (offerStep_nil h.laneQ) hask)
      (.step (followStep_of_request (noFeed_of hf rfl) (builderStep_lone h.queue) hrun' (offerStep_nil h.laneQ)
        (requestStep_returns ht hfeed)) (reaches_return k h ht hfeed))
  · obtain ⟨⟨n, hn, hto⟩, hset⟩ := asks_follows (k.needsPaper h) hp (fun h1 h2 => ht ⟨h1, h2⟩) (fun _ => .inr hr) hrun hf hb
      h.laneQ
    exact (Reaches.steps (n := 0) hto (.of_settled hset)).mono (by omega)

/-- Taken up, it comes to rest. -/
theorem reaches_taken (k : Waiter e x) (h : Holds e x s) (hx : s.run.executor = .running) (hf : feedEnds s = none)
    (hr : s.forms.paperRequest = false) : Reaches 5 s := by
  have hb : builderStep s = none := builderStep_lone h.queue
  by_cases hp : s.forms.paper = .atPrint
  · cases k with
    | form l z => exact (reaches_marker rfl (.form l z) h hp hf hr).mono (by decide)
    | geometry d g e r => exact (reaches_marker rfl (.geometry d g e r) h hp hf hr).mono (by decide)
    | advance mode count =>
      cases hfeed : s.forms.feed with
      | none => exact (reaches_advance h hp hfeed hr).mono (by decide)
      | some f =>
        have hfree : paperFree s = false := by simp [paperFree, hfeed]
        have hwait : ∀ t : State, t.queue = s.queue → t.forms = s.forms → carryOut (.advance false) t = none := by
          intro t h1 h2
          rw [carryOut_advance (frontEntry_lone (by rw [h1, h.queue]) rfl)]
          refine advanceStep_elsewhere (by rw [paperFree, h2]; exact hfree) fun _ => ⟨by rw [h2, hp]; decide, ?_⟩
          rw [h2]
          unfold tearOffUnderWay
          rw [hfeed, hp]
          rfl
        have hrun : runStep s = none := h.runStep.trans (hwait s rfl rfl)
        have hreq := requestStep_atPrint ((Waiter.advance mode count).needsPaper h) hp hr
        by_cases hreason : s.run.reason = .none
        · rw [if_pos hreason] at hreq
          exact .of_settled (settled_of hf hb (offerStep_nil h.laneQ) hrun hreq)
        · rw [if_neg hreason, setWait_executing h.executing, hx] at hreq
          let u : State := { s with run := { s.run with executor := .running, reason := .none } }
          have hu : Holds (.advance mode count) (.advance false) u := ⟨h.queue, h.laneQ, h.inHand, rfl⟩
          have hset : Settled u := settled_of (noFeed_of hf rfl) (builderStep_lone h.queue) (offerStep_nil h.laneQ)
            (hu.runStep.trans (hwait u rfl rfl))
            ((requestStep_atPrint ((Waiter.advance mode count).needsPaper hu) hp hr).trans (if_pos rfl))
          exact Reaches.mono (.step (followStep_of_request hf hb hrun (offerStep_nil h.laneQ) hreq)
            (.of_settled (n := 0) hset)) (by decide)
  · cases hc : carryOut x s with
    | none => exact reaches_waits k h hp hf hr hc
    | some t =>
      have hstep : followStep false s = some t := followStep_carryOut hf hb h.inHand h.executing hc
      cases k with
      | form | geometry =>
        rw [carryOut_needsPaper (.inl rfl) hp] at hc
        cases hc
      | advance mode count =>
        rw [carryOut_advance (frontEntry_lone (by rw [h.queue]) rfl)] at hc
        by_cases hmode : mode = 2
        · rw [advanceModeOf_tear.mpr hmode, advanceStep_tear, if_neg (by rw [paperFree_elsewhere hp]; decide)] at hc
          refine Reaches.mono (.step hstep (.of_settled (n := 0) ?_)) (by decide)
          split at hc
          · cases hc
            exact finishEntry_settled (by rw [h.queue]) rfl h.laneQ hr hf
          split at hc
          · cases hc
            rw [setWait_started (s := s) (g := s.forms) h.executing]
            exact settled_advancing h.queue h.laneQ hr (feedEnds_none.mp hf)
          · cases hc
        · rw [advanceStep_waits count (mt advanceModeOf_tear.mp hmode) (paperFree_elsewhere hp)] at hc
          cases hc

end Waits

/-! ## An entry alone in the queue -/

/-- A commit marker applied leaves all but the tables, the stage and the causes. -/
theorem applyCommit_rest (id : TableId) (page : Nat) (s : State) :
    (applyCommit id page s).queue = s.queue ∧ (applyCommit id page s).intake = s.intake ∧
      (applyCommit id page s).forms = s.forms ∧ (applyCommit id page s).run.inHand = s.run.inHand := by
  refine ⟨applyCommit_queue id page s, ?_⟩
  unfold applyCommit makeLive
  cases id with
  | codeMap | glyphs | strike => exact ⟨rfl, rfl, rfl⟩
  | profile =>
    dsimp only
    split
    · split <;> exact ⟨rfl, rfl, rfl⟩
    · split <;> exact ⟨rfl, rfl, rfl⟩

/-- The only entry removed at once, with nothing in hand, no frame waiting and no request kept: nothing follows. -/
theorem settled_removed {e : Entry} {s : State} (hq : s.queue.entries = [e]) (hl : s.intake.laneQ = [])
    (hin : s.run.inHand = none) (hp : s.forms.paperRequest = false) (hf : feedEnds s = none) :
    Settled (latchDrained (removeAt 0 s)) := by
  rw [removeLone hq]
  exact settled_noWork rfl hl hin hp (noFeed_of hf rfl)

/-- A line that is not built yet. -/
def LineState.unbuilt : LineState → Bool
  | .opened => true
  | .complete => true
  | .building _ => true
  | _ => false

/-- An entry as the builder leaves it when it has just been admitted: a pass part with no build part, a line not built. -/
def Entry.fresh : Entry → Bool
  | .settings build _ => build.isNone
  | .line _ _ st => st.unbuilt
  | _ => true

theorem carryOut_unbuilt {h : LineHeader} {parts : List (List Byte)} {st : LineState} {s : State}
    (hst : st.unbuilt = true) (hq : frontEntry s.queue = some (.line h parts st)) : carryOut .notBuilt s = none := by
  unfold carryOut
  rw [hq]
  cases st with
  | opened | complete | building => rfl
  | built | active => cases hst

theorem takeUp_unbuilt {h : LineHeader} {parts : List (List Byte)} {st : LineState} (s : State) (hst : st.unbuilt = true) :
    takeUp 0 (.line h parts st) s =
      { s with run := { s.run with executor := .waiting, reason := .notBuilt, inHand := some .notBuilt } } := by
  cases st with
  | opened | complete | building => rfl
  | built | active => cases hst

/-- Run Control waits for a line not built yet: nothing follows. -/
theorem settled_notBuilt {h : LineHeader} {parts : List (List Byte)} {st : LineState} {s : State}
    (hst : st.unbuilt = true) (hq : frontEntry s.queue = some (.line h parts st)) (hin : s.run.inHand = some .notBuilt)
    (hb : builderStep s = none) (hl : s.intake.laneQ = []) (hp : s.forms.paperRequest = false) (hf : feedEnds s = none) :
    Settled s :=
  settled_inHand hin (carryOut_unbuilt hst hq) (needsPaper_false hin (by simp)) (.inl hp) hf hb hl

/-- An entry alone in the queue, the builder done with it and nothing in hand, comes to rest. -/
theorem reaches_lone {e : Entry} {s : State} (hq : s.queue.entries = [e]) (hc : s.queue.cursor ≤ 1)
    (hb : builderStep s = none) (hin : s.run.inHand = none) (hl : s.intake.laneQ = []) (hp : s.forms.paperRequest = false)
    (hf : feedEnds s = none) (he : e.atFront = true) (hfresh : e.fresh = true) : Reaches 6 s := by
  by_cases hx : s.run.executor = .ready ∧ s.carriage.drive.moving = false
  · have hstep : followStep false s = some (takeUp 0 e s) := by
      refine followStep_of_run hf hb ?_
      rw [runStep, hin]
      exact takeUpStep_lone hx.1 hx.2 hq he
    refine .step hstep ?_
    have past : builderStep { s with queue := { entries := [e], cursor := 0 } } ≠ none →
        s.queue = { entries := [e], cursor := 1 } := by
      intro hne
      have hcur : s.queue.cursor = 1 := by
        by_contra h1
        have h0 : s.queue.cursor = 0 := by omega
        refine hne ?_
        rw [← h0, ← hq]
        exact hb
      rw [← hq, ← hcur]
    cases e with
    | commit id page =>
      obtain ⟨h1, h2, h3, h4⟩ := applyCommit_rest id page s
      exact .of_settled (settled_removed (by rw [h1, hq]) (by rw [h2, hl]) (h4.trans hin) (by rw [h3, hp])
        (noFeed_of hf (by rw [h3])))
    | settings build pass =>
      cases build with
      | some b => cases hfresh
      | none =>
        cases pass with
        | none => cases he
        | some p =>
          exact .of_settled (settled_removed (s := (s.updSettings _).updHeat _) hq hl hin hp (noFeed_of hf rfl))
    | form l z =>
      exact reaches_taken (.form l z) (s := taken .marker s) ⟨past (by simp [builderStep]), hl, rfl, rfl⟩ rfl
        (noFeed_of hf rfl) hp
    | geometry d g e' r =>
      exact reaches_taken (.geometry d g e' r) (s := taken .marker s) ⟨past (by simp [builderStep]), hl, rfl, rfl⟩ rfl
        (noFeed_of hf rfl) hp
    | advance mode count =>
      exact reaches_taken (.advance mode count) (s := taken (.advance false) s)
        ⟨past (by simp [builderStep]), hl, rfl, rfl⟩ rfl (noFeed_of hf rfl) hp
    | line h parts st =>
      rw [takeUp_unbuilt s hfresh]
      exact .of_settled (settled_notBuilt hfresh (frontEntry_lone (by exact hq) rfl) rfl (builderStep_none_of hb rfl rfl) hl hp
        (noFeed_of hf rfl))
  · refine .of_settled (settled_of hf hb (offerStep_nil hl) ?_ (requestStep_none (needsPaper_none hin) hp))
    rw [runStep, hin]
    exact if_neg hx

end Sys2Proof.Machine
end

