-- ==== Sys2Proof/Proofs/Offers.lean ====
section
/-! PROOFS. A record that joins an empty lane Q order is offered in the same event, and what is left to follow then
(R12, R13, R21 to R25, R28, log 6, log 7). -/

namespace Sys2Proof.Machine

/-- A state into which nothing more than one step leads comes to rest as the state before it does. -/
theorem Reaches.of_step {n : Nat} {s t : State} (h : Reaches n s) (ht : followStep false s = some t) : Reaches n t := by
  obtain ⟨k, hk, u, hu, hset⟩ := h
  cases k with
  | zero =>
    cases hu
    rw [Settled, ht] at hset
    cases hset
  | succ k =>
    unfold followTo at hu
    rw [ht] at hu
    exact ⟨k, by omega, u, hu, hset⟩

/-! ## The lane Q order does not matter to an offer -/

/-- An offer's answer with its state changed. -/
def Offer.map (f : State → State) : Offer → Offer
  | .gone s => .gone (f s)
  | .noRoom s => .noRoom (f s)

/-- The lane Q order holds one frame. -/
def queued (r : QRecord) (s : State) : State := { s with intake := { s.intake with laneQ := [r] } }

theorem discardOpen_queued (r : QRecord) (s : State) : discardOpen (queued r s) = queued r (discardOpen s) := by
  have hr : removeAt (s.queue.entries.length - 1) (queued r s) = queued r (removeAt (s.queue.entries.length - 1) s) := by
    unfold removeAt
    show (match s.queue.entries[s.queue.entries.length - 1]? with | some e => _ | none => _) = _
    cases s.queue.entries[s.queue.entries.length - 1]? <;> rfl
  have hd : ∀ u : State, discardOpen u =
      if frontIndex u.queue = some (u.queue.entries.length - 1) ∧ u.run.inHand = some .notBuilt then
        leaveEntry (latch .SQ (removeAt (u.queue.entries.length - 1) u))
      else latch .SQ (removeAt (u.queue.entries.length - 1) u) := fun _ => rfl
  rw [hd, hd s]
  show (if frontIndex s.queue = some (s.queue.entries.length - 1) ∧ s.run.inHand = some .notBuilt then
      leaveEntry (latch .SQ (removeAt (s.queue.entries.length - 1) (queued r s)))
    else latch .SQ (removeAt (s.queue.entries.length - 1) (queued r s))) = _
  rw [hr]
  split <;> rfl

theorem discardOpenTail_queued (r : QRecord) (s : State) : discardOpenTail (queued r s) = queued r (discardOpenTail s) := by
  unfold discardOpenTail
  rw [discardOpen_queued]
  show (if (openTail s.queue).isSome = true then _ else _) = _
  split <;> rfl

theorem offerEntry_queued (e : Entry) (r : QRecord) (s : State) :
    offerEntry e (queued r s) = (offerEntry e s).map (queued r) := by
  unfold offerEntry
  show (if s.queue.hasEntry = true then _ else _) = _
  split <;> rfl

/-- The answer to an offer does not depend on the lane Q order. -/
theorem offerRecord_queued (q r : QRecord) (s : State) : offerRecord q (queued r s) = (offerRecord q s).map (queued r) := by
  unfold offerRecord
  rw [discardOpenTail_queued]
  generalize discardOpenTail s = d
  cases q with
  | lineFirst h more runs =>
    dsimp only
    unfold offerFirst
    show (if d.queue.hasEntry = true ∧ runs.length ≤ d.queue.arenaFree then _ else _) = _
    split <;> rfl
  | lineCont more runs =>
    dsimp only
    unfold offerContinuation
    rw [discardOpen_queued]
    show (match openTail s.queue with | none => _ | some (h, parts) => _) = _
    cases openTail s.queue with
    | none => rfl
    | some hp =>
      obtain ⟨h, parts⟩ := hp
      show (if maxLineBytes < (parts.map List.length).sum + runs.length then _
        else if s.queue.arenaFree < runs.length then _ else _) = _
      dsimp only
      split
      · rfl
      split <;> rfl
  | advance mode count => exact offerEntry_queued _ r d
  | commit table page =>
    dsimp only
    unfold offerCommit
    show (if d.queue.hasEntry = true then
      match commitMatches table.toNat page.toNat d.stage with | some b => _ | none => _ else _) = _
    split
    · cases commitMatches table.toNat page.toNat d.stage <;> rfl
    · rfl
  | set f =>
    dsimp only
    unfold offerSet
    cases buildPartOf f with
    | none =>
      cases passPartOf f with
      | none => rfl
      | some p => exact offerEntry_queued _ r d
    | some b => exact offerEntry_queued _ r d
  | form l z => exact offerEntry_queued _ r d
  | geometry a g e b => exact offerEntry_queued _ r d

/-! ## Nothing but an offer is left to follow -/

/-- No feed ends, the builder and Run Control have nothing to do, and no frame waits. -/
structure Quiet (s : State) : Prop where
  laneQ   : s.intake.laneQ = []
  feed    : feedEnds s = none
  builder : builderStep s = none
  run     : runStep s = none

theorem Settled.quiet {s : State} (h : Settled s) (hl : s.intake.laneQ = []) : Quiet s := by
  obtain ⟨h0, h1, -, h3, -⟩ := (settled_iff s).mp h
  exact ⟨hl, h0, h1, h3⟩

/-- What Run Control and the Forms Drive go by outside the Line Queue is the same in both states. -/
structure Beside (s t : State) : Prop where
  inHand   : t.run.inHand = s.run.inHand
  executor : t.run.executor = s.run.executor
  reason   : t.run.reason = s.run.reason
  feed     : t.forms.feed = s.forms.feed
  paper    : t.forms.paper = s.forms.paper
  lever    : t.forms.lever = s.forms.lever
  request  : t.forms.paperRequest = s.forms.paperRequest
  drive    : t.carriage.drive = s.carriage.drive
  hold     : t.heat.hold = s.heat.hold

namespace Beside

variable {s t u : State}

theorem refl (s : State) : Beside s s := ⟨rfl, rfl, rfl, rfl, rfl, rfl, rfl, rfl, rfl⟩

theorem trans (h : Beside s t) (k : Beside t u) : Beside s u where
  inHand := k.inHand.trans h.inHand
  executor := k.executor.trans h.executor
  reason := k.reason.trans h.reason
  feed := k.feed.trans h.feed
  paper := k.paper.trans h.paper
  lever := k.lever.trans h.lever
  request := k.request.trans h.request
  drive := k.drive.trans h.drive
  hold := k.hold.trans h.hold

theorem sameNeeds (k : Beside s t) (hf : frontEntry t.queue = frontEntry s.queue) : SameNeeds s t :=
  ⟨k.inHand, hf, k.feed, k.paper, k.lever, k.drive, k.hold⟩

theorem requestStep (k : Beside s t) (h : Machine.requestStep s = none) : Machine.requestStep t = none :=
  requestStep_none_of h k.inHand k.executor k.reason k.paper k.feed k.request

/-- With the same front Run Control goes on having nothing to do, where it does not take an entry up. -/
theorem settled (k : Beside s t) (h : Settled s) (hl : t.intake.laneQ = []) (hb : builderStep t = none)
    (hf : s.run.inHand ≠ none → frontEntry t.queue = frontEntry s.queue)
    (hn : s.run.inHand = none → takeUpStep t = none) : Settled t := by
  obtain ⟨h0, -, -, h3, h4⟩ := (settled_iff s).mp h
  refine settled_of (noFeed_of h0 k.feed) hb (offerStep_nil hl) ?_ (k.requestStep h4)
  cases hin : s.run.inHand with
  | none =>
    rw [runStep, k.inHand, hin]
    exact hn hin
  | some x => exact (k.sameNeeds (hf (by simp [hin]))).runStep_none hin (by rw [k.executor]) h3

/-- An entry is not taken up from a queue with the same front places where none was. -/
theorem takeUpStep (k : Beside s t) (hf : (frontIndex t.queue).isSome = true → (frontEntry t.queue).isSome = true →
    (frontIndex s.queue).isSome = true ∧ (frontEntry s.queue).isSome = true) (h : Machine.takeUpStep s = none) :
    Machine.takeUpStep t = none := by
  unfold Machine.takeUpStep at h ⊢
  rw [k.executor, k.drive]
  split
  · rw [if_pos ‹_›] at h
    split
    · rename_i i e hi he
      obtain ⟨h1, h2⟩ := hf (by simp [hi]) (by simp [he])
      obtain ⟨j, hj⟩ := Option.isSome_iff_exists.mp h1
      obtain ⟨e', he'⟩ := Option.isSome_iff_exists.mp h2
      rw [hj, he'] at h
      cases h
    · rfl
  · rfl

/-- With the same queue Run Control has nothing to do either. -/
theorem runStep (k : Beside s t) (hq : t.queue = s.queue) (h : Machine.runStep s = none) : Machine.runStep t = none := by
  cases hin : s.run.inHand with
  | some x => exact (k.sameNeeds (by rw [hq])).runStep_none hin (by rw [k.executor]) h
  | none =>
    rw [Machine.runStep, hin] at h
    rw [Machine.runStep, k.inHand, hin]
    exact k.takeUpStep (fun h1 h2 => by rw [← hq]; exact ⟨h1, h2⟩) h

theorem settled_sameQueue (k : Beside s t) (h : Settled s) (hl : t.intake.laneQ = []) (hb : builderStep t = none)
    (hq : t.queue = s.queue) : Settled t := by
  obtain ⟨h0, -, -, h3, h4⟩ := (settled_iff s).mp h
  exact settled_of (noFeed_of h0 k.feed) hb (offerStep_nil hl) (k.runStep hq h3) (k.requestStep h4)

end Beside

theorem beside_queued (r : QRecord) (s : State) : Beside s (queued r s) := ⟨rfl, rfl, rfl, rfl, rfl, rfl, rfl, rfl, rfl⟩

/-- The frame that waits is offered, and leaves the lane Q order. -/
theorem Quiet.followStep_gone {s t : State} {r : QRecord} (h : Quiet s) (hr : offerRecord r s = .gone t)
    (hi : t.intake = s.intake) : followStep false (queued r s) = some t := by
  refine followStep_of_offer (noFeed_of h.feed rfl) (builderStep_none_of h.builder rfl rfl) ((beside_queued r s).runStep rfl h.run) ?_
  unfold offerStep
  show (match offerRecord r (queued r s) with | .gone s' => _ | .noRoom s' => _) = _
  rw [offerRecord_queued, hr]
  show some { t with intake := { t.intake with laneQ := [] } } = some t
  have hl : t.intake.laneQ = [] := by rw [hi, h.laneQ]
  rw [← hl]

/-- A frame that finds no room waits (R12). -/
theorem Quiet.settled_noRoom {s t : State} {r : QRecord} (h : Quiet s) (hreq : requestStep s = none)
    (hr : offerRecord r s = .noRoom t) (ho : openTail s.queue = none ∨ r.closesOpen = false) : Settled (queued r s) := by
  refine settled_of (noFeed_of h.feed rfl) (builderStep_none_of h.builder rfl rfl) ?_ ((beside_queued r s).runStep rfl h.run)
    (requestStep_none_of hreq rfl rfl rfl rfl rfl rfl)
  unfold offerStep
  show (match offerRecord r (queued r s) with
    | .gone s' => _
    | .noRoom s' => if r.closesOpen && (openTail s.queue).isSome then some s' else none) = _
  rw [offerRecord_queued, hr]
  show (if r.closesOpen && (openTail s.queue).isSome then some _ else none) = none
  rcases ho with ho | ho <;> simp [ho]

/-- A record's command offers it, where the lane Q order is empty (R12). -/
theorem exec_queued {c : Instr} {r : QRecord} {s : State} (hc : qRecordOfCommand c = some r) (hl : s.intake.laneQ = [])
    (h1 : r.payloadSize ≤ 1024) (h2 : r.frameSize ≤ s.intake.freeSpace) :
    exec c s = .next (finishEvent (queued r s)) := by
  rw [exec_qRecord s hc h1 h2, joinLaneQ, State.updIntake, hl]
  rfl

end Sys2Proof.Machine
end

