-- ==== Sys2Proof/Proofs/Admissions.lean ====
section
/-! PROOFS. Records admitted as entries, and records that wait for one (R12, R21, R22, R25, R27, R28, R56, R57, R147, R159). -/

namespace Sys2Proof.Machine

/-! ## The builder at the last entry -/

/-- Entries that the build cursor passes with nothing done. -/
def Entry.passed : Entry → Bool
  | .advance _ _ => true
  | .form _ _ => true
  | .geometry _ _ _ _ => true
  | .commit .strike _ => true
  | .settings none _ => true
  | _ => false

theorem builderStep_passes {e : Entry} {s : State} (h : s.queue.entries[s.queue.cursor]? = some e) (he : e.passed = true) :
    builderStep s = some (moveCursor s) := by
  unfold builderStep
  dsimp only
  rw [h]
  cases e with
  | commit id page =>
    cases id with
    | strike => rfl
    | codeMap | glyphs | profile => cases he
  | settings b p =>
    cases b with
    | none => rfl
    | some b => cases he
  | line h parts st => cases he
  | advance | form | geometry => rfl

/-- A settings marker with both parts: the build part is applied, the pass part stays (R27, R28). -/
theorem builderStep_bothParts {b : BuildPart} {p : PassPart} {s : State}
    (h : s.queue.entries[s.queue.cursor]? = some (.settings (some b) (some p))) :
    builderStep s = some
      { s with queue := { entries := s.queue.entries.set s.queue.cursor (.settings none (some p)),
                          cursor := s.queue.cursor + 1 },
               settings := applyBuildPart b s.settings } := by
  unfold builderStep
  dsimp only
  rw [h]
  rfl

theorem latchDrained_eq (s : State) : latchDrained s = { s with run := { s.run with
    causes := if s.queue.entries = [] then s.run.causes ||| Cause.DR.bit else s.run.causes } } := by
  unfold latchDrained
  cases s.queue.entries <;> rfl

/-- The last entry removed from under the cursor. -/
theorem removeAt_last {l : List Entry} {e : Entry} {s : State} (h : s.queue = { entries := l ++ [e], cursor := l.length }) :
    removeAt l.length s =
      { s with queue := { entries := l, cursor := l.length }, buffers := freeBufferOf e s.buffers } := by
  have he : s.queue.entries[l.length]? = some e := by
    rw [h]
    simp
  have hl : (l ++ [e]).eraseIdx l.length = l := by
    rw [List.eraseIdx_append_of_length_le (le_refl _)]
    simp
  unfold removeAt
  rw [he]
  show { s with queue := { entries := s.queue.entries.eraseIdx l.length,
                           cursor := if l.length < s.queue.cursor then s.queue.cursor - 1 else s.queue.cursor },
                buffers := freeBufferOf e s.buffers } = _
  rw [h, hl, if_neg (Nat.lt_irrefl _)]

/-! ## A record accepted at once -/

/-- Nothing follows, no frame waits, and the build cursor stands at the end. -/
structure Accepts (s : State) : Prop where
  settled : Settled s
  laneQ   : s.intake.laneQ = []
  cursor  : s.queue.cursor = s.queue.entries.length

theorem accepts_of {s : State} (h : OffersAtOnce s ∨ TakesUpAtOnce s) : Accepts s := by
  rcases h with ⟨hset, hl, hc, -, -⟩ | ⟨-, hin, -, hq, hl, hp, hf⟩
  · exact ⟨hset, hl, hc⟩
  · exact ⟨settled_noWork (by rw [hq]) hl hin hp hf, hl, by rw [hq]; rfl⟩

theorem Accepts.quiet {s : State} (h : Accepts s) : Quiet s := h.settled.quiet h.laneQ

/-- With the same queue and the cursor at its end nothing follows. -/
theorem Accepts.settled_of {s t : State} (h : Accepts s) (k : Beside s t) (hi : t.intake = s.intake)
    (hq : t.queue = s.queue) : Settled t :=
  k.settled_sameQueue h.settled (by rw [hi, h.laneQ])
    (builderStep_end (by rw [hq]; exact List.getElem?_eq_none (by rw [h.cursor]))) hq

theorem frontEntry_append {q : Queue} (l : List Entry) (c : Nat) (h : frontEntry q ≠ none) :
    frontEntry { entries := q.entries ++ l, cursor := c } = frontEntry q := by
  unfold frontEntry at h ⊢
  rw [List.find?_append]
  cases hq : q.entries.find? Entry.atFront with
  | none => exact absurd hq h
  | some e => rfl

/-- Run Control does not act on what joins the queue at its tail. -/
theorem OffersAtOnce.settled_joined {s t : State} {l : List Entry} {c : Nat} (h : OffersAtOnce s) (k : Beside s t)
    (hi : t.intake = s.intake) (hq : t.queue = { entries := s.queue.entries ++ l, cursor := c })
    (hb : builderStep t = none) : Settled t := by
  obtain ⟨hset, hl, -, hm, hfront⟩ := h
  refine k.settled hset (by rw [hi, hl]) hb (fun hin => ?_) fun hin => takeUpStep_none ?_
  · rw [hq]
    exact frontEntry_append l c (hfront hin)
  · rw [k.executor, k.drive]
    exact hm hin

/-- An offered record and the builder's steps behind it are all that happens. -/
theorem exec_accepted {n : Nat} {c : Instr} {r : QRecord} {s t u : State} (h : Accepts s) (hc : qRecordOfCommand c = some r)
    (h1 : r.payloadSize ≤ 1024) (h2 : r.frameSize ≤ s.intake.freeSpace) (hr : offerRecord r s = .gone t)
    (hi : t.intake = s.intake) (hto : followTo false n t = some u) (hn : n < 64) (hset : Settled u) :
    exec c s = .next (judgeTimers u) := by
  rw [exec_queued hc h.laneQ h1 h2]
  exact congrArg _ (finishEvent_of_followTo (by omega) (followTo_succ (h.quiet.followStep_gone hr hi) hto) hset)

/-- In READY with the carriage not moving the entry admitted to an empty queue is taken up in the same event (R159). -/
theorem exec_takenUp {n : Nat} {c : Instr} {r : QRecord} {e : Entry} {s t u : State} (h : TakesUpAtOnce s)
    (hc : qRecordOfCommand c = some r) (h1 : r.payloadSize ≤ 1024) (h2 : r.frameSize ≤ s.intake.freeSpace)
    (hr : offerRecord r s = .gone t) (hi : t.intake = s.intake) (hto : followTo false n t = some u) (hn : n < 57)
    (k : Beside s u) (hiu : u.intake = s.intake) (hq : u.queue.entries = [e]) (hcur : u.queue.cursor ≤ 1)
    (hb : builderStep u = none) (he : e.atFront = true) (hfresh : e.fresh = true) :
    exec c s = exec .takeUpFrontEntry u := by
  have hacc := accepts_of (.inr h)
  obtain ⟨hx, hin, hm, -, hl, hp, hf⟩ := h
  have hxu : u.run.executor = .ready := k.executor.trans hx
  have hmu : u.carriage.drive.moving = false := by rw [k.drive, hm]
  have hinu : u.run.inHand = none := k.inHand.trans hin
  have hreach : Reaches 6 u := reaches_lone hq hcur hb hinu (by rw [hiu, hl]) (k.request.trans hp) (noFeed_of hf k.feed)
    he hfresh
  have htake : followStep false u = some (takeUp 0 e u) := by
    refine followStep_of_run (noFeed_of hf k.feed) hb ?_
    rw [runStep, hinu]
    exact takeUpStep_lone hxu hmu hq he
  rw [exec_queued hc hacc.laneQ h1 h2, exec_takeUp_lone hxu hinu hmu hq he,
    finishEvent_of_reaches (followTo_add (followTo_succ (hacc.quiet.followStep_gone hr hi) hto) (followTo_one htake))
      (hreach.of_step htake) (by omega)]

/-! ## Offers with room -/

section Room

variable {s : State} (ho : openTail s.queue = none) (hroom : s.queue.entries.length < 8)

include hroom in
theorem hasEntry_of : s.queue.hasEntry = true := decide_eq_true hroom

include ho hroom in
theorem offerEntry_admits (e : Entry) : offerEntry e (discardOpenTail s) = .gone (admitEntry e s) := by
  rw [discardOpenTail_none ho]
  exact if_pos (hasEntry_of hroom)

include ho hroom in
theorem offerSet_admits {f : SetFields} (h : ¬(buildPartOf f = none ∧ passPartOf f = none)) :
    offerRecord (.set f) s = .gone (admitEntry (.settings (buildPartOf f) (passPartOf f)) s) := by
  rw [← offerEntry_admits ho hroom]
  show offerSet f (discardOpenTail s) = _
  unfold offerSet
  cases hb : buildPartOf f with
  | none =>
    cases hp : passPartOf f with
    | none => exact absurd ⟨hb, hp⟩ h
    | some p => rfl
  | some b => rfl

include ho in
/-- A SET without a field is accepted without an entry (R25). -/
theorem offerSet_empty {f : SetFields} (hb : buildPartOf f = none) (hp : passPartOf f = none) :
    offerRecord (.set f) s = .gone (restartTearTimer s) := by
  show offerSet f (discardOpenTail s) = _
  rw [discardOpenTail_none ho, offerSet, hb, hp]

end Room

theorem beside_admitEntry (e : Entry) (s : State) : Beside s (admitEntry e s) :=
  ⟨rfl, rfl, rfl, rfl, rfl, rfl, rfl, rfl, rfl⟩

/-- The entry admitted comes under a cursor that stands at the end (R28). -/
theorem admitEntry_underCursor {s : State} (e : Entry) (hc : s.queue.cursor = s.queue.entries.length) :
    (admitEntry e s).queue.entries[(admitEntry e s).queue.cursor]? = some e := by
  show (s.queue.entries ++ [e])[s.queue.cursor]? = some e
  rw [hc]
  simp

/-! ## The length of a SET -/

theorem setSize_le (f : SetFields) : setSize f ≤ 22 := by
  have one : ∀ {α : Type} (o : Option α) (n : Nat), (if o.isSome then n else 0) ≤ n := by
    intro α o n
    split <;> omega
  unfold setSize
  dsimp only
  linarith [one f.tRec 2, one f.qualityFloor 1, one f.substSlot 2, one f.formsClass 1, one f.bidirectional 1,
    one f.alignment 1, one f.flightTime 2, one f.hWarm 3, one f.hHot 3, one f.hLimit 3, one f.tearDelay 1]

/-- A SET that names no field is its presence set alone. -/
theorem setSize_empty {f : SetFields} (hb : buildPartOf f = none) (hp : passPartOf f = none) : setSize f = 2 := by
  unfold buildPartOf at hb
  unfold passPartOf at hp
  dsimp only at hb hp
  split at hb
  · split at hp
    · rename_i h1 h2
      cases f
      simp only [BuildPart.mk.injEq] at h1
      simp only [PassPart.mk.injEq] at h2
      obtain ⟨rfl, rfl, rfl⟩ := h1
      obtain ⟨rfl, rfl, rfl, rfl, rfl, rfl, rfl, rfl⟩ := h2
      rfl
    · cases hp
  · cases hb

/-! ## A record that waits -/

/-- A SET without a field restarts the tear timer, and nothing else (R25). -/
theorem exec_emptySet {f : SetFields} {s : State} (h : Settled s) (hl : s.intake.laneQ = []) (ho : openTail s.queue = none)
    (hb : buildPartOf f = none) (hp : passPartOf f = none) (hfree : 7 ≤ s.intake.freeSpace) :
    exec (.set f) s = .next (judgeTimers { s with forms := { s.forms with tearTimer := none } }) := by
  have hsize := setSize_empty hb hp
  have k : Beside s (restartTearTimer s) := ⟨rfl, rfl, rfl, rfl, rfl, rfl, rfl, rfl, rfl⟩
  have hset : Settled (restartTearTimer s) :=
    k.settled_sameQueue h hl (builderStep_none_of ((settled_iff s).mp h).2.1 rfl rfl) rfl
  rw [exec_queued (r := .set f) rfl hl (by rw [QRecord.payloadSize, hsize]; decide)
    (by rw [QRecord.frameSize, QRecord.payloadSize, hsize]; exact hfree)]
  exact congrArg _ (finishEvent_of_followTo (n := 1) (by decide)
    (followTo_one ((h.quiet hl).followStep_gone (offerSet_empty ho hb hp) rfl)) hset)

/-- With 8 entries in the queue a record that needs one finds no room. -/
theorem offerRecord_full {r : QRecord} {s : State} (hfull : s.queue.entries.length = 8) (ho : openTail s.queue = none)
    (hr : r.closesOpen = true) (hf : ∀ f, r = .set f → ¬(buildPartOf f = none ∧ passPartOf f = none)) :
    offerRecord r s = .noRoom s := by
  have hno : ¬s.queue.hasEntry = true := by simp [Queue.hasEntry, hfull, maxEntries]
  unfold offerRecord
  rw [discardOpenTail_none ho]
  cases r with
  | lineCont => cases hr
  | lineFirst h more runs => exact if_neg fun hand => hno hand.1
  | advance | commit | form | geometry => exact if_neg hno
  | set f =>
    show offerSet f s = _
    unfold offerSet
    cases hb : buildPartOf f with
    | none =>
      cases hp : passPartOf f with
      | none => exact absurd ⟨hb, hp⟩ (hf f rfl)
      | some p => exact if_neg hno
    | some b => exact if_neg hno

/-- Settles O19. -/
theorem recordWaitsForEntry : Obligations.RecordWaitsForEntry := by
  refine ⟨fun c r s hc h hl hfull ho hr hf h1 h2 => ?_, fun f s h hl ho hb hp hfree => exec_emptySet h hl ho hb hp hfree⟩
  have hreq := ((settled_iff s).mp h).2.2.2.2
  rw [exec_queued hc hl h1 h2]
  exact congrArg _ (finishEvent_settled
    ((h.quiet hl).settled_noRoom hreq (offerRecord_full hfull ho hr hf) (.inl ho)))

end Sys2Proof.Machine
end

