-- ==== Sys2Proof/Proofs/Markers.lean ====
section
/-! PROOFS. Markers, settings, commits and first parts admitted (R22, R25, R26, R27, R28, R56, R57, R62, R63, R159, R160). -/

namespace Sys2Proof.Machine

/-! ## Markers -/

/-- A record with a small payload is one of its kind, and finds room in the intake buffer. -/
theorem fits_of {r : QRecord} {s : State} {n : Nat} (h : r.payloadSize ≤ n) (hmax : n ≤ 1024)
    (hfree : 5 + n ≤ s.intake.freeSpace) : r.payloadSize ≤ 1024 ∧ r.frameSize ≤ s.intake.freeSpace := by
  rw [QRecord.frameSize]
  omega

/-- An entry at the tail that the build cursor has passed. -/
def admitted (e : Entry) (s : State) : State :=
  { s with queue := { entries := s.queue.entries ++ [e], cursor := s.queue.entries.length + 1 },
           forms := { s.forms with tearTimer := none } }

theorem builderStep_past {e : Entry} {l : List Entry} {s : State}
    (h : s.queue = { entries := l ++ [e], cursor := l.length + 1 }) : builderStep s = none :=
  builderStep_end (by rw [h]; simp)

/-- The builder passes an entry admitted that it has nothing to do for (R28). -/
theorem followTo_admitted {e : Entry} {s : State} (h : Accepts s) (he : e.passed = true) :
    followTo false 1 (admitEntry e s) = some (admitted e s) := by
  have hb := builderStep_passes (admitEntry_underCursor e h.cursor) he
  have hm : moveCursor (admitEntry e s) = admitted e s := by
    show { s with queue := { entries := s.queue.entries ++ [e], cursor := s.queue.cursor + 1 },
                  forms := { s.forms with tearTimer := none } } = _
    rw [h.cursor]
    rfl
  rw [← hm]
  exact followTo_one (followStep_of_builder (noFeed_of h.quiet.feed rfl) hb)

/-- A record whose entry the builder passes, admitted while Run Control does not act on it. -/
theorem exec_admitted {c : Instr} {r : QRecord} {e : Entry} {s : State} (h : OffersAtOnce s)
    (hc : qRecordOfCommand c = some r) (h1 : r.payloadSize ≤ 1024) (h2 : r.frameSize ≤ s.intake.freeSpace)
    (hr : offerRecord r s = .gone (admitEntry e s)) (he : e.passed = true) :
    exec c s = .next (judgeTimers (admitted e s)) := by
  have hacc := accepts_of (.inl h)
  exact exec_accepted hacc hc h1 h2 hr rfl (followTo_admitted hacc he) (by decide)
    (h.settled_joined (l := [e]) ⟨rfl, rfl, rfl, rfl, rfl, rfl, rfl, rfl, rfl⟩ rfl rfl (builderStep_past rfl))

/-- The entry alone in the queue, the cursor past it. -/
def placed (e : Entry) (s : State) : State :=
  { s with queue := { entries := [e], cursor := 1 }, forms := { s.forms with tearTimer := none } }

/-- A record whose entry the builder passes, admitted and taken up in the same event. -/
theorem exec_placed {c : Instr} {r : QRecord} {e : Entry} {s : State} (h : TakesUpAtOnce s)
    (hc : qRecordOfCommand c = some r) (h1 : r.payloadSize ≤ 1024) (h2 : r.frameSize ≤ s.intake.freeSpace)
    (hr : offerRecord r s = .gone (admitEntry e s)) (he : e.passed = true) (hf : e.atFront = true) (hn : e.fresh = true) :
    exec c s = exec .takeUpFrontEntry (placed e s) := by
  have hacc := accepts_of (.inr h)
  have hq : s.queue = { entries := [], cursor := 0 } := h.2.2.2.1
  have hto := followTo_admitted hacc he
  have hp : admitted e s = placed e s := by
    rw [admitted, hq]
    rfl
  rw [hp] at hto
  exact exec_takenUp h hc h1 h2 hr rfl hto (by decide) ⟨rfl, rfl, rfl, rfl, rfl, rfl, rfl, rfl, rfl⟩ rfl rfl le_rfl
    (builderStep_lone rfl) hf hn

/-! ## Settings -/

/-- What the build part of a SET makes of the settings, where it has one. -/
def builtSettings (f : SetFields) (s : State) : Settings :=
  match buildPartOf f with
  | some b => applyBuildPart b s.settings
  | none => s.settings

/-- The pass part of a SET in its entry, its build part in effect. -/
def admittedSet (f : SetFields) (p : PassPart) (s : State) : State :=
  { admitted (.settings none (some p)) s with settings := builtSettings f s }

/-- The builder puts the build part into effect, and the pass part stays in the entry (R27, R28). -/
theorem followTo_admittedSet {f : SetFields} {p : PassPart} {s : State} (h : Accepts s) :
    followTo false 1 (admitEntry (.settings (buildPartOf f) (some p)) s) = some (admittedSet f p s) := by
  cases hb : buildPartOf f with
  | none =>
    have hset : admittedSet f p s = admitted (.settings none (some p)) s := by
      rw [admittedSet, builtSettings, hb]
      rfl
    rw [hset]
    exact followTo_admitted h rfl
  | some b =>
    have hstep := builderStep_bothParts (admitEntry_underCursor (.settings (some b) (some p)) h.cursor)
    have hlast : (s.queue.entries ++ [Entry.settings (some b) (some p)]).set s.queue.cursor (.settings none (some p)) =
        s.queue.entries ++ [.settings none (some p)] := by
      rw [h.cursor, List.set_append_right _ _ le_rfl, Nat.sub_self]
      rfl
    have hset : admittedSet f p s =
        { admitEntry (.settings (some b) (some p)) s with
          queue := { entries := (s.queue.entries ++ [Entry.settings (some b) (some p)]).set s.queue.cursor
                       (.settings none (some p)),
                     cursor := s.queue.cursor + 1 },
          settings := applyBuildPart b s.settings } := by
      rw [hlast, admittedSet, builtSettings, hb, h.cursor]
      rfl
    rw [hset]
    exact followTo_one (followStep_of_builder (noFeed_of h.quiet.feed rfl) hstep)

/-- A SET with no pass part leaves no entry: the builder puts its build part into effect and removes it (R27, R28, R34). -/
theorem exec_buildSet {f : SetFields} {b : BuildPart} {s : State} (h : Accepts s) (ho : openTail s.queue = none)
    (hroom : s.queue.entries.length < 8) (hfree : 27 ≤ s.intake.freeSpace) (hp : passPartOf f = none)
    (hb : buildPartOf f = some b) : exec (.set f) s = .next (judgeTimers
      { s with settings := applyBuildPart b s.settings,
               run := { s.run with causes :=
                 if s.queue.entries = [] then s.run.causes ||| Cause.DR.bit else s.run.causes },
               forms := { s.forms with tearTimer := none } }) := by
  have hr := offerSet_admits ho hroom (f := f) (by rw [hb]; simp)
  rw [hb, hp] at hr
  let e : Entry := .settings (some b) none
  let u : State := { admitEntry e s with settings := applyBuildPart b s.settings }
  have hq : u.queue = { entries := s.queue.entries ++ [e], cursor := s.queue.entries.length } := by
    show { entries := s.queue.entries ++ [e], cursor := s.queue.cursor : Queue } = _
    rw [h.cursor]
  have hsame : s.queue = { entries := s.queue.entries, cursor := s.queue.entries.length } := by rw [← h.cursor]
  have hstep : builderStep (admitEntry e s) = some (latchDrained (removeAt s.queue.entries.length u)) := by
    unfold builderStep
    dsimp only
    rw [admitEntry_underCursor e h.cursor, ← h.cursor]
    rfl
  have hend : latchDrained (removeAt s.queue.entries.length u) =
      { s with settings := applyBuildPart b s.settings,
               run := { s.run with causes :=
                 if s.queue.entries = [] then s.run.causes ||| Cause.DR.bit else s.run.causes },
               forms := { s.forms with tearTimer := none } } := by
    rw [removeAt_last hq, latchDrained_eq, ← hsame]
    rfl
  rw [hend] at hstep
  obtain ⟨h1, h2⟩ := fits_of (r := .set f) (n := 22) (s := s) (setSize_le f) (by decide) (by omega)
  refine exec_accepted h (r := .set f) rfl h1 h2 hr rfl
    (followTo_one (followStep_of_builder (noFeed_of h.quiet.feed rfl) hstep)) (by decide) ?_
  exact h.settled_of ⟨rfl, rfl, rfl, rfl, rfl, rfl, rfl, rfl, rfl⟩ rfl rfl

/-- Settles O30. -/
theorem markersAdmitted : Obligations.MarkersAdmitted := by
  refine ⟨fun s h hroom ho hfree => ?offers, fun f p s h hroom ho hfree hp => ?set, fun f s h ho hfree hp => ?build,
    fun s h hfree => ?takesUp⟩
  case offers =>
    refine ⟨fun mode count => ?_, fun l z => ?_, fun d g e r => ?_⟩
    · obtain ⟨h1, h2⟩ := fits_of (r := .advance mode count) (n := 3) (s := s) le_rfl (by decide) (by omega)
      exact exec_admitted h rfl h1 h2 (offerEntry_admits ho hroom _) rfl
    · obtain ⟨h1, h2⟩ := fits_of (r := .form l z) (n := 4) (s := s) le_rfl (by decide) (by omega)
      exact exec_admitted h rfl h1 h2 (offerEntry_admits ho hroom _) rfl
    · obtain ⟨h1, h2⟩ := fits_of (r := .geometry d g e r) (n := 6) (s := s) le_rfl (by decide) (by omega)
      exact exec_admitted h rfl h1 h2 (offerEntry_admits ho hroom _) rfl
  case set =>
    obtain ⟨h1, h2⟩ := fits_of (r := .set f) (n := 22) (s := s) (setSize_le f) (by decide) (by omega)
    have hr := offerSet_admits ho hroom (f := f) (by rw [hp]; simp)
    rw [hp] at hr
    have hacc := accepts_of (.inl h)
    exact exec_accepted hacc (r := .set f) rfl h1 h2 hr rfl (followTo_admittedSet hacc) (by decide)
      (h.settled_joined (l := [.settings none (some p)]) (t := admittedSet f p s)
        ⟨rfl, rfl, rfl, rfl, rfl, rfl, rfl, rfl, rfl⟩ rfl rfl (builderStep_past rfl))
  case build =>
    have hacc := accepts_of h
    exact ⟨fun b hb hroom => exec_buildSet hacc ho hroom hfree hp hb,
      fun hb => exec_emptySet hacc.settled hacc.laneQ ho hb hp (by omega)⟩
  case takesUp =>
    have hq : s.queue = { entries := [], cursor := 0 } := h.2.2.2.1
    have ho : openTail s.queue = none := by rw [hq]; rfl
    have hroom : s.queue.entries.length < 8 := by rw [hq]; decide
    refine ⟨fun mode count => ?_, fun l z => ?_, fun d g e r => ?_, fun f p hp => ?_⟩
    · obtain ⟨h1, h2⟩ := fits_of (r := .advance mode count) (n := 3) (s := s) le_rfl (by decide) (by omega)
      exact exec_placed h rfl h1 h2 (offerEntry_admits ho hroom _) rfl rfl rfl
    · obtain ⟨h1, h2⟩ := fits_of (r := .form l z) (n := 4) (s := s) le_rfl (by decide) (by omega)
      exact exec_placed h rfl h1 h2 (offerEntry_admits ho hroom _) rfl rfl rfl
    · obtain ⟨h1, h2⟩ := fits_of (r := .geometry d g e r) (n := 6) (s := s) le_rfl (by decide) (by omega)
      exact exec_placed h rfl h1 h2 (offerEntry_admits ho hroom _) rfl rfl rfl
    · obtain ⟨h1, h2⟩ := fits_of (r := .set f) (n := 22) (s := s) (setSize_le f) (by decide) (by omega)
      have hr := offerSet_admits ho hroom (f := f) (by rw [hp]; simp)
      rw [hp] at hr
      have hto := followTo_admittedSet (f := f) (p := p) (accepts_of (.inr h))
      have he : admittedSet f p s = { placed (.settings none (some p)) s with settings := builtSettings f s } := by
        rw [admittedSet, admitted, hq]
        rfl
      rw [he] at hto
      exact exec_takenUp h (r := .set f) rfl h1 h2 hr rfl hto (by decide) ⟨rfl, rfl, rfl, rfl, rfl, rfl, rfl, rfl, rfl⟩ rfl
        rfl le_rfl (builderStep_lone rfl) rfl rfl

end Sys2Proof.Machine
end

