-- ==== Sys2Proof/Proofs/Commits.lean ====
section
/-! PROOFS. COMMIT judged against the stage, and the first part of a line (R22, R25, R26, R28, R32, R56, R57, R62, R63, R159,
R160). -/

namespace Sys2Proof.Machine

/-! ## Commits -/

section Commit

variable {s : State} (ho : openTail s.queue = none) (hroom : s.queue.entries.length < 8)

include ho hroom in
/-- A COMMIT for a page that the stage is not BOUND to is refused (R56). -/
theorem offerCommit_refused {table : Byte} {page : BitVec 16}
    (h : ∀ b, s.stage = .bound b → ¬(b.table.code = table.toNat ∧ b.page = page.toNat)) :
    offerRecord (.commit table page) s = .gone (latch .TR s) := by
  have hm : commitMatches table.toNat page.toNat s.stage = none := by
    unfold commitMatches
    cases hst : s.stage with
    | empty | held => rfl
    | bound b => exact if_neg (h b hst)
  show offerCommit table.toNat page.toNat (discardOpenTail s) = _
  rw [discardOpenTail_none ho, offerCommit, if_pos (hasEntry_of hroom), hm]

include ho hroom in
/-- A COMMIT for the page that the stage is BOUND to becomes an entry, and the stage is HELD (R56). -/
theorem offerCommit_held {table : Byte} {page : BitVec 16} {b : Binding} (h : s.stage = .bound b)
    (h1 : b.table.code = table.toNat) (h2 : b.page = page.toNat) : offerRecord (.commit table page) s =
      .gone (admitEntry (.commit b.table b.page) { s with stage := .held b }) := by
  have hm : commitMatches table.toNat page.toNat s.stage = some b := by
    rw [h]
    exact if_pos ⟨h1, h2⟩
  show offerCommit table.toNat page.toNat (discardOpenTail s) = _
  rw [discardOpenTail_none ho, offerCommit, if_pos (hasEntry_of hroom), hm]
  rfl

end Commit

/-- A commit marker at the tail, the cursor past a strike commit and at a profile commit. -/
def placedCommit (b : Binding) (s : State) : State :=
  { s with queue := { entries := s.queue.entries ++ [.commit b.table b.page],
                      cursor := s.queue.entries.length + (if b.table = .strike then 1 else 0) },
           stage := .held b,
           forms := { s.forms with tearTimer := none } }

/-- A strike or profile commit waits for the front: the builder passes the one and stops at the other (R28). -/
theorem followTo_placedCommit {b : Binding} {s : State} (h : Accepts s) (hb : b.table = .strike ∨ b.table = .profile) :
    (∃ n ≤ 1, followTo false n (admitEntry (.commit b.table b.page) { s with stage := .held b }) = some (placedCommit b s)) ∧
      builderStep (placedCommit b s) = none := by
  let t : State := { s with stage := .held b }
  have hacc : Accepts t :=
    ⟨h.settled_of ⟨rfl, rfl, rfl, rfl, rfl, rfl, rfl, rfl, rfl⟩ rfl rfl, h.laneQ, h.cursor⟩
  rcases hb with hb | hb
  · have hp : placedCommit b s = admitted (.commit b.table b.page) t := by
      rw [placedCommit, if_pos hb]
      rfl
    rw [hp]
    exact ⟨⟨1, le_rfl, followTo_admitted hacc (by rw [hb]; rfl)⟩, builderStep_past rfl⟩
  · have hp : placedCommit b s = admitEntry (.commit b.table b.page) t := by
      rw [placedCommit, if_neg (by rw [hb]; decide), Nat.add_zero, ← h.cursor]
      rfl
    rw [hp]
    refine ⟨⟨0, Nat.zero_le 1, rfl⟩, ?_⟩
    unfold builderStep
    dsimp only
    rw [admitEntry_underCursor _ hacc.cursor, hb]

/-- A code map or glyph page made live. -/
theorem makeLive_page {b : Binding} (hb : b.table = .codeMap ∨ b.table = .glyphs) (s : State) :
    makeLive b.table b.page b.bytes s = s.updTables (setLivePage b.table b.page
      (if b.table = .codeMap then clampCodeMap b.bytes else clampGlyph b.bytes)) := by
  rcases hb with hb | hb <;> rw [hb] <;> rfl

theorem builderStep_commit {id : TableId} {page : Nat} {s : State}
    (h : s.queue.entries[s.queue.cursor]? = some (.commit id page)) (hid : id = .codeMap ∨ id = .glyphs) :
    builderStep s = some (latchDrained (removeAt s.queue.cursor (applyCommit id page s))) := by
  unfold builderStep
  dsimp only
  rw [h]
  rcases hid with rfl | rfl <;> rfl

/-- A code map or glyph commit is applied by the builder in the same event, and removed (R28, R57). -/
theorem exec_commitApplied {table : Byte} {page : BitVec 16} {b : Binding} {s : State} (h : Accepts s)
    (ho : openTail s.queue = none) (hroom : s.queue.entries.length < 8) (hfree : 8 ≤ s.intake.freeSpace)
    (hst : s.stage = .bound b) (h1 : b.table.code = table.toNat) (h2 : b.page = page.toNat)
    (hb : b.table = .codeMap ∨ b.table = .glyphs) :
    exec (.commit table page) s = .next (judgeTimers
      { s with tables := setLivePage b.table b.page
                 (if b.table = .codeMap then clampCodeMap b.bytes else clampGlyph b.bytes) s.tables,
               stage := .empty,
               run := { s.run with causes :=
                 if s.queue.entries = [] then s.run.causes ||| Cause.DR.bit else s.run.causes },
               forms := { s.forms with tearTimer := none } }) := by
  let e : Entry := .commit b.table b.page
  let a : State := admitEntry e { s with stage := .held b }
  let u : State := applyCommit b.table b.page a
  have hstep : builderStep a = some (latchDrained (removeAt s.queue.entries.length u)) := by
    rw [builderStep_commit (admitEntry_underCursor (s := { s with stage := .held b }) e h.cursor) hb, ← h.cursor]
    rfl
  have hq : u.queue = { entries := s.queue.entries ++ [e], cursor := s.queue.entries.length } := by
    rw [applyCommit_queue, ← h.cursor]
    rfl
  have hsame : s.queue = { entries := s.queue.entries, cursor := s.queue.entries.length } := by rw [← h.cursor]
  have hend : latchDrained (removeAt s.queue.entries.length u) =
      { s with tables := setLivePage b.table b.page
                 (if b.table = .codeMap then clampCodeMap b.bytes else clampGlyph b.bytes) s.tables,
               stage := .empty,
               run := { s.run with causes :=
                 if s.queue.entries = [] then s.run.causes ||| Cause.DR.bit else s.run.causes },
               forms := { s.forms with tearTimer := none } } := by
    rw [removeAt_last hq, latchDrained_eq, ← hsame, show u = _ from applyCommit_held rfl _ _, makeLive_page hb]
    rfl
  rw [hend] at hstep
  obtain ⟨hp1, hp2⟩ := fits_of (r := .commit table page) (n := 3) (s := s) le_rfl (by decide) (by omega)
  refine exec_accepted h (r := .commit table page) rfl hp1 hp2 (offerCommit_held ho hroom hst h1 h2) rfl
    (followTo_one (followStep_of_builder (noFeed_of h.quiet.feed rfl) hstep)) (by decide) ?_
  exact h.settled_of ⟨rfl, rfl, rfl, rfl, rfl, rfl, rfl, rfl, rfl⟩ rfl rfl

/-- Settles O31. -/
theorem commitJudged : Obligations.CommitJudged := by
  intro table page s h hroom ho hfree
  have hacc := accepts_of h
  obtain ⟨hp1, hp2⟩ := fits_of (r := .commit table page) (n := 3) (s := s) le_rfl (by decide) (by omega)
  refine ⟨fun hst => ?refused, fun b hst h1 h2 => ⟨fun hb => ?waits, fun hb => ?applied⟩⟩
  case refused =>
    exact exec_accepted (n := 0) hacc (r := .commit table page) rfl hp1 hp2 (offerCommit_refused ho hroom hst) rfl rfl
      (by decide) (hacc.settled_of ⟨rfl, rfl, rfl, rfl, rfl, rfl, rfl, rfl, rfl⟩ rfl rfl)
  case waits =>
    obtain ⟨⟨n, hn, hto⟩, hstop⟩ := followTo_placedCommit hacc hb
    have hr := offerCommit_held ho hroom hst h1 h2
    refine ⟨fun hoff => ?_, fun htake => ?_⟩
    · exact exec_accepted hacc (r := .commit table page) rfl hp1 hp2 hr rfl hto (by omega)
        (hoff.settled_joined (t := placedCommit b s) ⟨rfl, rfl, rfl, rfl, rfl, rfl, rfl, rfl, rfl⟩ rfl rfl hstop)
    · have hq : s.queue = { entries := [], cursor := 0 } := htake.2.2.2.1
      refine exec_takenUp (u := placedCommit b s) htake (r := .commit table page) rfl hp1 hp2 hr rfl hto (by omega)
        ⟨rfl, rfl, rfl, rfl, rfl, rfl, rfl, rfl, rfl⟩ rfl (e := .commit b.table b.page) ?_ ?_ hstop ?_ rfl
      · rw [placedCommit, hq]
        rfl
      · rw [placedCommit, hq]
        show 0 + (if b.table = .strike then 1 else 0) ≤ 1
        split <;> decide
      · rcases hb with hb | hb <;> rw [hb] <;> rfl
  case applied => exact exec_commitApplied hacc ho hroom hfree hst h1 h2 hb

/-! ## First parts -/

/-- The first part of a line at the tail, under the build cursor. -/
def joinedLine (h : LineHeader) (runs : List Byte) (st : LineState) (bs : Buffers) (s : State) : State :=
  { s with queue := { s.queue with entries := s.queue.entries ++ [.line h [runs] st] },
           buffers := bs,
           forms := { s.forms with tearTimer := none } }

theorem offerFirst_admits {h : LineHeader} {more : Bool} {runs : List Byte} {s : State} (ho : openTail s.queue = none)
    (hroom : s.queue.entries.length < 8) (hfit : runs.length ≤ s.queue.arenaFree) :
    offerRecord (.lineFirst h more runs) s =
      .gone (joinedLine h runs (if more then .opened else .complete) s.buffers s) := by
  show offerFirst h more runs (discardOpenTail s) = _
  rw [discardOpenTail_none ho, offerFirst, if_pos ⟨hasEntry_of hroom, hfit⟩]
  rfl

theorem joinedLine_underCursor {h : LineHeader} {runs : List Byte} {st : LineState} {bs : Buffers} {s : State}
    (hc : s.queue.cursor = s.queue.entries.length) :
    (joinedLine h runs st bs s).queue.entries[(joinedLine h runs st bs s).queue.cursor]? = some (.line h [runs] st) := by
  show (s.queue.entries ++ [Entry.line h [runs] st])[s.queue.cursor]? = _
  rw [hc]
  simp

/-- The line admitted comes to a state that the builder leaves it in, and there it waits for the front, or Run Control for it
(R28, R159, R160). -/
theorem exec_firstPart {n : Nat} {h : LineHeader} {more : Bool} {runs : List Byte} {st : LineState} {bs : Buffers}
    {s : State} (hacc : Accepts s) (ho : openTail s.queue = none) (hroom : s.queue.entries.length < 8)
    (hlen : runs.length ≤ 1015) (hfit : runs.length ≤ s.queue.arenaFree) (hfree : runs.length + 14 ≤ s.intake.freeSpace)
    (hto : followTo false n (joinedLine h runs (if more then .opened else .complete) s.buffers s) =
      some (joinedLine h runs st bs s)) (hn : n ≤ 1) (hb : builderStep (joinedLine h runs st bs s) = none)
    (hst : st.unbuilt = true) :
    (OffersAtOnce s → exec (.lineFirstPart h more runs) s = .next (judgeTimers (joinedLine h runs st bs s))) ∧
    (TakesUpAtOnce s → exec (.lineFirstPart h more runs) s = .next (judgeTimers
      { joinedLine h runs st bs s with
        run := { s.run with executor := .waiting, reason := .notBuilt, inHand := some .notBuilt } })) := by
  obtain ⟨h1, h2⟩ := fits_of (r := .lineFirst h more runs) (n := 9 + runs.length) (s := s) le_rfl (by omega) (by omega)
  have hr := offerFirst_admits (h := h) (more := more) ho hroom hfit
  refine ⟨fun hoff => ?_, fun ⟨hx, hin, hm, hq, hl, hp, hf⟩ => ?_⟩
  · exact exec_accepted hacc (r := .lineFirst h more runs) rfl h1 h2 hr rfl hto (by omega)
      (hoff.settled_joined (t := joinedLine h runs st bs s) ⟨rfl, rfl, rfl, rfl, rfl, rfl, rfl, rfl, rfl⟩ rfl rfl hb)
  · have hlone : (joinedLine h runs st bs s).queue.entries = [.line h [runs] st] := by
      rw [joinedLine, hq]
      rfl
    have hstep : followStep false (joinedLine h runs st bs s) = some
        { joinedLine h runs st bs s with
          run := { s.run with executor := .waiting, reason := .notBuilt, inHand := some .notBuilt } } := by
      refine followStep_of_run (noFeed_of hf rfl) hb ?_
      rw [runStep, show (joinedLine h runs st bs s).run.inHand = none from hin]
      show takeUpStep (joinedLine h runs st bs s) = _
      rw [takeUpStep_lone (by exact hx) (by exact hm) hlone rfl, takeUp_unbuilt _ hst]
      rfl
    refine exec_accepted hacc (r := .lineFirst h more runs) rfl h1 h2 hr rfl (followTo_add hto (followTo_one hstep))
      (by omega) ?_
    exact settled_notBuilt hst (frontEntry_lone (by exact hlone) rfl) rfl (builderStep_none_of hb rfl rfl) hl hp
      (noFeed_of hf rfl)

/-- Settles O32. -/
theorem firstPartAdmitted : Obligations.FirstPartAdmitted := by
  intro h more runs s hs hroom ho hlen hfit hfree
  have hacc := accepts_of hs
  have under : ∀ st bs, (joinedLine h runs st bs s).queue.entries[(joinedLine h runs st bs s).queue.cursor]? =
      some (.line h [runs] st) := fun st bs => joinedLine_underCursor hacc.cursor
  have stops : ∀ st bs, st = .opened ∨ (∃ b, st = .building b) ∨ st = .complete ∧ bs.firstFree = none →
      builderStep (joinedLine h runs st bs s) = none := by
    intro st bs hst
    unfold builderStep
    dsimp only
    rw [under]
    rcases hst with rfl | ⟨b, rfl⟩ | ⟨rfl, hb⟩
    · rfl
    · rfl
    · show (bs.firstFree.map _) = none
      rw [hb]
      rfl
  refine ⟨fun hmore => ?opened, fun hmore hb => ?complete, fun b hmore hb => ?building⟩ <;> subst hmore
  case opened =>
    exact exec_firstPart (n := 0) hacc ho hroom hlen hfit hfree rfl (by decide) (stops _ _ (.inl rfl)) rfl
  case complete =>
    exact exec_firstPart (n := 0) hacc ho hroom hlen hfit hfree rfl (by decide) (stops _ _ (.inr (.inr ⟨rfl, hb⟩))) rfl
  case building =>
    have hlast : (s.queue.entries ++ [Entry.line h [runs] .complete]).set s.queue.cursor (.line h [runs] (.building b)) =
        s.queue.entries ++ [.line h [runs] (.building b)] := by
      rw [hacc.cursor, List.set_append_right _ _ le_rfl, Nat.sub_self]
      rfl
    let bs : Buffers := s.buffers.set b (.filling (readBuildInputs h [runs] s))
    have hstep : builderStep (joinedLine h runs .complete s.buffers s) = some (joinedLine h runs (.building b) bs s) := by
      unfold builderStep
      dsimp only
      rw [under]
      show (s.buffers.firstFree.map fun b' => startBuild s.queue.cursor b' h [runs] (joinedLine h runs .complete s.buffers s)) = _
      rw [hb]
      show some { joinedLine h runs .complete bs s with
        queue := { entries := (s.queue.entries ++ [Entry.line h [runs] .complete]).set s.queue.cursor
                     (.line h [runs] (.building b)),
                   cursor := s.queue.cursor } } = _
      rw [hlast]
      rfl
    exact exec_firstPart (n := 1) (bs := bs) (st := .building b) hacc ho hroom hlen hfit hfree
      (followTo_one (followStep_of_builder (noFeed_of hacc.quiet.feed rfl) hstep)) le_rfl
      (stops _ _ (.inr (.inl ⟨b, rfl⟩))) rfl

end Sys2Proof.Machine
end

