-- ==== Sys2Proof/Proofs/Continuations.lean ====
section
/-! PROOFS. A continuation part judged: discarded, appended to the OPEN line at the tail, or left to wait (R12, R23, R26, R28,
R62, R63). -/

namespace Sys2Proof.Machine

theorem openTail_last {q : Queue} {h : LineHeader} {parts : List (List Byte)} (ho : openTail q = some (h, parts)) :
    ∃ before, q.entries = before ++ [.line h parts .opened] := by
  unfold openTail at ho
  split at ho
  · cases ho
    exact List.getLast?_eq_some_iff.mp ‹_›
  · cases ho

/-! ## The front while the line at the tail grows -/

/-- The line at the tail stays what it is to the front whatever its parts and state. -/
theorem frontEntry_tail (before : List Entry) (h : LineHeader) (parts : List (List Byte)) (st : LineState) (c : Nat) :
    frontEntry { entries := before ++ [.line h parts st], cursor := c } =
      some ((before.find? Entry.atFront).getD (.line h parts st)) := by
  unfold frontEntry
  rw [List.find?_append]
  cases before.find? Entry.atFront <;> rfl

theorem frontIndex_tail (before : List Entry) (h : LineHeader) (parts : List (List Byte)) (st : LineState) (c : Nat) :
    (frontIndex { entries := before ++ [.line h parts st], cursor := c }).isSome = true := by
  unfold frontIndex
  rw [List.findIdx?_isSome, List.any_append]
  exact Bool.or_eq_true_iff.mpr (.inr rfl)

/-- What waits with an OPEN line at the front goes on waiting while the line is not built. -/
theorem carryOut_grown {h : LineHeader} {parts parts' : List (List Byte)} {st : LineState} {x : InHand} {q : Queue}
    {s : State} (hs : frontEntry s.queue = some (.line h parts .opened)) (hq : frontEntry q = some (.line h parts' st))
    (hst : st.unbuilt = true) (hn : carryOut x s = none) : carryOut x { s with queue := q } = none := by
  cases x with
  | notBuilt => exact carryOut_unbuilt hst hq
  | marker | linePass =>
    unfold carryOut
    rw [show frontEntry ({ s with queue := q } : State).queue = _ from hq]
  | advance started =>
    unfold carryOut
    rw [show frontEntry ({ s with queue := q } : State).queue = _ from hq]
    cases started <;> rfl
  | lineFeed started =>
    unfold carryOut at hn ⊢
    rw [show frontEntry ({ s with queue := q } : State).queue = _ from hq]
    rw [hs] at hn
    cases started with
    | true => rfl
    | false =>
      dsimp only at hn ⊢
      split at hn
      · cases hn
      · exact if_neg ‹_›
  | lineDue first n =>
    unfold carryOut at hn ⊢
    rw [show frontEntry ({ s with queue := q } : State).queue = _ from hq]
    rw [hs] at hn
    dsimp only at hn ⊢
    split at hn
    · cases hn
    · exact if_neg ‹_›

/-! ## The OPEN line grown -/

/-- The line at the tail with one part more. -/
def grown (h : LineHeader) (parts : List (List Byte)) (st : LineState) (bs : Buffers) (s : State) : State :=
  { s with queue := { s.queue with entries := s.queue.entries.set (s.queue.entries.length - 1) (.line h parts st) },
           buffers := bs,
           forms := { s.forms with tearTimer := none } }

section Grown

variable {h : LineHeader} {parts parts' : List (List Byte)} {st : LineState} {bs : Buffers} {before : List Entry} {s : State}
  (hq : s.queue.entries = before ++ [.line h parts .opened])

include hq in
theorem grown_queue : (grown h parts' st bs s).queue =
    { entries := before ++ [.line h parts' st], cursor := s.queue.cursor } := by
  show { entries := s.queue.entries.set (s.queue.entries.length - 1) _, cursor := s.queue.cursor : Queue } = _
  rw [hq, List.length_append, List.length_singleton, Nat.add_sub_cancel, List.set_append_right _ _ le_rfl, Nat.sub_self]
  rfl

theorem beside_grown : Beside s (grown h parts' st bs s) := ⟨rfl, rfl, rfl, rfl, rfl, rfl, rfl, rfl, rfl⟩

include hq in
/-- Run Control has nothing to do with the line grown where it had nothing to do before. -/
theorem runStep_grown (hst : st.unbuilt = true) (hrun : runStep s = none) : runStep (grown h parts' st bs s) = none := by
  have hqg := grown_queue (parts' := parts') (st := st) (bs := bs) hq
  have hfront : frontEntry s.queue = some ((before.find? Entry.atFront).getD (.line h parts .opened)) := by
    rw [← frontEntry_tail before h parts .opened s.queue.cursor, ← hq]
  have hfrontg : frontEntry (grown h parts' st bs s).queue =
      some ((before.find? Entry.atFront).getD (.line h parts' st)) := by
    rw [hqg, frontEntry_tail]
  have k : Beside s (grown h parts' st bs s) := beside_grown
  cases hin : s.run.inHand with
  | none =>
    rw [runStep, hin] at hrun
    rw [runStep, k.inHand, hin]
    refine k.takeUpStep (fun _ _ => ⟨?_, by rw [hfront]; rfl⟩) hrun
    rw [← frontIndex_tail before h parts .opened s.queue.cursor, ← hq]
  | some x =>
    cases hf : before.find? Entry.atFront with
    | some e =>
      rw [hf] at hfront hfrontg
      exact (k.sameNeeds (hfrontg.trans hfront.symm)).runStep_none hin rfl hrun
    | none =>
      rw [hf] at hfront hfrontg
      let u : State := { s with queue := (grown h parts' st bs s).queue }
      have hu : runStep u = none := by
        rw [runStep, hin] at hrun
        rw [runStep, show u.run.inHand = some x from hin]
        dsimp only at hrun ⊢
        split at hrun
        · rw [if_pos (by assumption)]
          exact carryOut_grown hfront hfrontg hst hrun
        · exact if_neg ‹_›
      have ku : SameNeeds u (grown h parts' st bs s) := ⟨rfl, rfl, rfl, rfl, rfl, rfl, rfl⟩
      exact ku.runStep_none hin rfl hu

include hq in
/-- The builder has nothing to do with the line grown, unless it is COMPLETE under the cursor and a buffer is FREE. -/
theorem builderStep_grown (hb : builderStep s = none)
    (hst : st = .opened ∨ (∃ b, st = .building b) ∧ s.queue.cursor = before.length ∨
      st = .complete ∧ (bs.firstFree = none ∨ s.queue.cursor ≠ before.length))
    (hbs : s.queue.cursor ≠ before.length → bs = s.buffers) :
    builderStep (grown h parts' st bs s) = none := by
  have hqg := grown_queue (parts' := parts') (st := st) (bs := bs) hq
  by_cases hc : s.queue.cursor = before.length
  · have hat : (grown h parts' st bs s).queue.entries[(grown h parts' st bs s).queue.cursor]? = some (.line h parts' st) := by
      rw [hqg, hc]
      simp
    unfold builderStep
    dsimp only
    rw [hat]
    rcases hst with rfl | ⟨⟨b, rfl⟩, -⟩ | ⟨rfl, hfree⟩
    · rfl
    · rfl
    · rcases hfree with hfree | hne
      · show bs.firstFree.map _ = none
        rw [hfree]
        rfl
      · exact absurd hc hne
  · have hat : (grown h parts' st bs s).queue.entries[(grown h parts' st bs s).queue.cursor]? =
        s.queue.entries[s.queue.cursor]? := by
      rw [hqg, hq]
      rcases Nat.lt_or_gt_of_ne hc with hlt | hgt
      · rw [List.getElem?_append_left hlt, List.getElem?_append_left hlt]
      · rw [List.getElem?_eq_none (by simp; omega), List.getElem?_eq_none (by simp; omega)]
    have hbuf : (grown h parts' st bs s).buffers = s.buffers := hbs hc
    unfold builderStep at hb ⊢
    dsimp only at hb ⊢
    rw [hat, hbuf]
    split at hb <;> simp_all

/-- The build of the line grown starts (R28, R62). -/
theorem startBuild_grown {b : BufId} (hc : s.queue.entries.length - 1 = s.queue.cursor) :
    startBuild s.queue.cursor b h parts (grown h parts .complete s.buffers s) =
      grown h parts (.building b) (s.buffers.set b (.filling (readBuildInputs h parts s))) s := by
  simp only [startBuild, setEntry, grown, State.updQueue, State.updBuffers, hc, List.set_set]
  rfl

include hq in
/-- With the line grown nothing follows. -/
theorem settled_grown (hset : Settled s) (hl : s.intake.laneQ = []) (hst : st.unbuilt = true)
    (hb : builderStep (grown h parts' st bs s) = none) : Settled (grown h parts' st bs s) := by
  obtain ⟨h0, -, -, h3, h4⟩ := (settled_iff s).mp hset
  exact settled_of (noFeed_of h0 rfl) hb (offerStep_nil hl) (runStep_grown hq hst h3) (beside_grown.requestStep h4)

end Grown

/-! ## The offer -/

theorem offerContinuation_appends {h : LineHeader} {parts : List (List Byte)} {more : Bool} {runs : List Byte} {s : State}
    (ho : openTail s.queue = some (h, parts)) (hlen : (parts.map List.length).sum + runs.length ≤ 12288)
    (hfit : runs.length ≤ s.queue.arenaFree) : offerRecord (.lineCont more runs) s =
      .gone (grown h (parts ++ [runs]) (if more then .opened else .complete) s.buffers s) := by
  show offerContinuation more runs s = _
  rw [offerContinuation, ho]
  dsimp only
  rw [if_neg (show ¬maxLineBytes < _ from Nat.not_lt.mpr hlen), if_neg (Nat.not_lt.mpr hfit)]
  rfl

theorem offerContinuation_waits {h : LineHeader} {parts : List (List Byte)} {more : Bool} {runs : List Byte} {s : State}
    (ho : openTail s.queue = some (h, parts)) (hlen : (parts.map List.length).sum + runs.length ≤ 12288)
    (hfit : s.queue.arenaFree < runs.length) : offerRecord (.lineCont more runs) s = .noRoom s := by
  show offerContinuation more runs s = _
  rw [offerContinuation, ho]
  dsimp only
  rw [if_neg (show ¬maxLineBytes < _ from Nat.not_lt.mpr hlen), if_pos hfit]

/-- Settles O33. -/
theorem continuationJudged : Obligations.ContinuationJudged := by
  intro more runs s hset hl hlen hfree
  have hquiet := hset.quiet hl
  obtain ⟨h1, h2⟩ := fits_of (r := .lineCont more runs) (n := 9 + runs.length) (s := s) le_rfl (by omega) (by omega)
  have run : ∀ {n : Nat} {t u : State}, n ≤ 1 → offerRecord (.lineCont more runs) s = .gone t → t.intake = s.intake →
      followTo false n t = some u → Settled u → exec (.lineContinuation more runs) s = .next (judgeTimers u) := by
    intro n t u hn hr hi hto hu
    rw [exec_queued (r := .lineCont more runs) rfl hl h1 h2]
    exact congrArg _ (finishEvent_of_followTo (by omega) (followTo_succ (hquiet.followStep_gone hr hi) hto) hu)
  refine ⟨fun ho => ?discarded, fun h parts ho hmax => ?atTail⟩
  case discarded =>
    have hr : offerRecord (.lineCont more runs) s = .gone (latch .SQ s) := by
      show offerContinuation more runs s = _
      rw [offerContinuation, ho]
    have k : Beside s (latch .SQ s) := ⟨rfl, rfl, rfl, rfl, rfl, rfl, rfl, rfl, rfl⟩
    exact run (n := 0) (by decide) hr rfl rfl
      (k.settled_sameQueue hset hl (builderStep_none_of hquiet.builder rfl rfl) rfl)
  case atTail =>
    obtain ⟨before, hq⟩ := openTail_last ho
    have hcount : s.queue.entries.length = before.length + 1 := by rw [hq, List.length_append, List.length_singleton]
    have stops : ∀ {st : LineState}, st = .opened ∨ st = .complete ∧ (s.buffers.firstFree = none ∨
        s.queue.cursor ≠ before.length) → builderStep (grown h (parts ++ [runs]) st s.buffers s) = none := by
      intro st hst
      refine builderStep_grown hq hquiet.builder ?_ fun _ => rfl
      rcases hst with hst | hst
      · exact .inl hst
      · exact .inr (.inr hst)
    refine ⟨fun hfit hmore => ?opened, fun hfit hmore hstop => ?complete, fun b hfit hmore hb hc => ?building,
      fun hfit => ?waits⟩
    case opened =>
      subst hmore
      exact run (n := 0) (by decide) (offerContinuation_appends ho hmax hfit) rfl rfl
        (settled_grown hq hset hl rfl (stops (.inl rfl)))
    case complete =>
      subst hmore
      refine run (n := 0) (by decide) (offerContinuation_appends ho hmax hfit) rfl rfl
        (settled_grown hq hset hl rfl (stops (.inr ⟨rfl, ?_⟩)))
      rcases hstop with hb | hc
      · exact .inl hb
      · exact .inr (by omega)
    case building =>
      subst hmore
      have hcur : s.queue.cursor = before.length := by omega
      have hq1 := grown_queue (parts' := parts ++ [runs]) (st := .complete) (bs := s.buffers) hq
      let bs : Buffers := s.buffers.set b (.filling (readBuildInputs h (parts ++ [runs]) s))
      have hstep : builderStep (grown h (parts ++ [runs]) .complete s.buffers s) =
          some (grown h (parts ++ [runs]) (.building b) bs s) := by
        have hat : (grown h (parts ++ [runs]) .complete s.buffers s).queue.entries[
            (grown h (parts ++ [runs]) .complete s.buffers s).queue.cursor]? = some (.line h (parts ++ [runs]) .complete) := by
          rw [hq1, hcur]
          simp
        unfold builderStep
        dsimp only
        rw [hat]
        show (s.buffers.firstFree.map fun b' => startBuild s.queue.cursor b' h (parts ++ [runs])
          (grown h (parts ++ [runs]) .complete s.buffers s)) = _
        rw [hb]
        exact congrArg some (startBuild_grown (by omega))
      exact run (n := 1) le_rfl (offerContinuation_appends ho hmax hfit) rfl
        (followTo_one (followStep_of_builder (noFeed_of hquiet.feed rfl) hstep))
        (settled_grown (st := .building b) (bs := bs) hq hset hl rfl
          (builderStep_grown hq hquiet.builder (.inr (.inl ⟨⟨b, rfl⟩, hcur⟩)) fun hne => absurd hcur hne))
    case waits =>
      rw [exec_queued (r := .lineCont more runs) rfl hl h1 h2]
      exact congrArg _ (finishEvent_settled (hquiet.settled_noRoom ((settled_iff s).mp hset).2.2.2.2
        (offerContinuation_waits ho hmax hfit) (.inr rfl)))

end Sys2Proof.Machine
end

