-- ==== Sys2Proof/Proofs/SequenceFaults.lean ====
section
/-! PROOFS. The OPEN line at the tail discarded, and the record that does so judged as if it had never been there (R23, R24,
R34, R160). -/

namespace Sys2Proof.Machine

/-! ## What an offer and the builder make of a queue -/

/-- An entry as a record makes it. -/
def Entry.offered : Entry → Bool
  | .line _ _ .opened => true
  | .line _ _ .complete => true
  | .line _ _ _ => false
  | .settings build pass => build.isSome || pass.isSome
  | _ => true

/-- A record accepted: at most one entry joins the queue, and Run Control finds what it found before. -/
structure Offered (s t : State) : Prop where
  beside : Beside s t
  intake : t.intake = s.intake
  queue  : t.queue = s.queue ∨ ∃ e, e.offered = true ∧ t.queue = { s.queue with entries := s.queue.entries ++ [e] }

theorem Offered.of_admitted {e : Entry} (he : e.offered = true) (s : State) : Offered s (admitEntry e s) :=
  ⟨beside_admitEntry e s, rfl, .inr ⟨e, he, rfl⟩⟩

theorem Offered.of_sameQueue {s t : State} (k : Beside s t) (hi : t.intake = s.intake) (hq : t.queue = s.queue) :
    Offered s t := ⟨k, hi, .inl hq⟩

/-- What an offer answers: the record is accepted, or it waits with nothing changed. -/
def Offer.Fair (s : State) : Offer → Prop
  | .gone t => Offered s t
  | .noRoom t => t = s

theorem offerEntry_fair {e : Entry} (he : e.offered = true) (s : State) : (offerEntry e s).Fair s := by
  unfold offerEntry
  split
  · exact Offered.of_admitted he s
  · exact rfl

theorem offerRecord_fair {r : QRecord} {s : State} (hr : r.closesOpen = true) (ho : openTail s.queue = none) :
    (offerRecord r s).Fair s := by
  unfold offerRecord
  rw [discardOpenTail_none ho]
  cases r with
  | lineCont => cases hr
  | lineFirst h more runs =>
    dsimp only
    unfold offerFirst
    split
    · exact Offered.of_admitted (by cases more <;> rfl) s
    · exact rfl
  | advance | form | geometry => exact offerEntry_fair rfl s
  | commit table page =>
    dsimp only
    unfold offerCommit
    split
    · split
      · rename_i b hb
        obtain ⟨k, hi, hq⟩ := Offered.of_admitted (e := .commit b.table b.page) rfl (s.setStage (.held b))
        exact ⟨⟨rfl, rfl, rfl, rfl, rfl, rfl, rfl, rfl, rfl⟩, hi, hq⟩
      · exact Offered.of_sameQueue ⟨rfl, rfl, rfl, rfl, rfl, rfl, rfl, rfl, rfl⟩ rfl rfl
    · exact rfl
  | set f =>
    show (offerSet f s).Fair s
    unfold offerSet
    cases hb : buildPartOf f with
    | none =>
      cases hp : passPartOf f with
      | none => exact Offered.of_sameQueue ⟨rfl, rfl, rfl, rfl, rfl, rfl, rfl, rfl, rfl⟩ rfl rfl
      | some p => exact offerEntry_fair rfl s
    | some b => exact offerEntry_fair rfl s

/-- The builder has nothing left to do at the end of a queue that held the entries `l` and one more: that one is gone, or
waits for the front. -/
structure DoneWith (l : List Entry) (s t : State) : Prop where
  stops  : builderStep t = none
  beside : Beside s t
  intake : t.intake = s.intake
  queue  : t.queue.entries = l ∨ ∃ e, e.atFront = true ∧ e.fresh = true ∧ t.queue.entries = l ++ [e] ∧
    t.queue.cursor ≤ l.length + 1

section Last

variable {e : Entry} {l : List Entry} {s : State}

theorem lastEntry_underCursor (hq : s.queue = { entries := l ++ [e], cursor := l.length }) :
    s.queue.entries[s.queue.cursor]? = some e := by
  rw [hq]
  simp

theorem lastEntry_set (hq : s.queue = { entries := l ++ [e], cursor := l.length }) (e' : Entry) :
    s.queue.entries.set s.queue.cursor e' = l ++ [e'] := by
  rw [hq, List.set_append_right _ _ le_rfl, Nat.sub_self]
  rfl

theorem moveCursor_doneWith (hq : s.queue = { entries := l ++ [e], cursor := l.length }) (h1 : e.atFront = true)
    (h2 : e.fresh = true) : DoneWith l s (moveCursor s) := by
  have hm : (moveCursor s).queue = { entries := l ++ [e], cursor := l.length + 1 } := by
    show { entries := s.queue.entries, cursor := s.queue.cursor + 1 : Queue } = _
    rw [hq]
  exact ⟨builderStep_past hm, ⟨rfl, rfl, rfl, rfl, rfl, rfl, rfl, rfl, rfl⟩, rfl,
    .inr ⟨e, h1, h2, by rw [hm], by rw [hm]⟩⟩

theorem removed_doneWith {u : State} (hq : s.queue = { entries := l ++ [e], cursor := l.length }) (hqu : u.queue = s.queue)
    (hi : u.intake = s.intake) (k : Beside s u) : DoneWith l s (latchDrained (removeAt s.queue.cursor u)) := by
  have hrem : removeAt s.queue.cursor u =
      { u with queue := { entries := l, cursor := l.length }, buffers := freeBufferOf e u.buffers } := by
    rw [← removeAt_last (hqu.trans hq), hq]
  rw [hrem, latchDrained_eq]
  exact ⟨builderStep_end (List.getElem?_eq_none le_rfl),
    ⟨k.inHand, k.executor, k.reason, k.feed, k.paper, k.lever, k.request, k.drive, k.hold⟩, hi, .inl rfl⟩

end Last

/-- The builder at the last entry: it stops there, or after one step it is done with it. -/
theorem builderStep_last {e : Entry} {l : List Entry} {s : State} (hq : s.queue = { entries := l ++ [e], cursor := l.length })
    (he : e.offered = true) : builderStep s = none ∧ e.atFront = true ∧ e.fresh = true ∨
      ∃ t, builderStep s = some t ∧ DoneWith l s t := by
  have hat := lastEntry_underCursor hq
  have passes : e.passed = true → e.atFront = true → e.fresh = true → ∃ t, builderStep s = some t ∧ DoneWith l s t :=
    fun hpass hfront hfresh => ⟨moveCursor s, builderStep_passes hat hpass, moveCursor_doneWith hq hfront hfresh⟩
  cases e with
  | advance | form | geometry => exact .inr (passes rfl rfl rfl)
  | commit id page =>
    cases id with
    | strike => exact .inr (passes rfl rfl rfl)
    | profile =>
      refine .inl ⟨?_, rfl, rfl⟩
      unfold builderStep
      dsimp only
      rw [hat]
    | codeMap | glyphs =>
      exact .inr ⟨_, builderStep_commit hat (by simp), removed_doneWith hq (applyCommit_queue _ page s)
        (applyCommit_rest _ page s).2.1 ⟨rfl, rfl, rfl, rfl, rfl, rfl, rfl, rfl, rfl⟩⟩
  | settings build pass =>
    cases build with
    | none =>
      cases pass with
      | none => cases he
      | some p => exact .inr (passes rfl rfl rfl)
    | some b =>
      cases pass with
      | none =>
        refine .inr ⟨_, ?_, removed_doneWith (u := s.updSettings (applyBuildPart b)) hq rfl rfl
          ⟨rfl, rfl, rfl, rfl, rfl, rfl, rfl, rfl, rfl⟩⟩
        unfold builderStep
        dsimp only
        rw [hat]
      | some p =>
        refine .inr ⟨_, builderStep_bothParts hat, ?_⟩
        rw [lastEntry_set hq, hq]
        exact ⟨builderStep_past rfl, ⟨rfl, rfl, rfl, rfl, rfl, rfl, rfl, rfl, rfl⟩, rfl, .inr ⟨_, rfl, rfl, rfl, le_rfl⟩⟩
  | line h parts st =>
    cases st with
    | building | built | active => cases he
    | opened =>
      refine .inl ⟨?_, rfl, rfl⟩
      unfold builderStep
      dsimp only
      rw [hat]
    | complete =>
      have hb : builderStep s = s.buffers.firstFree.map fun b => startBuild s.queue.cursor b h parts s := by
        unfold builderStep
        dsimp only
        rw [hat]
      cases hfree : s.buffers.firstFree with
      | none => exact .inl ⟨by rw [hb, hfree]; rfl, rfl, rfl⟩
      | some b =>
        refine .inr ⟨startBuild s.queue.cursor b h parts s, by rw [hb, hfree]; rfl, ?_,
          ⟨rfl, rfl, rfl, rfl, rfl, rfl, rfl, rfl, rfl⟩, rfl,
          .inr ⟨.line h parts (.building b), rfl, rfl, lastEntry_set hq _, ?_⟩⟩
        · have hat' : (startBuild s.queue.cursor b h parts s).queue.entries[
              (startBuild s.queue.cursor b h parts s).queue.cursor]? = some (.line h parts (.building b)) := by
            show (s.queue.entries.set s.queue.cursor _)[s.queue.cursor]? = _
            rw [lastEntry_set hq, hq]
            simp
          unfold builderStep
          dsimp only
          rw [hat']
        · show s.queue.cursor ≤ _
          rw [hq]
          exact Nat.le_succ _

/-! ## A record that discards the OPEN line -/

/-- A record that discards the OPEN line at the tail has the effect that it has without it. -/
theorem exec_discards {c : Instr} {r : QRecord} {s d : State} (hc : qRecordOfCommand c = some r) (hr : r.closesOpen = true)
    (hopen : (openTail s.queue).isSome = true) (hd : discardOpenTail s = d) (ho : openTail d.queue = none) (hs : Quiet s)
    (hq : Quiet d) (hreq : requestStep d = none) (hi : d.intake = s.intake) (h1 : r.payloadSize ≤ 1024)
    (hfree : 1029 ≤ s.intake.freeSpace) (hreach : ∀ t, Offered d t → Reaches 60 t) : exec c s = exec c d := by
  have hsame : offerRecord r s = offerRecord r d := by
    unfold offerRecord
    rw [hd, discardOpenTail_none ho]
    cases r with
    | lineCont => cases hr
    | _ => rfl
  have h2 : r.frameSize ≤ s.intake.freeSpace := by
    rw [QRecord.frameSize]
    omega
  have hfair := offerRecord_fair hr ho
  rw [exec_queued hc hs.laneQ h1 h2, exec_queued hc hq.laneQ h1 (by rw [hi]; exact h2)]
  cases hans : offerRecord r d with
  | gone t =>
    rw [hans] at hfair
    have hreacht := hreach t hfair
    rw [finishEvent_of_reaches (followTo_one (hq.followStep_gone hans hfair.intake)) hreacht (by decide),
      finishEvent_of_reaches (followTo_one (hs.followStep_gone (hsame.trans hans) (hfair.intake.trans hi))) hreacht (by decide)]
  | noRoom t =>
    rw [hans] at hfair
    have ht : t = d := hfair
    subst ht
    have hset : Settled (queued r t) := hq.settled_noRoom hreq hans (.inl ho)
    have hstep : followStep false (queued r s) = some (queued r t) := by
      refine followStep_of_offer (noFeed_of hs.feed rfl) (builderStep_none_of hs.builder rfl rfl)
        ((beside_queued r s).runStep rfl hs.run) ?_
      unfold offerStep
      show (match offerRecord r (queued r s) with
        | .gone s' => _
        | .noRoom s' => if r.closesOpen && (openTail s.queue).isSome then some s' else none) = _
      rw [offerRecord_queued, hsame, hans]
      show (if r.closesOpen && (openTail s.queue).isSome then some _ else none) = _
      rw [hr, hopen]
      rfl
    rw [finishEvent_of_reaches (followTo_one hstep) (.of_settled (n := 0) hset) (by decide)]

/-- The OPEN line at the tail removed, SQ latched (R23, R24). -/
def withoutOpen (before : List Entry) (s : State) : State :=
  { s with queue := { entries := before, cursor := before.length },
           run := { s.run with causes := s.run.causes ||| Cause.SQ.bit } }

section Discard

variable {h : LineHeader} {parts : List (List Byte)} {before : List Entry} {s : State}

theorem openTail_append (q : Queue) (hq : q.entries = before ++ [.line h parts .opened]) :
    openTail q = some (h, parts) := by
  simp [openTail, hq]

theorem discardOpen_eq (hq : s.queue = { entries := before ++ [.line h parts .opened], cursor := before.length }) :
    discardOpen s = if frontIndex s.queue = some before.length ∧ s.run.inHand = some .notBuilt then
      leaveEntry (withoutOpen before s) else withoutOpen before s := by
  have hlen : s.queue.entries.length - 1 = before.length := by
    rw [hq, List.length_append, List.length_singleton, Nat.add_sub_cancel]
  have hrem : latch .SQ (removeAt before.length s) = withoutOpen before s := by
    rw [removeAt_last hq]
    rfl
  rw [← hrem, ← hlen]
  rfl

theorem discardOpenTail_some (ho : (openTail s.queue).isSome = true) : discardOpenTail s = discardOpen s := if_pos ho

theorem offerContinuation_overlong {more : Bool} {runs : List Byte} (ho : openTail s.queue = some (h, parts))
    (hlen : 12288 < (parts.map List.length).sum + runs.length) :
    offerRecord (.lineCont more runs) s = .gone (discardOpen s) := by
  show offerContinuation more runs s = _
  rw [offerContinuation, ho]
  exact if_pos hlen

end Discard

/-- A continuation part that is refused with a whole next state at rest. -/
theorem exec_overlong {more : Bool} {runs : List Byte} {h : LineHeader} {parts : List (List Byte)} {s d : State}
    (hs : Quiet s) (ho : openTail s.queue = some (h, parts)) (hd : discardOpen s = d) (hi : d.intake = s.intake)
    (hset : Settled d) (hfree : 1029 ≤ s.intake.freeSpace) (hruns : runs.length ≤ 1015)
    (hlen : 12288 < (parts.map List.length).sum + runs.length) :
    exec (.lineContinuation more runs) s = .next (judgeTimers d) := by
  obtain ⟨h1, h2⟩ := fits_of (r := .lineCont more runs) (n := 9 + runs.length) (s := s) le_rfl (by omega) (by omega)
  rw [exec_queued (r := .lineCont more runs) rfl hs.laneQ h1 h2]
  exact congrArg _ (finishEvent_of_followTo (n := 1) (by decide)
    (followTo_one (hs.followStep_gone ((offerContinuation_overlong ho hlen).trans (by rw [hd])) hi)) hset)

/-- Every record but a continuation part closes an OPEN line. -/
theorem closesOpen_of {r : QRecord} (h : ∀ m rs, r ≠ .lineCont m rs) : r.closesOpen = true := by
  cases r with
  | lineCont m rs => exact absurd rfl (h m rs)
  | _ => rfl

/-- Settles O34. -/
theorem openLineDiscarded : Obligations.OpenLineDiscarded := by
  refine ⟨fun h parts before s hrest hf hl hq hroom hcur hfree => ?atRest, fun h parts s hin hx hf hl hp hq hfree => ?awaited⟩
  case atRest =>
    have hqueue : s.queue = { entries := before ++ [.line h parts .opened], cursor := before.length } := by
      rw [← hq, ← hcur]
    have hopen : openTail s.queue = some (h, parts) := openTail_append s.queue hq
    have hstop : builderStep s = none := by
      have hat : s.queue.entries[s.queue.cursor]? = some (.line h parts .opened) := by
        rw [hqueue]
        simp
      unfold builderStep
      dsimp only
      rw [hat]
    have hquiet : Quiet s := ⟨hl, hf, hstop, (rest_quiet hrest).1⟩
    have hd : discardOpen s = withoutOpen before s := by
      rw [discardOpen_eq hqueue, if_neg]
      rintro ⟨-, hin⟩
      rw [hrest.1] at hin
      cases hin
    have hsetd : Settled (withoutOpen before s) :=
      settled_rest hrest hf rfl rfl rfl rfl (builderStep_end (List.getElem?_eq_none le_rfl)) hl
    have rests : ∀ t, Beside s t → t.intake = s.intake → builderStep t = none → Settled t := fun t k hi hb =>
      settled_rest hrest hf k.feed k.inHand k.executor k.request hb (by rw [hi, hl])
    refine ⟨fun more runs hruns hlen => exec_overlong hquiet hopen hd rfl hsetd hfree hruns hlen,
      fun ho c r hc hr h1 => ?_, fun mode count => ?_⟩
    · refine exec_discards hc (closesOpen_of hr) (by rw [hopen]; rfl)
        ((discardOpenTail_some (by rw [hopen]; rfl)).trans hd) ho hquiet (hsetd.quiet hl)
        ((settled_iff _).mp hsetd).2.2.2.2 rfl h1 hfree fun t ht => ?_
      have kd : Beside s (withoutOpen before s) := ⟨rfl, rfl, rfl, rfl, rfl, rfl, rfl, rfl, rfl⟩
      have kt : Beside s t := kd.trans ht.beside
      rcases ht.queue with hqt | ⟨e, he, hqt⟩
      · exact .of_settled (rests t kt ht.intake (builderStep_end (by rw [hqt]; exact List.getElem?_eq_none le_rfl)))
      · rcases builderStep_last hqt he with ⟨hb, -, -⟩ | ⟨u, hu, hb, ku, hi, -⟩
        · exact .of_settled (rests t kt ht.intake hb)
        · exact Reaches.mono (.step (followStep_of_builder (noFeed_of hf kt.feed) hu)
            (.of_settled (n := 0) (rests u (kt.trans ku) (hi.trans ht.intake) hb))) (by decide)
    · obtain ⟨h1, h2⟩ := fits_of (r := .advance mode count) (n := 3) (s := s) le_rfl (by decide) (by omega)
      have hacc : Accepts (withoutOpen before s) := ⟨hsetd, hl, rfl⟩
      have hans : offerRecord (.advance mode count) s = .gone (admitEntry (.advance mode count) (withoutOpen before s)) := by
        show offerEntry _ (discardOpenTail s) = _
        rw [discardOpenTail_some (by rw [hopen]; rfl), hd]
        exact if_pos (hasEntry_of (s := withoutOpen before s) hroom)
      rw [exec_queued (r := .advance mode count) rfl hl h1 h2]
      exact congrArg _ (finishEvent_of_followTo (n := 2) (by decide)
        (followTo_succ (hquiet.followStep_gone hans rfl) (followTo_admitted hacc rfl))
        (rests (admitted (.advance mode count) (withoutOpen before s)) ⟨rfl, rfl, rfl, rfl, rfl, rfl, rfl, rfl, rfl⟩ rfl
          (builderStep_past rfl)))
  case awaited =>
    have hexec := executing_of_waits hx
    have hopen : openTail s.queue = some (h, parts) := openTail_append (before := []) s.queue (by rw [hq]; rfl)
    have hfront : frontEntry s.queue = some (.line h parts .opened) := frontEntry_lone (by rw [hq]) rfl
    have hquiet : Quiet s := by
      refine ⟨hl, hf, ?_, ?_⟩
      · unfold builderStep
        rw [hq]
        rfl
      · rw [runStep_inHand hin hexec]
        exact carryOut_unbuilt rfl hfront
    intro given
    have hd : discardOpen s = given := by
      rw [discardOpen_eq (before := []) hq, if_pos ⟨frontIndex_lone (by rw [hq]) rfl, hin⟩]
      show { withoutOpen [] s with run := { (withoutOpen [] s).run with
        executor := s.run.executor.leaveEntry, reason := .none, inHand := none } } = given
      rw [leaveEntry_executing hexec]
      rfl
    have hsetd : Settled given := settled_noWork rfl hl rfl hp (noFeed_of hf rfl)
    refine ⟨fun more runs hruns hlen => exec_overlong hquiet hopen hd rfl hsetd hfree hruns hlen, fun c r hc hr h1 => ?_⟩
    refine exec_discards hc (closesOpen_of hr) (by rw [hopen]; rfl)
      ((discardOpenTail_some (by rw [hopen]; rfl)).trans hd) rfl hquiet (hsetd.quiet hl)
      ((settled_iff _).mp hsetd).2.2.2.2 rfl h1 hfree fun t ht => ?_
    have lone : ∀ (e : Entry) (u : State), Beside given u → u.intake = given.intake → builderStep u = none →
        u.queue.entries = [e] → u.queue.cursor ≤ 1 → e.atFront = true → e.fresh = true → Reaches 6 u :=
      fun e u k hi hb hqu hcu hfr hfresh =>
        reaches_lone hqu hcu hb k.inHand (by rw [hi]; exact hl) (k.request.trans hp) (noFeed_of hf k.feed) hfr hfresh
    rcases ht.queue with hqt | ⟨e, he, hqt⟩
    · exact .of_settled (settled_noWork (by rw [hqt]) (by rw [ht.intake]; exact hl) ht.beside.inHand
        (ht.beside.request.trans hp) (noFeed_of hf ht.beside.feed))
    · rcases builderStep_last (l := []) hqt he with ⟨hb, hfr, hfresh⟩ | ⟨u, hu, hb, ku, hi, hqu⟩
      · exact (lone e t ht.beside ht.intake hb (by rw [hqt]; rfl) (by rw [hqt]; exact Nat.zero_le 1) hfr hfresh).mono (by decide)
      · have kt := ht.beside.trans ku
        refine Reaches.mono (.step (n := 6) (followStep_of_builder (noFeed_of hf ht.beside.feed) hu) ?_) (by decide)
        rcases hqu with hqu | ⟨e', hfr, hfresh, hqu, hcu⟩
        · exact .of_settled (settled_noWork hqu (by rw [hi, ht.intake]; exact hl) kt.inHand (kt.request.trans hp)
            (noFeed_of hf kt.feed))
        · exact lone e' u kt (hi.trans ht.intake) hb hqu hcu hfr hfresh

end Sys2Proof.Machine
end

