-- ==== Sys2Proof/Proofs/BuildEndings.lean ====
section
/-! PROOFS. The end of a build, the entry behind it, and the line that Run Control waits for (R26, R28, R32, R62, R78, R79,
R145, R160). -/

namespace Sys2Proof.Machine

/-- A build ended: the image in its buffer, the line BUILT, the counts and the causes, the cursor at the next entry
(R78, R79). -/
def buildEnded (h : LineHeader) (parts : List (List Byte)) (b : BufId) (r : BuildResult) (s : State) : State :=
  let cl := if r.clipped = 0 then s.run.causes else s.run.causes ||| Cause.CL.bit
  { s with
    queue := { entries := s.queue.entries.set s.queue.cursor (.line h parts (.built b)),
               cursor := s.queue.cursor + 1 },
    buffers := s.buffers.set b (.ready r.image),
    builder := { clipped := min 65535 (s.builder.clipped + r.clipped),
                 suppressed := min 65535 (s.builder.suppressed + r.suppressed) },
    run := { s.run with causes := if r.suppressed = 0 then cl else cl ||| Cause.DS.bit } }

/-- A cause latched where a count is not zero (R78). -/
theorem latchIf_counted (n : Nat) (c : Cause) (s : State) : latchIf (n != 0) c s = { s with run := { s.run with
    causes := if n = 0 then s.run.causes else s.run.causes ||| c.bit } } := by
  cases n <;> rfl

section Ended

variable {h : LineHeader} {parts : List (List Byte)} {b : BufId} {s : State}

theorem endBuild_eq (r : BuildResult) : endBuild h parts b r s = buildEnded h parts b r s := by
  simp only [endBuild, latchIf_counted]
  rfl

/-- BUILD_END with a build in progress. -/
theorem exec_buildEnd {inp : BuildInputs} (hb : buildInProgress s = some (h, parts, b, inp)) :
    exec .buildEnd s = .next (finishEvent (buildEnded h parts b (buildResult inp) s)) := by
  show execBuildEnd s = _
  rw [execBuildEnd, hb]
  show Host.Outcome.next (finishEvent (endBuild h parts b (buildResult inp) s)) = _
  rw [endBuild_eq]

/-- The entry behind the line built is what it was. -/
theorem buildEnded_next (r : BuildResult) :
    (buildEnded h parts b r s).queue.entries[(buildEnded h parts b r s).queue.cursor]? =
      s.queue.entries[s.queue.cursor + 1]? :=
  List.getElem?_set_ne (Nat.succ_ne_self s.queue.cursor).symm

theorem buildEnded_beside (r : BuildResult) : Beside s (buildEnded h parts b r s) :=
  ⟨rfl, rfl, rfl, rfl, rfl, rfl, rfl, rfl, rfl⟩

end Ended

/-- At rest the builder alone goes on: one step that leaves it stopped is all that follows. -/
theorem finishEvent_builds {s t : State} (h : RunAtRest s) (hf : NoFeedEnds s) (hl : s.intake.laneQ = [])
    (hb : builderStep s = some t) (k : Beside s t) (hi : t.intake = s.intake) (ht : builderStep t = none) :
    finishEvent s = judgeTimers t :=
  finishEvent_of_followTo (n := 1) (by decide) (followTo_one (followStep_of_builder hf hb))
    (settled_rest h hf k.feed k.inHand k.executor k.request ht (by rw [hi, hl]))

/-- The builder starts the build of a COMPLETE line under the cursor in a FREE buffer, and stops (R28, R62). -/
theorem builderStep_starts {h : LineHeader} {parts : List (List Byte)} {b : BufId} {s : State}
    (hat : s.queue.entries[s.queue.cursor]? = some (.line h parts .complete)) (hb : s.buffers.firstFree = some b) :
    builderStep s = some (startBuild s.queue.cursor b h parts s) ∧
      builderStep (startBuild s.queue.cursor b h parts s) = none := by
  constructor
  · unfold builderStep
    dsimp only
    rw [hat, hb]
    rfl
  · have hlt : s.queue.cursor < s.queue.entries.length := (List.getElem?_eq_some_iff.mp hat).1
    have hat' : (startBuild s.queue.cursor b h parts s).queue.entries[(startBuild s.queue.cursor b h parts s).queue.cursor]? =
        some (.line h parts (.building b)) := List.getElem?_set_self hlt
    unfold builderStep
    dsimp only
    rw [hat']

/-- What Run Control makes of the line that it waited for. -/
theorem finishEvent_activated {n : Nat} {h : LineHeader} {parts : List (List Byte)} {b : BufId} {img : Image} {s t : State}
    (hin : s.run.inHand = some .notBuilt) (he : s.run.executor.executing = true)
    (hq : s.queue = { entries := [.line h parts (.built b)], cursor := 1 }) (hg : s.buffers.get b = .ready img)
    (hf : NoFeedEnds s) (hto : followTo false n (activated h parts b img s) = some t) (hn : n < 64) (ht : Settled t) :
    finishEvent s = judgeTimers t :=
  finishEvent_of_followTo (by omega) (followTo_succ (followStep_activates hin he hq hg hf) hto) ht

/-- Settles O36. -/
theorem buildEnds : Obligations.BuildEnds := by
  intro h parts b inp s hbuild hf hl r cl ended
  have hexec : exec .buildEnd s = .next (finishEvent ended) := exec_buildEnd hbuild
  rw [hexec]
  refine ⟨fun hrest => ?rest, fun hq hin hx hp hfeed => ?awaited⟩
  case rest =>
    have hrest' : RunAtRest ended := rest_of hrest rfl rfl rfl
    have next : ∀ e, s.queue.entries[s.queue.cursor + 1]? = some e →
        ended.queue.entries[ended.queue.cursor]? = some e := fun e he => (buildEnded_next r).trans he
    refine ⟨fun hb => congrArg _ (finishEvent_settled (settled_rest hrest' (noFeed_of hf rfl) rfl rfl rfl rfl hb hl)),
      fun e he hlen hmark => ?marker, fun h2 parts2 b2 he hfree => ?line⟩
    case marker =>
      have hpass : e.passed = true := by
        rcases hmark with ⟨mode, count, rfl⟩ | ⟨l, z, rfl⟩ | ⟨d, g, e', q, rfl⟩ <;> rfl
      have hcur : moveCursor ended = { ended with queue := { ended.queue with cursor := s.queue.entries.length } } := by
        rw [← hlen]
        rfl
      have hend : builderStep (moveCursor ended) = none := by
        refine builderStep_end (List.getElem?_eq_none ?_)
        show (s.queue.entries.set s.queue.cursor _).length ≤ s.queue.cursor + 1 + 1
        rw [List.length_set]
        omega
      rw [← hcur]
      exact congrArg _ (finishEvent_builds hrest' (noFeed_of hf rfl) hl (builderStep_passes (next e he) hpass)
        ⟨rfl, rfl, rfl, rfl, rfl, rfl, rfl, rfl, rfl⟩ rfl hend)
    case line =>
      obtain ⟨h1, h2⟩ := builderStep_starts (next _ he) hfree
      exact congrArg _ (finishEvent_builds hrest' (noFeed_of hf rfl) hl h1
        ⟨rfl, rfl, rfl, rfl, rfl, rfl, rfl, rfl, rfl⟩ rfl h2)
  case awaited =>
    have he := executing_of_waits hx
    have hqe : ended.queue = { entries := [.line h parts (.built b)], cursor := 1 } := by
      show { entries := s.queue.entries.set s.queue.cursor _, cursor := s.queue.cursor + 1 : Queue } = _
      rw [hq]
      rfl
    have hg : ended.buffers.get b = .ready r.image := Buffers.get_set_self _ _ _
    have ends : ∀ (n : Nat) (t : State), n < 64 → followTo false n (activated h parts b r.image ended) = some t →
        Settled t → finishEvent ended = judgeTimers t := fun n t hn hto ht =>
      finishEvent_activated hin he hqe hg (noFeed_of hf rfl) hto hn ht
    have hb : builderStep (activated h parts b r.image ended) = none :=
      builderStep_lone (e := .line h parts (.active b)) rfl
    have hset : (s.buffers.set b (.ready r.image)).set b (.inUse r.image) = s.buffers.set b (.inUse r.image) :=
      Buffers.set_set _ _ _ _
    refine ⟨fun hext hlever => ?lever, fun p hext hlever hcar hskip htrack hband => ?starts, fun hext h0 => ?feeds,
      fun hext h0 => ?ends⟩
    case lever =>
      have h1 := followStep_atLever (s := activated h parts b r.image ended) hb (inHand_activated_dark hext)
        executing_activated rfl (Option.some_ne_none h) hp hfeed hlever
      rw [ends 1 _ (by decide) (followTo_one h1)
        (settled_atLever (s := activated h parts b r.image ended) hp hfeed hlever hb hl)]
      rcases hx with hx | hx <;> simp only [atLever, activated, ended, hx, hset] <;> rfl
    case starts =>
      have h1 := followStep_starts (s := activated h parts b r.image ended) (hd := h) (img := r.image) (p := p) hb
        (inHand_activated_dark hext) executing_activated rfl hp hfeed hlever hcar
        (by rintro ⟨-, hk⟩; exact absurd (hskip.symm.trans hk) (by decide)) htrack hband rfl activeImage_activated
      rw [ends 1 _ (by decide) (followTo_one h1) (settled_startedPass hp hfeed (builderStep_none_of hb rfl rfl) hl)]
      rcases hx with hx | hx <;> simp only [startedPass, activated, ended, hx, hset] <;> rfl
    case feeds =>
      have h1 := followStep_lineFeeds hb (inHand_activated_blank hext) executing_activated rfl hp hfeed h0
      obtain ⟨hpaper, -⟩ := begunForward_rest .afterLine (min 4095 h.feedAfter.toNat) s s.forms
      rw [ends 1 _ (by decide) (followTo_one h1) (settled_lineFeeding hb hl (.inr (by
        intro htear
        exact absurd (hp.symm.trans (hpaper.symm.trans htear)) (by decide))) (begunForward_remains (feedAfter_pos h0)))]
      rcases hx with hx | hx <;> simp only [lineFeeding, activated, ended, hx, hset] <;> rfl
    case ends =>
      have h1 := followTo_lineFeedNone (inHand_activated_blank hext) executing_activated
        (show (activated h parts b r.image ended).queue = _ from rfl) hp hfeed h0
      rw [ends 2 _ (by decide) h1 (settled_leftLine hl (.inr (by
        rw [show (activated h parts b r.image ended).forms.paper = .atPrint from hp]
        decide)) hfeed)]
      rcases hx with hx | hx <;> simp only [leftLine, leftLone, activated, Buffers.set_set, ended, hx] <;> rfl

end Sys2Proof.Machine
end
